-- ==== Sys2Proof/Word.lean ====
section
/-! DEFINITION. The words of the W440: a byte, a local time, a session number, and the eight-entry and sixteen-entry
numbering of stations and nodes (00_scope.md, "Conventions"). -/

namespace Sys2Proof

/-- One byte of a frame or of the configuration image. -/
abbrev Byte := BitVec 8

/-- A local time in microseconds, modulo 2^32 (00_scope.md, "Time"). -/
abbrev Time := BitVec 32

/-- A session number, or a store index: both count modulo 65,536 (R121, R168). -/
abbrev Word16 := BitVec 16

/-- The set of causes as a mask: the cause of priority k is bit k − 1 (R184). -/
abbrev CauseMask := BitVec 9

end Sys2Proof
end

