-- ==== Sys2Proof/Syntax.lean ====
section
/-! DEFINITION. The commands of the W440, one constructor per row of spec/opcode_table.json, with the operands the
surroundings supply. `t` is always the local time at which the step is taken (assumption log 1). -/

namespace Sys2Proof

/-- The two ends of the platform (00_scope.md, "Track geometry"). -/
inductive PlatformEnd where
  | a
  | b
deriving DecidableEq, Repr

/-- The two heads of one end: head 1 is the outer head, head 2 the inner one. -/
inductive HeadNo where
  | outer
  | inner
deriving DecidableEq, Repr

/-- The four strap pins as sampled; true is the high level (R191). -/
structure Straps where
  stn2 : Bool
  stn1 : Bool
  stn0 : Bool
  rate : Bool
deriving DecidableEq, Repr

/-- What the I2C read of the configuration image meets (R192): the memory never acknowledges its address, or it gives
these bytes, in order from its first, before it stops acknowledging. -/
inductive ImageRead where
  | noAcknowledge
  | bytes (given : List Byte)
deriving DecidableEq, Repr

/-- A frame as a receiver reads it from the line, field by field, check included (R86). `whole` is false when the frame
breaks off before its check ends (R96). -/
structure LineFrame where
  cls     : BitVec 2
  node    : BitVec 4
  kind    : BitVec 4
  seq     : Byte
  stamp   : Time
  target  : BitVec 4
  length  : BitVec 7
  payload : List Byte
  check   : Word16
  whole   : Bool
deriving DecidableEq, Repr

/-- The fields between arbitration and the ack slot, in which a sender can read a bit other than the one it drives (R90). -/
inductive FrameField where
  | kind
  | sequence
  | stamp
  | target
  | length
  | payload
  | check
deriving DecidableEq, Repr

/-- How an attempt ends on the line (R90): broken off at a first mismatch, or carried through to the ack and hold slots
with the levels read there (true is dominant). -/
inductive AttemptResult where
  | mismatch (field : FrameField)
  | slots (ack hold : Bool)
deriving DecidableEq, Repr

/-- The commands of the block: the rows of the operation table. -/
inductive Instr where
  | fullReset
  | resetRelease (straps : Straps)
  | imageReadDone (t : Time) (image : ImageRead)
  | instant (t : Time) (r0 r1 r2 r3 : BitVec 24)
  | headEdge (t : Time) (e : PlatformEnd) (h : HeadNo)
  | halfExpiry (t : Time) (e : PlatformEnd)
  | beforeWindowDue (t : Time) (k : Nat)
  | afterWindowDue (t : Time) (k : Nat)
  | timelineRemoval (t : Time)
  | frameStart (t : Time) (idleBits : Nat)
  | arbitrationLost (t : Time)
  | attemptEnd (t : Time) (result : AttemptResult)
  | bulkBackoffEnd (t : Time)
  | probeTimerExpiry (t : Time)
  | frameReceived (t start : Time) (frame : LineFrame)
  | hailDispatch (t : Time)
  | openDispatch (t : Time)
  | crossDispatch (t : Time)
  | shutDispatch (t : Time)
  | stepDispatch (t : Time)
  | tallyReplyDispatch (t : Time)
  | fetchNext (t : Time)
  | fetch (t : Time)
  | fetchWagon (t : Time)
  | seek (t : Time)
  | summary (t : Time)
  | conditions (t : Time)
  | clear (t : Time)
  | restart (t : Time) (straps : Straps)
  | askUnknown (t : Time)
  | hailTimer (t : Time)
  | silenceExpiry (t : Time) (station : BitVec 3)
  | haltExpiry (t : Time)
  | haltedTimeTick (t : Time)
  | closeExpiry (t : Time)
  | drainLimit (t : Time)
  | deadlineReached (t : Time) (ordinal : Word16)
deriving DecidableEq, Repr

end Sys2Proof
end

