-- ==== Sys2Proof/Decode.lean ====
section
/-! DEFINITION. The decoder of table words. No row of spec/opcode_table.json gives a command any bits (their "fields" are
empty and none has "fixed"): the commands are events, not words. So no word spells a command. -/

namespace Sys2Proof

/-- The command a table word spells: none, for every word, since the table gives no row bits. -/
def decodeTableWord (_nbits _w : Nat) : Option Instr := none

end Sys2Proof
end

