-- ==== Sys2Proof/Config.lean ====
section
/-! DEFINITION. The values the manual leaves open, as constants without a body (assumption log 7 and 9): nothing can be
proved of them, so every claim holds whatever they are. -/

namespace Sys2Proof

/-- DESIGN CHOICE (log 7). Whether an OPEN frame whose direction byte is neither 0 (UP) nor 1 (DOWN) is taken as DOWN.
R103 leaves an out-of-range value to the receiving block, and the Session Controller's chapter does not say. -/
opaque Config.strayDirectionIsDown : Byte → Bool

/-- DESIGN CHOICE (log 9). The three-byte gross field of a record whose gross does not fit a signed 24-bit number. -/
opaque Config.unstorableGross : Int → BitVec 24

end Sys2Proof
end

