-- ==== Sys2Proof/Machine/State.lean ====
section
/-! DEFINITION. The state of the W440, block by block, as plain data, and the state under full reset. -/

namespace Sys2Proof.Machine

open Sys2Proof

/-! ### Names the manual writes in capitals -/

/-- The station states of 11. -/
inductive StationState where
  | loading
  | configFault
  | settling
  | ready
deriving DecidableEq, Repr

/-- The nine causes, in priority order (Figure 10-2). -/
inductive Cause where
  | config
  | line
  | saturate
  | head
  | slip
  | zero
  | overrun
  | late
  | layout
deriving DecidableEq, Repr

/-- The line states of the SLC (R95). -/
inductive LineState where
  | active
  | listen
  | muted
  | configFault
deriving DecidableEq, Repr

/-- The session states (7.1). -/
inductive SessionState where
  | idle
  | running
  | halted
  | draining
deriving DecidableEq, Repr

/-- Direction of travel: UP is from end A toward end B (00_scope.md). -/
inductive Direction where
  | up
  | down
deriving DecidableEq, Repr

/-- A crossing is inward (outer head first) or outward (inner head first), R21. -/
inductive CrossingKind where
  | inward
  | outward
deriving DecidableEq, Repr

/-- The four platform event kinds (R40). -/
inductive EventKind where
  | normalEntry
  | normalExit
  | reEntry
  | reverseExit
deriving DecidableEq, Repr

/-- Grades of estimates and records, best first. -/
inductive Grade where
  | a
  | b
  | c
  | n
deriving DecidableEq, Repr

/-- The kinds of wagon record (R165). -/
inductive RecordKind where
  | wagon
  | loco
  | unmatched
deriving DecidableEq, Repr

/-- The states of a peer entry (R106). -/
inductive PeerState where
  | absent
  | joining
  | live
  | silent
deriving DecidableEq, Repr

/-- The alignment state of a peer row (R144). -/
inductive Alignment where
  | aligned
  | misaligned
  | unchecked
deriving DecidableEq, Repr

/-- The frame kinds of 5.7. -/
inductive FrameKind where
  | hail
  | opening
  | cross
  | shut
  | step
  | tally
  | ask
  | reply
deriving DecidableEq, Repr

/-- The frame classes, in order of precedence (R89). -/
inductive FrameClass where
  | urgent
  | timing
  | bulk
  | service
deriving DecidableEq, Repr

/-- The reply statuses of 5.7. -/
inductive ReplyStatus where
  | ok
  | empty
  | range
  | deferred
  | busy
  | refused
deriving DecidableEq, Repr

/-! ### Settings -/

/-- A closed range of distances, in mm. -/
structure Range where
  least : Nat
  most  : Nat
deriving DecidableEq, Repr

/-- One vehicle pattern (9.2). `split` is the index of the rear bogie's first axle, absent for a LOCO. -/
structure Pattern where
  loco     : Bool
  axles    : Nat
  spacings : List Range
  gap      : Range
  split    : Option Nat
  maxGross : Int
deriving DecidableEq, Repr

/-- The configured values the blocks other than PTB and CND work with (11.2). -/
structure Settings where
  dA : Nat
  dB : Nat
  hA : Nat
  hB : Nat
  zc0 : Int
  zc1 : Int
  zc2 : Int
  zc3 : Int
  sc0 : Nat
  sc1 : Nat
  sc2 : Nat
  sc3 : Nat
  lockoutMs : Nat
  creepKmh : Nat
  overspeedKmh : Nat
  tol : Nat
  spreadLimit : Nat
  zeroLimit : Nat
  haltS : Nat
  closeS : Nat
  latLo : Nat
  latHi : Nat
  longLimit : Nat
  patterns : List Pattern
deriving DecidableEq, Repr

/-! ### Load Front End -/

/-- The calibrated load of one channel at one instant, with its saturation mark (R2 to R4). -/
structure ChannelLoad where
  kg        : Int
  saturated : Bool
deriving DecidableEq, Repr

/-- The four channel loads of one instant. -/
structure InstantLoads where
  c0 : ChannelLoad
  c1 : ChannelLoad
  c2 : ChannelLoad
  c3 : ChannelLoad
deriving DecidableEq, Repr

/-- A platform sample (R5 to R7). -/
structure Sample where
  stamp     : Time
  total     : Int
  left      : Int
  saturated : Bool
deriving DecidableEq, Repr

/-- What the LFE holds (01). -/
structure Lfe where
  excitation  : Bool
  nextInstant : Option Time
  group       : List InstantLoads
  history     : List Sample
  z           : Int
  z0          : Int
  block       : List Sample
deriving DecidableEq, Repr

/-! ### Wheel Head Unit -/

/-- A HALF: one latched edge waiting for the other head (2.2). -/
structure Half where
  head      : HeadNo
  start     : Time
  delivered : Bool
deriving DecidableEq, Repr

/-- What the WHU holds for one end: lockouts (a release time, or free), pairing, unpaired run, head faults, last speed. -/
structure EndUnit where
  lock1     : Option Time
  lock2     : Option Time
  half      : Option Half
  runHead   : Option HeadNo
  runCount  : Nat
  fault1    : Bool
  fault2    : Bool
  lastSpeed : Option Nat
deriving DecidableEq, Repr

/-- The WHU: one unit for each end. -/
structure Whu where
  endA : EndUnit
  endB : EndUnit
deriving DecidableEq, Repr

/-- A crossing as delivered (R29). -/
structure Crossing where
  side      : PlatformEnd
  kind      : CrossingKind
  edge      : Time
  speed     : Nat
  overspeed : Bool
  creep     : Bool
deriving DecidableEq, Repr

/-! ### Axle Tracker and Step Analyser -/

/-- The result of a measured window (R67). -/
structure WindowResult where
  mean   : Int
  left   : Int
  spread : Int
  count  : Nat
deriving DecidableEq, Repr

/-- A window's mark; an evaluated window keeps its result with its event (R48, R67). -/
inductive Mark where
  | pending
  | evaluated (r : WindowResult)
  | invalid
deriving DecidableEq, Repr

/-- A platform event in the timeline (R48). `latest` is the model's own bit: this event is the latest normal entry or
normal exit of its ordinal's record (R69; assumption log 6). -/
structure Event where
  edge      : Time
  kind      : EventKind
  ordinal   : Nat
  speed     : Nat
  overspeed : Bool
  creep     : Bool
  before    : Mark
  after     : Mark
  latest    : Bool
deriving DecidableEq, Repr

/-- A normal event as an own axle record keeps it (R51). -/
structure NormalEvent where
  edge      : Time
  speed     : Nat
  overspeed : Bool
  creep     : Bool
deriving DecidableEq, Repr

/-- A step: the difference of two window means, of their left means, and the two spreads (R70, R71). -/
structure Step where
  total        : Int
  left         : Int
  spreadBefore : Int
  spreadAfter  : Int
deriving DecidableEq, Repr

/-- The flags an estimate and a STEP carry (R78). -/
structure RowFlags where
  overspeed   : Bool
  creep       : Bool
  reversal    : Bool
  implausible : Bool
deriving DecidableEq, Repr

/-- A finished own estimate (R78). The share is in per mille, or absent; the speed in mm/s. -/
structure Estimate where
  ordinal    : Nat
  revision   : Nat
  w          : Int
  grade      : Grade
  share      : Option Nat
  entrySpeed : Nat
  entryTime  : Time
  flags      : RowFlags
deriving DecidableEq, Repr

/-- An own axle record (R51), with the settled bits and the own estimate of the SAN (Figure 4-1). `exitAfterEntry` says
which of the two latest normal events was recorded later (R73). -/
structure OwnRecord where
  ordinal        : Nat
  revision       : Nat
  firstTime      : Time
  firstSpeed     : Nat
  entry          : NormalEvent
  exit           : Option NormalEvent
  exitAfterEntry : Bool
  entryStep      : Option Step
  exitStep       : Option Step
  entrySettled   : Bool
  exitSettled    : Bool
  overspeed      : Bool
  creep          : Bool
  reversal       : Bool
  implausible    : Bool
  done           : Bool
  estimate       : Option Estimate
deriving DecidableEq, Repr

/-- What the ATR holds (Figure 3-1): the list leading side first, each stack top first. -/
structure Atr where
  list        : List Nat
  returnStack : List Nat
  exitStack   : List Nat
  counter     : Nat
  timeline    : List Event
  records     : List OwnRecord
deriving DecidableEq, Repr

/-! ### Session Controller -/

/-- A peer's SHUT counts, with the session number the SHUT carried (R135). -/
structure ShutCounts where
  number : Word16
  axles  : Nat
  wagons : Nat
deriving DecidableEq, Repr

/-- A session summary (R134). `shuts` has one place per station number. -/
structure Summary where
  number       : Word16
  direction    : Direction
  firstEdge    : Time
  lastCrossing : Time
  ownAxles     : Nat
  wagons       : Nat
  phantoms     : Nat
  reversals    : Nat
  haltedMs     : Nat
  late         : Nat
  mismatch     : Bool
  shuts        : List (Option ShutCounts)
deriving DecidableEq, Repr

/-- A held OPEN (R126), with the receive start time R132 adopts it with. -/
structure HeldOpen where
  number    : Word16
  direction : Direction
  firstEdge : Time
  sender    : Nat
  received  : Time
deriving DecidableEq, Repr

/-- What the SES holds (Figure 7-1), its two timers (R127) and the running millisecond of a HALTED stay (R128). -/
structure Ses where
  state             : SessionState
  number            : Word16
  direction         : Direction
  checked           : Bool
  opener            : Option Nat
  tf                : Option Time
  tOpen             : Option Time
  mark              : Option Word16
  tc                : Option Time
  haltExpiry        : Option Time
  closeExpiry       : Option Time
  nextHaltTick      : Option Time
  closePending      : Bool
  drainLimit        : Option Time
  closedForMatching : Bool
  held              : Option HeldOpen
  current           : Option Summary
  last              : Option Summary
deriving DecidableEq, Repr

/-! ### Fusion Unit -/

/-- A peer row of an estimate table entry (Figure 8-1); the speed in mm/s, T_p in the peer's clock. -/
structure PeerRow where
  w         : Int
  grade     : Grade
  share     : Option Nat
  speed     : Nat
  peerTime  : Time
  revision  : Nat
  flags     : RowFlags
  alignment : Alignment
deriving DecidableEq, Repr

/-- A heard normal exit of a peer (R143). -/
structure ExitHeard where
  revision : Nat
  received : Time
deriving DecidableEq, Repr

/-- The fused values of a FINAL entry (R145 to R147). -/
structure Fused where
  f          : Int
  grade      : Grade
  share      : Option Nat
  speed      : Nat
  overspeed  : Bool
  creep      : Bool
  reversal   : Bool
  misaligned : Nat
  unchecked  : Nat
deriving DecidableEq, Repr

/-- An entry of the axle estimate table (Figure 8-1). The entry is FINAL exactly when it holds its fused values. -/
structure Entry where
  ordinal      : Nat
  firstTime    : Option Time
  firstSpeed   : Option Nat
  own          : Option Estimate
  exitSpeed    : Option Nat
  rows         : List (Option PeerRow)
  exits        : List (Option ExitHeard)
  deadline     : Option Time
  deadlinePeer : Option Nat
  forced       : Bool
  late         : Nat
  fused        : Option Fused
deriving DecidableEq, Repr

/-- What the FUS holds: the table in ascending ordinal order, and the two session numbers (R139). -/
structure Fus where
  table      : List Entry
  current    : Option Word16
  superseded : Option Word16
deriving DecidableEq, Repr

/-! ### Wagon Assembler and Record Store -/

/-- One axle of a wagon record (R165). -/
structure AxleWeight where
  w        : Int
  grade    : Grade
  share    : Option Nat
  reversal : Bool
deriving DecidableEq, Repr

/-- A wagon record (R165); the mean speed in 0.1 km/h. -/
structure WagonRecord where
  index        : Word16
  session      : Word16
  wagon        : Nat
  kind         : RecordKind
  pattern      : Option Nat
  first        : Nat
  axles        : List AxleWeight
  gross        : Int
  grade        : Grade
  meanSpeed    : Nat
  overload     : Bool
  lateral      : Bool
  longitudinal : Bool
  overspeed    : Bool
  creep        : Bool
  reversal     : Bool
  forced       : Bool
  misaligned   : Nat
  unchecked    : Nat
deriving DecidableEq, Repr

/-- A spacing list item (R157); the spacing to the next axle once formed, in mm. -/
structure SpacingItem where
  ordinal : Nat
  time    : Time
  speed   : Nat
  spacing : Option Int
deriving DecidableEq, Repr

/-- A matched group (R160): the pattern's number, none for UNMATCHED. -/
structure Group where
  pattern : Option Nat
  first   : Nat
  count   : Nat
deriving DecidableEq, Repr

/-- What the WAS holds (Figure 9-1). -/
structure Was where
  items     : List SpacingItem
  highest   : Nat
  cursor    : Nat
  group     : Option Group
  wagons    : Nat
  roomForce : Bool
deriving DecidableEq, Repr

/-- The deferred FETCH-WAGON request (R181). -/
structure Deferred where
  node    : BitVec 4
  session : Word16
  wagon   : Nat
deriving DecidableEq, Repr

/-- What the RST holds: the ring oldest first (R169), the store index counter, the read pointer, the deferred request. -/
structure Rst where
  ring        : List WagonRecord
  nextIndex   : Word16
  readPointer : Word16
  deferred    : Option Deferred
deriving DecidableEq, Repr

/-! ### Span Line Controller -/

/-- The content of an own HAIL at hand-over (R113). -/
structure HailBody where
  p          : Nat
  l          : Nat
  line       : LineState
  station    : StationState
  session    : SessionState
  number     : Word16
  topCause   : Option Cause
  patternSum : Word16
  imageSum   : Word16
deriving DecidableEq, Repr

/-- The content of a CONDITIONS reply (R183). -/
structure ConditionsBody where
  latched : CauseMask
  enable  : CauseMask
  top     : Option Cause
  netLoad : Option Int
  station : StationState
  line    : LineState
  session : SessionState
deriving DecidableEq, Repr

/-- What follows the status and the asked kind in a REPLY (5.7). -/
inductive Content where
  | none
  | record (r : WagonRecord)
  | summary (last : Bool) (m : Summary)
  | conditions (c : ConditionsBody)
  | mask (m : CauseMask)
deriving DecidableEq, Repr

/-- The body of a frame this station sends. A station sends no ASK. -/
inductive Body where
  | hail (h : HailBody)
  | opening (number : Word16) (direction : Direction) (firstEdge : Time)
  | cross (number : Word16) (ordinal : Nat) (kind : EventKind) (revision : Nat) (edge : Time) (speed : Nat)
      (overspeed creep : Bool)
  | shut (number : Word16) (axles wagons : Nat)
  | step (number : Word16) (e : Estimate)
  | tally (r : WagonRecord)
  | reply (status : ReplyStatus) (asked : Byte) (content : Content)
deriving DecidableEq, Repr

/-- A queued frame (Figure 5-1). -/
structure TxFrame where
  body   : Body
  target : BitVec 4
  seq    : Byte
  failed : Nat
  held   : Nat
deriving DecidableEq, Repr

/-- The frame this station is putting on the line: the queued frame, and the frame as the line shows it, with the stamp
and the check of this attempt (R86). -/
structure Sending where
  frame : TxFrame
  image : LineFrame
deriving DecidableEq, Repr

/-- A frame in the receive queue with its receive start time (R99). -/
structure RxFrame where
  start : Time
  frame : LineFrame
deriving DecidableEq, Repr

/-- What the SLC holds (Figure 5-1). `ackDriven` and `holdDriven` are the levels this station drove in the slots of the
last frame it received (R99, R100). -/
structure Slc where
  urgent       : List TxFrame
  timing       : Option TxFrame
  bulk         : List TxFrame
  service      : List TxFrame
  hailWaiting  : Option TxFrame
  sequence     : Byte
  backoff      : Option Time
  droppedRun   : Nat
  duplicateRun : Nat
  line         : LineState
  probeTimer   : Option Time
  probeDue     : Bool
  receiveQueue : List RxFrame
  hold         : Bool
  lastSequence : List (Option Byte)
  sending      : Option Sending
  ackDriven    : Bool
  holdDriven   : Bool
deriving DecidableEq, Repr

/-! ### Peer Table, Condition Unit, Start-up Control -/

/-- A peer entry (Figure 6-1). -/
structure Peer where
  state        : PeerState
  firstHail    : Option Time
  lastHeard    : Option Time
  offset       : Option Time
  p            : Option Nat
  l            : Option Nat
  patternSum   : Option Word16
  stationState : Option Byte
deriving DecidableEq, Repr

/-- What the PTB holds; `peers` has one place per station number, the own one unused (R106). -/
structure Ptb where
  peers         : List Peer
  ownP          : Nat
  ownL          : Nat
  ownPatternSum : Word16
  exitStation   : Nat
  layout        : Bool
  hailTimer     : Option Time
deriving DecidableEq, Repr

/-- What the CND holds and the FAULT# pin it drives (true is low), R184 to R187. -/
structure Cnd where
  latched  : CauseMask
  present  : CauseMask
  enable   : CauseMask
  faultLow : Bool
deriving DecidableEq, Repr

/-- What the STC holds (11). `inReset` is set while RST# is low or the supply rises (R198). -/
structure Stc where
  inReset  : Bool
  station  : StationState
  number   : BitVec 3
  fastLine : Bool
  imageSum : Word16
  i2cReleased : Bool
deriving DecidableEq, Repr

/-! ### The whole part -/

/-- The W440: local time, the blocks, and the commands waiting, first in first out. -/
structure State where
  pending  : List Instr
  now      : Time
  stc      : Stc
  settings : Settings
  lfe      : Lfe
  whu      : Whu
  atr      : Atr
  slc      : Slc
  ptb      : Ptb
  ses      : Ses
  fus      : Fus
  was      : Was
  rst      : Rst
  cnd      : Cnd
deriving DecidableEq, Repr

/-- Why the machine stops with a fault: never. Every step of the manual has an effect, so there is no constructor
(safe: no claim can rest on a stop). -/
inductive Fault where
deriving DecidableEq, Repr

/-- Why a command is refused. `notModelled` is raised only by an arm of `exec` for a command without a meaning; no arm
does (safe). -/
inductive Refusal where
  | notModelled (mnemonic : String)
deriving DecidableEq, Repr

/-! ### Full reset -/

/-- DESIGN CHOICE (log 5). The configured values before an image has been read: the image's defaults where there is one,
least values elsewhere. -/
def Settings.reset : Settings :=
  { dA := 0, dB := 0, hA := 100, hB := 100, zc0 := 0, zc1 := 0, zc2 := 0, zc3 := 0, sc0 := 1, sc1 := 1, sc2 := 1,
    sc3 := 1, lockoutMs := 8, creepKmh := 3, overspeedKmh := 60, tol := 20, spreadLimit := 4000, zeroLimit := 2000,
    haltS := 5, closeS := 10, latLo := 400, latHi := 600, longLimit := 600, patterns := [] }

/-- R16. -/
def Lfe.reset : Lfe :=
  { excitation := false, nextInstant := none, group := [], history := [], z := 0, z0 := 0, block := [] }

/-- R37, one end. -/
def EndUnit.reset : EndUnit :=
  { lock1 := none, lock2 := none, half := none, runHead := none, runCount := 0, fault1 := false, fault2 := false,
    lastSpeed := none }

/-- R37. -/
def Whu.reset : Whu := { endA := EndUnit.reset, endB := EndUnit.reset }

/-- R57, R82. -/
def Atr.reset : Atr :=
  { list := [], returnStack := [], exitStack := [], counter := 0, timeline := [], records := [] }

/-- R104. DESIGN CHOICE (log 5): the line state before the end of LOADING is held as ACTIVE; the slots are not driven. -/
def Slc.reset : Slc :=
  { urgent := [], timing := none, bulk := [], service := [], hailWaiting := none, sequence := 0, backoff := none,
    droppedRun := 0, duplicateRun := 0, line := .active, probeTimer := none, probeDue := false, receiveQueue := [],
    hold := false, lastSequence := List.replicate 16 none, sending := none, ackDriven := false, holdDriven := false }

/-- An ABSENT peer entry with every field absent (R106). -/
def Peer.reset : Peer :=
  { state := .absent, firstHail := none, lastHeard := none, offset := none, p := none, l := none, patternSum := none,
    stationState := none }

/-- R118: the exit station is this station. -/
def Ptb.reset (own : BitVec 3) : Ptb :=
  { peers := List.replicate 8 Peer.reset, ownP := 0, ownL := 0, ownPatternSum := 0, exitStation := own.toNat,
    layout := false, hailTimer := none }

/-- R137. -/
def Ses.reset : Ses :=
  { state := .idle, number := 0, direction := .up, checked := false, opener := none, tf := none, tOpen := none,
    mark := none, tc := none, haltExpiry := none, closeExpiry := none, nextHaltTick := none, closePending := false,
    drainLimit := none, closedForMatching := false, held := none, current := none, last := none }

/-- R156. -/
def Fus.reset : Fus := { table := [], current := none, superseded := none }

/-- R173, the WAS. -/
def Was.reset : Was := { items := [], highest := 0, cursor := 1, group := none, wagons := 0, roomForce := false }

/-- R173, the RST. -/
def Rst.reset : Rst := { ring := [], nextIndex := 0, readPointer := 0, deferred := none }

/-- R190. -/
def Cnd.reset : Cnd := { latched := 0, present := 0, enable := 0, faultLow := false }

/-- R198. DESIGN CHOICE (log 5): the strap registers read 0 until the straps are first sampled. -/
def Stc.reset : Stc :=
  { inReset := true, station := .loading, number := 0, fastLine := false, imageSum := 0, i2cReleased := true }

/-- The part held in reset, nothing waiting (R198: every block as its chapter gives it after full reset, local time at 0).
The next command that acts is RESET_RELEASE (log 4). -/
def State.reset : State :=
  { pending := [], now := 0, stc := Stc.reset, settings := Settings.reset, lfe := Lfe.reset, whu := Whu.reset,
    atr := Atr.reset, slc := Slc.reset, ptb := Ptb.reset 0, ses := Ses.reset, fus := Fus.reset, was := Was.reset,
    rst := Rst.reset, cnd := Cnd.reset }

end Sys2Proof.Machine
end

