-- ==== Sys2Proof/Machine/Ops.lean ====
section
/-! DEFINITION. Arithmetic and list operations every block shares: local-time comparison, the manual's rounding, places in
the eight-entry and sixteen-entry tables (00_scope.md, "Conventions"). -/

namespace Sys2Proof.Machine

open Sys2Proof

/-! ### Local time (00_scope.md, "Time": comparisons modulo 2^32, for spans under 2^31 µs) -/

/-- `a` plus `us` microseconds. -/
def addUs (a : Time) (us : Nat) : Time := a + BitVec.ofNat 32 us

/-- How long after `a` the time `b` is, in µs. -/
def elapsed (a b : Time) : Nat := (b - a).toNat

/-- `a` is earlier than `b`. -/
def earlier (a b : Time) : Bool := a != b && elapsed a b < 2 ^ 31

/-- Local time `now` has come to `due`: `due` is not later than `now`. -/
def reached (due now : Time) : Bool := elapsed due now < 2 ^ 31

/-- A timer that is set and whose time has come. -/
def timerDue (timer : Option Time) (now : Time) : Bool :=
  match timer with
  | none => false
  | some due => reached due now

/-- The difference a − b of two local times, read as a signed number. -/
def timeDiff (a b : Time) : Int := (a - b).toInt

/-- The earlier of two local times. -/
def earliest (a b : Time) : Time := if earlier b a then b else a

/-! ### Rounding (00_scope.md, "Rounding") -/

/-- n / d rounded to the nearest whole number, a half away from zero. -/
def roundDiv (n : Int) (d : Nat) : Int :=
  if n < 0 then -(((2 * n.natAbs + d) / (2 * d) : Nat) : Int) else ((2 * n.natAbs + d) / (2 * d) : Nat)

/-- The same for numbers that are never negative. -/
def roundNat (n d : Nat) : Nat := (2 * n + d) / (2 * d)

/-- n / d truncated: the fraction discarded toward zero. -/
def truncDiv (n : Int) (d : Nat) : Int := n.tdiv d

/-- `x` held within `least` … `most`. -/
def clampInt (least most x : Int) : Int := if x < least then least else if most < x then most else x

/-- Counts that stop at `most`. -/
def countUp (most n : Nat) : Nat := if n < most then n + 1 else n

/-! ### Sums over samples and axles -/

/-- The sum of a list of whole numbers. -/
def total (xs : List Int) : Int := xs.foldl (· + ·) 0

/-- The largest less the smallest of a list, 0 for the empty list. -/
def spreadOf (xs : List Int) : Int :=
  match xs with
  | [] => 0
  | x :: rest => rest.foldl max x - rest.foldl min x

/-! ### Places in fixed tables -/

/-- The entry at place `n` of a table, or `absent` beyond its end. -/
def place {α : Type} (table : List α) (n : Nat) (absent : α) : α := table.getD n absent

/-- The table with place `n` replaced; a place beyond the end is not made. -/
def setPlace {α : Type} (table : List α) (n : Nat) (x : α) : List α := table.set n x

/-- The eight station numbers. -/
def stationNumbers : List Nat := [0, 1, 2, 3, 4, 5, 6, 7]

/-! ### Waiting commands and the clock -/

/-- What every command but the two of the reset input does around its own effect: held in reset the part does nothing
(R198); otherwise local time is that of the command, and then the effect `f` comes. -/
def atTime (t : Time) (f : State → State) (s : State) : State :=
  if s.stc.inReset then s else f { s with now := t }

/-- `f` when `p` holds, no effect otherwise. -/
def onlyIf (p : Bool) (f : State → State) (s : State) : State := if p then f s else s

/-- This station's own number (R191). -/
def ownNumber (s : State) : Nat := s.stc.number.toNat

end Sys2Proof.Machine
end

