-- ==== Sys2Proof/Machine/Flags.lean ====
section
/-! DEFINITION. The Condition Unit: latching and clearing causes, present indications, top cause, the FAULT# pin
(10.5, 10.6). -/

namespace Sys2Proof.Machine

open Sys2Proof

/-- A cause's priority, 1 to 9 (Figure 10-2). -/
def priority : Cause → Nat
  | .config => 1
  | .line => 2
  | .saturate => 3
  | .head => 4
  | .slip => 5
  | .zero => 6
  | .overrun => 7
  | .late => 8
  | .layout => 9

/-- The nine causes in priority order. -/
def allCauses : List Cause := [.config, .line, .saturate, .head, .slip, .zero, .overrun, .late, .layout]

/-- The mask bit of a cause: priority k is bit k − 1 (R184). -/
def causeBit (c : Cause) : CauseMask := BitVec.twoPow 9 (priority c - 1)

/-- A mask holds a cause. -/
def hasCause (m : CauseMask) (c : Cause) : Bool := m.getLsbD (priority c - 1)

/-- The mask of all nine causes. -/
def allCausesMask : CauseMask := BitVec.allOnes 9

/-- The four persistent causes (R185). -/
def persistentMask : CauseMask := causeBit .config ||| causeBit .line ||| causeBit .head ||| causeBit .layout

/-- FAULT# is low while an enabled cause is latched (R187). -/
def drivePin (c : Cnd) : Cnd := { c with faultLow := (c.latched &&& c.enable) != 0 }

/-- R184: a reported cause becomes latched. -/
def latch (c : Cause) (s : State) : State :=
  { s with cnd := drivePin { s.cnd with latched := s.cnd.latched ||| causeBit c } }

/-- R185: the owning block reports a persistent condition present, which latches the cause. -/
def reportPresent (c : Cause) (s : State) : State :=
  latch c { s with cnd := { s.cnd with present := s.cnd.present ||| causeBit c } }

/-- R185: the owning block reports the condition absent; the cause stays latched. -/
def reportAbsent (c : Cause) (s : State) : State :=
  { s with cnd := { s.cnd with present := s.cnd.present &&& ~~~ (causeBit c) } }

/-- R188: the named causes are cleared, and those whose condition is present are latched again at once. -/
def clearCauses (m : CauseMask) (s : State) : State :=
  let kept := (s.cnd.latched &&& ~~~ m) ||| (s.cnd.latched &&& m &&& s.cnd.present)
  { s with cnd := drivePin { s.cnd with latched := kept } }

/-- R187: the enable mask takes its value at the end of LOADING. -/
def setEnable (m : CauseMask) (s : State) : State :=
  { s with cnd := drivePin { s.cnd with enable := m } }

/-- R186: the latched cause of highest priority. -/
def topCause (s : State) : Option Cause := allCauses.find? (hasCause s.cnd.latched)

end Sys2Proof.Machine
end

