-- ==== Sys2Proof/Machine/Operands.lean ====
section
/-! DEFINITION. The operand forms: payload codes and layouts (5.7), the frame check (R86), the checks on a received frame
(R96), the fields of received payloads, and the configuration image (11.2). -/

namespace Sys2Proof.Machine

open Sys2Proof

/-! ### Codes used in payloads (5.7) -/

def lineCode : LineState → Byte
  | .active => 0
  | .listen => 1
  | .muted => 2
  | .configFault => 3

/-- LOADING has no code (11); no frame reports it, and 0 stands in its place. -/
def stationCode : StationState → Byte
  | .loading => 0
  | .configFault => 1
  | .settling => 2
  | .ready => 3

def sessionCode : SessionState → Byte
  | .idle => 0
  | .running => 1
  | .halted => 2
  | .draining => 3

def directionCode : Direction → Byte
  | .up => 0
  | .down => 1

def eventCode : EventKind → Byte
  | .normalEntry => 0
  | .normalExit => 1
  | .reEntry => 2
  | .reverseExit => 3

def gradeCode : Grade → Byte
  | .a => 0
  | .b => 1
  | .c => 2
  | .n => 3

def recordCode : RecordKind → Byte
  | .wagon => 0
  | .loco => 1
  | .unmatched => 2

def statusCode : ReplyStatus → Byte
  | .ok => 0
  | .empty => 1
  | .range => 2
  | .deferred => 3
  | .busy => 4
  | .refused => 5

/-- The top cause byte: the priority, 0 for none. -/
def topCauseCode : Option Cause → Byte
  | none => 0
  | some c => BitVec.ofNat 8 (priority c)

/-- Asked kinds (5.7). -/
def askFetchNext : Byte := 1
def askFetch : Byte := 2
def askFetchWagon : Byte := 3
def askSeek : Byte := 4
def askSummary : Byte := 5
def askConditions : Byte := 6
def askClear : Byte := 7
def askRestart : Byte := 8

def kindCode : FrameKind → BitVec 4
  | .hail => 1
  | .opening => 2
  | .cross => 3
  | .shut => 4
  | .step => 5
  | .tally => 6
  | .ask => 7
  | .reply => 8

/-- The kind a code stands for; 0 and 9 to 15 are not kinds. -/
def kindOfCode (k : BitVec 4) : Option FrameKind :=
  if k == 1 then some .hail
  else if k == 2 then some .opening
  else if k == 3 then some .cross
  else if k == 4 then some .shut
  else if k == 5 then some .step
  else if k == 6 then some .tally
  else if k == 7 then some .ask
  else if k == 8 then some .reply
  else none

def classOfKind : FrameKind → FrameClass
  | .hail => .timing
  | .opening => .urgent
  | .cross => .urgent
  | .shut => .urgent
  | .step => .bulk
  | .tally => .bulk
  | .ask => .service
  | .reply => .service

def classCode : FrameClass → BitVec 2
  | .urgent => 0
  | .timing => 1
  | .bulk => 2
  | .service => 3

/-- The broadcast target (5.7). -/
def broadcast : BitVec 4 := 15

/-! ### Bytes and fields, most significant byte first (R103) -/

def byteOf (n : Nat) : Byte := BitVec.ofNat 8 n

def bytes2 (n : Nat) : List Byte := [byteOf (n / 256), byteOf n]

def bytes3 (n : Nat) : List Byte := [byteOf (n / 65536), byteOf (n / 256), byteOf n]

def bytes4 (n : Nat) : List Byte := [byteOf (n / 16777216), byteOf (n / 65536), byteOf (n / 256), byteOf n]

/-- A signed three-byte field. -/
def signed3 (x : Int) : List Byte := bytes3 (BitVec.ofInt 24 x).toNat

def flagBit (b : Bool) (n : Nat) : Nat := if b then 2 ^ n else 0

/-- A left share in a frame: 65,535 means absent (R103). -/
def shareField : Option Nat → List Byte
  | none => bytes2 65535
  | some n => bytes2 n

/-- A speed in mm/s given in 0.1 km/h, a half upward (R25). -/
def speedField (v : Nat) : Nat := roundNat (v * 36) 1000

/-- A speed in 0.1 km/h held in mm/s (chapter 8, note 1). -/
def speedFromField (x : Nat) : Nat := roundNat (x * 1000) 36

def at1 (p : List Byte) (i : Nat) : Nat := (p.getD i 0).toNat
def at2 (p : List Byte) (i : Nat) : Nat := at1 p i * 256 + at1 p (i + 1)
def at3 (p : List Byte) (i : Nat) : Nat := at2 p i * 256 + at1 p (i + 2)
def at4 (p : List Byte) (i : Nat) : Nat := at3 p i * 256 + at1 p (i + 3)
def signedAt3 (p : List Byte) (i : Nat) : Int := (BitVec.ofNat 24 (at3 p i)).toInt
def wordAt (p : List Byte) (i : Nat) : Word16 := BitVec.ofNat 16 (at2 p i)
def timeAt (p : List Byte) (i : Nat) : Time := BitVec.ofNat 32 (at4 p i)
def bitAt (p : List Byte) (i n : Nat) : Bool := (p.getD i 0).getLsbD n

/-! ### Payloads this station sends (5.7) -/

/-- The gross field of a record: three bytes signed; a gross that does not fit is a free value (log 9). -/
def grossField (x : Int) : List Byte :=
  if -8388608 ≤ x ∧ x ≤ 8388607 then signed3 x else bytes3 (Config.unstorableGross x).toNat

def axleField (a : AxleWeight) : List Byte :=
  signed3 a.w ++ [gradeCode a.grade ||| byteOf (flagBit a.reversal 7)] ++ shareField a.share

/-- A wagon record as TALLY payload and REPLY content: 20 + 6k bytes. -/
def recordField (r : WagonRecord) : List Byte :=
  bytes2 r.index.toNat ++ bytes2 r.session.toNat ++ bytes2 r.wagon ++ [recordCode r.kind, byteOf (r.pattern.getD 0)]
    ++ bytes2 r.first ++ [byteOf r.axles.length] ++ grossField r.gross ++ [gradeCode r.grade] ++ bytes2 r.meanSpeed
    ++ [byteOf (flagBit r.overload 0 + flagBit r.lateral 1 + flagBit r.longitudinal 2 + flagBit r.overspeed 3
          + flagBit r.creep 4 + flagBit r.reversal 5 + flagBit r.forced 6), byteOf r.misaligned, byteOf r.unchecked]
    ++ r.axles.flatMap axleField

/-- The peer SHUT mask: bit s set when station s's SHUT was recorded. -/
def shutMask (shuts : List (Option ShutCounts)) : Nat :=
  total (stationNumbers.map fun n => (flagBit (place shuts n none).isSome n : Nat)) |>.toNat

def shutField : Option ShutCounts → List Byte
  | none => bytes4 0
  | some c => bytes2 c.axles ++ bytes2 c.wagons

/-- The 60 bytes of a session summary. -/
def summaryField (last : Bool) (m : Summary) : List Byte :=
  [byteOf (flagBit last 0)] ++ bytes2 m.number.toNat ++ [directionCode m.direction] ++ bytes4 m.firstEdge.toNat
    ++ bytes4 m.lastCrossing.toNat ++ bytes2 m.ownAxles ++ bytes2 m.wagons ++ bytes2 m.phantoms ++ bytes2 m.reversals
    ++ bytes4 m.haltedMs ++ bytes2 m.late ++ [byteOf (flagBit m.mismatch 0), byteOf (shutMask m.shuts)]
    ++ stationNumbers.flatMap fun n => shutField (place m.shuts n none)

/-- The 12 bytes of a CONDITIONS reply. With the net load absent its presence byte is 0 (R183) and its three bytes, for
which no rule gives a value, are sent 0 (DESIGN CHOICE, log 44). -/
def conditionsField (c : ConditionsBody) : List Byte :=
  bytes2 c.latched.toNat ++ bytes2 c.enable.toNat ++ [topCauseCode c.top, byteOf (flagBit c.netLoad.isSome 0)]
    ++ signed3 (c.netLoad.getD 0) ++ [stationCode c.station, lineCode c.line, sessionCode c.session]

def contentField : Content → List Byte
  | .none => []
  | .record r => recordField r
  | .summary last m => summaryField last m
  | .conditions c => conditionsField c
  | .mask m => bytes2 m.toNat

/-- The payload of a frame body. -/
def payloadOf : Body → List Byte
  | .hail h =>
    bytes4 h.p ++ bytes2 h.l ++ [lineCode h.line, stationCode h.station, sessionCode h.session] ++ bytes2 h.number.toNat
      ++ [topCauseCode h.topCause] ++ bytes2 h.patternSum.toNat ++ bytes2 h.imageSum.toNat
  | .opening number direction firstEdge => bytes2 number.toNat ++ [directionCode direction] ++ bytes4 firstEdge.toNat
  | .cross number ordinal kind revision edge speed overspeed creep =>
    bytes2 number.toNat ++ bytes2 ordinal ++ [eventCode kind, byteOf revision] ++ bytes4 edge.toNat
      ++ bytes2 (speedField speed) ++ [byteOf (flagBit overspeed 0 + flagBit creep 1)]
  | .shut number axles wagons => bytes2 number.toNat ++ bytes2 axles ++ bytes2 wagons
  | .step number e =>
    bytes2 number.toNat ++ bytes2 e.ordinal ++ [byteOf e.revision] ++ signed3 e.w ++ [gradeCode e.grade]
      ++ shareField e.share ++ bytes2 (speedField e.entrySpeed) ++ bytes4 e.entryTime.toNat
      ++ [byteOf (flagBit e.flags.overspeed 0 + flagBit e.flags.creep 1 + flagBit e.flags.reversal 2
            + flagBit e.flags.implausible 3)]
  | .tally r => recordField r
  | .reply status asked content => [statusCode status, asked] ++ contentField content

def kindOfBody : Body → FrameKind
  | .hail _ => .hail
  | .opening _ _ _ => .opening
  | .cross _ _ _ _ _ _ _ _ => .cross
  | .shut _ _ _ => .shut
  | .step _ _ => .step
  | .tally _ => .tally
  | .reply _ _ _ => .reply

def classOfBody (b : Body) : FrameClass := classOfKind (kindOfBody b)

/-! ### The frame check (R86) -/

/-- The low `n` bits of a number, most significant first. -/
def bitsOf (n value : Nat) : List Bool := ((List.range n).map fun i => value.testBit i).reverse

/-- One bit through the CRC register, generator x^16 + x^12 + x^5 + 1. -/
def crcBit (r : Word16) (b : Bool) : Word16 :=
  if r.msb != b then (r <<< 1) ^^^ 0x1021 else r <<< 1

/-- The register starts at all ones; no final inversion. -/
def crcOf (bits : List Bool) : Word16 := bits.foldl crcBit 0xFFFF

/-- The bits from class through payload. -/
def checkedBits (f : LineFrame) : List Bool :=
  bitsOf 2 f.cls.toNat ++ bitsOf 4 f.node.toNat ++ bitsOf 4 f.kind.toNat ++ bitsOf 8 f.seq.toNat
    ++ bitsOf 32 f.stamp.toNat ++ bitsOf 4 f.target.toNat ++ bitsOf 7 f.length.toNat
    ++ f.payload.flatMap fun b => bitsOf 8 b.toNat

/-- The check the bits of a frame demand. -/
def frameCheck (f : LineFrame) : Word16 := crcOf (checkedBits f)

/-- The frame as this station puts it on the line at an attempt: stamp and check of that attempt (R86). -/
def lineImage (own : BitVec 3) (stamp : Time) (f : TxFrame) : LineFrame :=
  let payload := payloadOf f.body
  let bare : LineFrame :=
    { cls := classCode (classOfBody f.body), node := own.setWidth 4, kind := kindCode (kindOfBody f.body), seq := f.seq,
      stamp := stamp, target := f.target, length := BitVec.ofNat 7 payload.length, payload := payload, check := 0,
      whole := true }
  { bare with check := frameCheck bare }

/-- Bit times from start bit to the end of the end field, and bit times of the line used, for n payload bytes (R85). -/
def frameBitTimes (n : Nat) : Nat := 87 + 8 * n
def lineBitTimes (n : Nat) : Nat := 99 + 8 * n

/-- A bit time in µs (R84). -/
def bitTimeUs (fast : Bool) : Nat := if fast then 1 else 2

/-- The recessive bit times that make the line idle (R85). -/
def idleBitTimes : Nat := 12

/-! ### Checks on a received frame (R96) -/

/-- The lengths an ASK may have, by its asked kind byte; an ASK without one has no allowed length. -/
def askLengthAllowed (payload : List Byte) (n : Nat) : Bool :=
  match payload with
  | [] => false
  | k :: _ =>
    if k == askFetchNext || k == askConditions || k == askRestart then n == 1
    else if k == askFetch || k == askSeek || k == askClear then n == 3
    else if k == askFetchWagon then n == 5
    else if k == askSummary then n == 2
    else 1 ≤ n && n ≤ 64

/-- The lengths of a wagon record. -/
def recordLength (n : Nat) : Bool := n == 26 || n == 32 || n == 38 || n == 44 || n == 50 || n == 56

/-- The lengths a REPLY may have, by its status and asked kind bytes (5.7; DEDUCED, log 10): 2 with a status other than
OK or an asked kind without content, otherwise 2 plus the content. -/
def replyLengthAllowed (payload : List Byte) (n : Nat) : Bool :=
  let k := payload.getD 1 0
  if payload.getD 0 0 != statusCode .ok then n == 2
  else if k == askFetchNext || k == askFetch || k == askFetchWagon then 2 ≤ n && recordLength (n - 2)
  else if k == askSummary then n == 62
  else if k == askConditions then n == 14
  else if k == askClear then n == 4
  else n == 2

def lengthAllowed (k : FrameKind) (payload : List Byte) (n : Nat) : Bool :=
  match k with
  | .hail => n == 16
  | .opening => n == 7
  | .cross => n == 13
  | .shut => n == 6
  | .step => n == 18
  | .tally => recordLength n
  | .ask => askLengthAllowed payload n
  | .reply => replyLengthAllowed payload n

def nodeAllowed (k : FrameKind) (node : BitVec 4) : Bool :=
  match k with
  | .ask => 8 ≤ node.toNat
  | _ => node.toNat < 8

def targetAllowed (k : FrameKind) (target : BitVec 4) : Bool :=
  match k with
  | .ask => target.toNat < 8
  | .reply => 8 ≤ target.toNat
  | _ => target == broadcast

/-- A frame that passes R96 at station `own`: its kind. A bad frame, or one that bears this station's own number, gives
none. -/
def goodFrame (own : BitVec 3) (f : LineFrame) : Option FrameKind :=
  match kindOfCode f.kind with
  | none => none
  | some k =>
    if f.whole && f.length.toNat ≤ 64 && f.check == frameCheck f && f.cls == classCode (classOfKind k)
        && lengthAllowed k f.payload f.length.toNat && nodeAllowed k f.node && targetAllowed k f.target
        && f.node != own.setWidth 4
    then some k else none

/-- The kind of a frame in the receive queue. -/
def rxKind (r : RxFrame) : Option FrameKind := kindOfCode r.frame.kind

/-- The direction byte of an OPEN; a byte that is no code gives a free value (log 7). -/
def directionOfByte (b : Byte) : Direction :=
  if b == 0 then .up else if b == 1 then .down else if Config.strayDirectionIsDown b then .down else .up

/-- The grade of a STEP's grade byte; above 3 there is none (R142). -/
def gradeOfByte (b : Byte) : Option Grade :=
  if b == 0 then some .a else if b == 1 then some .b else if b == 2 then some .c else if b == 3 then some .n else none

/-- A left share as received: above 1,000 it is held as absent (R142). -/
def shareOfField (n : Nat) : Option Nat := if n ≤ 1000 then some n else none

/-! ### The configuration image (11.2) -/

/-- What the checks of R192 to R194 make of an image read. -/
inductive ImageOutcome where
  | missing
  | bad (sum : Word16)
  | good (settings : Settings) (p l : Nat) (enable : CauseMask) (sum patternSum : Word16)
deriving DecidableEq, Repr

/-- A field whose all-ones value is its default mark. -/
def defaulted (raw mark dflt : Nat) : Nat := if raw == mark then dflt else raw

def inRange (least most x : Nat) : Bool := least ≤ x && x ≤ most

/-- The sum of bytes modulo 65,536. -/
def byteSum (bytes : List Byte) : Word16 := BitVec.ofNat 16 (bytes.foldl (fun n b => n + b.toNat) 0)

/-- A pair of 2-byte fields (min, max) at an offset. -/
def rangeAt (p : List Byte) (i : Nat) : Range := { least := at2 p i, most := at2 p (i + 2) }

def rangeGood (r : Range) : Bool := inRange 500 30000 r.least && inRange 500 30000 r.most && r.least ≤ r.most

/-- The pattern whose bytes stand first in `p`, with the number of bytes it takes; none when a field is out of range
(R193). -/
def patternAt (p : List Byte) : Option (Pattern × Nat) :=
  let kind := at1 p 0
  let n := at1 p 1
  let spacings := (List.range (n - 1)).map fun i => rangeAt p (2 + 4 * i)
  let gap := rangeAt p (4 * n - 2)
  let split := at1 p (4 * n + 2)
  let gross := at3 p (4 * n + 3)
  if kind ≤ 1 && inRange 2 6 n && 4 * n + 6 ≤ p.length && spacings.all rangeGood && rangeGood gap
      && inRange 1000 360000 gross && (if kind == 1 then split == 0 else inRange 1 (n - 1) split)
  then some ({ loco := kind == 1, axles := n, spacings := spacings, gap := gap,
               split := if kind == 1 then none else some split, maxGross := gross }, 4 * n + 6)
  else none

/-- Exactly `count` patterns filling the bytes given; none when one is out of range or the bytes do not come out. -/
def patternsIn : Nat → List Byte → Option (List Pattern)
  | 0, p => if p.isEmpty then some [] else none
  | count + 1, p =>
    match patternAt p with
    | none => none
    | some (x, used) => (patternsIn count (p.drop used)).map (x :: ·)

/-- R193: a span s_c in range (11.2). 65,535 is the default mark, and this field has no default, so it is out of range
(DEDUCED, log 8). -/
def spanGood (raw : Nat) : Bool := inRange 1 65535 raw && raw != 65535

/-- The settings in the fixed fields of an image, defaults put in for default marks. -/
def settingsOf (b : List Byte) (patterns : List Pattern) : Settings :=
  { dA := at2 b 8, dB := at2 b 10, hA := defaulted (at2 b 12) 65535 100, hB := defaulted (at2 b 14) 65535 100,
    zc0 := (at4 b 16 : Int) - 8388608, zc1 := (at4 b 20 : Int) - 8388608, zc2 := (at4 b 24 : Int) - 8388608,
    zc3 := (at4 b 28 : Int) - 8388608, sc0 := at2 b 32, sc1 := at2 b 34, sc2 := at2 b 36, sc3 := at2 b 38,
    lockoutMs := defaulted (at1 b 40) 255 8, creepKmh := defaulted (at1 b 41) 255 3,
    overspeedKmh := defaulted (at1 b 42) 255 60, tol := defaulted (at1 b 43) 255 20,
    spreadLimit := defaulted (at2 b 44) 65535 4000, zeroLimit := defaulted (at2 b 46) 65535 2000,
    haltS := defaulted (at1 b 48) 255 5, closeS := defaulted (at1 b 49) 255 10,
    latLo := defaulted (at2 b 50) 65535 400, latHi := defaulted (at2 b 52) 65535 600,
    longLimit := defaulted (at2 b 54) 65535 600, patterns := patterns }

/-- The ranges of 11.2, and the close time not less than the halt time (R193). -/
def settingsInRange (b : List Byte) (x : Settings) : Bool :=
  at4 b 2 ≤ 4000000000 && inRange 1000 12000 (at2 b 6) && x.dA ≤ 300 && x.dB ≤ 300 && inRange 50 250 x.hA
    && inRange 50 250 x.hB && at4 b 16 ≤ 16777215 && at4 b 20 ≤ 16777215 && at4 b 24 ≤ 16777215 && at4 b 28 ≤ 16777215
    && spanGood x.sc0 && spanGood x.sc1 && spanGood x.sc2 && spanGood x.sc3 && inRange 2 20 x.lockoutMs
    && inRange 1 10 x.creepKmh && inRange 30 130 x.overspeedKmh && inRange 5 50 x.tol && inRange 1000 20000 x.spreadLimit
    && inRange 500 10000 x.zeroLimit && inRange 2 20 x.haltS && inRange 5 60 x.closeS && x.haltS ≤ x.closeS
    && x.latLo ≤ 500 && inRange 500 1000 x.latHi && inRange 500 900 x.longLimit && at1 b 58 ≤ 12

/-- R192: the length is too small for the fixed fields, the pattern count and the sum, or too large for the pattern count
read, or above 512. DEDUCED (log 16): a pattern takes at most 30 bytes. -/
def lengthWrong (length count : Nat) : Bool := length < 59 || 512 < length || 59 + 30 * count < length

/-- R193, R194 on the bytes of a complete read, sum field included. -/
def imageChecks (b : List Byte) (length : Nat) : ImageOutcome :=
  let summed := b.take length
  let sum := byteSum summed
  let table := summed.drop 58
  if wordAt b length != sum then .bad sum
  else
    match patternsIn (at1 b 58) (summed.drop 59) with
    | none => .bad sum
    | some patterns =>
      let x := settingsOf b patterns
      if settingsInRange b x then
        .good x (at4 b 2) (at2 b 6) (BitVec.ofNat 9 (at2 b 56)) sum (byteSum table)
      else .bad sum

/-- What the STC makes of an image read (R192 to R194). A read that stops before `length` bytes after the length field is
missing. -/
def readImage : ImageRead → ImageOutcome
  | .noAcknowledge => .missing
  | .bytes given =>
    let length := at2 given 0
    if given.length < 2 || lengthWrong length (at1 given 58) || given.length < length + 2 then .missing
    else imageChecks (given.take (length + 2)) length

end Sys2Proof.Machine
end

