-- ==== Sys2Proof/Machine/SpanLine.lean ====
section
/-! DEFINITION. The Span Line Controller's own part (05): hand-over, selection, attempts, line states, receive queue. -/

namespace Sys2Proof.Machine

open Sys2Proof

/-! ### Hand-over (R88, R93 to R95) -/

/-- The line states in which a frame of a kind is taken at hand-over. -/
def sendsKind (line : LineState) (k : FrameKind) : Bool :=
  match line with
  | .active => true
  | .configFault => k == .hail || k == .reply
  | .muted => k == .hail
  | .listen => false

/-- An attempt of the held HAIL is in progress (R88). -/
def sendingHail (c : Slc) : Bool :=
  match c.sending with
  | none => false
  | some x => kindOfBody x.frame.body == .hail

/-- The frame joins its queue, or is lost to a full one; the second part says that a full BULK queue turned it away. -/
def enqueue (c : Slc) (f : TxFrame) : Slc × Bool :=
  match classOfBody f.body with
  | .urgent => (if c.urgent.length < 8 then { c with urgent := c.urgent ++ [f] } else c, false)
  | .timing => (if sendingHail c then { c with hailWaiting := some f } else { c with timing := some f }, false)
  | .bulk => if c.bulk.length < 32 then ({ c with bulk := c.bulk ++ [f] }, false) else (c, true)
  | .service => (if c.service.length < 4 then { c with service := c.service ++ [f] } else c, false)

/-- R88: a block hands a frame to the SLC. -/
def handOver (b : Body) (target : BitVec 4) (s : State) : State :=
  if sendsKind s.slc.line (kindOfBody b) then
    let q := s.slc.sequence + 1
    let r := enqueue { s.slc with sequence := q } { body := b, target := target, seq := q, failed := 0, held := 0 }
    onlyIf r.2 (latch .overrun) { s with slc := r.1 }
  else s

/-! ### Selection and sending (R85 to R89, R93) -/

/-- R89: the frame to send next, if any. -/
def selectFrame (c : Slc) : Option TxFrame :=
  match c.line with
  | .listen => none
  | .muted => if c.probeDue then c.timing else none
  | _ =>
    match c.urgent with
    | f :: _ => some f
    | [] =>
      match c.timing with
      | some f => some f
      | none =>
        match (if c.backoff.isNone then c.bulk else []) with
        | f :: _ => some f
        | [] => c.service.head?

/-- The SLC is on the line: not in LOADING (R84). -/
def onLine (s : State) : Bool := s.stc.station != .loading

/-- R89: on an idle line the selected frame is sent from its start bit, with this attempt's stamp and check. -/
def startFrame (idleBits : Nat) (s : State) : State :=
  if onLine s && s.slc.sending.isNone && idleBitTimes ≤ idleBits then
    match selectFrame s.slc with
    | none => s
    | some f =>
      { s with slc := { s.slc with sending := some { frame := f, image := lineImage s.stc.number s.now f } } }
  else s

/-- A HAIL that waited for the attempt to end goes to the TIMING slot (R88); in LISTEN it is discarded (log 11). -/
def placeWaitingHail (c : Slc) : Slc :=
  match c.hailWaiting with
  | none => c
  | some f => { c with timing := if c.line == .listen then none else some f, hailWaiting := none }

/-- R87: arbitration is lost; the frame stays where it is with its counts unchanged. -/
def loseArbitration (s : State) : State :=
  match s.slc.sending with
  | none => s
  | some _ => { s with slc := placeWaitingHail { s.slc with sending := none } }

/-! ### Attempts (R90 to R94) -/

/-- The queue of a class without its head. -/
def dropHead (k : FrameClass) (c : Slc) : Slc :=
  match k with
  | .urgent => { c with urgent := c.urgent.tail }
  | .timing => { c with timing := none }
  | .bulk => { c with bulk := c.bulk.tail }
  | .service => { c with service := c.service.tail }

/-- A change to the head of the queue of a class. -/
def onHead (k : FrameClass) (f : TxFrame → TxFrame) (c : Slc) : Slc :=
  match k with
  | .urgent => { c with urgent := c.urgent.modifyHead f }
  | .timing => { c with timing := c.timing.map f }
  | .bulk => { c with bulk := c.bulk.modifyHead f }
  | .service => { c with service := c.service.modifyHead f }

/-- R93: entry to MUTED. -/
def enterMuted (s : State) : State :=
  reportPresent .line
    { s with
      slc := { s.slc with
        line := .muted, urgent := [], bulk := [], service := [], probeTimer := some (addUs s.now 2000000),
        probeDue := false } }

/-- R94: entry to LISTEN. -/
def enterListen (s : State) : State :=
  reportPresent .line
    { s with
      slc := { s.slc with
        line := .listen, urgent := [], timing := none, bulk := [], service := [], probeTimer := none,
        probeDue := false } }

/-- R90 success: the frame leaves its queue; a successful probe ends MUTED (R93). -/
def attemptSuccess (k : FrameClass) (s : State) : State :=
  let c := dropHead k { s.slc with droppedRun := 0, duplicateRun := 0 }
  if c.line == .muted then
    let back : LineState := if s.stc.station == .configFault then .configFault else .active
    reportAbsent .line { s with slc := { c with line := back, probeTimer := none, probeDue := false } }
  else { s with slc := c }

/-- R92: a held BULK attempt. -/
def attemptHeld (f : TxFrame) (s : State) : State :=
  let c := { s.slc with droppedRun := 0, duplicateRun := 0, backoff := some (addUs s.now 20000) }
  let c := if f.held + 1 < 4 then onHead .bulk (fun x => { x with held := f.held + 1 }) c else dropHead .bulk c
  { s with slc := c }

/-- R91: a failed attempt; in MUTED the failed probe of R93. -/
def attemptFailed (k : FrameClass) (f : TxFrame) (s : State) : State :=
  if s.slc.line == .muted then
    { s with
      slc := { s.slc with timing := none, probeTimer := some (addUs s.now 2000000), probeDue := false } }
  else if f.failed + 1 < 3 then
    { s with slc := onHead k (fun x => { x with failed := f.failed + 1 }) s.slc }
  else
    let c := dropHead k { s.slc with droppedRun := s.slc.droppedRun + 1 }
    onlyIf (8 ≤ c.droppedRun) enterMuted { s with slc := c }

/-- R94: the duplicate run after a failed attempt. -/
def countBreakOff (r : AttemptResult) (s : State) : State :=
  match r with
  | .mismatch .sequence => { s with slc := { s.slc with duplicateRun := s.slc.duplicateRun + 1 } }
  | .mismatch .stamp => { s with slc := { s.slc with duplicateRun := s.slc.duplicateRun + 1 } }
  | _ => { s with slc := { s.slc with duplicateRun := 0 } }

/-- The outcome table of R90 for the frame being sent. -/
def attemptOutcome (r : AttemptResult) (f : TxFrame) (s : State) : State :=
  let k := classOfBody f.body
  match r with
  | .slots true hold => if hold && k == .bulk then attemptHeld f s else attemptSuccess k s
  | _ =>
    let s := attemptFailed k f (countBreakOff r s)
    onlyIf (2 ≤ s.slc.duplicateRun) enterListen s

/-- R90: an attempt ends. -/
def endAttempt (r : AttemptResult) (s : State) : State :=
  match s.slc.sending with
  | none => s
  | some x =>
    let s := attemptOutcome r x.frame { s with slc := { s.slc with sending := none } }
    { s with slc := placeWaitingHail s.slc }

/-- R92: the back-off ends and BULK is eligible again (DESIGN CHOICE, log 28). -/
def endBackoff (s : State) : State :=
  onlyIf (timerDue s.slc.backoff s.now) (fun s => { s with slc := { s.slc with backoff := none } }) s

/-- R93: the probe timer expires and the HAIL in the slot, or the next one handed over, is due. -/
def expireProbeTimer (s : State) : State :=
  onlyIf (s.slc.line == .muted && timerDue s.slc.probeTimer s.now)
    (fun s => { s with slc := { s.slc with probeTimer := none, probeDue := true } }) s

/-! ### Receiving (R96 to R101) -/

/-- R100: hold after the queue changes from one length to another. -/
def holdAfter (hold : Bool) (before after : Nat) : Bool :=
  if before < after then hold || 24 ≤ after else if after < before then hold && 12 ≤ after else hold

/-- The receive queue replaced, hold following (R100). -/
def setReceiveQueue (q : List RxFrame) (c : Slc) : Slc :=
  { c with receiveQueue := q, hold := holdAfter c.hold c.receiveQueue.length q.length }

/-- This station drives ack and hold slots: not in LISTEN or MUTED (R93, R94). -/
def drivesSlots (c : Slc) : Bool := c.line == .active || c.line == .configFault

/-- The slots of a frame: ack as decided, hold when asserted. -/
def driveSlots (ack : Bool) (s : State) : State :=
  { s with slc := { s.slc with ackDriven := ack && drivesSlots s.slc, holdDriven := s.slc.hold && drivesSlots s.slc } }

/-- The last sequence taken from a node. -/
def setLastSequence (f : LineFrame) (c : Slc) : Slc :=
  { c with lastSequence := setPlace c.lastSequence f.node.toNat (some f.seq) }

/-- R98: an ASK or REPLY for another node. -/
def forAnotherNode (own : BitVec 3) (k : FrameKind) (f : LineFrame) : Bool :=
  (k == .ask || k == .reply) && f.target != own.setWidth 4 && f.target != broadcast

/-- R97 to R100 for a frame of kind `k` that passes R96. -/
def admitFrame (k : FrameKind) (start : Time) (f : LineFrame) (s : State) : State :=
  if place s.slc.lastSequence f.node.toNat none == some f.seq then driveSlots true s
  else if forAnotherNode s.stc.number k f then driveSlots true { s with slc := setLastSequence f s.slc }
  else if 32 ≤ s.slc.receiveQueue.length then driveSlots false (latch .overrun s)
  else if s.slc.hold && classOfKind k != .urgent then driveSlots false s
  else
    let c := setLastSequence f (setReceiveQueue (s.slc.receiveQueue ++ [{ start := start, frame := f }]) s.slc)
    driveSlots true { s with slc := c }

/-- A bad frame: neither slot is driven, nothing else changes (R96). -/
def ignoreFrame (s : State) : State :=
  { s with slc := { s.slc with ackDriven := false, holdDriven := false } }

/-- R101: the frame at the head of the receive queue is accepted and leaves the queue. -/
def acceptHead (s : State) : State :=
  { s with slc := setReceiveQueue s.slc.receiveQueue.tail s.slc }

/-- The dispatch of the head frame when it is of kind `k`: the frame leaves the queue, then `f` acts on it. -/
def dispatchKind (k : FrameKind) (f : RxFrame → State → State) (s : State) : State :=
  match s.slc.receiveQueue with
  | [] => s
  | x :: _ => if rxKind x == some k then f x (acceptHead s) else s

/-- R101: a TALLY or REPLY at the head is accepted, and nothing takes it. -/
def discardHead (s : State) : State :=
  match s.slc.receiveQueue with
  | [] => s
  | x :: _ => if rxKind x == some .tally || rxKind x == some .reply then acceptHead s else s

end Sys2Proof.Machine
end

