-- ==== Sys2Proof/Machine/PeerTable.lean ====
section
/-! DEFINITION. The Peer Table's own part (06): entries, offsets, live set, exit station, layout, the own HAIL. What a
change of the live set sets off in other blocks stands in Fusion.lean. -/

namespace Sys2Proof.Machine

open Sys2Proof

def peer (s : State) (n : Nat) : Peer := place s.ptb.peers n Peer.reset

def setPeer (n : Nat) (p : Peer) (s : State) : State :=
  { s with ptb := { s.ptb with peers := setPlace s.ptb.peers n p } }

/-- A peer whose entry is LIVE; the own entry has no state (R106). -/
def isLive (s : State) (n : Nat) : Bool := n != ownNumber s && (peer s n).state == .live

/-- The LIVE peers, in ascending station number. -/
def livePeers (s : State) : List Nat := stationNumbers.filter (isLive s)

/-- R114: this station and its LIVE peers, in ascending station number. -/
def liveSet (s : State) : List Nat := stationNumbers.filter fun n => n == ownNumber s || isLive s n

/-- R109: a peer's time on this station's clock. An absent offset reads as 0 (DESIGN CHOICE, log 29). -/
def toLocal (s : State) (n : Nat) (t : Time) : Time := t + (peer s n).offset.getD 0

/-- A station's position and length as R115 and R144 read them, 0 when absent (log 29). -/
def positionOf (s : State) (n : Nat) : Nat := if n == ownNumber s then s.ptb.ownP else (peer s n).p.getD 0

def lengthOf (s : State) (n : Nat) : Nat := if n == ownNumber s then s.ptb.ownL else (peer s n).l.getD 0

/-- `n` lies further downstream than `m` for a direction. -/
def furtherDown (d : Direction) (s : State) (n m : Nat) : Bool :=
  match d with
  | .up => positionOf s m < positionOf s n
  | .down => positionOf s n < positionOf s m

/-- The furthest downstream of a list of stations, the first of equals; with the list in ascending number that is the
lower station number (R115, R151). -/
def furthest (d : Direction) (s : State) : List Nat → Option Nat
  | [] => none
  | n :: rest =>
    some (rest.foldl (fun best m => if furtherDown d s m best then m else best) n)

/-- R115: the exit station is chosen anew. -/
def chooseExit (s : State) : State :=
  { s with
    ptb := { s.ptb with exitStation := (furthest s.ses.direction s (liveSet s)).getD (ownNumber s) } }

/-! ### Layout (R116) -/

/-- The peer's platform overlaps this station's. -/
def overlaps (s : State) (p : Peer) : Bool :=
  match p.p, p.l with
  | some pp, some pl => pp < s.ptb.ownP + s.ptb.ownL && s.ptb.ownP < pp + pl
  | _, _ => false

/-- The peer enters the test, and fails it. -/
def layoutFault (s : State) (p : Peer) : Bool :=
  (p.state == .joining || p.state == .live)
    && (p.stationState == some (stationCode .settling) || p.stationState == some (stationCode .ready))
    && (overlaps s p || (p.patternSum.isSome && p.patternSum != some s.ptb.ownPatternSum))

/-- The layout condition as the entries now give it. -/
def layoutFound (s : State) : Bool :=
  s.stc.station != .configFault && stationNumbers.any fun n => n != ownNumber s && layoutFault s (peer s n)

/-- R116: the condition is reassessed, and a change reported to the CND. -/
def assessLayout (s : State) : State :=
  let found := layoutFound s
  let s' := { s with ptb := { s.ptb with layout := found } }
  if found && !s.ptb.layout then reportPresent .layout s'
  else if !found && s.ptb.layout then reportAbsent .layout s'
  else s'

/-! ### Clock offset (R107, R108) -/

/-- A jump: the measured offset lies more than 5,000 µs from the held one. -/
def isJump (held measured : Time) : Bool := 5000 < (timeDiff measured held).natAbs

/-- R107: the smoothed offset. -/
def smoothed (held measured : Time) : Time := held + BitVec.ofInt 32 (truncDiv (timeDiff measured held) 8)

/-- R107, R108: a peer entry after an arrival report with a stamp and a receive start time. -/
def hear (stamp start : Time) (p : Peer) : Peer :=
  let measured := start - stamp
  let p : Peer :=
    match p.offset with
    | none => { p with offset := some measured }
    | some held =>
      if isJump held measured then
        if p.state == .absent then { p with offset := some measured }
        else { p with offset := some measured, state := .joining, firstHail := none }
      else { p with offset := some (smoothed held measured) }
  { p with lastHeard := some start }

/-! ### Entry states (R111, R112) -/

/-- The second qualifying HAIL within 1 s of the first (R111); the difference is modulo 2^32 over any span (DESIGN CHOICE,
log 47). -/
def secondQualifying (p : Peer) (t : Time) : Bool :=
  match p.firstHail with
  | none => false
  | some f => elapsed f t ≤ 1000000

/-- R111: the entry after a HAIL with receive start time `t`. -/
def hailMove (qualifies : Bool) (t : Time) (p : Peer) : Peer :=
  if qualifies then
    match p.state with
    | .live => p
    | .joining =>
      if secondQualifying p t then { p with state := .live, firstHail := none } else { p with firstHail := some t }
    | .absent => { p with state := .joining, firstHail := some t }
    | .silent => { p with state := .joining, firstHail := some t }
  else { p with state := .joining, firstHail := none }

/-- R112: the silence expiry of an entry has come. In the expiry's own microsecond it counts as passed, at a HAIL's dispatch
too (DESIGN CHOICE, log 49); 2^31 µs or more after it, it compares as not yet due (DESIGN CHOICE, log 47). -/
def silenceDue (p : Peer) (now : Time) : Bool :=
  match p.lastHeard with
  | none => false
  | some t => reached (addUs t 1000001) now

/-- R112: an entry in JOINING or LIVE whose silence expiry has come (`silenceDue`, logs 47 and 49) becomes SILENT. -/
def silence (now : Time) (p : Peer) : Peer :=
  if (p.state == .joining || p.state == .live) && silenceDue p now then
    { p with state := .silent, firstHail := none }
  else p

/-- R110: the content a HAIL puts into its sender's entry. -/
def takeHailContent (payload : List Byte) (p : Peer) : Peer :=
  { p with p := some (at4 payload 0), l := some (at2 payload 4), patternSum := some (wordAt payload 12),
           stationState := some (payload.getD 7 0) }

/-- R110: every code of the HAIL is one of those listed. -/
def hailCodesKnown (payload : List Byte) : Bool :=
  at1 payload 6 ≤ 3 && inRange 1 3 (at1 payload 7) && at1 payload 8 ≤ 3

/-- R111: the HAIL reports READY, ACTIVE, and a top cause other than LINE, with known codes (R110). -/
def hailQualifies (payload : List Byte) : Bool :=
  hailCodesKnown payload && payload.getD 7 0 == stationCode .ready && payload.getD 6 0 == lineCode .active
    && payload.getD 11 0 != topCauseCode (some .line)

/-! ### The own HAIL (R113) -/

/-- The content of the own HAIL as the part now stands. -/
def ownHail (s : State) : HailBody :=
  { p := s.ptb.ownP, l := s.ptb.ownL, line := s.slc.line, station := s.stc.station, session := s.ses.state,
    number := s.ses.number, topCause := topCause s, patternSum := s.ptb.ownPatternSum, imageSum := s.stc.imageSum }

/-- The own HAIL is handed over. -/
def handHail (s : State) : State := handOver (.hail (ownHail s)) broadcast s

/-- R113: the HAIL timer's hand-over, and the next one 250,000 µs later. -/
def hailTimerDue (s : State) : State :=
  match s.ptb.hailTimer with
  | none => s
  | some at_ =>
    onlyIf (reached at_ s.now)
      (fun s =>
        let s := handHail s
        { s with ptb := { s.ptb with hailTimer := some (addUs at_ 250000) } }) s

end Sys2Proof.Machine
end

