-- ==== Sys2Proof/Machine/Assembly.lean ====
section
/-! DEFINITION. The Wagon Assembler and the Record Store (09): spacings, pattern trials, assembly passes, records, the ring,
TALLY, and the store's answer to a deferred request (R181). -/

namespace Sys2Proof.Machine

open Sys2Proof

/-! ### Shared reads and writes -/

/-- The estimate table entry of an ordinal. -/
def findEntry (s : State) (j : Nat) : Option Entry := s.fus.table.find? fun e => e.ordinal == j

/-- A change to the entry of an ordinal. -/
def changeEntry (j : Nat) (f : Entry → Entry) (s : State) : State :=
  { s with fus := { s.fus with table := s.fus.table.map fun e => if e.ordinal == j then f e else e } }

def isFinal (e : Entry) : Bool := e.fused.isSome

/-- A change to the current summary, when a session is open. -/
def onCurrent (f : Summary → Summary) (s : State) : State :=
  { s with ses := { s.ses with current := s.ses.current.map f } }

/-- R175, R181: a REPLY to a recorder. -/
def reply (node : BitVec 4) (status : ReplyStatus) (asked : Byte) (content : Content) (s : State) : State :=
  handOver (.reply status asked content) node s

/-! ### Spacings (R157, R158) -/

def findItem (s : State) (j : Nat) : Option SpacingItem := s.was.items.find? fun x => x.ordinal == j

/-- R158: the spacing between two axles, from their first entry times and speeds. -/
def spacingBetween (x y : SpacingItem) : Int := roundDiv (timeDiff y.time x.time * ((x.speed + y.speed : Nat) : Int)) 2000000

/-- The spacing of ordinal `j` when it has been formed. -/
def spacingOf (s : State) (j : Nat) : Option Int := (findItem s j).bind (·.spacing)

/-- R158: the spacing of `j` is formed when items `j` and `j + 1` are there; it is not changed afterwards. -/
def formSpacing (j : Nat) (s : State) : State :=
  match findItem s j, findItem s (j + 1) with
  | some x, some y =>
    if x.spacing.isSome then s
    else
      { s with was := { s.was with items := s.was.items.map fun z =>
          if z.ordinal == j then { z with spacing := some (spacingBetween x y) } else z } }
  | _, _ => s

/-- R157: H rises to an ordinal. -/
def raiseHighest (j : Nat) (s : State) : State :=
  { s with was := { s.was with highest := max s.was.highest j } }

/-- R157: the ordinals the spacing list can hold. -/
def itemAllowed (s : State) (j : Nat) : Bool := s.was.cursor ≤ j && j ≤ s.was.cursor + 127 && (findItem s j).isNone

/-- R157, R158: the first entry time and speed of an ordinal are handed over. -/
def takeFirstEntry (j : Nat) (time : Time) (speed : Nat) (s : State) : State :=
  let s := raiseHighest j s
  if itemAllowed s j then
    let item : SpacingItem := { ordinal := j, time := time, speed := speed, spacing := none }
    formSpacing j (formSpacing (j - 1) { s with was := { s.was with items := s.was.items ++ [item] } })
  else s

/-! ### Pattern trials (R159, R160, R162, R163) -/

/-- The outcome of a test. -/
inductive Trial where
  | hit
  | fail
  | wait
deriving DecidableEq, Repr

/-- A spacing against a range; an unknown one waits, or fails where unknown spacings count as outside. -/
def testSpacing (unknownFails : Bool) (x : Option Int) (r : Range) : Trial :=
  match x with
  | some d => if (r.least : Int) ≤ d && d ≤ (r.most : Int) then .hit else .fail
  | none => if unknownFails then .fail else .wait

/-- Any failure fails; otherwise anything unknown waits. -/
def joinTrials (a b : Trial) : Trial :=
  match a, b with
  | .fail, _ => .fail
  | _, .fail => .fail
  | .wait, _ => .wait
  | _, .wait => .wait
  | .hit, .hit => .hit

/-- The spacings inside a group that begins at `u`, in the order of the ranges. -/
def testInside (s : State) (unknownFails : Bool) : Nat → List Range → Trial
  | _, [] => .hit
  | u, r :: rest => joinTrials (testSpacing unknownFails (spacingOf s u) r) (testInside s unknownFails (u + 1) rest)

/-- R159, and R162, R163 where they are in force: a pattern at the cursor. -/
def testPattern (s : State) (p : Pattern) : Trial :=
  let u := s.was.cursor
  let closed := s.ses.closedForMatching
  let last := u + p.axles - 1
  let unknownFails := closed || s.was.roomForce
  if closed && s.was.highest < last then .fail
  else
    let gap :=
      if closed && last == s.was.highest then .hit else testSpacing unknownFails (spacingOf s last) p.gap
    joinTrials (testInside s unknownFails u p.spacings) gap

/-- R160: the patterns in table order from number `k`; none when one waits. -/
def trial (s : State) : Nat → List Pattern → Option Group
  | _, [] => some { pattern := none, first := s.was.cursor, count := 1 }
  | k, p :: rest =>
    match testPattern s p with
    | .hit => some { pattern := some k, first := s.was.cursor, count := p.axles }
    | .wait => none
    | .fail => trial s (k + 1) rest

/-- The highest ordinal whose entry the table holds, 0 for none. -/
def highestEntry (s : State) : Nat := s.fus.table.foldl (fun n e => max n e.ordinal) 0

/-- R162, R163: an ordinal with no entry that is taken as an unweighed axle. -/
def missing (s : State) (j : Nat) : Bool :=
  (findEntry s j).isNone && s.was.cursor ≤ j
    && ((s.ses.closedForMatching && j ≤ s.was.highest) || (s.was.roomForce && j < highestEntry s))

/-- R161: an axle is ready. -/
def axleReady (s : State) (j : Nat) : Bool :=
  match findEntry s j with
  | some e => isFinal e
  | none => missing s j

/-- The ordinals of a group. -/
def groupOrdinals (g : Group) : List Nat := (List.range g.count).map (g.first + ·)

/-- An ordinal is one of a group's. -/
def inGroup (g : Group) (j : Nat) : Bool := g.first ≤ j && j < g.first + g.count

def groupReady (s : State) (g : Group) : Bool := (groupOrdinals g).all (axleReady s)

/-! ### The wagon record (R165 to R167) -/

/-- The FINAL values of an ordinal, none for a missing one. -/
def fusedOf (s : State) (j : Nat) : Option Fused := (findEntry s j).bind (·.fused)

/-- R165: an axle of a record; a missing ordinal enters unweighed. -/
def axleOf (x : Option Fused) : AxleWeight :=
  match x with
  | some f => { w := f.f, grade := f.grade, share := f.share, reversal := f.reversal }
  | none => { w := 0, grade := .n, share := none, reversal := false }

def gradeRank : Grade → Nat
  | .a => 0
  | .b => 1
  | .c => 2
  | .n => 3

def worse (g h : Grade) : Grade := if gradeRank g < gradeRank h then h else g

/-- R165: the mean of the speeds there are, in 0.1 km/h. -/
def meanSpeedOf (speeds : List Nat) : Nat :=
  if speeds.isEmpty then 0 else speedField (roundNat speeds.sum speeds.length)

/-- R166: a bogie's share of the gross, in per mille. -/
def bogieShare (part gross : Int) : Int := roundDiv (part * 1000) gross.toNat

/-- R166: the longitudinal check. -/
def longitudinalFault (limit split : Nat) (axles : List AxleWeight) (gross : Int) : Bool :=
  axles.all (fun a => a.grade != .n) && 0 < gross
    && (limit : Int) < max (bogieShare (total ((axles.take split).map (·.w))) gross)
        (bogieShare (total ((axles.drop split).map (·.w))) gross)

/-- R167: the lateral check. -/
def lateralFault (lo hi : Nat) (axles : List AxleWeight) : Bool :=
  axles.any fun a =>
    match a.share with
    | none => false
    | some x => x < lo || hi < x

/-- The configured pattern of a group. -/
def patternOf (s : State) (g : Group) : Option Pattern := g.pattern.bind fun k => s.settings.patterns[k - 1]?

def recordKindOf (p : Option Pattern) : RecordKind :=
  match p with
  | none => .unmatched
  | some p => if p.loco then .loco else .wagon

/-- R166: overload and longitudinal, for a WAGON only. -/
def overloadFault (p : Option Pattern) (gross : Int) : Bool :=
  match p with
  | none => false
  | some p => !p.loco && p.maxGross < gross

def wagonLongitudinal (limit : Nat) (p : Option Pattern) (axles : List AxleWeight) (gross : Int) : Bool :=
  match p with
  | none => false
  | some p => !p.loco && longitudinalFault limit (p.split.getD 0) axles gross

/-- R165 to R167, with the index, session and wagon number of storing (R168 steps 1 and 2). -/
def buildRecord (s : State) (g : Group) : WagonRecord :=
  let values := (groupOrdinals g).map (fusedOf s)
  let there := values.filterMap id
  let axles := values.map axleOf
  let gross := total (axles.map (·.w))
  let p := patternOf s g
  { index := s.rst.nextIndex, session := s.ses.number, wagon := s.was.wagons + 1, kind := recordKindOf p,
    pattern := g.pattern, first := g.first, axles := axles, gross := gross,
    grade := axles.foldl (fun x a => worse x a.grade) .a, meanSpeed := meanSpeedOf (there.map (·.speed)),
    overload := overloadFault p gross, lateral := lateralFault s.settings.latLo s.settings.latHi axles,
    longitudinal := wagonLongitudinal s.settings.longLimit p axles gross,
    overspeed := there.any (·.overspeed), creep := there.any (·.creep), reversal := there.any (·.reversal),
    forced := (groupOrdinals g).any fun j => ((findEntry s j).map (·.forced)).getD true,
    misaligned := min 15 (there.map (·.misaligned)).sum, unchecked := min 255 (there.map (·.unchecked)).sum }

/-! ### Storing (R168 to R170, R181) -/

/-- R169: the oldest record of a full ring is removed first; a read pointer on it moves to the new oldest, with OVERRUN. -/
def overwriteOldest (s : State) : State :=
  match s.rst.ring with
  | [] => s
  | oldest :: rest =>
    if s.rst.ring.length < 128 then s
    else if s.rst.readPointer == oldest.index then
      let next := (rest.head?.map (·.index)).getD s.rst.nextIndex
      latch .overrun { s with rst := { s.rst with ring := rest, readPointer := next } }
    else { s with rst := { s.rst with ring := rest } }

/-- R170: a TALLY when this station is the exit station. -/
def sendTally (r : WagonRecord) (s : State) : State :=
  onlyIf (s.ptb.exitStation == ownNumber s) (handOver (.tally r) broadcast) s

/-- R181: the record is offered to the deferred request. -/
def answerDeferred (r : WagonRecord) (s : State) : State :=
  match s.rst.deferred with
  | none => s
  | some d =>
    if d.session == r.session && d.wagon == r.wagon then
      reply d.node .ok askFetchWagon (.record r) { s with rst := { s.rst with deferred := none } }
    else s

/-- R181: the deferred request is answered RANGE and cleared. -/
def refuseDeferred (s : State) : State :=
  match s.rst.deferred with
  | none => s
  | some d => reply d.node .range askFetchWagon .none { s with rst := { s.rst with deferred := none } }

/-- R168 steps 1 and 3, R169: the counter rises past the record's index and the record joins the ring as its newest. -/
def joinRing (r : WagonRecord) (s : State) : State :=
  let s := overwriteOldest { s with rst := { s.rst with nextIndex := s.rst.nextIndex + 1 } }
  { s with rst := { s.rst with ring := s.rst.ring ++ [r] } }

/-- R168 step 4: the current summary counts one more wagon. -/
def countWagon (s : State) : State := onCurrent (fun m => { m with wagons := countUp 65535 m.wagons }) s

/-- R168, steps 1 to 6. -/
def storeRecord (r : WagonRecord) (s : State) : State :=
  let s := joinRing r { s with was := { s.was with wagons := r.wagon } }
  answerDeferred r (sendTally r (countWagon s))

/-- The late counts of released entries go to the current summary (R150). -/
def addLate (n : Nat) (s : State) : State := onCurrent (fun m => { m with late := min 65535 (m.late + n) }) s

/-- R150: the entries of stored ordinals are released. Room force ends when there is one (R163). -/
def releaseEntries (g : Group) (s : State) : State :=
  let gone := s.fus.table.filter fun e => inGroup g e.ordinal
  let s := addLate (gone.map (·.late)).sum s
  let s := { s with fus := { s.fus with table := s.fus.table.filter fun e => !inGroup g e.ordinal } }
  if gone.isEmpty then s else { s with was := { s.was with roomForce := false } }

/-- R164: the cursor moves past a stored group, its items go, its entries are released. -/
def leaveGroup (g : Group) (s : State) : State :=
  releaseEntries g
    { s with
      was := { s.was with
        cursor := g.first + g.count, group := none,
        items := s.was.items.filter fun x => !inGroup g x.ordinal } }

/-- R164: a held group whose axles are ready is stored. -/
def storeGroup (g : Group) (s : State) : State := leaveGroup g (storeRecord (buildRecord s g) s)

/-- R163: room force ends when a pass under it stops without storing. -/
def endPass (stored : Bool) (s : State) : State :=
  if stored then s else { s with was := { s.was with roomForce := false } }

/-- R161 item 2: a trial may be made at the cursor. -/
def cursorReachable (s : State) : Bool :=
  s.was.cursor ≤ s.was.highest
    && ((findItem s s.was.cursor).isSome || (findEntry s s.was.cursor).isSome || missing s s.was.cursor)

/-- R161: a pass, with its repetitions counted down; `stored` says whether it has stored a record. -/
def passLoop : Nat → Bool → State → State
  | 0, stored, s => endPass stored s
  | n + 1, stored, s =>
    match s.was.group with
    | some g => if groupReady s g then passLoop n true (storeGroup g s) else endPass stored s
    | none =>
      if cursorReachable s then
        match trial s 1 s.settings.patterns with
        | none => endPass stored s
        | some g => passLoop n stored { s with was := { s.was with group := some g } }
      else endPass stored s

/-- Enough repetitions for every ordinal up to H: a trial and a storing move the cursor by one at least. -/
def passLimit (s : State) : Nat := 2 * (s.was.highest + 2 - s.was.cursor) + 2

/-- R161: one assembly pass. The session tests its entries' release sets off come when it stops (log 12). -/
def pass (s : State) : State := passLoop (passLimit s) false s

/-- R172: the WAS at IDLE after SHUT. -/
def clearAssembly (s : State) : State := { s with was := Was.reset }

end Sys2Proof.Machine
end

