-- ==== Sys2Proof/Machine/LoadFrontEnd.lean ====
section
/-! DEFINITION. The Load Front End (01): calibration, platform samples, history, zero tracking. -/

namespace Sys2Proof.Machine

open Sys2Proof

/-- R2: a raw value at either converter extreme. -/
def rawExtreme (r : BitVec 24) : Bool := r.toInt == -8388608 || r.toInt == 8388607

/-- R3, R4: the load of a channel from its raw value. -/
def channelLoad (zc : Int) (sc : Nat) (r : BitVec 24) : ChannelLoad :=
  let x := roundDiv ((r.toInt - zc) * sc) 1048576
  let kg := clampInt (-50000) 200000 x
  { kg := kg, saturated := rawExtreme r || kg != x }

/-- R3: the four channels of one instant, each with its own values. -/
def instantLoads (x : Settings) (r0 r1 r2 r3 : BitVec 24) : InstantLoads :=
  { c0 := channelLoad x.zc0 x.sc0 r0, c1 := channelLoad x.zc1 x.sc1 r1, c2 := channelLoad x.zc2 x.sc2 r2,
    c3 := channelLoad x.zc3 x.sc3 r3 }

def instantSum (i : InstantLoads) : Int := i.c0.kg + i.c1.kg + i.c2.kg + i.c3.kg

def instantLeft (i : InstantLoads) : Int := i.c0.kg + i.c2.kg

def instantSaturated (i : InstantLoads) : Bool := i.c0.saturated || i.c1.saturated || i.c2.saturated || i.c3.saturated

/-- R5 to R7: the platform sample of four instants. -/
def platformSample (stamp : Time) (group : List InstantLoads) : Sample :=
  { stamp := stamp,
    total := clampInt (-200000) 800000 (roundDiv (total (group.map instantSum)) 4),
    left := clampInt (-100000) 400000 (roundDiv (total (group.map instantLeft)) 4),
    saturated := group.any instantSaturated }

/-- R8: the newest sample joins; with 1,024 held the oldest goes. -/
def joinHistory (history : List Sample) (x : Sample) : List Sample :=
  (if history.length < 1024 then history else history.tail) ++ [x]

/-- R11: block gathering is in effect. -/
def gathering (s : State) : Bool :=
  s.stc.station == .settling || (s.stc.station == .ready && s.ses.state == .idle)

/-- R11: the block mean. -/
def blockMean (block : List Sample) : Int := roundDiv (total (block.map (·.total))) 800

/-- R11: the test of a full block. -/
def blockPasses (settling : Bool) (block : List Sample) : Bool :=
  !block.any (·.saturated) && spreadOf (block.map (·.total)) ≤ 1000
    && (!settling || (-20000 ≤ blockMean block && blockMean block ≤ 20000))

/-- R12, R197: the first passing block in SETTLING sets Z and Z0, and the station becomes READY. -/
def settle (mean : Int) (s : State) : State :=
  { s with lfe := { s.lfe with z := mean, z0 := mean }, stc := { s.stc with station := .ready } }

/-- R14: a passing block in READY moves Z toward its mean by at most 50 kg. -/
def moveZero (z mean : Int) : Int := clampInt (-20000) 20000 (z + clampInt (-50) 50 (mean - z))

/-- R15: after a block test in READY. -/
def checkZeroLimit (s : State) : State :=
  onlyIf (s.settings.zeroLimit < (s.lfe.z - s.lfe.z0).natAbs) (latch .zero) s

/-- R11 to R15: the test of the block, which is then emptied. -/
def testBlock (s : State) : State :=
  let block := s.lfe.block
  let s := { s with lfe := { s.lfe with block := [] } }
  if s.stc.station == .settling then
    onlyIf (blockPasses true block) (settle (blockMean block)) s
  else
    checkZeroLimit
      (onlyIf (blockPasses false block)
        (fun s => { s with lfe := { s.lfe with z := moveZero s.lfe.z (blockMean block) } }) s)

/-- A formed sample in zero tracking (R11, R13). -/
def gatherSample (x : Sample) (s : State) : State :=
  if gathering s then
    let s := { s with lfe := { s.lfe with block := s.lfe.block ++ [x] } }
    onlyIf (800 ≤ s.lfe.block.length) testBlock s
  else s

/-- R5, R7, R8: a sample is formed from a full group. -/
def formSample (stamp : Time) (s : State) : State :=
  let x := platformSample stamp s.lfe.group
  let s := { s with lfe := { s.lfe with group := [], history := joinHistory s.lfe.history x } }
  gatherSample x (onlyIf x.saturated (latch .saturate) s)

/-- The LFE converts in SETTLING and READY (R1). -/
def converting (s : State) : Bool := s.stc.station == .settling || s.stc.station == .ready

/-- R1 to R5: one instant, due at `at_`; the next falls 625 µs later. -/
def takeInstant (at_ : Time) (loads : InstantLoads) (s : State) : State :=
  let s := { s with lfe := { s.lfe with group := s.lfe.group ++ [loads], nextInstant := some (addUs at_ 625) } }
  onlyIf (4 ≤ s.lfe.group.length) (formSample at_) s

/-- R1: an instant when one is due. -/
def instantDue (loads : InstantLoads) (s : State) : State :=
  match s.lfe.nextInstant with
  | none => s
  | some at_ => onlyIf (converting s && reached at_ s.now) (takeInstant at_ loads) s

/-- R13: the block is abandoned when the session state leaves IDLE in READY. -/
def abandonBlock (s : State) : State :=
  if s.stc.station == .ready then { s with lfe := { s.lfe with block := [] } } else s

/-- R10: the live net load, absent with an empty history. -/
def netLoad (s : State) : Option Int := s.lfe.history.getLast?.map fun x => x.total - s.lfe.z

/-- R9: the samples within a span, both ends included; none when the span is expired. -/
def readHistory (history : List Sample) (start finish : Time) : Option (List Sample) :=
  match history with
  | [] => none
  | oldest :: _ =>
    if earlier start oldest.stamp then none
    else some (history.filter fun x => !earlier x.stamp start && !earlier finish x.stamp)

end Sys2Proof.Machine
end

