-- ==== Sys2Proof/Machine/StepAnalysis.lean ====
section
/-! DEFINITION. The Step Analyser's own part (04): windows, measurements, steps, the own estimate. What a finished
estimate sets off in other blocks stands in Tracking.lean. -/

namespace Sys2Proof.Machine

open Sys2Proof

/-! ### Window bounds (R60 to R65), as times -/

/-- The guard of an interval (R60). -/
def guardOf (interval : Nat) : Nat := min (interval / 4) 50000

/-- The after-window of an event at `ta`, with or without a successor's edge time (R60, R63). -/
def afterWindow (ta : Time) (successor : Option Time) : Time × Time :=
  match successor with
  | none => (addUs ta 50000, addUs ta 450000)
  | some tb =>
    let i := elapsed ta tb
    let g := guardOf i
    (addUs ta g, addUs ta (min (i - g) (g + 400000)))

/-- The before-window of an event at `tb`, with or without a predecessor's edge time (R61, R62). -/
def beforeWindow (predecessor : Option Time) (tb : Time) : Time × Time :=
  match predecessor with
  | none => (tb - BitVec.ofNat 32 450000, tb - BitVec.ofNat 32 50000)
  | some ta =>
    let i := elapsed ta tb
    let g := guardOf i
    (addUs ta (max g (i - g - 400000)), addUs ta (i - g))

/-- R64: a before-window is due at the first microsecond after T_b + 500,000. -/
def beforeDue (tb : Time) : Time := addUs tb 500001

/-- R65: an after-window is due at the first microsecond after its end plus 500,000. -/
def afterDue (ta : Time) (successor : Option Time) : Time := addUs (afterWindow ta successor).2 500001

/-! ### Measuring (R67, R68) -/

/-- The result of the samples of a window, or none when they are not usable. -/
def windowResult (samples : List Sample) : Option WindowResult :=
  if samples.any (·.saturated) || samples.length < 4 then none
  else some
    { mean := roundDiv (total (samples.map (·.total))) samples.length,
      left := roundDiv (total (samples.map (·.left))) samples.length,
      spread := spreadOf (samples.map (·.total)), count := samples.length }

/-- The mark a window takes when it is measured over `span`. -/
def measure (history : List Sample) (span : Time × Time) : Mark :=
  match (readHistory history span.1 span.2).bind windowResult with
  | none => .invalid
  | some r => .evaluated r

/-- The event at place `k` of the timeline, and the edge times of its neighbours (R59). -/
def eventAt (timeline : List Event) (k : Nat) : Option Event := timeline[k]?

def edgeBefore (timeline : List Event) (k : Nat) : Option Time :=
  if k == 0 then none else (timeline[k - 1]?).map (·.edge)

def edgeAfter (timeline : List Event) (k : Nat) : Option Time := (timeline[k + 1]?).map (·.edge)

def isPending (m : Mark) : Bool := m == .pending

/-- Both marks have left pending (R49). -/
def bothDone (e : Event) : Bool := !isPending e.before && !isPending e.after

/-! ### Steps (R70, R71) -/

/-- The difference of two results: the first less the second, spreads in the order before, after. -/
def stepOf (big small before after : WindowResult) : Step :=
  { total := big.mean - small.mean, left := big.left - small.left, spreadBefore := before.spread,
    spreadAfter := after.spread }

/-- The step of a normal event whose windows are done: an entry step (after less before) or an exit step (before less
after); none when either window is unusable. -/
def eventStep (e : Event) : Option Step :=
  match e.before, e.after with
  | .evaluated b, .evaluated a => some (if e.kind == .normalExit then stepOf b a b a else stepOf a b b a)
  | _, _ => none

/-- R69: the results of this event are offered to its record. -/
def offered (e : Event) : Bool :=
  e.latest && e.ordinal != 0 && (e.kind == .normalEntry || e.kind == .normalExit)

/-- R70, R71: the side of the record the event belongs to is settled with a step, or without one. -/
def settleRecord (kind : EventKind) (step : Option Step) (r : OwnRecord) : OwnRecord :=
  if kind == .normalExit then { r with exitStep := step, exitSettled := true }
  else { r with entryStep := step, entrySettled := true }

/-! ### The own estimate (R73 to R78) -/

/-- R73: exit recorded after entry, and both settled. -/
def estimateReady (r : OwnRecord) : Bool :=
  r.exit.isSome && r.exitAfterEntry && r.entrySettled && r.exitSettled

/-- R74: the weight from the steps held. -/
def estimateWeight (e x : Option Step) : Int :=
  match e, x with
  | some e, some x => roundDiv (e.total + x.total) 2
  | some e, none => e.total
  | none, some x => x.total
  | none, none => 0

/-- R74: the tolerance. -/
def tolerance (tol : Nat) (w : Int) : Int := max 200 (roundDiv (w * tol) 1000)

/-- R74: the base grade. -/
def baseGrade (tol : Nat) (e x : Option Step) : Grade :=
  match e, x with
  | some e, some x =>
    if ((e.total - x.total).natAbs : Int) ≤ tolerance tol (estimateWeight (some e) (some x)) then .a else .b
  | none, none => .n
  | _, _ => .c

def stepSpread : Option Step → Int
  | none => 0
  | some s => max s.spreadBefore s.spreadAfter

/-- R75: the largest spread among the windows used. -/
def largestSpread (e x : Option Step) : Int := max (stepSpread e) (stepSpread x)

/-- R75: the downgrade for spread. -/
def gradeForSpread (wide : Bool) (g : Grade) : Grade :=
  if wide then
    match g with
    | .a => .b
    | .b => .c
    | .c => .c
    | .n => .n
  else g

/-- R75: the downgrade for overspeed. -/
def gradeForOverspeed (overspeed : Bool) (g : Grade) : Grade :=
  if overspeed then
    match g with
    | .a => .c
    | .b => .c
    | .c => .c
    | .n => .n
  else g

/-- R76: a weight accepted as an axle load. -/
def plausible (w : Int) : Bool := 500 ≤ w && w ≤ 60000

/-- R77: the sums of totals and lefts over the steps used. -/
def stepTotals (e x : Option Step) : Int := (e.map (·.total)).getD 0 + (x.map (·.total)).getD 0

def stepLefts (e x : Option Step) : Int := (e.map (·.left)).getD 0 + (x.map (·.left)).getD 0

/-- R77: the left share. -/
def leftShare (grade : Grade) (e x : Option Step) : Option Nat :=
  if grade == .n || stepTotals e x ≤ 0 then none
  else some (clampInt 0 1000 (roundDiv (stepLefts e x * 1000) (stepTotals e x).toNat)).toNat

/-- R75, R76: the grade before the plausibility test. -/
def gradeBeforePlausible (x : Settings) (r : OwnRecord) : Grade :=
  gradeForOverspeed r.overspeed
    (gradeForSpread (x.spreadLimit < largestSpread r.entryStep r.exitStep) (baseGrade x.tol r.entryStep r.exitStep))

/-- R76: the estimate is implausible. -/
def isImplausible (x : Settings) (r : OwnRecord) : Bool :=
  gradeBeforePlausible x r != .n && !plausible (estimateWeight r.entryStep r.exitStep)

/-- R74 to R78: the own estimate of a record from the steps it holds. -/
def formEstimate (x : Settings) (r : OwnRecord) : Estimate :=
  let bad := isImplausible x r
  let grade := if bad then .n else gradeBeforePlausible x r
  { ordinal := r.ordinal, revision := r.revision, w := estimateWeight r.entryStep r.exitStep, grade := grade,
    share := leftShare grade r.entryStep r.exitStep, entrySpeed := r.firstSpeed, entryTime := r.firstTime,
    flags := { overspeed := r.overspeed, creep := r.creep, reversal := r.reversal, implausible := bad } }

/-- The record with its estimate done (R73, R76). -/
def finishRecord (x : Settings) (r : OwnRecord) : OwnRecord :=
  let e := formEstimate x r
  { r with implausible := e.flags.implausible, done := true, estimate := some e }

/-- R81: at a session reset an unsettled side settles without a step. -/
def settleWithoutSteps (r : OwnRecord) : OwnRecord := { r with entrySettled := true, exitSettled := true }

end Sys2Proof.Machine
end

