-- ==== Sys2Proof/Machine/Closing.lean ====
section
/-! DEFINITION. Where a session begins and ends, with what both set off in every block: the tracker's fresh start (R56, R81),
opening and adoption (R122, R123), the draining tests (R130) and the close (R132). -/

namespace Sys2Proof.Machine

open Sys2Proof

/-- The session state is open (R120). -/
def sessionOpen (s : State) : Bool := s.ses.state != .idle

/-! ### The number mark (R121) -/

/-- n is later than m. -/
def laterNumber (n m : Word16) : Bool := inRange 1 32767 (n - m).toNat

def raiseMark (n : Word16) (mark : Option Word16) : Option Word16 :=
  match mark with
  | none => some n
  | some m => if laterNumber n m then some n else some m

/-- R121: the mark meets a number. -/
def meetNumber (n : Word16) (s : State) : State :=
  { s with ses := { s.ses with mark := raiseMark n s.ses.mark } }

/-! ### The tracker's fresh start (R56, R81) -/

/-- R81: a pending record is completed from the steps it holds, and its STEP carries the ended session's number. The
estimate itself reaches the Fusion Unit with no session of its own open and is discarded there (R141; log 13). -/
def completeRecord (ended : Word16) (s : State) (r : OwnRecord) : State :=
  if r.done then s else handOver (.step ended (formEstimate s.settings (settleWithoutSteps r))) broadcast s

/-- R56: counter, list, stacks and timeline are emptied; pending records are completed, in the order they were created
(DESIGN CHOICE, log 40), then every record discarded. -/
def freshStart (ended : Word16) (s : State) : State :=
  let s := s.atr.records.foldl (completeRecord ended) s
  { s with atr := Atr.reset }

/-! ### Opening and adoption (R122, R123) -/

def haltUs (s : State) : Nat := s.settings.haltS * 1000000 + 1

def closeUs (s : State) : Nat := s.settings.closeS * 1000000 + 1

/-- R134: a summary as begun. -/
def beginSummary (number : Word16) (direction : Direction) (tf tc : Time) : Summary :=
  { number := number, direction := direction, firstEdge := tf, lastCrossing := tc, ownAxles := 0, wagons := 0,
    phantoms := 0, reversals := 0, haltedMs := 0, late := 0, mismatch := false, shuts := List.replicate 8 none }

/-- R122 items 1 to 5, and R123: the SES's own fields; `from_` is the time the two timers run from. -/
def beginFields (number : Word16) (direction : Direction) (checked : Bool) (opener : Nat) (tf tOpen from_ : Time)
    (s : State) : State :=
  { s with ses :=
    { s.ses with
      state := .running, number := number, direction := direction, checked := checked, opener := some opener,
      tf := some tf, tOpen := some tOpen, tc := some tOpen, mark := raiseMark number s.ses.mark,
      haltExpiry := some (addUs from_ (haltUs s)), closeExpiry := some (addUs from_ (closeUs s)), nextHaltTick := none,
      closePending := false, closedForMatching := false, drainLimit := none,
      current := some (beginSummary number direction tf tOpen) } }

/-- R139: the FUS takes the session's number as current. -/
def fusBegin (number : Word16) (s : State) : State :=
  { s with fus := { s.fus with current := some number, superseded := none } }

/-- R122 items 1 to 6, and R123: a session begins, with what the begin sets off (R136). -/
def beginSession (number : Word16) (direction : Direction) (checked : Bool) (opener : Nat) (tf tOpen from_ : Time)
    (s : State) : State :=
  let ended := s.ses.number
  let s := abandonBlock (beginFields number direction checked opener tf tOpen from_ s)
  chooseExit (fusBegin number (freshStart ended s))

/-! ### The close (R132) -/

/-- R135: a recorded SHUT differs from a summary's own counts. -/
def shutDiffers (m : Summary) (x : Option ShutCounts) : Bool :=
  match x with
  | none => false
  | some c => c.axles != m.ownAxles || c.wagons != m.wagons

/-- R132 item 2: the summary as it is closed. -/
def closeSummary (axles : Nat) (m : Summary) : Summary :=
  let m := { m with ownAxles := axles }
  { m with mismatch := m.mismatch || m.shuts.any (shutDiffers m) }

/-- R30: both last speeds become absent. -/
def clearLastSpeeds (s : State) : State :=
  { s with whu := { endA := { s.whu.endA with lastSpeed := none }, endB := { s.whu.endB with lastSpeed := none } } }

/-- R132 item 1: the SHUT. -/
def handShut (s : State) : State :=
  handOver (.shut s.ses.number s.atr.counter ((s.ses.current.map (·.wagons)).getD 0)) broadcast s

/-- R132 items 2 and 3. -/
def fileSummary (s : State) : State :=
  let last := match s.ses.current with
    | some m => some (closeSummary s.atr.counter m)
    | none => s.ses.last
  { s with ses :=
    { s.ses with
      last := last, current := none, state := .idle, drainLimit := none, closePending := false,
      closedForMatching := false, haltExpiry := none, closeExpiry := none, nextHaltTick := none } }

/-- R132 items 1 to 4, and the RANGE answer of R181 when the state becomes IDLE (DEDUCED, log 17). -/
def closeSession (s : State) : State :=
  let s := refuseDeferred (fileSummary (handShut s))
  clearAssembly (clearLastSpeeds (freshStart s.ses.number s))

/-- R132 item 5: a held OPEN is adopted at the close, its timers from the local time of the close. DEDUCED (log 17): the
competing window runs from its receive start time. -/
def adoptHeld (s : State) : State :=
  match s.ses.held with
  | none => s
  | some h =>
    beginSession h.number h.direction false h.sender h.firstEdge h.received s.now
      { s with ses := { s.ses with held := none } }

/-! ### The draining tests (R130) -/

def allFinal (s : State) : Bool := s.fus.table.all isFinal

/-- R130, first test: closed for matching is set, and the WAS completes its assembly. -/
def closeMatching (s : State) : State := pass { s with ses := { s.ses with closedForMatching := true } }

/-- R130: the two tests, made while DRAINING. -/
def drainTests (s : State) : State :=
  if s.ses.state == .draining then
    let s := if !s.ses.closedForMatching && allFinal s then closeMatching s else s
    if s.ses.closedForMatching && s.fus.table.isEmpty then adoptHeld (closeSession s) else s
  else s

/-- An assembly pass and the session tests its releases set off (R161, R150). -/
def assemble (s : State) : State := drainTests (pass s)

end Sys2Proof.Machine
end

