-- ==== Sys2Proof/Machine/Fusion.lean ====
section
/-! DEFINITION. The Fusion Unit (08): entries, rows, alignment, fusion, finality, deadlines, forcing, late reports. -/

namespace Sys2Proof.Machine

open Sys2Proof

/-! ### Fusion (R146, R147) -/

/-- R146: the weight of a grade. -/
def gradeWeight : Grade → Nat
  | .a => 4
  | .b => 2
  | .c => 1
  | .n => 0

/-- What fusion reads of a row, own or peer. -/
structure Report where
  w         : Int
  grade     : Grade
  share     : Option Nat
  speed     : Nat
  overspeed : Bool
  creep     : Bool
  reversal  : Bool
  aligned   : Bool
deriving DecidableEq, Repr

def ownReport (e : Estimate) : Report :=
  { w := e.w, grade := e.grade, share := e.share, speed := e.entrySpeed, overspeed := e.flags.overspeed,
    creep := e.flags.creep, reversal := e.flags.reversal, aligned := true }

def rowReport (r : PeerRow) : Report :=
  { w := r.w, grade := r.grade, share := r.share, speed := r.speed, overspeed := r.flags.overspeed,
    creep := r.flags.creep, reversal := r.flags.reversal, aligned := r.alignment != .misaligned }

/-- Every row present, the own row first. -/
def reportsOf (e : Entry) : List Report := (e.own.map ownReport).toList ++ (e.rows.filterMap id).map rowReport

/-- R146: the included estimates. -/
def included (reports : List Report) : List Report := reports.filter fun r => r.aligned && r.grade != .n

/-- The weighted mean of a value over reports, rounded to nearest. -/
def weightedMean (value : Report → Int) (reports : List Report) : Int :=
  roundDiv (total (reports.map fun r => gradeWeight r.grade * value r)) (reports.map fun r => gradeWeight r.grade).sum

/-- R146: the fused grade. -/
def fusedGrade (inc : List Report) : Grade :=
  let n := (inc.filter fun r => r.grade == .a).length
  if inc.isEmpty then .n else if 2 ≤ n then .a else if n == 1 || 2 ≤ inc.length then .b else .c

/-- R146: the fused weight. -/
def fusedWeight (inc : List Report) : Int := if inc.isEmpty then 0 else weightedMean (·.w) inc

/-- R147: the fused left share. -/
def fusedShare (inc : List Report) : Option Nat :=
  let carrying := inc.filter fun r => r.share.isSome
  if carrying.isEmpty then none else some (weightedMean (fun r => (r.share.getD 0 : Nat)) carrying).toNat

/-- R147: the fused speed. -/
def fusedSpeed (firstSpeed : Option Nat) (reports inc : List Report) : Nat :=
  if !inc.isEmpty then (weightedMean (fun r => (r.speed : Nat)) inc).toNat
  else if !reports.isEmpty then roundNat (reports.map (·.speed)).sum reports.length
  else firstSpeed.getD 0

/-- R145: the number of peer rows in an alignment state. -/
def countRows (a : Alignment) (e : Entry) : Nat := ((e.rows.filterMap id).filter fun r => r.alignment == a).length

/-- R145 to R147: the fused values of an entry from the rows it holds. -/
def fuse (e : Entry) : Fused :=
  let reports := reportsOf e
  let inc := included reports
  { f := fusedWeight inc, grade := fusedGrade inc, share := fusedShare inc, speed := fusedSpeed e.firstSpeed reports inc,
    overspeed := reports.any (·.overspeed), creep := reports.any (·.creep), reversal := reports.any (·.reversal),
    misaligned := countRows .misaligned e, unchecked := countRows .unchecked e }

/-! ### Finality (R148 to R150) -/

def findRecord (s : State) (j : Nat) : Option OwnRecord := s.atr.records.find? fun r => r.ordinal == j

/-- R148: the own part of an entry is settled. -/
def ownSettled (s : State) (e : Entry) : Bool :=
  e.own.isSome
    && match findRecord s e.ordinal with
      | none => true
      | some r => r.done

/-- R149: the row of a LIVE peer is present, and not older than its heard exit. -/
def rowComplete (e : Entry) (n : Nat) : Bool :=
  match place e.rows n none with
  | none => false
  | some r =>
    match place e.exits n none with
    | none => true
    | some x => x.revision ≤ r.revision

/-- R149: an OPEN entry is complete. -/
def complete (s : State) (e : Entry) : Bool :=
  !isFinal e && (ownSettled s e || s.ses.state == .draining) && (livePeers s).all (rowComplete e)

/-- R150 steps 1 to 3: the entry of `j` is fused, made FINAL and handed to the WAS. -/
def finalEntry (j : Nat) (s : State) : State :=
  pass (changeEntry j (fun e => { e with fused := some (fuse e), deadline := none, deadlinePeer := none }) s)

/-- R150: an entry becomes FINAL, and the SES tests its draining conditions. -/
def finalize (j : Nat) (s : State) : State := drainTests (finalEntry j s)

/-- R149: the test of one ordinal's entry. -/
def testEntry (j : Nat) (s : State) : State :=
  match findEntry s j with
  | none => s
  | some e => if complete s e then finalize j s else s

/-- The ordinals of the OPEN entries, ascending. -/
def openOrdinals (s : State) : List Nat := (s.fus.table.filter fun e => !isFinal e).map (·.ordinal)

/-- R149: the test of every OPEN entry, in ascending ordinal order (R150). -/
def testAll (s : State) : State := (openOrdinals s).foldl (fun s j => testEntry j s) s

/-! ### Late reports (R155) -/

/-- R155: a late report for a FINAL entry. That the entry's own count stops at 65,535 is a DESIGN CHOICE (log 50). -/
def lateInEntry (j : Nat) (s : State) : State :=
  latch .late (changeEntry j (fun e => { e with late := countUp 65535 e.late }) s)

/-- R155: a late report counted in the current summary. -/
def lateInCurrent (s : State) : State := latch .late (addLate 1 s)

/-- R155: a late report counted in the last-session summary. -/
def lateInLast (s : State) : State :=
  latch .late
    { s with ses := { s.ses with last := s.ses.last.map fun m => { m with late := countUp 65535 m.late } } }

/-! ### Forcing (R152, R154) -/

/-- The entry's forced flag is set. -/
def markForced (j : Nat) (s : State) : State := changeEntry j (fun e => { e with forced := true }) s

/-- R152, R154: the entry of `j` is forced FINAL with LATE. -/
def forceEntry (j : Nat) (s : State) : State := finalize j (latch .late (markForced j s))

/-- R154: every OPEN entry is forced, LATE latched once, if there is one (DESIGN CHOICE, log 21); the session
tests come after (R131, R133; log 12). -/
def forceAll (s : State) : State :=
  match openOrdinals s with
  | [] => s
  | js => js.foldl (fun s j => finalEntry j (markForced j s)) (latch .late s)

/-! ### Entries (R139, R140, R154) -/

/-- The table has room for a further entry. -/
def hasRoom (s : State) : Bool := s.fus.table.length < 64

/-- R154, forcing for room: step 1, step 2, and again while an OPEN entry is left (log 14). -/
def makeRoom : Nat → State → State
  | 0, s => s
  | n + 1, s =>
    let s := match openOrdinals s with
      | [] => s
      | j :: _ => forceEntry j s
    if hasRoom s then s
    else
      let s := assemble { s with was := { s.was with roomForce := true } }
      if hasRoom s || (openOrdinals s).isEmpty then s else makeRoom n s

/-- R140: an entry for `j` may be created. -/
def mayCreate (s : State) (j : Nat) : Bool := sessionOpen s && !s.ses.closedForMatching && s.was.cursor ≤ j

/-- An entry with every row absent (R139). A deadline given at its creation while DRAINING has no deadline peer (DESIGN
CHOICE, log 43). -/
def newEntry (j : Nat) (time : Option Time) (speed : Option Nat) (deadline : Option Time) : Entry :=
  { ordinal := j, firstTime := time, firstSpeed := speed, own := none, exitSpeed := none, rows := List.replicate 8 none,
    exits := List.replicate 8 none, deadline := deadline, deadlinePeer := none, forced := false, late := 0, fused := none }

/-- The table in ascending ordinal order with an entry put in. -/
def insertEntry (e : Entry) : List Entry → List Entry
  | [] => [e]
  | x :: rest => if e.ordinal < x.ordinal then e :: x :: rest else x :: insertEntry e rest

/-- R140, R153, R157: the entry of `j` is created, with its deadline while DRAINING, and H rises to it. -/
def createEntry (j : Nat) (time : Option Time) (speed : Option Nat) (s : State) : State :=
  let deadline := if s.ses.state == .draining then some (addUs s.now 2000000) else none
  raiseHighest j { s with fus := { s.fus with table := insertEntry (newEntry j time speed deadline) s.fus.table } }

/-- The session of the number given is still open: the forcing for room has not closed it (R130, R132). -/
def stillOpen (number : Word16) (s : State) : Bool := sessionOpen s && s.ses.number == number

/-- R140: the entry of `j` is there afterwards, unless none may be created or no room can be made (R154). A session that
the forcing has closed gets none, nor does the held OPEN adopted at its close (R132 item 5). -/
def ensureEntry (j : Nat) (time : Option Time) (speed : Option Nat) (s : State) : State :=
  if (findEntry s j).isSome || !mayCreate s j then s
  else
    let number := s.ses.number
    let s := if hasRoom s then s else makeRoom 65 s
    if stillOpen number s && mayCreate s j && hasRoom s && (findEntry s j).isNone then createEntry j time speed s
    else s

/-- R155: a report of the session of the number given whose entry could not be made is late in that session's summary,
which is the last-session summary once the forcing has closed the session (DEDUCED, log 35). -/
def lateWithoutEntry (number : Word16) (s : State) : State :=
  if stillOpen number s then lateInCurrent s else lateInLast s

/-! ### Alignment (R144, R145) -/

/-- R144 item 2: a station's entry-edge position. -/
def entryEdge (s : State) (n : Nat) : Int :=
  match s.ses.direction with
  | .up => positionOf s n
  | .down => positionOf s n + lengthOf s n

/-- R144 item 3: the expected lag. -/
def expectedLag (s : State) (n v : Nat) : Int :=
  match s.ses.direction with
  | .up => roundDiv ((entryEdge s (ownNumber s) - entryEdge s n) * 1000000) v
  | .down => roundDiv ((entryEdge s n - entryEdge s (ownNumber s)) * 1000000) v

/-- R144 item 4: the gap to a neighbouring ordinal's first entry time; over 2^31 µs and more it is log 47's. -/
def neighbourGap (s : State) (t : Time) (j : Nat) : Option Nat :=
  ((findEntry s j).bind (·.firstTime)).map fun u => (timeDiff t u).natAbs

/-- R144 item 4: the tolerance of ordinal `j` with own time `t`. -/
def alignTolerance (s : State) (t : Time) (j : Nat) : Nat :=
  match neighbourGap s t (j - 1), neighbourGap s t (j + 1) with
  | some a, some b => max 10000 (min a b / 4)
  | some a, none => max 10000 (a / 4)
  | none, some b => max 10000 (b / 4)
  | none, none => 10000

/-- R144: the alignment of station `n`'s row in an entry. -/
def alignmentOf (s : State) (e : Entry) (n : Nat) (r : PeerRow) : Alignment :=
  match e.firstTime, e.firstSpeed with
  | some t, some v =>
    if 0 < v && isLive s n && !isFinal e then
      let deviation := timeDiff t (toLocal s n r.peerTime) - expectedLag s n v
      if alignTolerance s t e.ordinal < deviation.natAbs then .misaligned else .aligned
    else .unchecked
  | _, _ => .unchecked

/-- A change to the row of station `n` in the entry of `j`. -/
def setRow (j n : Nat) (r : PeerRow) (s : State) : State :=
  changeEntry j (fun e => { e with rows := setPlace e.rows n (some r) }) s

/-- R144: the row is checked and kept with its state; a misaligned row latches SLIP. -/
def checkRow (j n : Nat) (r : PeerRow) (s : State) : State :=
  match findEntry s j with
  | none => s
  | some e =>
    let a := alignmentOf s e n r
    onlyIf (a == .misaligned) (latch .slip) (setRow j n { r with alignment := a } s)

/-- R145: an unchecked row of an OPEN entry is checked again. -/
def recheckRow (j n : Nat) (s : State) : State :=
  match findEntry s j with
  | none => s
  | some e =>
    match place e.rows n none with
    | none => s
    | some r => if r.alignment == .unchecked && !isFinal e then checkRow j n r s else s

/-- R145, first case: the first entry time of `j` has been set. -/
def recheckEntry (j : Nat) (s : State) : State := stationNumbers.foldl (fun s n => recheckRow j n s) s

/-- R145, second case: station `n` has become LIVE. -/
def recheckPeer (n : Nat) (s : State) : State := (openOrdinals s).foldl (fun s j => recheckRow j n s) s

/-! ### Deadlines (R151 to R153) -/

/-- R151: the LIVE peer furthest downstream. -/
def furthestPeer (s : State) : Option Nat := furthest s.ses.direction s (livePeers s)

/-- R151: a station's exit-edge position. -/
def exitEdge (s : State) (n : Nat) : Nat :=
  match s.ses.direction with
  | .up => positionOf s n + lengthOf s n
  | .down => positionOf s n

/-- R151: how far station `n`'s exit edge lies beyond this station's, 0 when it does not. -/
def exitDistance (s : State) (n : Nat) : Nat :=
  match s.ses.direction with
  | .up => exitEdge s n - exitEdge s (ownNumber s)
  | .down => exitEdge s (ownNumber s) - exitEdge s n

/-- R151: the time an axle needs to the deadline peer. -/
def travelUs (distance : Nat) (exitSpeed : Option Nat) : Nat :=
  min 28000000 (roundNat (distance * 1000000) (max 500 (exitSpeed.getD 500)))

/-- R152: a deadline before the present is set to the present. Both comparisons of R152 are taken modulo 2^32 over any span
(DESIGN CHOICE, log 47). -/
def notPast (s : State) (d : Time) : Time := if earlier d s.now then s.now else d

/-- R152: a deadline shortened by the exit already heard from its peer. -/
def shortened (s : State) (e : Entry) (n : Option Nat) (d : Time) : Time :=
  match n.bind fun n => place e.exits n none with
  | none => notPast s d
  | some x => notPast s (earliest d (addUs x.received 1000000))

/-- R151: the own-estimate deadline. -/
def ownDeadline (s : State) (e : Entry) : Time :=
  let distance := ((furthestPeer s).map (exitDistance s)).getD 0
  addUs s.now (travelUs distance e.exitSpeed + 2000000)

/-- The deadline of an entry set, with its deadline peer, exits already heard applied (R152). -/
def withDeadline (s : State) (n : Option Nat) (d : Time) (e : Entry) : Entry :=
  { e with deadline := some (shortened s e n d), deadlinePeer := n }

/-- R151, own-estimate deadline; none is set while HALTED. -/
def setOwnDeadline (j : Nat) (s : State) : State :=
  if s.ses.state == .halted then s
  else changeEntry j (fun e => withDeadline s (furthestPeer s) (ownDeadline s e) e) s

/-- R151: station `n` is the LIVE peer furthest downstream and lies downstream of this station. -/
def isFurthestBeyond (s : State) (n : Nat) : Bool := furthestPeer s == some n && 0 < exitDistance s n

/-- R151, no-own-row deadline, from the receive start time of a STEP taken from station `n`; it replaces one held (DEDUCED,
log 22). -/
def setRowDeadline (j n : Nat) (start : Time) (s : State) : State :=
  if s.ses.state == .halted || !isFurthestBeyond s n then s
  else
    changeEntry j (fun e => if e.own.isSome then e else withDeadline s none (addUs start 2000000) e) s

/-- R153, HALTED entered: every deadline is cleared. -/
def cancelDeadlines (s : State) : State :=
  { s with fus := { s.fus with table := s.fus.table.map fun e => { e with deadline := none, deadlinePeer := none } } }

/-- R153: the deadline an OPEN entry takes when HALTED is left for RUNNING. R153 names no deadline peer for the no-own-row
deadline set here, and it has none: no exit, heard before or after, shortens it (DESIGN CHOICE, log 48). -/
def resumedEntry (s : State) (e : Entry) : Entry :=
  if isFinal e then e
  else if ownSettled s e then withDeadline s (furthestPeer s) (ownDeadline s e) e
  else
    match furthestPeer s with
    | none => e
    | some n =>
      if e.own.isNone && 0 < exitDistance s n && (place e.rows n none).isSome then
        withDeadline s none (addUs s.now 2000000) e
      else e

/-- R153, HALTED left for RUNNING. -/
def resumeDeadlines (s : State) : State :=
  { s with fus := { s.fus with table := s.fus.table.map (resumedEntry s) } }

/-- R153: an OPEN entry that still holds no deadline is given one when DRAINING is entered. R153 names no deadline peer
for it, and it has none: a heard exit does not shorten it (DESIGN CHOICE, log 43). -/
def drainEntry (s : State) (e : Entry) : Entry :=
  if isFinal e || e.deadline.isSome then e
  else { e with deadline := some (addUs s.now 2000000), deadlinePeer := none }

/-- R153, DRAINING entered. -/
def drainDeadlines (s : State) : State :=
  { s with fus := { s.fus with table := s.fus.table.map (drainEntry s) } }

/-- R152: the deadline of `j` reached by an OPEN entry. -/
def deadlineDue (j : Nat) (s : State) : State :=
  match findEntry s j with
  | none => s
  | some e => onlyIf (!isFinal e && timerDue e.deadline s.now) (forceEntry j) s

/-! ### Own estimates and notifications (R140, R141) -/

/-- R141: an own estimate is taken; one whose entry cannot be made is late (DEDUCED, log 35). -/
def takeOwn (est : Estimate) (s : State) : State :=
  if !sessionOpen s then s
  else if est.ordinal < s.was.cursor then lateInCurrent s
  else
    let number := s.ses.number
    let s := ensureEntry est.ordinal (some est.entryTime) (some est.entrySpeed) s
    match findEntry s est.ordinal with
    | none => lateWithoutEntry number s
    | some e =>
      if isFinal e then lateInEntry est.ordinal s
      else
        let speed := (findRecord s est.ordinal).bind fun r => r.exit.map (·.speed)
        let s := changeEntry est.ordinal (fun e => { e with own := some est, exitSpeed := speed }) s
        testEntry est.ordinal (setOwnDeadline est.ordinal s)

/-- R140, R145: a notification of a normal entry of `j`; at the first one of the ordinal it carries time and speed. -/
def notifyEntry (j : Nat) (first : Option (Time × Nat)) (s : State) : State :=
  match findEntry s j with
  | none => ensureEntry j (first.map (·.1)) (first.map (·.2)) s
  | some e =>
    match first with
    | none => s
    | some (t, v) =>
      if e.firstTime.isSome then s
      else recheckEntry j (changeEntry j (fun e => { e with firstTime := some t, firstSpeed := some v }) s)

/-! ### Peer STEP and CROSS (R142, R143) -/

/-- R142, R143: the number is the current or the superseded one. -/
def currentNumber (s : State) (n : Word16) : Bool := s.fus.current == some n || s.fus.superseded == some n

/-- The row a STEP payload gives; none when its grade code is above 3. -/
def stepRow (p : List Byte) : Option PeerRow :=
  (gradeOfByte (p.getD 8 0)).map fun g =>
    { w := signedAt3 p 5, grade := g, share := shareOfField (at2 p 9), speed := speedFromField (at2 p 11),
      peerTime := timeAt p 13, revision := at1 p 4,
      flags := { overspeed := bitAt p 17 0, creep := bitAt p 17 1, reversal := bitAt p 17 2, implausible := bitAt p 17 3 },
      alignment := .unchecked }

/-- R142: the sender's row in an OPEN entry, unless the row held has a higher revision. -/
def putRow (j n : Nat) (start : Time) (r : PeerRow) (e : Entry) (s : State) : State :=
  match place e.rows n none with
  | some x => if r.revision < x.revision then s else testEntry j (setRowDeadline j n start (checkRow j n r s))
  | none => testEntry j (setRowDeadline j n start (checkRow j n r s))

/-- R142: a STEP taken for the table; one whose entry cannot be made is late (R154; log 35). -/
def takeRow (j n : Nat) (start : Time) (r : PeerRow) (s : State) : State :=
  if j < s.was.cursor then lateInCurrent s
  else
    let number := s.ses.number
    let s := ensureEntry j none none s
    match findEntry s j with
    | none => lateWithoutEntry number s
    | some e => if isFinal e then lateInEntry j s else putRow j n start r e s

/-- The FUS works in SETTLING and READY (11, "Blocks working"; log 20). -/
def fusWorks (s : State) : Bool := s.stc.station == .settling || s.stc.station == .ready

/-- R142: a STEP dispatched from station `n`. One whose number is the current or superseded one and the last summary's too
is taken for the table and not counted late (DESIGN CHOICE, log 53). -/
def takeStep (n : Nat) (start : Time) (p : List Byte) (s : State) : State :=
  if !fusWorks s then s
  else if currentNumber s (wordAt p 0) && sessionOpen s then
    if at2 p 2 == 0 || at1 p 4 == 0 then s
    else
      match stepRow p with
      | none => s
      | some r => takeRow (at2 p 2) n start r s
  else if (s.ses.last.map (·.number)) == some (wordAt p 0) then lateInLast s
  else s

/-- R143, R152: the exit of an entry heard from station `n`, its deadline shortened when that is its deadline peer. -/
def hearExit (s : State) (n : Nat) (x : ExitHeard) (e : Entry) : Entry :=
  let e := { e with exits := setPlace e.exits n (some x) }
  match e.deadline with
  | none => e
  | some d => if e.deadlinePeer == some n then { e with deadline := some (shortened s e (some n) d) } else e

/-- R143: a heard revision replaces the one held when it is not lower. -/
def exitReplaces (e : Entry) (n revision : Nat) : Bool :=
  match place e.exits n none with
  | none => true
  | some x => x.revision ≤ revision

/-- R143: a CROSS dispatched from station `n`, in the FUS. -/
def crossHeard (n : Nat) (start : Time) (p : List Byte) (s : State) : State :=
  let j := at2 p 2
  if p.getD 4 0 == eventCode .normalExit && j != 0 && currentNumber s (wordAt p 0) then
    match findEntry s j with
    | none => s
    | some e =>
      if !isFinal e && exitReplaces e n (at1 p 5) then
        testEntry j (changeEntry j (hearExit s n { revision := at1 p 5, received := start }) s)
      else s
  else s

end Sys2Proof.Machine
end

