-- ==== Sys2Proof/Machine/Sessions.lean ====
section
/-! DEFINITION. The Session Controller's timers, states and dispatched frames (07), and the changes of the live set, which end
in its peer test (R114, R129). -/

namespace Sys2Proof.Machine

open Sys2Proof

/-! ### HALTED (R128) -/

/-- The whole milliseconds of the stay in HALTED not yet counted by a tick. DEDUCED (log 18). -/
def uncountedMs (s : State) : Nat :=
  match s.ses.nextHaltTick with
  | none => 0
  | some next =>
    let since := next - 1000
    if reached since s.now then elapsed since s.now / 1000 else 0

/-- The halted time total with `n` further milliseconds; it stops at 4,294,967,295. -/
def addHalted (n : Nat) (m : Summary) : Summary := { m with haltedMs := min 4294967295 (m.haltedMs + n) }

/-- R128: leaving HALTED, the total has risen by the whole milliseconds of the stay. -/
def leaveHalted (s : State) : State :=
  if s.ses.state == .halted then
    let s := onCurrent (addHalted (uncountedMs s)) s
    { s with ses := { s.ses with nextHaltTick := none } }
  else s

/-- R128: one more millisecond of the stay has passed. -/
def haltTick (s : State) : State :=
  match s.ses.nextHaltTick with
  | none => s
  | some next =>
    if s.ses.state == .halted && reached next s.now then
      let s := onCurrent (addHalted 1) s
      { s with ses := { s.ses with nextHaltTick := some (addUs next 1000) } }
    else s

/-- R128: the halt expiry in RUNNING. -/
def enterHalted (s : State) : State :=
  cancelDeadlines
    { s with ses :=
      { s.ses with state := .halted, haltExpiry := none, nextHaltTick := some (addUs s.now 1000) } }

/-! ### DRAINING (R129 to R131) -/

/-- R130: entry to DRAINING, with the FUS's part of R153 and the tests at entry. -/
def enterDraining (s : State) : State :=
  let s := leaveHalted s
  let s := { s with ses :=
    { s.ses with
      state := .draining, drainLimit := some (addUs s.now 30000001), haltExpiry := none, closeExpiry := none,
      closePending := false } }
  let s := testAll s
  drainTests (onlyIf (s.ses.state == .draining) drainDeadlines s)

/-- A SHUT for the held number has been recorded from station `n`. DEDUCED (log 23). -/
def shutRecorded (s : State) (n : Nat) : Bool :=
  match s.ses.current with
  | none => false
  | some m =>
    match place m.shuts n none with
    | none => false
    | some c => c.number == s.ses.number

/-- R129: the session is RUNNING or HALTED. -/
def timersRun (s : State) : Bool := s.ses.state == .running || s.ses.state == .halted

/-- R129: the peer test. -/
def peerTest (s : State) : State :=
  onlyIf (s.ses.closePending && timersRun s && !(livePeers s).isEmpty && (livePeers s).all (shutRecorded s))
    enterDraining s

/-- R129: the close expiry in RUNNING or HALTED. -/
def closeExpired (s : State) : State :=
  let s := { s with ses := { s.ses with closeExpiry := none } }
  if s.atr.list.isEmpty then enterDraining s
  else peerTest { s with ses := { s.ses with closePending := true } }

def haltDue (s : State) : State :=
  onlyIf (s.ses.state == .running && timerDue s.ses.haltExpiry s.now) enterHalted s

def closeDue (s : State) : State :=
  onlyIf (timersRun s && timerDue s.ses.closeExpiry s.now) closeExpired s

/-- R127: an expiry that lies at or before the time at which it is set is taken at once; the halt expiry is never the
later of the two. DEDUCED (log 19). One 2^31 µs or more in the past compares as still to come (DESIGN CHOICE, log 47). -/
def takeExpiries (s : State) : State := closeDue (haltDue s)

/-- R131: the drain limit. -/
def drainLimitDue (s : State) : State :=
  onlyIf (s.ses.state == .draining && timerDue s.ses.drainLimit s.now) (fun s => drainTests (forceAll s)) s

/-! ### Crossings (R127) -/

/-- R127: a heard crossing does not take t_c back. One received more than 2^31 µs after the held t_c compares as earlier, and
t_c stays as held (DESIGN CHOICE, log 47). -/
def laterCrossing (tc : Option Time) (t : Time) : Time :=
  match tc with
  | none => t
  | some held => if earlier t held then held else t

/-- R127: the timers run from t_c, close pending is cleared, the summary follows. -/
def restartTimers (tc : Time) (s : State) : State :=
  let s := onCurrent (fun m => { m with lastCrossing := tc }) s
  { s with ses :=
    { s.ses with
      state := .running, tc := some tc, haltExpiry := some (addUs tc (haltUs s)),
      closeExpiry := some (addUs tc (closeUs s)), closePending := false } }

/-- R127, R128: a crossing taken in RUNNING or HALTED. -/
def crossingTaken (tc : Time) (s : State) : State :=
  if timersRun s then
    let wasHalted := s.ses.state == .halted
    let s := restartTimers tc (leaveHalted s)
    takeExpiries (onlyIf wasHalted resumeDeadlines s)
  else s

/-! ### Own crossings (R122, R124, R133) -/

/-- The direction an inward crossing at an end shows (R122, R124). -/
def observedDirection : PlatformEnd → Direction
  | .a => .up
  | .b => .down

/-- R122: the next number. -/
def nextNumber (s : State) : Word16 :=
  match s.ses.mark with
  | none => 1
  | some m => m + 1

/-- R122 item 7. -/
def handOpen (tf : Time) (s : State) : State :=
  handOver (.opening s.ses.number s.ses.direction tf) broadcast s

/-- R122: an own inward crossing opens a session. -/
def openSession (c : Crossing) (s : State) : State :=
  handOpen c.edge
    (beginSession (nextNumber s) (observedDirection c.side) true (ownNumber s) c.edge s.now s.now s)

/-- R124: the check of an unchecked direction against an own inward crossing. -/
def checkDirection (c : Crossing) (s : State) : State :=
  let d := observedDirection c.side
  if s.ses.checked then s
  else
    let differs := d != s.ses.direction
    let s := { s with ses := { s.ses with checked := true, direction := d } }
    let s := onCurrent (fun m => { m with direction := d }) s
    onlyIf differs (fun s => chooseExit (latch .slip s)) s

/-- R133 item 4: the new session of an interruption. -/
def openAfterDraining (c : Crossing) (held : Option HeldOpen) (s : State) : State :=
  match held with
  | none => openSession c s
  | some h =>
    let d := observedDirection c.side
    onlyIf (d != h.direction) (latch .slip) (beginSession h.number d true h.sender h.firstEdge s.now s.now s)

/-- R133: an own inward crossing in DRAINING. -/
def interruptDraining (c : Crossing) (s : State) : State :=
  let held := s.ses.held
  let s := closeMatching (forceAll { s with ses := { s.ses with held := none } })
  openAfterDraining c held (closeSession s)

/-- R39, R127: an own crossing offered to the SES; the second part says that it opened a session. The direction check of
R124 comes before the resumption of R127, whose deadlines go by the direction then held (DESIGN CHOICE, log 42). -/
def offerCrossing (c : Crossing) (s : State) : State × Bool :=
  match s.ses.state with
  | .idle => if c.kind == .inward then (openSession c s, true) else (s, false)
  | .draining => if c.kind == .inward then (interruptDraining c s, true) else (s, false)
  | _ => (crossingTaken s.now (if c.kind == .inward then checkDirection c s else s), false)

/-! ### The live set (R114) -/

/-- R114: the exit station is chosen anew, then the FUS and the SES hear of the change. -/
def liveSetChanged (s : State) : State := peerTest (testAll (chooseExit s))

/-- A peer entry replaced, with what a change to or from LIVE sets off; rows of a peer that has become LIVE are checked
again first (R145). -/
def replacePeer (n : Nat) (p : Peer) (s : State) : State :=
  let was := isLive s n
  let s := setPeer n p s
  let is := isLive s n
  if was == is then s else liveSetChanged (onlyIf is (recheckPeer n) s)

/-! ### Dispatched frames (R120 to R126, R135) -/

/-- The SES works in SETTLING and READY (R120; log 20). -/
def sesWorks (s : State) : Bool := s.stc.station == .settling || s.stc.station == .ready

/-- R125: the receive start time lies within the competing window. In a session open for 2^31 µs or more past the window
a receive start time compares as within it again (DESIGN CHOICE, log 47). -/
def withinWindow (s : State) (start : Time) : Bool :=
  match s.ses.tOpen with
  | none => false
  | some t => !earlier (addUs t 2000000) start

/-- R125: the comparison of two openings by first-edge time, then by node. -/
def openWins (s : State) (n : Nat) (tf : Time) : Bool :=
  match s.ses.tf with
  | none => true
  | some held => earlier tf held || (tf == held && n < s.ses.opener.getD (ownNumber s))

/-- R125, R126: opener and Tf replaced, in the summary too. DEDUCED (log 26). -/
def replaceOpening (n : Nat) (tf : Time) (s : State) : State :=
  onCurrent (fun m => { m with firstEdge := tf }) { s with ses := { s.ses with opener := some n, tf := some tf } }

/-- R125, R139, R181: the held number replaced while the session stays open. -/
def replaceNumber (number : Word16) (s : State) : State :=
  let s := onCurrent (fun m => { m with number := number }) { s with ses := { s.ses with number := number } }
  refuseDeferred { s with fus := { s.fus with superseded := s.fus.current, current := some number } }

/-- R125: the direction of a winning OPEN. -/
def competingDirection (d : Direction) (s : State) : State :=
  if d == s.ses.direction then s
  else if s.ses.checked then latch .slip s
  else
    chooseExit
      (onCurrent (fun m => { m with direction := d }) { s with ses := { s.ses with direction := d } })

/-- R123, R125, R126: an OPEN from station `n`, its first-edge time already local. The table of R126 has no entry for one of
the held number, received within the window and dispatched in DRAINING: it is ignored, also when it would win (DESIGN CHOICE,
log 52). -/
def takeOpen (n : Nat) (start : Time) (number : Word16) (d : Direction) (tf : Time) (s : State) : State :=
  let same := number == s.ses.number
  if s.ses.state == .idle then
    if (s.ses.last.map (·.number)) == some number then s
    else takeExpiries (beginSession number d false n tf start start s)
  else if withinWindow s start then
    if !openWins s n tf then s
    else if same then onlyIf (timersRun s) (replaceOpening n tf) s
    else competingDirection d (replaceNumber number (replaceOpening n tf s))
  else if s.ses.state == .draining && !same && laterNumber number s.ses.number then
    let h : HeldOpen := { number := number, direction := d, firstEdge := tf, sender := n, received := start }
    { s with ses := { s.ses with held := some h } }
  else s

/-- R121, R123: an OPEN dispatched. -/
def openDispatched (x : RxFrame) (s : State) : State :=
  let n := x.frame.node.toNat
  let p := x.frame.payload
  if sesWorks s then
    takeOpen n x.start (wordAt p 0) (directionOfByte (p.getD 2 0)) (toLocal s n (timeAt p 3))
      (meetNumber (wordAt p 0) s)
  else s

/-- R121, R127, then R143: a CROSS dispatched. R101 names both blocks without an order; the Session Controller takes it
first, so that deadlines it gives afresh stand when the exit is heard (DESIGN CHOICE, log 41). -/
def crossDispatched (x : RxFrame) (s : State) : State :=
  let p := x.frame.payload
  if sesWorks s then
    let s := meetNumber (wordAt p 0) s
    crossHeard x.frame.node.toNat x.start p (crossingTaken (laterCrossing s.ses.tc x.start) s)
  else s

/-- R135: a SHUT recorded in a summary. -/
def recordShut (n : Nat) (c : ShutCounts) (m : Summary) : Summary := { m with shuts := setPlace m.shuts n (some c) }

/-- R135: in the last-session summary it is compared at once. -/
def recordLateShut (n : Nat) (c : ShutCounts) (m : Summary) : Summary :=
  let m := recordShut n c m
  { m with mismatch := m.mismatch || shutDiffers m (some c) }

/-- R135, R129: a SHUT from station `n`. -/
def takeShut (n : Nat) (c : ShutCounts) (s : State) : State :=
  if sessionOpen s && (s.ses.current.map (·.number)) == some c.number then
    peerTest (onCurrent (recordShut n c) s)
  else if (s.ses.last.map (·.number)) == some c.number then
    { s with ses := { s.ses with last := s.ses.last.map (recordLateShut n c) } }
  else s

/-- R121, R135: a SHUT dispatched. -/
def shutDispatched (x : RxFrame) (s : State) : State :=
  let p := x.frame.payload
  if sesWorks s then
    takeShut x.frame.node.toNat { number := wordAt p 0, axles := at2 p 2, wagons := at2 p 4 }
      (meetNumber (wordAt p 0) s)
  else s

/-- R142: a STEP dispatched. -/
def stepDispatched (x : RxFrame) (s : State) : State := takeStep x.frame.node.toNat x.start x.frame.payload s

/-- R110, R121: a HAIL's session number and state in the SES. -/
def hailSession (p : List Byte) (s : State) : State :=
  onlyIf (sesWorks s && hailCodesKnown p && p.getD 8 0 != sessionCode .idle) (meetNumber (wordAt p 9)) s

/-- R110 to R112, R116: a HAIL dispatched; the layout is assessed once (DEDUCED, log 32). -/
def hailDispatched (x : RxFrame) (s : State) : State :=
  let n := x.frame.node.toNat
  let p := x.frame.payload
  let s := setPeer n (takeHailContent p (peer s n)) s
  let s := hailSession p s
  let s := replacePeer n (hailMove (hailQualifies p) x.start (peer s n)) s
  let s := replacePeer n (silence s.now (peer s n)) s
  assessLayout s

/-- R112: the silence expiry of station `n`. -/
def silenceExpired (n : Nat) (s : State) : State :=
  let p := silence s.now (peer s n)
  if n == ownNumber s || p == peer s n then s else assessLayout (replacePeer n p s)

/-- R102, R107, R108: the arrival report of a frame from station `n`. -/
def arrival (n : Nat) (stamp start : Time) (s : State) : State :=
  let p := hear stamp start (peer s n)
  let changed := p.state != (peer s n).state
  onlyIf changed assessLayout (replacePeer n p s)

/-- R96 to R102: a frame read from the line, at the end of its check field. Its arrival is reported before its admission
(DEDUCED, log 24). -/
def receiveFrame (start : Time) (f : LineFrame) (s : State) : State :=
  if onLine s && s.slc.sending.isNone then
    match goodFrame s.stc.number f with
    | none => ignoreFrame s
    | some k =>
      let n := f.node.toNat
      admitFrame k start f (onlyIf (n < 8) (arrival n f.stamp start) s)
  else s

end Sys2Proof.Machine
end

