-- ==== Sys2Proof/Machine/StartUp.lean ====
section
/-! DEFINITION. The Start-up Control (11): full reset, release, restart, the end of LOADING. -/

namespace Sys2Proof.Machine

open Sys2Proof

/-- R191: the station number, STN2 the most significant. -/
def strapNumber (x : Straps) : BitVec 3 :=
  BitVec.ofNat 3 (flagBit x.stn2 2 + flagBit x.stn1 1 + flagBit x.stn0 0)

/-- R198: the part held in reset. The waiting commands are not the part's. -/
def fullReset (s : State) : State := { State.reset with pending := s.pending }

/-- R191, R192, R198, R199: straps sampled, LOADING entered, local time at 0, the image identity 0, and the I2C pins in
use for the read. -/
def beginLoading (x : Straps) (s : State) : State :=
  { s with
    now := 0,
    stc := { inReset := false, station := .loading, number := strapNumber x, fastLine := x.rate, imageSum := 0,
             i2cReleased := false },
    ptb := Ptb.reset (strapNumber x) }

/-- R198: RST# is released. -/
def release (x : Straps) (s : State) : State := if s.stc.inReset then beginLoading x (fullReset s) else s

/-- R138: the SES after a restart: the last-session summary kept, number, direction and mark from it. -/
def restartSes (last : Option Summary) : Ses :=
  match last with
  | none => Ses.reset
  | some m => { Ses.reset with number := m.number, direction := m.direction, mark := some m.number, last := some m }

/-- R174, R189, R199: a restart keeps the ring, the store index counter, the read pointer and the last-session summary. -/
def restart (x : Straps) (s : State) : State :=
  beginLoading x
    { fullReset s with rst := { s.rst with deferred := none }, ses := restartSes s.ses.last }

/-- R195: the values of a good image go to their blocks, and the station enters SETTLING; the I2C pins
are released (R192). -/
def enterSettling (x : Settings) (p l : Nat) (enable : CauseMask) (sum patternSum : Word16) (s : State) : State :=
  let s := { s with
    settings := x,
    stc := { s.stc with station := .settling, imageSum := sum, i2cReleased := true },
    lfe := { s.lfe with excitation := true, nextInstant := some (addUs s.now 625) },
    slc := { s.slc with line := .active },
    ptb := { s.ptb with
      ownP := p, ownL := l, ownPatternSum := patternSum, hailTimer := some (addUs s.now 250000) } }
  setEnable enable (handHail s)

/-- R196: the image is bad or missing, and the station enters CONFIG FAULT, the I2C pins released (R192); CONFIG is latched
before the HAIL (DEDUCED, log 25). -/
def enterConfigFault (sum : Word16) (s : State) : State :=
  let s := { s with
    stc := { s.stc with station := .configFault, imageSum := sum, i2cReleased := true },
    slc := { s.slc with line := .configFault },
    ptb := { s.ptb with ownP := 0, ownL := 0, ownPatternSum := 0, hailTimer := some (addUs s.now 250000) } }
  handHail (reportPresent .config (setEnable allCausesMask s))

/-- R192 to R196: the image read ends, and LOADING with it. -/
def endLoading (image : ImageRead) (s : State) : State :=
  if s.stc.station == .loading then
    match readImage image with
    | .missing => enterConfigFault 0 s
    | .bad sum => enterConfigFault sum s
    | .good x p l enable sum patternSum => enterSettling x p l enable sum patternSum s
  else s

end Sys2Proof.Machine
end

