-- ==== Sys2Proof/Machine/Recorder.lean ====
section
/-! DEFINITION. The recorder service (10): taking an ASK, and what each asked kind does. -/

namespace Sys2Proof.Machine

open Sys2Proof

/-! ### Taking an ask (R101, R175) -/

/-- The asked kind byte of a received ASK. -/
def askedKind (x : RxFrame) : Byte := x.frame.payload.getD 0 0

/-- The asked kind is one of the eight codes (R176). -/
def askKnown (k : Byte) : Bool := inRange 1 8 k.toNat

/-- R175: in LISTEN and MUTED an ASK other than RESTART is taken without acting on it. -/
def serviceActs (s : State) : Bool := drivesSlots s.slc

/-- R101: the service accepts the ASK at the head: the SERVICE queue has room, or the line state is LISTEN or MUTED. -/
def serviceAccepts (s : State) : Bool := s.slc.service.length < 4 || !serviceActs s

/-- R101, R175: the ASK at the head of the receive queue, when its asked kind passes `p` and the service accepts it,
leaves the queue and is carried out by `f`; in LISTEN and MUTED it is only taken. -/
def takeAsk (p : Byte → Bool) (f : RxFrame → State → State) (s : State) : State :=
  match s.slc.receiveQueue with
  | [] => s
  | x :: _ =>
    if rxKind x == some .ask && p (askedKind x) && serviceAccepts s then
      onlyIf (serviceActs s) (f x) (acceptHead s)
    else s

/-- The REPLY to an ASK (R175). -/
def answer (x : RxFrame) (status : ReplyStatus) (content : Content) (s : State) : State :=
  reply x.frame.node status (askedKind x) content s

/-- R176: in CONFIG FAULT the fetch asks are answered REFUSED. -/
def unlessFault (x : RxFrame) (f : State → State) (s : State) : State :=
  if s.stc.station == .configFault then answer x .refused .none s else f s

/-! ### The store (R171, R177 to R181) -/

/-- R171: the record held at an index. -/
def recordAt (s : State) (i : Word16) : Option WagonRecord := s.rst.ring.find? fun r => r.index == i

/-- R178. -/
def fetchNextAsk (x : RxFrame) (s : State) : State :=
  if s.rst.readPointer == s.rst.nextIndex then answer x .empty .none s
  else
    match recordAt s s.rst.readPointer with
    | none => answer x .empty .none s
    | some r =>
      answer x .ok (.record r) { s with rst := { s.rst with readPointer := s.rst.readPointer + 1 } }

/-- R179, FETCH. -/
def fetchAsk (x : RxFrame) (s : State) : State :=
  match recordAt s (wordAt x.frame.payload 1) with
  | none => answer x .range .none s
  | some r => answer x .ok (.record r) s

/-- R179, SEEK. -/
def seekAsk (x : RxFrame) (s : State) : State :=
  let i := wordAt x.frame.payload 1
  if (recordAt s i).isSome || i == s.rst.nextIndex then
    answer x .ok .none { s with rst := { s.rst with readPointer := i } }
  else answer x .range .none s

/-- R180: the newest record with a session number and a wagon number. -/
def newestRecord (s : State) (session : Word16) (wagon : Nat) : Option WagonRecord :=
  s.rst.ring.reverse.find? fun r => r.session == session && r.wagon == wagon

/-- R180. -/
def fetchWagonAsk (x : RxFrame) (s : State) : State :=
  let session := wordAt x.frame.payload 1
  let wagon := at2 x.frame.payload 3
  if s.rst.deferred.isSome then answer x .busy .none s
  else
    match newestRecord s session wagon with
    | some r => answer x .ok (.record r) s
    | none =>
      if sessionOpen s && session == s.ses.number && s.was.wagons < wagon then
        let d : Deferred := { node := x.frame.node, session := session, wagon := wagon }
        answer x .deferred .none { s with rst := { s.rst with deferred := some d } }
      else answer x .range .none s

/-! ### Summary and conditions (R182, R183) -/

/-- R182: the current summary as it stands at the ask. -/
def currentSummary (s : State) : Option Summary :=
  s.ses.current.map fun m =>
    let m := if s.ses.state == .halted then addHalted (uncountedMs s) m else m
    { m with ownAxles := s.atr.counter, mismatch := false }

/-- R182. -/
def summaryAsk (x : RxFrame) (s : State) : State :=
  let which := at1 x.frame.payload 1
  if which == 0 then
    match (if sessionOpen s then currentSummary s else none) with
    | some m => answer x .ok (.summary false m) s
    | none => answer x .empty .none s
  else if which == 1 then
    match s.ses.last with
    | some m => answer x .ok (.summary true m) s
    | none => answer x .empty .none s
  else answer x .range .none s

/-- R183. -/
def conditionsNow (s : State) : ConditionsBody :=
  { latched := s.cnd.latched, enable := s.cnd.enable, top := topCause s, netLoad := netLoad s, station := s.stc.station,
    line := s.slc.line, session := s.ses.state }

def conditionsAsk (x : RxFrame) (s : State) : State := answer x .ok (.conditions (conditionsNow s)) s

/-- R188, and the reply table of 5.7: the content is the mask alone. R186 says that CLEAR replies carry the top cause, for
which that content has no place (DESIGN CHOICE, log 45). -/
def clearAsk (x : RxFrame) (s : State) : State :=
  let s := clearCauses (BitVec.ofNat 9 (at2 x.frame.payload 1)) s
  answer x .ok (.mask s.cnd.latched) s

/-- R176: an unknown asked kind. -/
def unknownAsk (x : RxFrame) (s : State) : State := answer x .refused .none s

/-- R189: a RESTART at the head of the receive queue is carried out in every line state, without a REPLY. -/
def restartAsk (straps : Straps) (s : State) : State :=
  match s.slc.receiveQueue with
  | [] => s
  | x :: _ => if rxKind x == some .ask && askedKind x == askRestart then restart straps s else s

end Sys2Proof.Machine
end

