-- ==== Sys2Proof/Machine/Tracking.lean ====
section
/-! DEFINITION. The Axle Tracker (03), and what the Step Analyser's measurements set off (04): list and stacks, timeline,
records, settled steps, finished estimates, CROSS. -/

namespace Sys2Proof.Machine

open Sys2Proof

/-! ### Records -/

def changeRecord (j : Nat) (f : OwnRecord → OwnRecord) (s : State) : State :=
  { s with atr := { s.atr with records := s.atr.records.map fun r => if r.ordinal == j then f r else r } }

/-- R73, R78, R79: an estimate that has become ready is formed, handed to the FUS, and sent as a STEP. Where the hand-over
closes a DRAINING session (R154, R130), the STEPs of the records that R81 completes in that close are queued before this one,
which bears the number held after the close and any adoption (DESIGN CHOICE, log 51). -/
def checkDone (j : Nat) (s : State) : State :=
  match findRecord s j with
  | none => s
  | some r =>
    if r.done || !estimateReady r then s
    else
      let est := formEstimate s.settings r
      let s := takeOwn est (changeRecord j (finishRecord s.settings) s)
      handOver (.step s.ses.number est) broadcast s

/-- R70, R71, R73: a side of the record of `j` is settled. -/
def settleSide (kind : EventKind) (j : Nat) (step : Option Step) (s : State) : State :=
  checkDone j (changeRecord j (settleRecord kind step) s)

/-- R69 to R71: an event whose windows are both done settles its side of its record. -/
def settleEvent (e : Event) (s : State) : State :=
  onlyIf (offered e && bothDone e) (settleSide e.kind e.ordinal (eventStep e)) s

/-- R50, R68: an event that has left the timeline with a window pending settles its side without a step. -/
def settleLost (e : Event) (s : State) : State :=
  onlyIf (offered e && !bothDone e) (settleSide e.kind e.ordinal none) s

/-! ### Measuring (R64 to R68) -/

def setEvent (k : Nat) (e : Event) (s : State) : State :=
  { s with atr := { s.atr with timeline := setPlace s.atr.timeline k e } }

/-- R67: the before-window of the event at place `k` is measured. -/
def measureBefore (k : Nat) (s : State) : State :=
  match eventAt s.atr.timeline k with
  | none => s
  | some e =>
    let e := { e with before := measure s.lfe.history (beforeWindow (edgeBefore s.atr.timeline k) e.edge) }
    settleEvent e (setEvent k e s)

/-- R67: the after-window of the event at place `k` is measured. -/
def measureAfter (k : Nat) (s : State) : State :=
  match eventAt s.atr.timeline k with
  | none => s
  | some e =>
    let e := { e with after := measure s.lfe.history (afterWindow e.edge (edgeAfter s.atr.timeline k)) }
    settleEvent e (setEvent k e s)

/-- R64: the before-window of the event at place `k`, when it is due. -/
def beforeDueAt (k : Nat) (s : State) : State :=
  match eventAt s.atr.timeline k with
  | none => s
  | some e => onlyIf (isPending e.before && reached (beforeDue e.edge) s.now) (measureBefore k) s

/-- R65: the after-window of the event at place `k`, when it is due. -/
def afterDueAt (k : Nat) (s : State) : State :=
  match eventAt s.atr.timeline k with
  | none => s
  | some e =>
    onlyIf (isPending e.after && reached (afterDue e.edge (edgeAfter s.atr.timeline k)) s.now) (measureAfter k) s

/-! ### Removal (R49, R53) -/

/-- R49: the events that stay. -/
def remaining (now : Time) : List Event → List Event
  | [] => []
  | [e] => if bothDone e && reached (addUs e.edge 1000000) now then [] else [e]
  | e :: f :: rest =>
    if bothDone e && !isPending f.before then remaining now (f :: rest) else e :: remaining now (f :: rest)

/-- R53: a record may be released. -/
def releasable (s : State) (r : OwnRecord) : Bool :=
  r.done && !s.atr.list.contains r.ordinal && !s.atr.returnStack.contains r.ordinal
    && !s.atr.exitStack.contains r.ordinal && !s.atr.timeline.any fun e => e.ordinal == r.ordinal

/-- R49, R53: events and records that nothing needs any more are removed. -/
def tidy (s : State) : State :=
  let s := { s with atr := { s.atr with timeline := remaining s.now s.atr.timeline } }
  { s with atr := { s.atr with records := s.atr.records.filter fun r => !releasable s r } }

/-! ### List and stacks (R40 to R47) -/

/-- The end a train comes in by (00_scope.md, "Track geometry"). -/
def trailingEnd : Direction → PlatformEnd
  | .up => .a
  | .down => .b

/-- R40: the platform event of a crossing. -/
def eventKindOf (d : Direction) (c : Crossing) : EventKind :=
  if c.side == trailingEnd d then
    match c.kind with
    | .inward => .normalEntry
    | .outward => .reverseExit
  else
    match c.kind with
    | .inward => .reEntry
    | .outward => .normalExit

/-- R47: a push onto a stack of 32; the bottom goes first. -/
def pushStack (j : Nat) (stack : List Nat) : List Nat := (j :: stack).take 32

/-- R42 to R46: the tracker after the list and stack operation and the ordinal of the event; none for a phantom. -/
def listOperation (kind : EventKind) (a : Atr) : Option (Atr × Nat) :=
  match kind with
  | .normalEntry =>
    if 8 ≤ a.list.length then none
    else
      match a.returnStack with
      | j :: rest => some ({ a with list := a.list ++ [j], returnStack := rest }, j)
      | [] =>
        if 65535 ≤ a.counter then none
        else some ({ a with list := a.list ++ [a.counter + 1], counter := a.counter + 1 }, a.counter + 1)
  | .normalExit =>
    match a.list with
    | [] => none
    | j :: rest => some ({ a with list := rest, exitStack := pushStack j a.exitStack }, j)
  | .reverseExit =>
    match a.list.getLast? with
    | none => none
    | some j => some ({ a with list := a.list.dropLast, returnStack := pushStack j a.returnStack }, j)
  | .reEntry =>
    if 8 ≤ a.list.length then none
    else
      match a.exitStack with
      | j :: rest => some ({ a with list := j :: a.list, exitStack := rest }, j)
      | [] => some ({ a with list := 0 :: a.list }, 0)

/-! ### Timeline (R48, R50) -/

/-- The place a new event takes among the held ones: after every one not later (R48). -/
def placeEvent (e : Event) : List Event → List Event
  | [] => [e]
  | x :: rest => if earlier e.edge x.edge then e :: x :: rest else x :: placeEvent e rest

/-- How many held events come before it. -/
def placeIndex (e : Event) : List Event → Nat
  | [] => 0
  | x :: rest => if earlier e.edge x.edge then 0 else placeIndex e rest + 1

/-- The place the new event takes in the timeline, R50 applied; none when it is itself the earliest of 33. -/
def newPlace (e : Event) (timeline : List Event) : Option Nat :=
  match placeIndex e timeline with
  | 0 => if timeline.length < 32 then some 0 else none
  | k + 1 => if timeline.length < 32 then some (k + 1) else some k

/-- R69, R72: an older event of the same kind and ordinal is no longer the record's latest. -/
def superseded (kind : EventKind) (j : Nat) (e : Event) : Event :=
  if e.kind == kind && e.ordinal == j then { e with latest := false } else e

/-- R69, R72: every event but the one at the new event's place is superseded. -/
def supersede (kind : EventKind) (j : Nat) : Option Nat → List Event → List Event
  | _, [] => []
  | none, x :: rest => superseded kind j x :: supersede kind j none rest
  | some 0, x :: rest => x :: supersede kind j none rest
  | some (k + 1), x :: rest => superseded kind j x :: supersede kind j (some k) rest

/-- R50: the earliest of 33 events goes, and the before-mark of the one now earliest becomes invalid. -/
def overflow : List Event → List Event
  | [] => []
  | _ :: rest =>
    rest.modifyHead fun e => if isPending e.before then { e with before := .invalid } else e

/-- The event of an accepted crossing (R48). -/
def eventOf (kind : EventKind) (j : Nat) (c : Crossing) : Event :=
  { edge := c.edge, kind := kind, ordinal := j, speed := c.speed, overspeed := c.overspeed, creep := c.creep,
    before := .pending, after := .pending, latest := j != 0 && (kind == .normalEntry || kind == .normalExit) }

/-- R65: when the event at place `k` is a new successor, the pending after-window before it is measured at once if it is
now due. -/
def measurePredecessor (k : Nat) (s : State) : State :=
  match k with
  | 0 => s
  | i + 1 => afterDueAt i s

/-- R48, R50, R65: the event is inserted, the record's latest events as they were before it (R54, R69). What the removal
of an event settles comes with it (log 15). Of 33 events the earliest goes first: where the new event would be its
successor, its after-window is lost and not measured by R65 (DESIGN CHOICE, log 38). At an overflow the predecessor is
measured first, then the removed event settles, then the event now earliest: the order of their STEPs is DESIGN CHOICE
(log 46). -/
def insertEvent (e : Event) (s : State) : State :=
  let k := placeIndex e s.atr.timeline
  let placed := placeEvent e s.atr.timeline
  if placed.length ≤ 32 then
    measurePredecessor k { s with atr := { s.atr with timeline := placed } }
  else
    let s := { s with atr := { s.atr with timeline := overflow placed } }
    let s := measurePredecessor (k - 1) s
    let s := if k == 0 then s else ((placed.head?.map settleLost).getD id) s
    ((eventAt s.atr.timeline 0).map settleEvent).getD id s

/-! ### Records of accepted events (R51 to R53) -/

def normalOf (c : Crossing) : NormalEvent :=
  { edge := c.edge, speed := c.speed, overspeed := c.overspeed, creep := c.creep }

/-- R51: a new record, with the flags of its first entry (DEDUCED from R53, log 31). -/
def newRecord (j : Nat) (c : Crossing) : OwnRecord :=
  { ordinal := j, revision := 1, firstTime := c.edge, firstSpeed := c.speed, entry := normalOf c, exit := none,
    exitAfterEntry := false, entryStep := none, exitStep := none, entrySettled := false, exitSettled := false,
    overspeed := c.overspeed, creep := c.creep, reversal := false, implausible := false, done := false,
    estimate := none }

/-- R53: the overspeed and creep flags follow the latest normal events. -/
def refreshFlags (r : OwnRecord) : OwnRecord :=
  { r with
    overspeed := r.entry.overspeed || (r.exit.map (·.overspeed)).getD false,
    creep := r.entry.creep || (r.exit.map (·.creep)).getD false }

/-- R52: the revision at a normal event: it rises when the record already holds a normal exit. -/
def nextRevision (r : OwnRecord) : Nat := if r.exit.isSome then countUp 255 r.revision else r.revision

/-- R52, R53, R72: a normal entry taken from the return stack. -/
def recordEntry (c : Crossing) (r : OwnRecord) : OwnRecord :=
  refreshFlags
    { r with
      revision := nextRevision r, entry := normalOf c, exitAfterEntry := false, entryStep := none, entrySettled := false,
      reversal := true, done := false }

/-- R52, R72: a normal exit. -/
def recordExit (c : Crossing) (r : OwnRecord) : OwnRecord :=
  refreshFlags
    { r with
      revision := nextRevision r, exit := some (normalOf c), exitAfterEntry := true, exitStep := none,
      exitSettled := false, done := false }

/-- R53: a reversal event marks the record. -/
def recordReversal (r : OwnRecord) : OwnRecord := { r with reversal := true }

/-- R51 to R53: the record of an accepted event; `fresh` for an ordinal allocated by it. -/
def recordEvent (kind : EventKind) (fresh : Bool) (j : Nat) (c : Crossing) (s : State) : State :=
  if j == 0 then s
  else
    match kind with
    | .normalEntry =>
      if fresh then { s with atr := { s.atr with records := s.atr.records ++ [newRecord j c] } }
      else changeRecord j (recordEntry c) s
    | .normalExit => changeRecord j (recordExit c) s
    | .reverseExit => changeRecord j recordReversal s
    | .reEntry => changeRecord j recordReversal s

/-! ### Reports and CROSS (R54, R55) -/

/-- R157, R158, R161: the first entry time and speed in the spacing list, with a pass when a spacing is formed. -/
def handFirstEntry (j : Nat) (c : Crossing) (s : State) : State :=
  let listed := itemAllowed s j
  let s := takeFirstEntry j c.edge c.speed s
  onlyIf (listed && ((spacingOf s (j - 1)).isSome || (spacingOf s j).isSome)) assemble s

/-- R54: what a normal entry tells the FUS, and at the first one the WAS (in this order, log 24). -/
def reportEntry (fresh : Bool) (j : Nat) (c : Crossing) (s : State) : State :=
  if j == 0 then s
  else if fresh then handFirstEntry j c (notifyEntry j (some (c.edge, c.speed)) s)
  else notifyEntry j none s

/-- R46, R134: a phantom is counted. -/
def countPhantom (s : State) : State := onCurrent (fun m => { m with phantoms := countUp 65535 m.phantoms }) s

/-- R54, R134: a reversal event is counted. -/
def countReversal (s : State) : State := onCurrent (fun m => { m with reversals := countUp 65535 m.reversals }) s

/-- R54: the reports of an accepted event. -/
def reportEvent (kind : EventKind) (fresh : Bool) (j : Nat) (c : Crossing) (s : State) : State :=
  match kind with
  | .normalEntry => reportEntry fresh j c s
  | .normalExit => s
  | .reverseExit => countReversal s
  | .reEntry => countReversal s

/-- R55: the CROSS of an accepted event. -/
def handCross (kind : EventKind) (j : Nat) (c : Crossing) (s : State) : State :=
  let revision := ((findRecord s j).map (·.revision)).getD 0
  handOver (.cross s.ses.number j kind revision c.edge c.speed c.overspeed c.creep) broadcast s

/-- R52, R69, R72: the record takes the new event, which stands at `place`, and older events of its kind and ordinal are
no longer the latest. A new event that R50 has itself removed (`place` none) settles its side once the record has taken
it (log 15). -/
def recordInserted (kind : EventKind) (fresh : Bool) (j : Nat) (c : Crossing) (place : Option Nat) (s : State) : State :=
  let s := recordEvent kind fresh j c
    { s with atr := { s.atr with timeline := supersede kind j place s.atr.timeline } }
  onlyIf place.isNone (settleLost (eventOf kind j c)) s

/-- R54: an accepted event, in the order of that rule. Where its insertion closes a DRAINING session, what is left of it
runs on the tracker as started afresh (DESIGN CHOICE, log 39). -/
def acceptEvent (kind : EventKind) (fresh : Bool) (a : Atr) (j : Nat) (c : Crossing) (s : State) : State :=
  let e := eventOf kind j c
  let s := insertEvent e { s with atr := a }
  let s := recordInserted kind fresh j c (newPlace e a.timeline) s
  handCross kind j c (reportEvent kind fresh j c s)

/-- R39, R40, R46: a delivered crossing after its offer. -/
def mapCrossing (c : Crossing) (s : State) : State :=
  if sessionOpen s then
    let kind := eventKindOf s.ses.direction c
    match listOperation kind s.atr with
    | none => countPhantom s
    | some (a, j) => acceptEvent kind (s.atr.counter < a.counter) a j c s
  else s

/-- R39: a crossing is delivered to the tracker; the second part says that it opened a session. -/
def deliverCrossing (c : Crossing) (s : State) : State × Bool :=
  let r := offerCrossing c s
  (mapCrossing c r.1, r.2)

end Sys2Proof.Machine
end

