-- ==== Sys2Proof/Machine/WheelHeads.lean ====
section
/-! DEFINITION. The Wheel Head Unit (02): lockout, pairing, speed, edge time, head faults, single-head mode. -/

namespace Sys2Proof.Machine

open Sys2Proof

def endUnit (s : State) : PlatformEnd → EndUnit
  | .a => s.whu.endA
  | .b => s.whu.endB

def setEndUnit (e : PlatformEnd) (u : EndUnit) (s : State) : State :=
  match e with
  | .a => { s with whu := { s.whu with endA := u } }
  | .b => { s with whu := { s.whu with endB := u } }

def otherEnd : PlatformEnd → PlatformEnd
  | .a => .b
  | .b => .a

/-! ### Lockout (R19) -/

def lockOf (u : EndUnit) : HeadNo → Option Time
  | .outer => u.lock1
  | .inner => u.lock2

def setLock (h : HeadNo) (x : Option Time) (u : EndUnit) : EndUnit :=
  match h with
  | .outer => { u with lock1 := x }
  | .inner => { u with lock2 := x }

/-- R19: an edge stamped `t` is latched. The release time is compared as any two times are, and time alone frees no lock:
an edge 2^31 µs or more after the release compares as earlier and is ignored (DESIGN CHOICE, log 36). -/
def latched (t : Time) (lock : Option Time) : Bool :=
  match lock with
  | none => true
  | some release => !earlier t release

/-! ### Head faults (R31, R32, R35, R36) -/

def faultOf (u : EndUnit) : HeadNo → Bool
  | .outer => u.fault1
  | .inner => u.fault2

def otherHead : HeadNo → HeadNo
  | .outer => .inner
  | .inner => .outer

def setFault (h : HeadNo) (u : EndUnit) : EndUnit :=
  match h with
  | .outer => { u with fault1 := true }
  | .inner => { u with fault2 := true }

/-- Both heads faulted (R36). -/
def isDead (u : EndUnit) : Bool := u.fault1 && u.fault2

/-- The working head of an end in single-head mode (R32). -/
def workingHead (u : EndUnit) : Option HeadNo :=
  if u.fault1 && !u.fault2 then some .inner else if u.fault2 && !u.fault1 then some .outer else none

/-- R31: the unpaired run after a half started by `h` is discarded. -/
def countUnpaired (h : HeadNo) (u : EndUnit) : EndUnit :=
  if u.runHead == some h then { u with runCount := countUp 4 u.runCount }
  else { u with runHead := some h, runCount := 1 }

/-- R32, R36: a run of four faults the other head; an end that becomes dead loses its last speed. -/
def faultByRun (u : EndUnit) : EndUnit :=
  match u.runHead with
  | none => u
  | some h =>
    if u.runCount == 4 then
      let v := setFault (otherHead h) u
      if isDead v && !isDead u then { v with lastSpeed := none } else v
    else u

/-- Any head fault of the part. -/
def anyFault (s : State) : Bool := s.whu.endA.fault1 || s.whu.endA.fault2 || s.whu.endB.fault1 || s.whu.endB.fault2

/-- R31, R32: a half of end `e` started by `h` has been discarded as unpaired. -/
def discardHalf (e : PlatformEnd) (h : HeadNo) (s : State) : State :=
  let u := faultByRun (countUnpaired h { endUnit s e with half := none })
  onlyIf (u.runCount == 4) (reportPresent .head) (setEndUnit e u s)

/-- R35, R36: every head fault of the end is cleared; HEAD is no longer present when none remains anywhere. -/
def clearFaults (e : PlatformEnd) (s : State) : State :=
  let s := setEndUnit e { endUnit s e with fault1 := false, fault2 := false } s
  if anyFault s then s else reportAbsent .head s

/-! ### Speed, flags, edge time (R24 to R28, R33, R34) -/

def headSpacing (x : Settings) : PlatformEnd → Nat
  | .a => x.hA
  | .b => x.hB

def innerDistance (x : Settings) : PlatformEnd → Nat
  | .a => x.dA
  | .b => x.dB

/-- R24: the quotient before the clamp, for Δ above 0. -/
def rawSpeed (h delta : Nat) : Nat := h * 1000000 / delta

/-- R24: the speed was clamped. -/
def speedClamped (h delta : Nat) : Bool := delta == 0 || 65535 < rawSpeed h delta

/-- R24: the speed in mm/s. -/
def crossingSpeed (h delta : Nat) : Nat := if speedClamped h delta then 65535 else rawSpeed h delta

/-- R26: a configured limit in mm/s. -/
def limitMmPerS (kmh : Nat) : Nat := roundNat (kmh * 10000) 36

def isCreep (x : Settings) (v : Nat) : Bool := v < limitMmPerS x.creepKmh

def isOverspeed (x : Settings) (v : Nat) : Bool := limitMmPerS x.overspeedKmh < v

/-- R27: the correction of a paired crossing. -/
def pairedCorrection (d v delta : Nat) (kind : CrossingKind) : Nat :=
  let c := min 500000 (roundNat (d * 1000000) v)
  match kind with
  | .inward => c
  | .outward => min c (500000 - delta)

/-- R28: the edge time. -/
def edgeTime (kind : CrossingKind) (t : Time) (c : Nat) : Time :=
  match kind with
  | .inward => t + BitVec.ofNat 32 c
  | .outward => t - BitVec.ofNat 32 c

/-- R21, R24, R26 to R28: the crossing of a pair completed at `t`. -/
def pairedCrossing (x : Settings) (e : PlatformEnd) (half : Half) (t : Time) : Crossing :=
  let delta := elapsed half.start t
  let kind : CrossingKind := if half.head == .outer then .inward else .outward
  let v := crossingSpeed (headSpacing x e) delta
  let head2 := if half.head == .outer then t else half.start
  { side := e, kind := kind, edge := edgeTime kind head2 (pairedCorrection (innerDistance x e) v delta kind), speed := v,
    overspeed := speedClamped (headSpacing x e) delta || isOverspeed x v, creep := isCreep x v }

/-- R33: the expected kind of a single-head crossing at an end. -/
def expectedKind (s : State) (e : PlatformEnd) : CrossingKind :=
  if s.ses.state == .idle || e == trailingEnd s.ses.direction then .inward else .outward

/-- R33: the borrowed speed. -/
def borrowedSpeed (s : State) (e : PlatformEnd) : Nat :=
  ((endUnit s e).lastSpeed.orElse fun _ => (endUnit s (otherEnd e)).lastSpeed).getD 0

/-- R34: the correction of a single-head crossing over a distance. -/
def singleCorrection (distance v : Nat) : Nat :=
  if v == 0 then 500000 else min 500000 (roundNat (distance * 1000000) v)

/-- R33, R34: the single-head crossing of an edge of working head `h` at `t`. -/
def singleCrossing (s : State) (e : PlatformEnd) (h : HeadNo) (t : Time) : Crossing :=
  let x := s.settings
  let v := borrowedSpeed s e
  let kind := expectedKind s e
  let distance := innerDistance x e + (if h == .outer then headSpacing x e else 0)
  { side := e, kind := kind, edge := edgeTime kind t (singleCorrection distance v), speed := v,
    overspeed := isOverspeed x v, creep := isCreep x v }

/-! ### Pairing (R20 to R23, R29, R35, R36) -/

/-- R30: an end's last speed. -/
def setLastSpeed (e : PlatformEnd) (v : Nat) (s : State) : State :=
  setEndUnit e { endUnit s e with lastSpeed := some v } s

/-- R29, R30: a completed crossing is delivered. The last speed stands when the session closes in between, except that a
crossing that opens a session sets it after the clearing. -/
def deliverPaired (c : Crossing) (s : State) : State :=
  let r := deliverCrossing c (setLastSpeed c.side c.speed s)
  onlyIf r.2 (setLastSpeed c.side c.speed) r.1

/-- R21, R31, R35, R36: a pair is completed at `t`. A marked half at an end in single-head mode delivers nothing;
an unmarked one delivers a paired crossing (DEDUCED, log 30). -/
def completePair (e : PlatformEnd) (half : Half) (t : Time) (s : State) : State :=
  let u := endUnit s e
  let c := pairedCrossing s.settings e half t
  let silent := half.delivered && (workingHead u).isSome
  let s := setEndUnit e { u with half := none, runHead := none, runCount := 0 } s
  let s := onlyIf (u.fault1 || u.fault2) (clearFaults e) s
  if silent then setLastSpeed e c.speed s else deliverPaired c s

/-- R20, R34: a latched edge of `h` starts a HALF; when `h` is the working head the edge is delivered as a single-head
crossing and the HALF is marked. The crossing's kind and speed are read before its delivery, so one that interrupts
DRAINING keeps the speed borrowed before the clearing of R30 (DESIGN CHOICE, log 37). -/
def startHalf (e : PlatformEnd) (h : HeadNo) (t : Time) (s : State) : State :=
  let u := endUnit s e
  let single := workingHead u == some h
  let s := setEndUnit e { u with half := some { head := h, start := t, delivered := single } } s
  if single then (deliverCrossing (singleCrossing s e h t) s).1 else s

/-- R23: the pairing limit has run out for an edge at `t`. -/
def halfExpired (half : Half) (t : Time) : Bool := 400000 < elapsed half.start t

/-- R20 to R23: a latched edge enters pairing. -/
def pairEdge (e : PlatformEnd) (h : HeadNo) (t : Time) (s : State) : State :=
  match (endUnit s e).half with
  | none => startHalf e h t s
  | some half =>
    if halfExpired half t || half.head == h then startHalf e h t (discardHalf e half.head s)
    else completePair e half t s

/-- R18, R19: a head edge in READY at the present local time. The command stands for a rise (log 27). -/
def headEdge (e : PlatformEnd) (h : HeadNo) (s : State) : State :=
  let u := endUnit s e
  if s.stc.station == .ready && latched s.now (lockOf u h) then
    let release := addUs s.now (s.settings.lockoutMs * 1000)
    tidy (pairEdge e h s.now (setEndUnit e (setLock h (some release) u) s))
  else s

/-- R23: the HALF of an end expires. -/
def expireHalf (e : PlatformEnd) (s : State) : State :=
  match (endUnit s e).half with
  | none => s
  | some half => onlyIf (reached (addUs half.start 400001) s.now) (discardHalf e half.head) s

end Sys2Proof.Machine
end

