-- ==== Sys2Proof/Machine/Commands.lean ====
section
/-! DEFINITION. The meaning of each command: what it does to everything but the queue. `atTime` puts the clock right and does
nothing while the part is held in reset; each timed event acts only when it is due (assumption log 2). -/

namespace Sys2Proof.Machine

open Sys2Proof

/-- The outcome of a step: always a next state. -/
abbrev Result := Host.Outcome State Fault Refusal

/-- R198: power-on, or RST# driven low. -/
def execFullReset (s : State) : Result := .next (fullReset s)

/-- R191, R198: RST# released or power-on complete, with the straps as sampled. -/
def execResetRelease (straps : Straps) (s : State) : Result := .next (release straps s)

/-- R192 to R196: the image read ends, and LOADING with it. -/
def execImageReadDone (t : Time) (image : ImageRead) (s : State) : Result := .next (atTime t (endLoading image) s)

/-- R1 to R8, R11 to R15, R197: the four channels are converted together. -/
def execInstant (t : Time) (r0 r1 r2 r3 : BitVec 24) (s : State) : Result :=
  .next (atTime t (fun s => instantDue (instantLoads s.settings r0 r1 r2 r3) s) s)

/-- R18 to R36, R39 to R55: a head input rises. -/
def execHeadEdge (t : Time) (e : PlatformEnd) (h : HeadNo) (s : State) : Result := .next (atTime t (headEdge e h) s)

/-- R23, R31, R32: a HALF's pairing limit runs out. -/
def execHalfExpiry (t : Time) (e : PlatformEnd) (s : State) : Result := .next (atTime t (expireHalf e) s)

/-- R64, R66 to R73: the before-window of the event at place `k` of the timeline. -/
def execBeforeWindowDue (t : Time) (k : Nat) (s : State) : Result :=
  .next (atTime t (fun s => tidy (beforeDueAt k s)) s)

/-- R65 to R73: the after-window of the event at place `k` of the timeline. -/
def execAfterWindowDue (t : Time) (k : Nat) (s : State) : Result :=
  .next (atTime t (fun s => tidy (afterDueAt k s)) s)

/-- R49, R53: events that nothing needs any more leave the timeline. -/
def execTimelineRemoval (t : Time) (s : State) : Result := .next (atTime t tidy s)

/-- R85, R86, R89: a frame is started after `idleBits` recessive bit times. -/
def execFrameStart (t : Time) (idleBits : Nat) (s : State) : Result := .next (atTime t (startFrame idleBits) s)

/-- R87: arbitration is lost. -/
def execArbitrationLost (t : Time) (s : State) : Result := .next (atTime t loseArbitration s)

/-- R90 to R94: an attempt ends; for an attempt that reaches its hold slot, `t` is the end of that slot. -/
def execAttemptEnd (t : Time) (result : AttemptResult) (s : State) : Result := .next (atTime t (endAttempt result) s)

/-- R92: the BULK back-off ends (log 28). -/
def execBulkBackoffEnd (t : Time) (s : State) : Result := .next (atTime t endBackoff s)

/-- R93: the probe timer expires. -/
def execProbeTimerExpiry (t : Time) (s : State) : Result := .next (atTime t expireProbeTimer s)

/-- R96 to R102, R107, R108: a frame at the end of its check field, its start bit seen at `start`. -/
def execFrameReceived (t start : Time) (frame : LineFrame) (s : State) : Result :=
  .next (atTime t (receiveFrame start frame) s)

/-- R101, R110 to R116: a HAIL at the head of the receive queue. -/
def execHailDispatch (t : Time) (s : State) : Result := .next (atTime t (dispatchKind .hail hailDispatched) s)

/-- R101, R121, R123, R125, R126: an OPEN at the head of the receive queue. -/
def execOpenDispatch (t : Time) (s : State) : Result := .next (atTime t (dispatchKind .opening openDispatched) s)

/-- R101, R121, R127, R143: a CROSS at the head of the receive queue. -/
def execCrossDispatch (t : Time) (s : State) : Result := .next (atTime t (dispatchKind .cross crossDispatched) s)

/-- R101, R121, R129, R135: a SHUT at the head of the receive queue. -/
def execShutDispatch (t : Time) (s : State) : Result := .next (atTime t (dispatchKind .shut shutDispatched) s)

/-- R101, R142: a STEP at the head of the receive queue. -/
def execStepDispatch (t : Time) (s : State) : Result := .next (atTime t (dispatchKind .step stepDispatched) s)

/-- R101: a TALLY or REPLY at the head of the receive queue is accepted and discarded. -/
def execTallyReplyDispatch (t : Time) (s : State) : Result :=
  .next (atTime t discardHead s)

/-- R175, R176, R178. -/
def execFetchNext (t : Time) (s : State) : Result :=
  .next (atTime t (takeAsk (· == askFetchNext) fun x => unlessFault x (fetchNextAsk x)) s)

/-- R175, R176, R179. -/
def execFetch (t : Time) (s : State) : Result :=
  .next (atTime t (takeAsk (· == askFetch) fun x => unlessFault x (fetchAsk x)) s)

/-- R175, R176, R180. -/
def execFetchWagon (t : Time) (s : State) : Result :=
  .next (atTime t (takeAsk (· == askFetchWagon) fun x => unlessFault x (fetchWagonAsk x)) s)

/-- R175, R176, R179. -/
def execSeek (t : Time) (s : State) : Result :=
  .next (atTime t (takeAsk (· == askSeek) fun x => unlessFault x (seekAsk x)) s)

/-- R175, R182. -/
def execSummary (t : Time) (s : State) : Result := .next (atTime t (takeAsk (· == askSummary) summaryAsk) s)

/-- R175, R183. -/
def execConditions (t : Time) (s : State) : Result := .next (atTime t (takeAsk (· == askConditions) conditionsAsk) s)

/-- R175, R188. -/
def execClear (t : Time) (s : State) : Result := .next (atTime t (takeAsk (· == askClear) clearAsk) s)

/-- R189, R199: a RESTART at the head of the receive queue; local time starts again from 0. -/
def execRestart (t : Time) (straps : Straps) (s : State) : Result := .next (atTime t (restartAsk straps) s)

/-- R175, R176. -/
def execAskUnknown (t : Time) (s : State) : Result := .next (atTime t (takeAsk (fun k => !askKnown k) unknownAsk) s)

/-- R113: the own HAIL is handed over. -/
def execHailTimer (t : Time) (s : State) : Result := .next (atTime t hailTimerDue s)

/-- R112: an entry's silence expiry. -/
def execSilenceExpiry (t : Time) (station : BitVec 3) (s : State) : Result :=
  .next (atTime t (silenceExpired station.toNat) s)

/-- R128: the halt expiry. -/
def execHaltExpiry (t : Time) (s : State) : Result := .next (atTime t haltDue s)

/-- R128: a further millisecond in HALTED. -/
def execHaltedTimeTick (t : Time) (s : State) : Result := .next (atTime t haltTick s)

/-- R129: the close expiry. -/
def execCloseExpiry (t : Time) (s : State) : Result := .next (atTime t closeDue s)

/-- R131: the drain limit. -/
def execDrainLimit (t : Time) (s : State) : Result := .next (atTime t drainLimitDue s)

/-- R152: the deadline of an OPEN entry. -/
def execDeadlineReached (t : Time) (ordinal : Word16) (s : State) : Result :=
  .next (atTime t (deadlineDue ordinal.toNat) s)

end Sys2Proof.Machine
end

