-- ==== Sys2Proof/Machine/Dispatch.lean ====
section
/-! DEFINITION. exec: one arm per command, each one call of its meaning. -/

namespace Sys2Proof.Machine

open Sys2Proof

def exec (i : Instr) (s : State) : Host.Outcome State Fault Refusal :=
  match i with
  | .fullReset => Sys2Proof.Machine.execFullReset s
  | .resetRelease straps => Sys2Proof.Machine.execResetRelease straps s
  | .imageReadDone t image => Sys2Proof.Machine.execImageReadDone t image s
  | .instant t r0 r1 r2 r3 => Sys2Proof.Machine.execInstant t r0 r1 r2 r3 s
  | .headEdge t e h => Sys2Proof.Machine.execHeadEdge t e h s
  | .halfExpiry t e => Sys2Proof.Machine.execHalfExpiry t e s
  | .beforeWindowDue t k => Sys2Proof.Machine.execBeforeWindowDue t k s
  | .afterWindowDue t k => Sys2Proof.Machine.execAfterWindowDue t k s
  | .timelineRemoval t => Sys2Proof.Machine.execTimelineRemoval t s
  | .frameStart t idleBits => Sys2Proof.Machine.execFrameStart t idleBits s
  | .arbitrationLost t => Sys2Proof.Machine.execArbitrationLost t s
  | .attemptEnd t result => Sys2Proof.Machine.execAttemptEnd t result s
  | .bulkBackoffEnd t => Sys2Proof.Machine.execBulkBackoffEnd t s
  | .probeTimerExpiry t => Sys2Proof.Machine.execProbeTimerExpiry t s
  | .frameReceived t start frame => Sys2Proof.Machine.execFrameReceived t start frame s
  | .hailDispatch t => Sys2Proof.Machine.execHailDispatch t s
  | .openDispatch t => Sys2Proof.Machine.execOpenDispatch t s
  | .crossDispatch t => Sys2Proof.Machine.execCrossDispatch t s
  | .shutDispatch t => Sys2Proof.Machine.execShutDispatch t s
  | .stepDispatch t => Sys2Proof.Machine.execStepDispatch t s
  | .tallyReplyDispatch t => Sys2Proof.Machine.execTallyReplyDispatch t s
  | .fetchNext t => Sys2Proof.Machine.execFetchNext t s
  | .fetch t => Sys2Proof.Machine.execFetch t s
  | .fetchWagon t => Sys2Proof.Machine.execFetchWagon t s
  | .seek t => Sys2Proof.Machine.execSeek t s
  | .summary t => Sys2Proof.Machine.execSummary t s
  | .conditions t => Sys2Proof.Machine.execConditions t s
  | .clear t => Sys2Proof.Machine.execClear t s
  | .restart t straps => Sys2Proof.Machine.execRestart t straps s
  | .askUnknown t => Sys2Proof.Machine.execAskUnknown t s
  | .hailTimer t => Sys2Proof.Machine.execHailTimer t s
  | .silenceExpiry t station => Sys2Proof.Machine.execSilenceExpiry t station s
  | .haltExpiry t => Sys2Proof.Machine.execHaltExpiry t s
  | .haltedTimeTick t => Sys2Proof.Machine.execHaltedTimeTick t s
  | .closeExpiry t => Sys2Proof.Machine.execCloseExpiry t s
  | .drainLimit t => Sys2Proof.Machine.execDrainLimit t s
  | .deadlineReached t ordinal => Sys2Proof.Machine.execDeadlineReached t ordinal s

end Sys2Proof.Machine
end

