-- ==== Sys2Proof/Safety.lean ====
section
/-! DEFINITION. The invariants of the W440, one structure for each block: what holds after full reset and is kept by every
step. Then the words in which the statements say the rules. The docstrings name the rules they come from. -/

namespace Sys2Proof.Machine

open Sys2Proof

/-! ### Span Line Controller -/

/-- R88, R99: the sizes of the queues; R100: the hold decision; R93, R94: what the line states leave empty. -/
structure SlcInv (s : State) : Prop where
  urgent     : s.slc.urgent.length ≤ 8
  bulk       : s.slc.bulk.length ≤ 32
  service    : s.slc.service.length ≤ 4
  receive    : s.slc.receiveQueue.length ≤ 32
  holdOn     : 24 ≤ s.slc.receiveQueue.length → s.slc.hold = true
  holdOff    : s.slc.receiveQueue.length < 12 → s.slc.hold = false
  nodes      : s.slc.lastSequence.length = 16
  listening  : s.slc.line = .listen →
                 s.slc.urgent = [] ∧ s.slc.timing = none ∧ s.slc.bulk = [] ∧ s.slc.service = []
  muted      : s.slc.line = .muted → s.slc.urgent = [] ∧ s.slc.bulk = [] ∧ s.slc.service = []

/-! ### Condition Unit -/

/-- R185: a condition is reported present exactly while its block finds it, and is then latched; R187: the pin. -/
structure CndInv (s : State) : Prop where
  pin        : s.cnd.faultLow = ((s.cnd.latched &&& s.cnd.enable) != 0)
  latched    : s.cnd.present &&& ~~~ s.cnd.latched = 0
  persistent : s.cnd.present &&& ~~~ persistentMask = 0
  config     : hasCause s.cnd.present .config = (s.stc.station == .configFault)
  line       : hasCause s.cnd.present .line = (s.slc.line == .listen || s.slc.line == .muted)
  head       : hasCause s.cnd.present .head = anyFault s
  layout     : hasCause s.cnd.present .layout = s.ptb.layout
  loading    : s.stc.station = .loading → s.slc.sending = none ∧ s.slc.line = .active

/-! ### Axle Tracker -/

/-- The ordinals on and about the platform from the leading side to the trailing one: exited, on the list, returned. -/
def trainOrder (a : Atr) : List Nat := (a.exitStack.reverse ++ a.list ++ a.returnStack).filter (· != 0)

/-- R42 to R48, R50: the sizes, and that the tracker never puts two axles of a train out of order. -/
structure AtrInv (s : State) : Prop where
  listSize    : s.atr.list.length ≤ 8
  returnSize  : s.atr.returnStack.length ≤ 32
  exitSize    : s.atr.exitStack.length ≤ 32
  timeline    : s.atr.timeline.length ≤ 32
  counter     : s.atr.counter ≤ 65535
  ordered     : (trainOrder s.atr).Pairwise (· < ·)
  counted     : ∀ j ∈ trainOrder s.atr, j ≤ s.atr.counter

/-! ### Load Front End -/

/-- Samples 2,500 µs apart (R5). -/
def evenlySpaced : List Sample → Prop
  | [] => True
  | [_] => True
  | x :: y :: rest => y.stamp = addUs x.stamp 2500 ∧ evenlySpaced (y :: rest)

/-- R1, R5, R6, R8, R11, R12, R14: sizes, the even spacing of the history, the ranges of samples and of the zero. -/
structure LfeInv (s : State) : Prop where
  group     : s.lfe.group.length ≤ 3
  history   : s.lfe.history.length ≤ 1024
  block     : s.lfe.block.length ≤ 799
  even      : evenlySpaced s.lfe.history
  next      : ∀ x d, s.lfe.history.getLast? = some x → s.lfe.nextInstant = some d →
                d = addUs x.stamp (625 * (s.lfe.group.length + 1))
  ranges    : ∀ x ∈ s.lfe.history, -200000 ≤ x.total ∧ x.total ≤ 800000 ∧ -100000 ≤ x.left ∧ x.left ≤ 400000
  zero      : -20000 ≤ s.lfe.z ∧ s.lfe.z ≤ 20000 ∧ -20000 ≤ s.lfe.z0 ∧ s.lfe.z0 ≤ 20000
  idle      : converting s = false → s.lfe.group = [] ∧ s.lfe.history = [] ∧ s.lfe.block = []

/-! ### Wheel Head Unit -/

/-- R31: the unpaired run of an end. -/
def runGood (u : EndUnit) : Prop := u.runCount ≤ 4 ∧ (u.runHead = none ↔ u.runCount = 0)

structure WhuInv (s : State) : Prop where
  endA : runGood s.whu.endA
  endB : runGood s.whu.endB

/-! ### Fusion Unit -/

/-- R139, R154: at most 64 entries, ascending without repeats, each with a place for every station. -/
structure FusInv (s : State) : Prop where
  size   : s.fus.table.length ≤ 64
  rising : s.fus.table.Pairwise (fun e f => e.ordinal < f.ordinal)
  places : ∀ e ∈ s.fus.table, e.rows.length = 8 ∧ e.exits.length = 8

/-! ### Session Controller -/

/-- R120, R122, R127 to R134: what the fields of the SES say of the session state. The current summary is there while a
session is open, and names it. -/
structure SesGood (y : Ses) : Prop where
  closed     : y.state = .idle → y.current = none
  opened     : y.state ≠ .idle →
                 ∃ m, y.current = some m ∧ m.number = y.number ∧ m.direction = y.direction ∧ y.tf = some m.firstEdge
                   ∧ y.tc = some m.lastCrossing
  opening    : y.state ≠ .idle → y.opener.isSome = true ∧ y.tOpen.isSome = true
  halt       : y.haltExpiry.isSome = true → y.state = .running
  close      : y.closeExpiry.isSome = true → y.state = .running ∨ y.state = .halted
  pending    : y.closePending = true → y.state = .running ∨ y.state = .halted
  tick       : y.nextHaltTick.isSome = true → y.state = .halted
  drain      : y.drainLimit.isSome = true ↔ y.state = .draining
  matching   : y.closedForMatching = true → y.state = .draining
  held       : y.held.isSome = true → y.state = .draining

/-! ### Wagon Assembler, with the estimate table and the session -/

/-- R150, R157 to R164, R132: the estimate table and the spacing list lie between the cursor and H, a held group begins at
the cursor and does not pass H, and no estimate outlives its session. -/
structure AsmCore (s : State) : Prop where
  cursor   : 1 ≤ s.was.cursor
  patterns : ∀ p ∈ s.settings.patterns, 1 ≤ p.axles
  table    : ∀ e ∈ s.fus.table, s.was.cursor ≤ e.ordinal ∧ e.ordinal ≤ s.was.highest
  items    : ∀ x ∈ s.was.items, s.was.cursor ≤ x.ordinal ∧ x.ordinal ≤ s.was.highest
  group    : ∀ g, s.was.group = some g →
               g.first = s.was.cursor ∧ 1 ≤ g.count ∧ g.first + g.count ≤ s.was.highest + 1
  session  : SesGood s.ses
  idle     : s.ses.state = .idle → s.fus.table = []

/-- R130, R162: closing for matching leaves no estimate behind. -/
structure AsmInv (s : State) : Prop extends AsmCore s where
  matched  : s.ses.closedForMatching = true → s.fus.table = []

/-! ### Record Store -/

/-- R168, R169, R171: at most 128 records, their indices consecutive up to the counter, the read pointer on a held record or
on the next index. -/
structure RstInv (s : State) : Prop where
  size    : s.rst.ring.length ≤ 128
  indices : ∀ (i : Nat) (h : i < s.rst.ring.length),
              s.rst.ring[i].index = s.rst.nextIndex - BitVec.ofNat 16 (s.rst.ring.length - i)
  pointer : (s.rst.nextIndex - s.rst.readPointer).toNat ≤ s.rst.ring.length

/-! ### Peer Table -/

/-- R106, R115: a place for every station, and an exit station that is one. -/
structure PtbInv (s : State) : Prop where
  places : s.ptb.peers.length = 8
  exit   : s.ptb.exitStation < 8

/-! ### Start-up Control -/

/-- R192, R198: the I2C pins are in use in LOADING only, from the release of RST# or the restart on. -/
structure StcInv (s : State) : Prop where
  pins : s.stc.i2cReleased = (s.stc.inReset || s.stc.station != .loading)

/-! ### Words the statements use -/

/-- 11.2, pattern layout: pattern `q` stands at offset `o` of the image. -/
structure PatternLaid (b : List Byte) (o : Nat) (q : Pattern) : Prop where
  kind     : at1 b o = if q.loco then 1 else 0
  axles    : at1 b (o + 1) = q.axles
  spacings : ∀ (i : Nat) (r : Range), q.spacings[i]? = some r → at2 b (o + 2 + 4 * i) = r.least ∧ at2 b (o + 4 + 4 * i) = r.most
  gap      : at2 b (o + 4 * q.axles - 2) = q.gap.least ∧ at2 b (o + 4 * q.axles) = q.gap.most
  split    : at1 b (o + 4 * q.axles + 2) = q.split.getD 0
  gross    : (at3 b (o + 4 * q.axles + 3) : Int) = q.maxGross

/-- 11.2: the patterns stand one after the other from offset `o` up to `finish`. -/
def PatternsLaid (b : List Byte) (finish : Nat) : Nat → List Pattern → Prop
  | o, [] => o = finish
  | o, q :: rest => PatternLaid b o q ∧ PatternsLaid b finish (o + 4 * q.axles + 6) rest

/-- 11.2: a field of which every bit may be set as its default mark. -/
def orDefault (raw mark dflt : Nat) : Nat := if raw = mark then dflt else raw

/-- 11.2, image layout: the image carries these values, defaults put in for default marks. -/
structure ImageLaid (b : List Byte) (x : Settings) (p l : Nat) (m : CauseMask) : Prop where
  position  : p = at4 b 2
  length    : l = at2 b 6
  inner     : x.dA = at2 b 8 ∧ x.dB = at2 b 10
  heads     : x.hA = orDefault (at2 b 12) 65535 100 ∧ x.hB = orDefault (at2 b 14) 65535 100
  zeros     : ∀ (c : Nat) (z : Int), [x.zc0, x.zc1, x.zc2, x.zc3][c]? = some z → z + 8388608 = at4 b (16 + 4 * c)
  spans     : ∀ c k : Nat, [x.sc0, x.sc1, x.sc2, x.sc3][c]? = some k → k = at2 b (32 + 2 * c)
  limits    : x.lockoutMs = orDefault (at1 b 40) 255 8 ∧ x.creepKmh = orDefault (at1 b 41) 255 3
                ∧ x.overspeedKmh = orDefault (at1 b 42) 255 60
  analysis  : x.tol = orDefault (at1 b 43) 255 20 ∧ x.spreadLimit = orDefault (at2 b 44) 65535 4000
                ∧ x.zeroLimit = orDefault (at2 b 46) 65535 2000
  times     : x.haltS = orDefault (at1 b 48) 255 5 ∧ x.closeS = orDefault (at1 b 49) 255 10
  checks    : x.latLo = orDefault (at2 b 50) 65535 400 ∧ x.latHi = orDefault (at2 b 52) 65535 600
                ∧ x.longLimit = orDefault (at2 b 54) 65535 600
  mask      : ∀ i : Nat, i < 9 → m.getLsbD i = (at2 b 56).testBit i
  patterns  : x.patterns.length = at1 b 58 ∧ PatternsLaid b (at2 b 0) 59 x.patterns

/-- 5.7: the fields of a wagon record lie in the ranges of its layout. -/
structure RecordFits (r : WagonRecord) : Prop where
  wagon  : r.wagon < 65536
  number : r.pattern.getD 0 < 256
  first  : r.first < 65536
  count  : 1 ≤ r.axles.length ∧ r.axles.length ≤ 6
  gross  : -8388608 ≤ r.gross ∧ r.gross ≤ 8388607
  speed  : r.meanSpeed < 65536
  counts : r.misaligned < 256 ∧ r.unchecked < 256
  axles  : ∀ a ∈ r.axles, -8388608 ≤ a.w ∧ a.w ≤ 8388607 ∧ a.share.getD 0 < 65535

/-- 5.7, wagon record: the record stands in the payload from byte `o` on. -/
structure RecordLaid (p : List Byte) (o : Nat) (r : WagonRecord) : Prop where
  numbers : wordAt p o = r.index ∧ wordAt p (o + 2) = r.session ∧ at2 p (o + 4) = r.wagon
  kind    : at1 p (o + 6) = (match r.kind with | .wagon => 0 | .loco => 1 | .unmatched => 2)
              ∧ at1 p (o + 7) = r.pattern.getD 0
  first   : at2 p (o + 8) = r.first ∧ at1 p (o + 10) = r.axles.length
  gross   : signedAt3 p (o + 11) = r.gross
  grade   : gradeOfByte (p.getD (o + 14) 0) = some r.grade ∧ at2 p (o + 15) = r.meanSpeed
  flags   : (List.range 8).map (bitAt p (o + 17))
              = [r.overload, r.lateral, r.longitudinal, r.overspeed, r.creep, r.reversal, r.forced, false]
  counts  : at1 p (o + 18) = r.misaligned ∧ at1 p (o + 19) = r.unchecked
  axles   : ∀ (i : Nat) (a : AxleWeight), r.axles[i]? = some a →
              signedAt3 p (o + 20 + 6 * i) = a.w
                ∧ gradeOfByte (p.getD (o + 23 + 6 * i) 0 &&& 3) = some a.grade
                ∧ bitAt p (o + 23 + 6 * i) 7 = a.reversal ∧ at2 p (o + 24 + 6 * i) = a.share.getD 65535

/-- 5.7: the counts of a session summary lie in the ranges of its layout, with a place for every station's SHUT. -/
structure SummaryFits (m : Summary) : Prop where
  counts : m.ownAxles < 65536 ∧ m.wagons < 65536 ∧ m.phantoms < 65536 ∧ m.reversals < 65536 ∧ m.late < 65536
  halted : m.haltedMs < 4294967296
  places : m.shuts.length = 8
  shuts  : ∀ (n : Nat) (x : ShutCounts), place m.shuts n none = some x → x.axles < 65536 ∧ x.wagons < 65536

/-- 5.7, summary: it stands in the payload from byte `o` on. -/
structure SummaryLaid (p : List Byte) (o : Nat) (last : Bool) (m : Summary) : Prop where
  which   : at1 p o = if last then 1 else 0
  session : wordAt p (o + 1) = m.number ∧ at1 p (o + 3) = if m.direction = .up then 0 else 1
  times   : timeAt p (o + 4) = m.firstEdge ∧ timeAt p (o + 8) = m.lastCrossing
  counts  : at2 p (o + 12) = m.ownAxles ∧ at2 p (o + 14) = m.wagons ∧ at2 p (o + 16) = m.phantoms
              ∧ at2 p (o + 18) = m.reversals
  halted  : at4 p (o + 20) = m.haltedMs
  late    : at2 p (o + 24) = m.late ∧ at1 p (o + 26) = if m.mismatch then 1 else 0
  shuts   : ∀ n : Nat, n < 8 → bitAt p (o + 27) n = (place m.shuts n none).isSome
              ∧ at2 p (o + 28 + 4 * n) = ((place m.shuts n none).map (·.axles)).getD 0
              ∧ at2 p (o + 30 + 4 * n) = ((place m.shuts n none).map (·.wagons)).getD 0

/-- 5.7, conditions: they stand in the payload from byte `o` on. -/
structure ConditionsLaid (p : List Byte) (o : Nat) (c : ConditionsBody) : Prop where
  masks   : at2 p o = c.latched.toNat ∧ at2 p (o + 2) = c.enable.toNat
  top     : at1 p (o + 4) = (c.top.map priority).getD 0
  present : at1 p (o + 5) = if c.netLoad.isSome then 1 else 0
  load    : ∀ n, c.netLoad = some n → -8388608 ≤ n → n ≤ 8388607 → signedAt3 p (o + 6) = n
  states  : c.station ≠ .loading →
              at1 p (o + 9) = (match c.station with | .loading => 0 | .configFault => 1 | .settling => 2 | .ready => 3)
  line    : at1 p (o + 10) = (match c.line with | .active => 0 | .listen => 1 | .muted => 2 | .configFault => 3)
  session : at1 p (o + 11) = (match c.session with | .idle => 0 | .running => 1 | .halted => 2 | .draining => 3)

/-- 5.7: what an OK reply to an asked kind carries, from byte 2 on, with its length. -/
def ContentLaid (p : List Byte) (asked : Byte) : Content → Prop
  | .none => asked = 4 ∧ p.length = 2
  | .record r => (asked = 1 ∨ asked = 2 ∨ asked = 3) ∧ p.length = 22 + 6 * r.axles.length ∧ RecordLaid p 2 r
  | .summary last m => asked = 5 ∧ p.length = 62 ∧ SummaryLaid p 2 last m
  | .conditions c => asked = 6 ∧ p.length = 14 ∧ ConditionsLaid p 2 c
  | .mask m => asked = 7 ∧ p.length = 4 ∧ at2 p 2 = m.toNat

/-- 5.7: a content that an OK reply to an asked kind can carry, its fields in the ranges of their layout. -/
def ContentFits (asked : Byte) : Content → Prop
  | .none => asked = 4
  | .record r => (asked = 1 ∨ asked = 2 ∨ asked = 3) ∧ RecordFits r
  | .summary _ m => asked = 5 ∧ SummaryFits m
  | .conditions _ => asked = 6
  | .mask _ => asked = 7

/-- The state in which a dispatched frame is acted on at `t`, with `rest` left in the receive queue (R100, R101). -/
def afterHead (t : Time) (rest : List RxFrame) (s : State) : State :=
  { s with now := t, slc := { s.slc with receiveQueue := rest, hold := s.slc.hold && decide (12 ≤ rest.length) } }

/-- The state with one REPLY at the tail of the SERVICE queue, bearing the next sequence number (R88, R175). -/
def withReply (node : BitVec 4) (status : ReplyStatus) (asked : Byte) (content : Content) (s : State) : State :=
  { s with
    slc := { s.slc with
      sequence := s.slc.sequence + 1,
      service := s.slc.service ++
        [{ body := .reply status asked content, target := node, seq := s.slc.sequence + 1, failed := 0, held := 0 }] } }

/-- R175: an ASK of kind `k` is at the head of the receive queue, in a line state in which the service answers, with room
for the REPLY. -/
structure AskWaits (s : State) (x : RxFrame) (rest : List RxFrame) (k : Byte) : Prop where
  released : s.stc.inReset = false
  head     : s.slc.receiveQueue = x :: rest
  ask      : rxKind x = some .ask
  asked    : askedKind x = k
  line     : s.slc.line = .active ∨ s.slc.line = .configFault
  room     : s.slc.service.length < 4

/-- A frame of kind `k` is at the head of the receive queue (R101). -/
structure FrameWaits (s : State) (x : RxFrame) (rest : List RxFrame) (k : FrameKind) : Prop where
  released : s.stc.inReset = false
  head     : s.slc.receiveQueue = x :: rest
  kind     : rxKind x = some k

/-- The transmit queue of a class, head first; the TIMING slot is a queue of at most one frame (Figure 5-1). -/
def queueOf (k : FrameClass) (c : Slc) : List TxFrame :=
  match k with
  | .urgent => c.urgent
  | .timing => c.timing.toList
  | .bulk => c.bulk
  | .service => c.service

/-- The SLC with the queue of a class replaced. -/
def withQueue (k : FrameClass) (q : List TxFrame) (c : Slc) : Slc :=
  match k with
  | .urgent => { c with urgent := q }
  | .timing => { c with timing := q.head? }
  | .bulk => { c with bulk := q }
  | .service => { c with service := q }

/-- The peer table after the arrival report of a frame (R102): a recorder's frame leaves it as it is. -/
def afterReport (start : Time) (f : LineFrame) (s : State) : Ptb :=
  if f.node.toNat < 8 then
    { s.ptb with
      peers := s.ptb.peers.set f.node.toNat
        (hear f.stamp start (place s.ptb.peers f.node.toNat Peer.reset)) }
  else s.ptb

/-- R18, R19: a head edge that a READY station latches: the part is released, the head is not locked at `t`. -/
structure EdgeLatched (t : Time) (e : PlatformEnd) (h : HeadNo) (s : State) : Prop where
  released : s.stc.inReset = false
  ready    : s.stc.station = .ready
  unlocked : ∀ release, lockOf (endUnit s e) h = some release → earlier t release = false

/-- R19: the end with the head locked anew by an edge at `t`. -/
def lockedEnd (t : Time) (e : PlatformEnd) (h : HeadNo) (s : State) : EndUnit :=
  setLock h (some (t + BitVec.ofNat 32 (s.settings.lockoutMs * 1000))) (endUnit s e)

/-- The end after a completed pair (R21, R30, R31, R35, R36). -/
def pairedEnd (t : Time) (e : PlatformEnd) (h : HeadNo) (v : Nat) (s : State) : EndUnit :=
  { lockedEnd t e h s with
    half := none, runHead := none, runCount := 0, fault1 := false, fault2 := false, lastSpeed := some v }

/-- R32, R35, R36: the causes after a completed pair: HEAD is no longer present when it has cleared the last fault. -/
def causesAfterPair (e : PlatformEnd) (s : State) : Cnd :=
  if ((endUnit s e).fault1 || (endUnit s e).fault2)
      && !((endUnit s (otherEnd e)).fault1 || (endUnit s (otherEnd e)).fault2) then
    { s.cnd with present := s.cnd.present &&& ~~~ 8 }
  else s.cnd

/-- R22, R23, R31, R32, R36: an end once the HALF it holds, started by `g`, is counted as unpaired: a count of four faults the
other head, and an end that becomes dead by it loses its last speed. -/
def discardedEnd (g : HeadNo) (u : EndUnit) : EndUnit :=
  let n := if u.runHead = some g then (if u.runCount < 4 then u.runCount + 1 else u.runCount) else 1
  let outer := u.fault1 || (n == 4 && g == .inner)
  let inner := u.fault2 || (n == 4 && g == .outer)
  let dies := outer && inner && !(u.fault1 && u.fault2)
  { u with
    half := none, runHead := some g, runCount := n, fault1 := outer, fault2 := inner,
    lastSpeed := if dies then none else u.lastSpeed }

/-- R32: the causes once a HALF of the end, started by `g`, is counted as unpaired: a count of four reports HEAD present. -/
def causesAfterDiscard (g : HeadNo) (u : EndUnit) (k : Cnd) : Cnd :=
  if (discardedEnd g u).runCount = 4 then
    { k with
      latched := k.latched ||| 8, present := k.present ||| 8, faultLow := ((k.latched ||| 8) &&& k.enable) != 0 }
  else k

/-- R22, R23: an edge of `h` at `t` does not complete the HALF but discards it. -/
def Discards (t : Time) (half : Half) (h : HeadNo) : Prop := half.head = h ∨ 400000 < elapsed half.start t

/-- R20 to R23, R29, R31 to R36: the latched edge delivers the crossing `c` and leaves its end as `u` and the causes as `k`:
as the second edge of a pair, at a normal, a single-head or a dead end, the first not having been delivered; or as an edge of
the working head of a single-head end that starts a HALF, in WAIT or after the HALF it discards, the edge whose discarded HALF
completes a run of four and so makes its head the working one with them. -/
def Delivers (t : Time) (e : PlatformEnd) (h : HeadNo) (s : State) (c : Crossing) (u : EndUnit) (k : Cnd) : Prop :=
  (∃ half, (endUnit s e).half = some half ∧ half.head ≠ h ∧ elapsed half.start t ≤ 400000 ∧ half.delivered = false
      ∧ c = pairedCrossing s.settings e half t ∧ u = pairedEnd t e h c.speed s ∧ k = causesAfterPair e s)
    ∨ (workingHead (endUnit s e) = some h ∧ (endUnit s e).half = none ∧ c = singleCrossing s e h t
      ∧ u = { lockedEnd t e h s with half := some { head := h, start := t, delivered := true } } ∧ k = s.cnd)
    ∨ (∃ half, (endUnit s e).half = some half ∧ Discards t half h
      ∧ workingHead (discardedEnd half.head (endUnit s e)) = some h ∧ c = singleCrossing s e h t
      ∧ u = { discardedEnd half.head (lockedEnd t e h s) with half := some { head := h, start := t, delivered := true } }
      ∧ k = causesAfterDiscard half.head (endUnit s e) s.cnd)

/-- R42 to R45, R47: list, stacks and counter before and after an event of ordinal `j`. -/
def ListMove (kind : EventKind) (a b : Atr) (j : Nat) : Prop :=
  match kind with
  | .normalEntry => a.list.length < 8
      ∧ ((∃ rest, a.returnStack = j :: rest ∧ b = { a with list := a.list ++ [j], returnStack := rest })
        ∨ (a.returnStack = [] ∧ a.counter < 65535 ∧ j = a.counter + 1
            ∧ b = { a with list := a.list ++ [j], counter := j }))
  | .normalExit => ∃ rest, a.list = j :: rest ∧ b = { a with list := rest, exitStack := (j :: a.exitStack).take 32 }
  | .reverseExit =>
      ∃ rest, a.list = rest ++ [j] ∧ b = { a with list := rest, returnStack := (j :: a.returnStack).take 32 }
  | .reEntry => a.list.length < 8
      ∧ ((∃ rest, a.exitStack = j :: rest ∧ b = { a with list := j :: a.list, exitStack := rest })
        ∨ (a.exitStack = [] ∧ j = 0 ∧ b = { a with list := 0 :: a.list }))

/-- R46: an event that is a phantom. -/
def IsPhantom (kind : EventKind) (a : Atr) : Prop :=
  match kind with
  | .normalEntry => 8 ≤ a.list.length ∨ (a.returnStack = [] ∧ 65535 ≤ a.counter)
  | .reEntry => 8 ≤ a.list.length
  | .normalExit => a.list = []
  | .reverseExit => a.list = []

/-- R48, R69, R72: the timeline with a new event in its place, after every event not later; older events of its kind and
ordinal are no longer the record's latest. -/
def timelineWith (x : Event) (timeline : List Event) : List Event :=
  let held : Event → Event := fun y => if y.kind = x.kind ∧ y.ordinal = x.ordinal then { y with latest := false } else y
  ((timeline.takeWhile fun y => !earlier x.edge y.edge).map held)
    ++ x :: (timeline.dropWhile fun y => !earlier x.edge y.edge).map held

/-- R52, R53, R72: the record of the axle of an event after it. -/
def recordAfter (kind : EventKind) (c : Crossing) (r : OwnRecord) : OwnRecord :=
  let latest : NormalEvent := { edge := c.edge, speed := c.speed, overspeed := c.overspeed, creep := c.creep }
  let revision := if r.exit.isSome ∧ r.revision < 255 then r.revision + 1 else r.revision
  match kind with
  | .normalEntry =>
    { r with
      revision := revision, entry := latest, exitAfterEntry := false, entryStep := none, entrySettled := false,
      reversal := true, done := false, overspeed := c.overspeed || (r.exit.map (·.overspeed)).getD false,
      creep := c.creep || (r.exit.map (·.creep)).getD false }
  | .normalExit =>
    { r with
      revision := revision, exit := some latest, exitAfterEntry := true, exitStep := none, exitSettled := false,
      done := false, overspeed := r.entry.overspeed || c.overspeed, creep := r.entry.creep || c.creep }
  | .reverseExit => { r with reversal := true }
  | .reEntry => { r with reversal := true }

/-- n / d rounded to the nearest whole number with a half away from zero is `x` (00_scope.md, "Rounding"). -/
def IsRounded (n : Int) (d : Nat) (x : Int) : Prop :=
  2 * (n - d * x).natAbs ≤ d ∧ (2 * (n - d * x).natAbs = d → n.natAbs < d * x.natAbs)

/-- R128: at `t` the open session leaves RUNNING, or HALTED with `ms` whole milliseconds of its stay not yet counted. -/
def LeavesAt (t : Time) (s : State) (ms : Nat) : Prop :=
  s.ses.state = .running
    ∨ (s.ses.state = .halted ∧ ∃ tick, s.ses.nextHaltTick = some tick ∧ reached (tick - 1000) t = true
        ∧ ms = elapsed (tick - 1000) t / 1000)

/-- R128: a summary with the rest of the stay in HALTED added. -/
def withStay (s : State) (ms : Nat) (m : Summary) : Summary :=
  if s.ses.state = .halted then { m with haltedMs := min 4294967295 (m.haltedMs + ms) } else m

/-- R151: a station's exit-edge position for the session direction. -/
def exitAt (s : State) (n : Nat) : Nat :=
  if s.ses.direction = .up then positionOf s n + lengthOf s n else positionOf s n

/-- R151: station `n` lies downstream of this station's platform. -/
def LiesBeyond (s : State) (n : Nat) : Prop :=
  if s.ses.direction = .up then exitAt s s.stc.number.toNat < exitAt s n else exitAt s n < exitAt s s.stc.number.toNat

/-- R151: `d` is the own-estimate deadline of an entry at `t`: travel to the furthest LIVE peer's exit edge, and 2 s. -/
def IsOwnDeadline (t : Time) (s : State) (e : Entry) (d : Time) : Prop :=
  let distance :=
    match furthestPeer s with
    | none => 0
    | some n =>
      if s.ses.direction = .up then exitAt s n - exitAt s s.stc.number.toNat else exitAt s s.stc.number.toNat - exitAt s n
  ∃ travel : Nat, IsRounded (distance * 1000000 : Nat) (max 500 (e.exitSpeed.getD 500)) travel
    ∧ d = t + BitVec.ofNat 32 (min 28000000 travel + 2000000)

/-- R152: a deadline shortened by the exit heard from its peer, and not before the present. -/
def cutShort (t : Time) (e : Entry) (peer : Option Nat) (d : Time) : Time :=
  let cut :=
    match peer.bind fun n => place e.exits n none with
    | none => d
    | some x => if earlier (x.received + 1000000) d then x.received + 1000000 else d
  if earlier cut t then t else cut

/-- R148: the own part of an entry is settled. -/
def OwnSettled (s : State) (e : Entry) : Prop :=
  e.own.isSome = true ∧ ∀ r, (s.atr.records.find? fun r => r.ordinal == e.ordinal) = some r → r.done = true

/-- R153: an entry before and after HALTED is left for RUNNING at `t`. -/
def Resumed (t : Time) (s : State) (e f : Entry) : Prop :=
  let settled := OwnSettled s e
  let awaits := e.own = none ∧ ∃ n, furthestPeer s = some n ∧ LiesBeyond s n ∧ (place e.rows n none).isSome = true
  (e.fused = none → settled → ∃ d, IsOwnDeadline t s e d
      ∧ f = { e with deadline := some (cutShort t e (furthestPeer s) d), deadlinePeer := furthestPeer s })
    ∧ (e.fused = none → awaits → f = { e with deadline := some (t + 2000000), deadlinePeer := none })
    ∧ (e.fused.isSome = true ∨ (¬ settled ∧ ¬ awaits) → f = e)

/-- R127, R153: the estimate table once a crossing at `t` has been taken: from HALTED every entry is resumed. -/
def ResumedTable (t : Time) (s : State) (table : List Entry) : Prop :=
  (s.ses.state ≠ .halted → table = s.fus.table) ∧ (s.ses.state = .halted → List.Forall₂ (Resumed t s) s.fus.table table)

/-- R149: every LIVE peer has a row in the entry, of a revision not lower than that of its heard exit. -/
def Reported (s : State) (e : Entry) : Prop :=
  ∀ n ∈ livePeers s, ∃ r, place e.rows n none = some r ∧ ∀ x, place e.exits n none = some x → x.revision ≤ r.revision

/-- R148, R149: an entry is complete: its own part is settled or, in DRAINING, unavailable, and every LIVE peer has reported. -/
def IsComplete (s : State) (e : Entry) : Prop := (OwnSettled s e ∨ s.ses.state = .draining) ∧ Reported s e

/-- R150: the entry made FINAL. -/
def madeFinal (e : Entry) : Entry := { e with fused := some (fuse e), deadline := none, deadlinePeer := none }

/-- R161: the held group waits for an axle whose entry is OPEN, and that is none of those `but` names. -/
def GroupWaits (s : State) (but : Entry → Prop) : Prop :=
  ∃ g j e, s.was.group = some g ∧ g.first ≤ j ∧ j < g.first + g.count ∧ findEntry s j = some e ∧ e.fused = none ∧ ¬ but e

/-- R149: when entries of the table that `p` names become FINAL in one test, the table is in order and the held group waits
for another. -/
def TestWaits (s : State) (p : Entry → Prop) : Prop :=
  (∃ e ∈ s.fus.table, e.fused = none ∧ p e) →
    s.fus.table.Pairwise (fun a b => a.ordinal < b.ordinal) ∧ GroupWaits s p

/-- R149, R150, R163: the OPEN entries that `p` names have been made FINAL, the others taken as `other` says; a pass with no
group to store ends room force. -/
def Tested (p : Entry → Prop) (other : Entry → Entry) (s s' : State) : Prop :=
  List.Forall₂ (fun e f =>
      (e.fused.isSome = true → f = e) ∧ (e.fused = none → p e → f = madeFinal e) ∧ (e.fused = none → ¬ p e → f = other e))
    s.fus.table s'.fus.table
  ∧ ((∃ e ∈ s.fus.table, e.fused = none ∧ p e) → s'.was = { s.was with roomForce := false })
  ∧ ((∀ e ∈ s.fus.table, e.fused = none → ¬ p e) → s'.was = s.was)

/-- R129: close pending is set in RUNNING or HALTED, and every LIVE peer, of which there is one, has its SHUT recorded for the
held number. -/
def PeersShut (s : State) : Prop :=
  s.ses.closePending = true ∧ (s.ses.state = .running ∨ s.ses.state = .halted) ∧ livePeers s ≠ []
    ∧ ∃ m, s.ses.current = some m ∧ ∀ n ∈ livePeers s, ∃ x, place m.shuts n none = some x ∧ x.number = s.ses.number

/-- R130: an OPEN entry keeps the session in DRAINING when it enters it. -/
def StaysDraining (s : State) : Prop :=
  (∃ e ∈ s.fus.table, e.fused = none ∧ ¬ Reported s e) ∧ TestWaits s (Reported s)

/-- R128 to R131, R149, R153: at `t` the session goes to DRAINING and stays there: the rest of its stay in HALTED is added,
the timers end, and an OPEN entry becomes FINAL when every LIVE peer has reported, or else has a deadline. -/
def EntersDraining (t : Time) (ms : Nat) (s s' : State) : Prop :=
  s' = { s with
    fus := { s.fus with table := s'.fus.table }, was := s'.was,
    ses := { s.ses with
      state := .draining, drainLimit := some (t + 30000001), haltExpiry := none, closeExpiry := none,
      closePending := false, nextHaltTick := if s.ses.state = .halted then none else s.ses.nextHaltTick,
      current := s.ses.current.map (withStay s ms) } }
  ∧ Tested (Reported s)
      (fun e => if e.deadline.isSome then e else { e with deadline := some (t + 2000000), deadlinePeer := none }) s s'

/-- R114, R115, R129, R149: what a change of the live set sets off at `t`, from the state with the changed entry. The exit
station is chosen anew, in every session state; every OPEN entry is tested; and the peer test takes the session to DRAINING. -/
def Reassessed (t : Time) (s s' : State) : Prop :=
  s'.now = s.now ∧ s'.stc = s.stc ∧ s'.settings = s.settings
  ∧ s'.ptb = { s.ptb with exitStation := (chooseExit s').ptb.exitStation }
  ∧ (TestWaits s (IsComplete s) → ¬ PeersShut s →
      s' = { s with ptb := s'.ptb, fus := { s.fus with table := s'.fus.table }, was := s'.was }
      ∧ Tested (IsComplete s) id s s')
  ∧ ∀ ms, PeersShut s → LeavesAt t s ms → StaysDraining s → EntersDraining t ms { s with ptb := s'.ptb } s'

/-- R144: the row of station `n` in an entry, checked when the entry is OPEN and the row unchecked. -/
def checkedRow (s : State) (e : Entry) (n : Nat) (r : PeerRow) : PeerRow :=
  if e.fused = none ∧ r.alignment = .unchecked then { r with alignment := alignmentOf s e n r } else r

/-- R144, R145: a row of station `n` in an entry is checked and comes out misaligned. -/
def FoundMisaligned (s : State) (e : Entry) (n : Nat) : Prop :=
  e.fused = none ∧ ∃ r, place e.rows n none = some r ∧ r.alignment = .unchecked ∧ alignmentOf s e n r = .misaligned

/-- R145: station `n` has become LIVE: its unchecked rows in OPEN entries have been checked, with SLIP for a misaligned one. -/
def Rechecked (n : Nat) (s s' : State) : Prop :=
  s' = { s with fus := { s.fus with table := s'.fus.table }, cnd := s'.cnd }
  ∧ List.Forall₂ (fun e f => f = { e with rows := f.rows } ∧ f.rows.length = e.rows.length
      ∧ ∀ m, place f.rows m none = (place e.rows m none).map fun r => if m = n then checkedRow s e n r else r)
    s.fus.table s'.fus.table
  ∧ ((∃ e ∈ s.fus.table, FoundMisaligned s e n) → s'.cnd =
      { s.cnd with latched := s.cnd.latched ||| 16, faultLow := ((s.cnd.latched ||| 16) &&& s.cnd.enable) != 0 })
  ∧ ((∀ e ∈ s.fus.table, ¬ FoundMisaligned s e n) → s'.cnd = s.cnd)

/-- R158: the spacing of ordinal `j`, when it is known. -/
def knownSpacing (s : State) (j : Nat) : Option Int := (s.was.items.find? fun x => x.ordinal == j).bind (·.spacing)

/-- R159: a spacing lies outside a range, whose two ends are inside. -/
def Outside (d : Int) (r : Range) : Prop := d < r.least ∨ (r.most : Int) < d

/-- R159: the spacings pattern `p` is tested on at the cursor, each with its range: those inside the group in the order of the
ranges, then the gap, which R162 waives for a group whose last axle is H. -/
def checksOf (s : State) (p : Pattern) : List (Option Int × Range) :=
  (p.spacings.zipIdx.map fun x => (knownSpacing s (s.was.cursor + x.2), x.1))
    ++ (if s.ses.closedForMatching = true ∧ s.was.cursor + p.axles - 1 = s.was.highest then []
        else [(knownSpacing s (s.was.cursor + p.axles - 1), p.gap)])

/-- R159, R162, R163: a pattern fails on a known spacing outside its range; on an unknown one while the session is closed for
matching or room force is in effect; and, closed for matching, where its group would reach beyond H. -/
def PatternFails (s : State) (p : Pattern) : Prop :=
  (s.ses.closedForMatching = true ∧ s.was.highest < s.was.cursor + p.axles - 1)
    ∨ ∃ c ∈ checksOf s p,
      (∃ d, c.1 = some d ∧ Outside d c.2)
        ∨ (c.1 = none ∧ (s.ses.closedForMatching = true ∨ s.was.roomForce = true))

/-- R159: a pattern matches when every spacing tested is known and inside its range. -/
def PatternMatches (s : State) (p : Pattern) : Prop :=
  ¬ (s.ses.closedForMatching = true ∧ s.was.highest < s.was.cursor + p.axles - 1)
    ∧ ∀ c ∈ checksOf s p, ∃ d, c.1 = some d ∧ ¬ Outside d c.2

/-- R160: the trial at the cursor gives a group: the first pattern that matches, every one before it having failed, or axle u
alone when every pattern has failed. -/
def GroupChosen (s : State) (g : Group) : Prop :=
  (∃ (k : Nat) (p : Pattern), s.settings.patterns[k]? = some p
      ∧ (∀ (i : Nat) (q : Pattern), i < k → s.settings.patterns[i]? = some q → PatternFails s q)
      ∧ PatternMatches s p ∧ g = { pattern := some (k + 1), first := s.was.cursor, count := p.axles })
    ∨ ((∀ q ∈ s.settings.patterns, PatternFails s q) ∧ g = { pattern := none, first := s.was.cursor, count := 1 })

/-- R160: the trial at the cursor stops: a pattern before which every one has failed neither fails nor matches. -/
def TrialWaits (s : State) : Prop :=
  ∃ (k : Nat) (p : Pattern), s.settings.patterns[k]? = some p
    ∧ (∀ (i : Nat) (q : Pattern), i < k → s.settings.patterns[i]? = some q → PatternFails s q)
    ∧ ¬ PatternFails s p ∧ ¬ PatternMatches s p

/-- R162, R163: a missing ordinal, taken as an unweighed axle. -/
def IsMissing (s : State) (j : Nat) : Prop :=
  (s.fus.table.find? fun e => e.ordinal == j) = none ∧ s.was.cursor ≤ j
    ∧ ((s.ses.closedForMatching = true ∧ j ≤ s.was.highest)
      ∨ (s.was.roomForce = true ∧ ∃ e ∈ s.fus.table, j < e.ordinal))

/-- R161 item 1: every axle of a group is FINAL or missing. -/
def GroupReady (s : State) (g : Group) : Prop :=
  ∀ j, g.first ≤ j → j < g.first + g.count →
    IsMissing s j ∨ ∃ e, (s.fus.table.find? fun e => e.ordinal == j) = some e ∧ e.fused.isSome = true

/-- R161 item 2: a trial can be made at the cursor. -/
def TrialOpen (s : State) : Prop :=
  s.was.cursor ≤ s.was.highest
    ∧ ((∃ x ∈ s.was.items, x.ordinal = s.was.cursor) ∨ (∃ e ∈ s.fus.table, e.ordinal = s.was.cursor)
      ∨ IsMissing s s.was.cursor)

/-- 5.7: the lengths that the kind of a frame allows. Those of a REPLY go by its status and asked kind (log 10). -/
def LengthFits (k : FrameKind) (f : LineFrame) : Prop :=
  let n := f.length.toNat
  let record : Nat → Prop := fun m => m = 26 ∨ m = 32 ∨ m = 38 ∨ m = 44 ∨ m = 50 ∨ m = 56
  let ask : Byte → Prop := fun asked =>
    if asked = 1 ∨ asked = 6 ∨ asked = 8 then n = 1
    else if asked = 2 ∨ asked = 4 ∨ asked = 7 then n = 3
    else if asked = 3 then n = 5
    else if asked = 5 then n = 2
    else 1 ≤ n ∧ n ≤ 64
  let reply : Byte → Prop := fun asked =>
    if f.payload.getD 0 0 ≠ 0 then n = 2
    else if asked = 1 ∨ asked = 2 ∨ asked = 3 then ∃ m, record m ∧ n = 2 + m
    else if asked = 5 then n = 62
    else if asked = 6 then n = 14
    else if asked = 7 then n = 4
    else n = 2
  match k with
  | .hail => n = 16
  | .opening => n = 7
  | .cross => n = 13
  | .shut => n = 6
  | .step => n = 18
  | .tally => record n
  | .ask => ∃ asked, f.payload.head? = some asked ∧ ask asked
  | .reply => reply (f.payload.getD 1 0)

/-- 5.7: the number of a kind, and of its class. -/
def kindNumber : FrameKind → Nat × Nat
  | .hail => (1, 1)
  | .opening => (2, 0)
  | .cross => (3, 0)
  | .shut => (4, 0)
  | .step => (5, 2)
  | .tally => (6, 2)
  | .ask => (7, 3)
  | .reply => (8, 3)

/-- R96: at station `own` a frame of kind `k` is not bad, and it does not bear the station's own number. -/
structure PassesChecks (own : BitVec 3) (k : FrameKind) (f : LineFrame) : Prop where
  whole   : f.whole = true
  check   : f.check = frameCheck f
  most    : f.length.toNat ≤ 64
  kind    : f.kind.toNat = (kindNumber k).1
  cls     : f.cls.toNat = (kindNumber k).2
  length  : LengthFits k f
  node    : if k = .ask then 8 ≤ f.node.toNat else f.node.toNat < 8
  target  : if k = .ask then f.target.toNat < 8 else if k = .reply then 8 ≤ f.target.toNat else f.target.toNat = 15
  foreign : f.node.toNat ≠ own.toNat

end Sys2Proof.Machine
end

