-- ==== Sys2Proof/Certificates/Slice0/Obligations.lean ====
section
/-! DEFINITION. The statements about the W440 for the provers, each with the rules of spec/ it comes from. -/

section

open Sys2Proof Sys2Proof.Machine

/-! ### The queue of commands -/

/-- Assumption log 1: a step takes the command at the front of the queue and runs it on the state with the queue's rest. -/
def Obligations.StepTakesTheFrontCommand : Prop :=
  ∀ (c : Instr) (rest : List Instr) (s : State), s.pending = c :: rest → step s = exec c { s with pending := rest }

/-- With nothing waiting the block idles (the model's choice, log 1). While the part is held in reset, only the reset input
acts: power-on, RST# low, and the release (R198). -/
def Obligations.IdleAndHeldStatesStay : Prop :=
  (∀ s : State, s.pending = [] → step s = .next s)
    ∧ ∀ (c : Instr) (s : State), s.stc.inReset = true → c ≠ .fullReset → (∀ x, c ≠ .resetRelease x) → exec c s = .next s

/-- Every command completes, and none touches the commands that wait. -/
def Obligations.EveryCommandCompletesAndKeepsTheQueue : Prop :=
  ∀ (c : Instr) (s : State), ∃ t, exec c s = .next t ∧ t.pending = s.pending

/-! ### Start-up Control -/

/-- R198 with the tables of R16, R37, R57, R82, R104, R118, R137, R156, R173 and R190: a full reset takes every block to
its first state, and the release of RST# begins LOADING under the straps then sampled (R191). Values the spec leaves open
are log 5's. -/
def Obligations.ResetAndReleaseStartAfresh : Prop :=
  (∀ s : State, ∃ t, exec .fullReset s = .next t ∧ t = { State.reset with pending := s.pending }
      ∧ t.now = 0 ∧ t.stc.inReset = true ∧ t.stc.station = .loading ∧ t.stc.imageSum = 0 ∧ t.stc.i2cReleased = true
      ∧ t.lfe = { excitation := false, nextInstant := none, group := [], history := [], z := 0, z0 := 0, block := [] }
      ∧ (∀ e, endUnit t e = { lock1 := none, lock2 := none, half := none, runHead := none, runCount := 0,
                              fault1 := false, fault2 := false, lastSpeed := none })
      ∧ t.atr = { list := [], returnStack := [], exitStack := [], counter := 0, timeline := [], records := [] }
      ∧ t.slc.urgent = [] ∧ t.slc.timing = none ∧ t.slc.bulk = [] ∧ t.slc.service = [] ∧ t.slc.sequence = 0
      ∧ t.slc.backoff = none ∧ t.slc.probeTimer = none ∧ t.slc.droppedRun = 0 ∧ t.slc.duplicateRun = 0
      ∧ t.slc.receiveQueue = [] ∧ t.slc.hold = false ∧ (∀ n, place t.slc.lastSequence n none = none)
      ∧ (∀ n, place t.ptb.peers n Peer.reset = Peer.reset) ∧ t.ptb.layout = false ∧ t.ptb.hailTimer = none
      ∧ t.ses.state = .idle ∧ t.ses.number = 0 ∧ t.ses.direction = .up ∧ t.ses.checked = false ∧ t.ses.opener = none
      ∧ t.ses.tf = none ∧ t.ses.tOpen = none ∧ t.ses.tc = none ∧ t.ses.mark = none ∧ t.ses.closePending = false
      ∧ t.ses.closedForMatching = false ∧ t.ses.drainLimit = none ∧ t.ses.held = none ∧ t.ses.current = none
      ∧ t.ses.last = none
      ∧ t.fus = { table := [], current := none, superseded := none }
      ∧ t.was = { items := [], highest := 0, cursor := 1, group := none, wagons := 0, roomForce := false }
      ∧ t.rst = { ring := [], nextIndex := 0, readPointer := 0, deferred := none }
      ∧ t.cnd = { latched := 0, present := 0, enable := 0, faultLow := false })
    ∧ ∀ (x : Straps) (s : State), s.stc.inReset = true → ∃ t, exec (.resetRelease x) s = .next t
      ∧ t = { State.reset with pending := s.pending, stc := t.stc, ptb := t.ptb }
      ∧ t.stc.inReset = false ∧ t.stc.station = .loading ∧ t.stc.imageSum = 0 ∧ t.stc.fastLine = x.rate
      ∧ t.stc.i2cReleased = false
      ∧ t.stc.number.toNat = (if x.stn2 then 4 else 0) + (if x.stn1 then 2 else 0) + (if x.stn0 then 1 else 0)
      ∧ t.ptb = { State.reset.ptb with exitStation := t.stc.number.toNat }

/-- R195: at the end of LOADING a good image puts the station into SETTLING, starts the instants, takes line state ACTIVE,
hands over the first HAIL and sets the enable mask; the I2C pins are released (R192). Nothing else changes. -/
def Obligations.GoodImageStartsSettling : Prop :=
  ∀ (t : Time) (image : ImageRead) (x : Settings) (p l : Nat) (m : CauseMask) (sum patternSum : Word16) (s : State),
    readImage image = .good x p l m sum patternSum → s.stc.inReset = false → s.stc.station = .loading →
    s.slc.sending = none →
    exec (.imageReadDone t image) s = .next
      { s with
        now := t,
        settings := x,
        stc := { s.stc with station := .settling, imageSum := sum, i2cReleased := true },
        lfe := { s.lfe with excitation := true, nextInstant := some (t + 625) },
        slc := { s.slc with
          line := .active, sequence := s.slc.sequence + 1,
          timing := some
            { body := .hail
                { p := p, l := l, line := .active, station := .settling, session := s.ses.state, number := s.ses.number,
                  topCause := topCause s, patternSum := patternSum, imageSum := sum },
              target := 15, seq := s.slc.sequence + 1, failed := 0, held := 0 } },
        ptb := { s.ptb with
          ownP := p, ownL := l, ownPatternSum := patternSum, hailTimer := some (t + 250000) },
        cnd := { s.cnd with enable := m, faultLow := (s.cnd.latched &&& m) != 0 } }

/-- R196: a missing or bad image puts the station into CONFIG FAULT, with CONFIG latched and present, all nine causes
enabled, FAULT# low, a first HAIL that reports zeros, and the I2C pins released (R192). Nothing else changes. That the
HAIL already reports CONFIG is the model's reading (log 25). -/
def Obligations.BadImageEntersConfigFault : Prop :=
  ∀ (t : Time) (image : ImageRead) (sum : Word16) (s : State),
    (readImage image = .bad sum ∨ (readImage image = .missing ∧ sum = 0)) → s.stc.inReset = false →
    s.stc.station = .loading → s.slc.sending = none →
    exec (.imageReadDone t image) s = .next
      { s with
        now := t,
        stc := { s.stc with station := .configFault, imageSum := sum, i2cReleased := true },
        slc := { s.slc with
          line := .configFault, sequence := s.slc.sequence + 1,
          timing := some
            { body := .hail
                { p := 0, l := 0, line := .configFault, station := .configFault, session := s.ses.state,
                  number := s.ses.number, topCause := some .config, patternSum := 0, imageSum := sum },
              target := 15, seq := s.slc.sequence + 1, failed := 0, held := 0 } },
        ptb := { s.ptb with ownP := 0, ownL := 0, ownPatternSum := 0, hailTimer := some (t + 250000) },
        cnd := { latched := s.cnd.latched ||| 1, present := s.cnd.present ||| 1, enable := 511, faultLow := true } }

/-- R192 to R194: an image is missing when the memory does not answer, the read breaks off, or its length cannot be; it is
bad, with the sum over the bytes read, when its sum field differs; and it is good exactly when, with a right sum, it carries
values at the offsets of 11.2, defaults for default marks, that all lie in their ranges. Any other complete image is bad. The
limit on the length and the bytes that a bad image's sum covers are the model's reading (log 16), and so is a span of 65,535,
a default mark without a default, as out of range (log 8). -/
def Obligations.ImageIsCheckedBeforeUse : Prop :=
  readImage .noAcknowledge = .missing
    ∧ (∀ bytes : List Byte, (byteSum bytes).toNat = (bytes.map (·.toNat)).sum % 65536)
    ∧ ∀ given : List Byte,
      let n := at2 given 0
      let sum := byteSum (given.take n)
      let whole := 59 ≤ n ∧ n ≤ 512 ∧ n ≤ 59 + 30 * at1 given 58 ∧ n + 2 ≤ given.length
      (¬ whole → readImage (.bytes given) = .missing)
      ∧ (whole → wordAt given n ≠ sum → readImage (.bytes given) = .bad sum)
      ∧ (whole → readImage (.bytes given) = .bad sum
          ∨ ∃ x p l m patternSum, readImage (.bytes given) = .good x p l m sum patternSum)
      ∧ ∀ (x : Settings) (p l : Nat) (m : CauseMask) (sum' patternSum : Word16),
        readImage (.bytes given) = .good x p l m sum' patternSum ↔
          whole ∧ wordAt given n = sum ∧ sum' = sum ∧ patternSum = byteSum ((given.take n).drop 58)
          ∧ ImageLaid given x p l m
          ∧ p ≤ 4000000000 ∧ (1000 ≤ l ∧ l ≤ 12000) ∧ x.dA ≤ 300 ∧ x.dB ≤ 300
          ∧ (50 ≤ x.hA ∧ x.hA ≤ 250) ∧ (50 ≤ x.hB ∧ x.hB ≤ 250)
          ∧ (∀ z ∈ [x.zc0, x.zc1, x.zc2, x.zc3], -8388608 ≤ z ∧ z ≤ 8388607)
          ∧ (∀ k ∈ [x.sc0, x.sc1, x.sc2, x.sc3], 1 ≤ k ∧ k ≤ 65534)
          ∧ (2 ≤ x.lockoutMs ∧ x.lockoutMs ≤ 20) ∧ (1 ≤ x.creepKmh ∧ x.creepKmh ≤ 10)
          ∧ (30 ≤ x.overspeedKmh ∧ x.overspeedKmh ≤ 130) ∧ (5 ≤ x.tol ∧ x.tol ≤ 50)
          ∧ (1000 ≤ x.spreadLimit ∧ x.spreadLimit ≤ 20000) ∧ (500 ≤ x.zeroLimit ∧ x.zeroLimit ≤ 10000)
          ∧ (2 ≤ x.haltS ∧ x.haltS ≤ 20) ∧ (5 ≤ x.closeS ∧ x.closeS ≤ 60) ∧ x.haltS ≤ x.closeS
          ∧ x.latLo ≤ 500 ∧ (500 ≤ x.latHi ∧ x.latHi ≤ 1000) ∧ (500 ≤ x.longLimit ∧ x.longLimit ≤ 900)
          ∧ x.patterns.length ≤ 12
          ∧ ∀ q ∈ x.patterns, 2 ≤ q.axles ∧ q.axles ≤ 6 ∧ q.spacings.length + 1 = q.axles
              ∧ (∀ r ∈ q.gap :: q.spacings, 500 ≤ r.least ∧ r.least ≤ r.most ∧ r.most ≤ 30000)
              ∧ 1000 ≤ q.maxGross ∧ q.maxGross ≤ 360000
              ∧ (q.loco = true → q.split = none)
              ∧ (q.loco = false → ∃ k, q.split = some k ∧ 1 ≤ k ∧ k + 1 ≤ q.axles)

/-- R199 with R138, R174, R190: RESTART begins LOADING again and keeps the ring, the store index counter, the read pointer
and the last-session summary, which sets session number, direction and mark. The settings, the ACTIVE line state and the own
P, L and pattern-table sum that `State.reset` gives in LOADING are the model's choice (log 5). -/
def Obligations.RestartKeepsRecordsAndLastSummary : Prop :=
  ∀ (t : Time) (straps : Straps) (x : RxFrame) (rest : List RxFrame) (s : State),
    s.stc.inReset = false → s.slc.receiveQueue = x :: rest → rxKind x = some .ask → askedKind x = 8 →
    ∃ s', exec (.restart t straps) s = .next s'
      ∧ s' = { State.reset with
          pending := s.pending, stc := s'.stc, ptb := s'.ptb, ses := s'.ses, rst := { s.rst with deferred := none } }
      ∧ s'.stc.inReset = false ∧ s'.stc.station = .loading ∧ s'.stc.imageSum = 0 ∧ s'.stc.fastLine = straps.rate
      ∧ s'.stc.i2cReleased = false
      ∧ s'.stc.number.toNat = (if straps.stn2 then 4 else 0) + (if straps.stn1 then 2 else 0) + (if straps.stn0 then 1 else 0)
      ∧ s'.ptb = { State.reset.ptb with exitStation := s'.stc.number.toNat }
      ∧ s'.ses.last = s.ses.last
      ∧ (s.ses.last = none → s'.ses = Ses.reset)
      ∧ ∀ m, s.ses.last = some m →
          s'.ses = { Ses.reset with number := m.number, direction := m.direction, mark := some m.number, last := some m }

/-! ### Load Front End -/

/-- R2, R3, R4: a channel load is (r − z_c) × s_c / 1,048,576 rounded to nearest, held within −50,000 … +200,000 kg, and
saturated when the raw value is a converter extreme or the clamp changed it. -/
def Obligations.ChannelLoadIsRoundedAndClamped : Prop :=
  ∀ (zc : Int) (sc : Nat) (r : BitVec 24), ∃ x : Int, IsRounded ((r.toInt - zc) * sc) 1048576 x
    ∧ (x < -50000 → (channelLoad zc sc r).kg = -50000) ∧ (200000 < x → (channelLoad zc sc r).kg = 200000)
    ∧ (-50000 ≤ x → x ≤ 200000 → (channelLoad zc sc r).kg = x)
    ∧ ((channelLoad zc sc r).saturated = true ↔
        r.toInt = -8388608 ∨ r.toInt = 8388607 ∨ x < -50000 ∨ 200000 < x)

/-- R1, R3, R5 to R8, R11: an instant that is due joins its group; the fourth one forms a sample with that instant's stamp:
its total is a quarter of the sixteen channel loads and its left part a quarter of the eight of channels 0 and 2, each
rounded from the exact sum and clamped, and it is saturated when one of the sixteen is. It joins the history of 1,024 and,
while blocks are gathered, the block. Block tests are left to `ZeroBlockIsTested`. -/
def Obligations.InstantsFormSamples : Prop :=
  ∀ (t d : Time) (r0 r1 r2 r3 : BitVec 24) (s : State),
    s.stc.inReset = false → (s.stc.station = .settling ∨ s.stc.station = .ready) → s.lfe.nextInstant = some d →
    reached d t = true →
    let loads : InstantLoads :=
      { c0 := channelLoad s.settings.zc0 s.settings.sc0 r0, c1 := channelLoad s.settings.zc1 s.settings.sc1 r1,
        c2 := channelLoad s.settings.zc2 s.settings.sc2 r2, c3 := channelLoad s.settings.zc3 s.settings.sc3 r3 }
    let four := s.lfe.group ++ [loads]
    let open_ := s.stc.station = .ready ∧ s.ses.state ≠ .idle
    (s.lfe.group.length < 3 →
      exec (.instant t r0 r1 r2 r3) s = .next
        { s with now := t, lfe := { s.lfe with group := s.lfe.group ++ [loads], nextInstant := some (d + 625) } })
    ∧ (s.lfe.group.length = 3 → (open_ ∨ s.lfe.block.length < 799) → ∃ (x : Sample) (sum left : Int),
      x.stamp = d ∧ IsRounded (four.map fun i => i.c0.kg + i.c1.kg + i.c2.kg + i.c3.kg).sum 4 sum
      ∧ x.total = max (-200000) (min 800000 sum)
      ∧ IsRounded (four.map fun i => i.c0.kg + i.c2.kg).sum 4 left ∧ x.left = max (-100000) (min 400000 left)
      ∧ (x.saturated = true ↔ ∃ i ∈ four, i.c0.saturated = true ∨ i.c1.saturated = true ∨ i.c2.saturated = true
          ∨ i.c3.saturated = true)
      ∧ exec (.instant t r0 r1 r2 r3) s = .next
        { s with
          now := t,
          lfe := { s.lfe with
            group := [], nextInstant := some (d + 625),
            history := (if s.lfe.history.length < 1024 then s.lfe.history else s.lfe.history.tail) ++ [x],
            block := if open_ then s.lfe.block else s.lfe.block ++ [x] },
          cnd := if x.saturated then
              { s.cnd with
                latched := s.cnd.latched ||| 4, faultLow := ((s.cnd.latched ||| 4) &&& s.cnd.enable) != 0 }
            else s.cnd })

/-- R11 to R15, R197: the 800th sample of a block has it tested. In SETTLING a passing block sets Z and Z0 to its mean and
makes the station READY; in READY with the session IDLE it moves Z toward its mean by at most 50 kg, and ZERO is latched
when Z then lies more than the zero limit from Z0. -/
def Obligations.ZeroBlockIsTested : Prop :=
  ∀ (t d : Time) (r0 r1 r2 r3 : BitVec 24) (s : State),
    s.stc.inReset = false → (s.stc.station = .settling ∨ (s.stc.station = .ready ∧ s.ses.state = .idle)) →
    s.lfe.nextInstant = some d → reached d t = true → s.lfe.group.length = 3 → s.lfe.block.length = 799 →
    ∃ (s' : State) (x : Sample) (mean : Int),
      exec (.instant t r0 r1 r2 r3) s = .next s'
      ∧ s'.lfe.history.getLast? = some x ∧ s'.lfe.block = [] ∧ s'.lfe.group = []
      ∧ IsRounded (((s.lfe.block ++ [x]).map (·.total)).sum) 800 mean
      ∧ let quiet := (∀ y ∈ s.lfe.block ++ [x], y.saturated = false)
            ∧ (∀ y ∈ s.lfe.block ++ [x], ∀ y' ∈ s.lfe.block ++ [x], y.total - y'.total ≤ 1000)
        (s.stc.station = .settling →
          (quiet ∧ -20000 ≤ mean ∧ mean ≤ 20000 → s'.stc.station = .ready ∧ s'.lfe.z = mean ∧ s'.lfe.z0 = mean)
          ∧ (¬ (quiet ∧ -20000 ≤ mean ∧ mean ≤ 20000) →
              s'.stc.station = .settling ∧ s'.lfe.z = s.lfe.z ∧ s'.lfe.z0 = s.lfe.z0))
        ∧ (s.stc.station = .ready →
          s'.stc.station = .ready ∧ s'.lfe.z0 = s.lfe.z0
          ∧ (quiet → s'.lfe.z = max (-20000) (min 20000 (s.lfe.z + max (-50) (min 50 (mean - s.lfe.z)))))
          ∧ (¬ quiet → s'.lfe.z = s.lfe.z)
          ∧ (hasCause s'.cnd.latched .zero = true ↔
              hasCause s.cnd.latched .zero = true ∨ s.settings.zeroLimit < (s'.lfe.z - s.lfe.z0).natAbs))

/-! ### Wheel Head Unit -/

/-- The kind, speed, edge time and flags of a crossing: R24, R26, R27, R28 for a pair completed at `t`; R33, R34, with the
flags of R26 for the borrowed speed, for an edge of a working head at `t`. The correction of a paired crossing and its delay
together stay within 500,000 µs. -/
def Obligations.CrossingFiguresFollowTheHeads : Prop :=
  (∀ (x : Settings) (e : PlatformEnd) (half : Half) (t : Time),
    let delta := elapsed half.start t
    let h := headSpacing x e
    let c := pairedCrossing x e half t
    50 ≤ h → h ≤ 250 → delta ≤ 400000 →
    c.side = e ∧ (half.head = .outer → c.kind = .inward) ∧ (half.head = .inner → c.kind = .outward)
    ∧ 125 ≤ c.speed
    ∧ (delta = 0 ∨ 65535 < h * 1000000 / delta → c.speed = 65535 ∧ c.overspeed = true)
    ∧ (delta ≠ 0 → h * 1000000 / delta ≤ 65535 → c.speed = h * 1000000 / delta)
    ∧ (∃ slow fast : Nat, IsRounded (x.creepKmh * 10000 : Nat) 36 slow ∧ IsRounded (x.overspeedKmh * 10000 : Nat) 36 fast
        ∧ (c.creep = true ↔ c.speed < slow)
        ∧ (delta ≠ 0 → h * 1000000 / delta ≤ 65535 → (c.overspeed = true ↔ fast < c.speed)))
    ∧ ∃ r corr : Nat, IsRounded (innerDistance x e * 1000000 : Nat) c.speed r ∧ corr ≤ 500000
        ∧ (half.head = .outer → corr = min r 500000 ∧ c.edge = t + BitVec.ofNat 32 corr)
        ∧ (half.head = .inner → corr = min r (500000 - delta) ∧ delta + corr ≤ 500000
            ∧ c.edge = half.start - BitVec.ofNat 32 corr))
  ∧ ∀ (s : State) (e : PlatformEnd) (h : HeadNo) (t : Time),
    let c := singleCrossing s e h t
    let d := innerDistance s.settings e + (if h = .outer then headSpacing s.settings e else 0)
    c.side = e
    ∧ (c.kind = .inward ↔ s.ses.state = .idle ∨ (s.ses.direction = .up ∧ e = .a) ∨ (s.ses.direction = .down ∧ e = .b))
    ∧ (∀ v, (endUnit s e).lastSpeed = some v → c.speed = v)
    ∧ ((endUnit s e).lastSpeed = none → ∀ v, (endUnit s (otherEnd e)).lastSpeed = some v → c.speed = v)
    ∧ ((endUnit s e).lastSpeed = none → (endUnit s (otherEnd e)).lastSpeed = none → c.speed = 0)
    ∧ (∃ slow fast : Nat, IsRounded (s.settings.creepKmh * 10000 : Nat) 36 slow
        ∧ IsRounded (s.settings.overspeedKmh * 10000 : Nat) 36 fast
        ∧ (c.creep = true ↔ c.speed < slow) ∧ (c.overspeed = true ↔ fast < c.speed))
    ∧ ∃ corr : Nat, (c.speed = 0 → corr = 500000)
        ∧ (c.speed ≠ 0 → ∃ r : Nat, IsRounded (d * 1000000 : Nat) c.speed r ∧ corr = min r 500000)
        ∧ (c.kind = .inward → c.edge = t + BitVec.ofNat 32 corr) ∧ (c.kind = .outward → c.edge = t - BitVec.ofNat 32 corr)

/-- R18 to R20, R22, R23, R31, R32, R35, R36: in READY an edge of a head that is not locked locks the head anew and, at an
end in WAIT, starts a HALF. The same-head edge, or one that comes too late for the other head's HALF, counts that HALF as
unpaired and starts a new one; the fourth in a run faults the other head, with HEAD latched and present. Here the new HALF is
unmarked: the edge's head is not the working one, not even by that fault. The edge that completes a HALF already delivered by
the working head of a single-head end delivers nothing: it clears the faults and the run and sets the last speed. An edge
while the head is locked, or in another station state, changes nothing. What an edge delivers, the working head's edge with a
HALF pending with it, is left to `OwnInwardCrossingOpensASession`. `tidy` removes what R49 and R53 let go at `t`. How a lock
compares is log 36. -/
def Obligations.HeadEdgeStartsAHalf : Prop :=
  ∀ (t : Time) (e : PlatformEnd) (h : HeadNo) (s : State), s.stc.inReset = false →
    (s.stc.station = .ready → (∀ release, lockOf (endUnit s e) h = some release → earlier t release = false) →
      (endUnit s e).half = none → workingHead (endUnit s e) ≠ some h →
      exec (.headEdge t e h) s = .next (tidy (setEndUnit e
        { setLock h (some (t + BitVec.ofNat 32 (s.settings.lockoutMs * 1000))) (endUnit s e) with
          half := some { head := h, start := t, delivered := false } } { s with now := t })))
    ∧ (∀ half, EdgeLatched t e h s → (endUnit s e).half = some half → Discards t half h →
      workingHead (discardedEnd half.head (endUnit s e)) ≠ some h →
      exec (.headEdge t e h) s = .next (tidy (setEndUnit e
        { discardedEnd half.head (lockedEnd t e h s) with half := some { head := h, start := t, delivered := false } }
        { s with now := t, cnd := causesAfterDiscard half.head (endUnit s e) s.cnd })))
    ∧ (∀ half, EdgeLatched t e h s → (endUnit s e).half = some half → half.head ≠ h → elapsed half.start t ≤ 400000 →
      half.delivered = true → (endUnit s e).fault1 ≠ (endUnit s e).fault2 →
      exec (.headEdge t e h) s = .next (tidy (setEndUnit e
        (pairedEnd t e h (pairedCrossing s.settings e half t).speed s) { s with now := t, cnd := causesAfterPair e s })))
    ∧ (∀ release, lockOf (endUnit s e) h = some release → earlier t release = true →
      exec (.headEdge t e h) s = .next { s with now := t })
    ∧ (s.stc.station ≠ .ready → exec (.headEdge t e h) s = .next { s with now := t })

/-- R23, R31, R32, R36: a HALF that runs out is counted against its starting head. A count of four sets a fault on the other
head of the end, with HEAD latched and present. The other end keeps its state. -/
def Obligations.ExpiredHalfIsCounted : Prop :=
  ∀ (t : Time) (e : PlatformEnd) (half : Half) (s : State),
    s.stc.inReset = false → (endUnit s e).half = some half → reached (half.start + 400001) t = true →
    let n := if (endUnit s e).runHead = some half.head then min 4 ((endUnit s e).runCount + 1) else 1
    (n ≠ 4 → (endUnit s e).runCount ≤ 4 →
      exec (.halfExpiry t e) s = .next
        (setEndUnit e { endUnit s e with half := none, runHead := some half.head, runCount := n } { s with now := t }))
    ∧ (n = 4 → (endUnit s e).runCount ≤ 4 → ∃ s', exec (.halfExpiry t e) s = .next s'
        ∧ s' = { s with now := t, whu := s'.whu, cnd := s'.cnd }
        ∧ endUnit s' (otherEnd e) = endUnit s (otherEnd e)
        ∧ (endUnit s' e).half = none ∧ (endUnit s' e).runHead = some half.head ∧ (endUnit s' e).runCount = 4
        ∧ faultOf (endUnit s' e) (otherHead half.head) = true
        ∧ faultOf (endUnit s' e) half.head = faultOf (endUnit s e) half.head
        ∧ s'.cnd.latched = s.cnd.latched ||| 8 ∧ s'.cnd.present = s.cnd.present ||| 8)

/-- R21, R22, R31 to R36, R39, R40, R42, R48, R51, R54, R55, R117, R122, R124, R140, R157: in IDLE an inward crossing opens a
session with the mark plus 1, delivered by a pair of a normal or a dead end or by an end's one working head (R33, 2.7). It
chooses the exit station, is the first event, a normal entry of axle 1, and sends OPEN, then CROSS. The estimate table is empty
in IDLE and the own records are done. `latest` is the model's bit (log 6).

R43 to R46, R52, R53, R127: in RUNNING a crossing restarts the timers; an inward one checks a direction not yet checked, with
SLIP and a new exit station when it differs; direction, end and kind give one of four events, a phantom and counted, or one
that moves an axle, joins the timeline and the axle's record, counts a reversal and sends a CROSS. A first entry makes a record,
an item and an entry; an entry that a peer's STEP has made already gets its first time and speed, and its unchecked rows are
checked again, SLIP latched for a misaligned one (R140, R144, R145, log 47). The fresh record's flags are log 31, an unmarked
HALF at a single-head end log 30. No window comes due by the new event and there is room; a new axle beside an item is left to
`RecordGathersItsAxles`. In IDLE an outward crossing is discarded, in DRAINING it is an event or a phantom. R128, R153: in
HALTED the crossing first leaves HALTED, the stay added, the deadlines given afresh (logs 18, 29, 42, 48).

R131 to R133, R154, R162: in DRAINING an inward crossing forces what is OPEN, with LATE (log 21), has the train assembled under
the old number and closes the session; then it opens the next one, or the held one, with SLIP when the direction differs, and
is its first event. A single-head crossing's speed is log 37. -/
def Obligations.OwnInwardCrossingOpensASession : Prop :=
  ∀ (t : Time) (e : PlatformEnd) (h : HeadNo) (c : Crossing) (u : EndUnit) (k : Cnd) (s : State),
    EdgeLatched t e h s → Delivers t e h s c u k →
    let seen : Direction := if e = .a then .up else .down
    let halt := t + BitVec.ofNat 32 (s.settings.haltS * 1000000 + 1)
    let close_ := t + BitVec.ofNat 32 (s.settings.closeS * 1000000 + 1)
    let latest : NormalEvent := { edge := c.edge, speed := c.speed, overspeed := c.overspeed, creep := c.creep }
    let cross : Word16 → Nat → EventKind → Nat → Byte → TxFrame := fun number j kind revision seq =>
      { body := .cross number j kind revision c.edge c.speed c.overspeed c.creep, target := 15, seq := seq, failed := 0,
        held := 0 }
    let record : Nat → OwnRecord := fun j =>
      { ordinal := j, revision := 1, firstTime := c.edge, firstSpeed := c.speed, entry := latest, exit := none,
        exitAfterEntry := false, entryStep := none, exitStep := none, entrySettled := false, exitSettled := false,
        overspeed := c.overspeed, creep := c.creep, reversal := false, implausible := false, done := false, estimate := none }
    let entry : Nat → Entry := fun j =>
      { ordinal := j, firstTime := some c.edge, firstSpeed := some c.speed, own := none, exitSpeed := none,
        rows := List.replicate 8 none, exits := List.replicate 8 none, deadline := none, deadlinePeer := none,
        forced := false, late := 0, fused := none }
    let item : Nat → SpacingItem := fun j => { ordinal := j, time := c.edge, speed := c.speed, spacing := none }
    (s.ses.state = .idle → c.kind = .outward →
      exec (.headEdge t e h) s = .next (tidy (setEndUnit e u { s with now := t, cnd := k })))
    ∧ (s.ses.state = .idle → c.kind = .inward → s.slc.line = .active → s.slc.urgent.length < 7 →
        (∀ r ∈ s.atr.records, r.done = true) → s.fus.table = [] → s.was = Was.reset →
        let n : Word16 := match s.ses.mark with | none => 1 | some m => m + 1
        exec (.headEdge t e h) s = .next (setEndUnit e u
          { s with
            now := t, cnd := k,
            ses := { s.ses with
              state := .running, number := n, direction := seen, checked := true, opener := some s.stc.number.toNat,
              tf := some c.edge, tOpen := some t, tc := some t, mark := some n, haltExpiry := some halt,
              closeExpiry := some close_, nextHaltTick := none, closePending := false, closedForMatching := false,
              drainLimit := none,
              current := some
                { number := n, direction := seen, firstEdge := c.edge, lastCrossing := t, ownAxles := 0, wagons := 0,
                  phantoms := 0, reversals := 0, haltedMs := 0, late := 0, mismatch := false,
                  shuts := List.replicate 8 none } },
            lfe := { s.lfe with block := [] },
            ptb := (chooseExit { s with ses := { s.ses with direction := seen } }).ptb,
            atr :=
              { list := [1], returnStack := [], exitStack := [], counter := 1, records := [record 1],
                timeline := [{ edge := c.edge, kind := .normalEntry, ordinal := 1, speed := c.speed,
                               overspeed := c.overspeed, creep := c.creep, before := .pending, after := .pending,
                               latest := true }] },
            fus := { s.fus with current := some n, superseded := none, table := [entry 1] },
            was := { Was.reset with highest := 1, items := [item 1] },
            slc := { s.slc with
              sequence := s.slc.sequence + 2,
              urgent := s.slc.urgent ++
                [{ body := .opening n seen c.edge, target := 15, seq := s.slc.sequence + 1, failed := 0, held := 0 },
                 cross n 1 .normalEntry 1 (s.slc.sequence + 2)] } }))
    ∧ (s.ses.state = .running → reached halt t = false → reached close_ t = false →
        let checks := c.kind = .inward ∧ s.ses.checked = false
        let d := if checks then seen else s.ses.direction
        let turns := d ≠ s.ses.direction
        let trailing := (d = .up ∧ e = .a) ∨ (d = .down ∧ e = .b)
        let kind : EventKind :=
          if trailing then (if c.kind = .inward then .normalEntry else .reverseExit)
          else if c.kind = .inward then .reEntry
          else .normalExit
        let ses : Ses :=
          { s.ses with
            direction := d, checked := s.ses.checked || c.kind == .inward, tc := some t, haltExpiry := some halt,
            closeExpiry := some close_, closePending := false,
            current := s.ses.current.map fun m =>
              { m with direction := if checks then d else m.direction, lastCrossing := t } }
        let base : State := setEndUnit e u
          { s with
            now := t, ses := ses,
            ptb := if turns then (chooseExit { s with ses := { s.ses with direction := d } }).ptb else s.ptb,
            cnd := if turns then
                { k with latched := k.latched ||| 16, faultLow := ((k.latched ||| 16) &&& k.enable) != 0 }
              else k }
        (IsPhantom kind s.atr →
          exec (.headEdge t e h) s = .next (tidy { base with
            ses := { ses with
              current := ses.current.map fun m =>
                { m with phantoms := if m.phantoms < 65535 then m.phantoms + 1 else m.phantoms } } }))
        ∧ ∀ (a : Atr) (j : Nat), ListMove kind s.atr a j → s.atr.timeline.length < 32 →
          (∀ x ∈ s.atr.timeline, x.after = .pending →
            reached ((afterWindow x.edge (some c.edge)).2 + 500001) t = false) →
          s.slc.line = .active → s.slc.urgent.length < 8 →
          let timeline := timelineWith
            { edge := c.edge, kind := kind, ordinal := j, speed := c.speed, overspeed := c.overspeed, creep := c.creep,
              before := .pending, after := .pending, latest := j != 0 && (kind == .normalEntry || kind == .normalExit) }
            s.atr.timeline
          let fresh := kind = .normalEntry ∧ s.atr.returnStack = []
          (¬ fresh → (kind = .normalEntry → j = 0 ∨ (findEntry s j).isSome = true) →
            let records := s.atr.records.map fun r => if r.ordinal = j ∧ j ≠ 0 then recordAfter kind c r else r
            let revision := ((records.find? fun r => r.ordinal == j).map (·.revision)).getD 0
            exec (.headEdge t e h) s = .next (tidy { base with
              atr := { a with timeline := timeline, records := records },
              slc := { s.slc with
                sequence := s.slc.sequence + 1,
                urgent := s.slc.urgent ++ [cross s.ses.number j kind revision (s.slc.sequence + 1)] },
              ses := { ses with
                current := ses.current.map fun m =>
                  if kind = .reverseExit ∨ kind = .reEntry then
                    { m with reversals := if m.reversals < 65535 then m.reversals + 1 else m.reversals }
                  else m } }))
          ∧ (fresh → s.was.cursor ≤ j → j ≤ s.was.cursor + 127 →
              (∀ x ∈ s.was.items, x.ordinal ≠ j ∧ x.ordinal + 1 ≠ j ∧ x.ordinal ≠ j + 1) →
              (∀ r ∈ s.atr.records, r.ordinal ≠ j) →
            let begun : State := { base with
              atr := { a with timeline := timeline, records := s.atr.records ++ [record j] },
              slc := { s.slc with
                sequence := s.slc.sequence + 1,
                urgent := s.slc.urgent ++ [cross s.ses.number j kind 1 (s.slc.sequence + 1)] },
              was := { s.was with highest := max s.was.highest j, items := s.was.items ++ [item j] } }
            (findEntry s j = none → s.fus.table.length < 64 → s.ses.closedForMatching = false →
              ∃ table, exec (.headEdge t e h) s = .next (tidy { begun with fus := { s.fus with table := table } })
                ∧ (∀ i, i ≠ j → (table.find? fun f => f.ordinal == i) = findEntry s i)
                ∧ (table.find? fun f => f.ordinal == j) = some (entry j))
            ∧ (∀ f, findEntry s j = some f → f.firstTime.isSome = true → exec (.headEdge t e h) s = .next (tidy begun))
            ∧ (∀ f, findEntry s j = some f → f.firstTime = none →
              let at_ : State := { s with ses := { s.ses with direction := d } }
              let timed : Entry := { f with firstTime := some c.edge, firstSpeed := some c.speed }
              ∃ table cnd g, exec (.headEdge t e h) s = .next (tidy { begun with
                  fus := { s.fus with table := table }, cnd := cnd })
                ∧ (∀ i, i ≠ j → (table.find? fun f => f.ordinal == i) = findEntry s i)
                ∧ (table.find? fun f => f.ordinal == j) = some g
                ∧ g = { timed with rows := g.rows } ∧ g.rows.length = f.rows.length
                ∧ (∀ m, place g.rows m none = (place f.rows m none).map fun r =>
                    if m < 8 then checkedRow at_ timed m r else r)
                ∧ ((∃ m, m < 8 ∧ FoundMisaligned at_ timed m) →
                    cnd = { base.cnd with
                      latched := base.cnd.latched ||| 16, faultLow := ((base.cnd.latched ||| 16) &&& k.enable) != 0 })
                ∧ ((∀ m, m < 8 → ¬ FoundMisaligned at_ timed m) → cnd = base.cnd))))
    ∧ (∀ ms, s.ses.state = .halted → LeavesAt t s ms →
        let d := if c.kind = .inward ∧ s.ses.checked = false then seen else s.ses.direction
        ∃ table : List Entry,
          exec (.headEdge t e h) s = exec (.headEdge t e h)
            { s with
              fus := { s.fus with table := table },
              ses := { s.ses with state := .running, nextHaltTick := none, current := s.ses.current.map (withStay s ms) } }
          ∧ table.length = s.fus.table.length
          ∧ ∀ (i : Nat) (f : Entry), s.fus.table[i]? = some f → ∃ g, table[i]? = some g
              ∧ Resumed t { s with ses := { s.ses with direction := d } } f g)
    ∧ (s.ses.state = .draining → c.kind = .outward →
        let kind : EventKind :=
          if (s.ses.direction = .up ∧ e = .a) ∨ (s.ses.direction = .down ∧ e = .b) then .reverseExit else .normalExit
        let base : State := setEndUnit e u { s with now := t, cnd := k }
        (IsPhantom kind s.atr →
          exec (.headEdge t e h) s = .next (tidy { base with
            ses := { s.ses with
              current := s.ses.current.map fun m =>
                { m with phantoms := if m.phantoms < 65535 then m.phantoms + 1 else m.phantoms } } }))
        ∧ ∀ (a : Atr) (j : Nat), ListMove kind s.atr a j → s.atr.timeline.length < 32 →
          (∀ x ∈ s.atr.timeline, x.after = .pending →
            reached ((afterWindow x.edge (some c.edge)).2 + 500001) t = false) →
          s.slc.line = .active → s.slc.urgent.length < 8 →
          let records := s.atr.records.map fun r => if r.ordinal = j ∧ j ≠ 0 then recordAfter kind c r else r
          let revision := ((records.find? fun r => r.ordinal == j).map (·.revision)).getD 0
          exec (.headEdge t e h) s = .next (tidy { base with
            atr := { a with
              timeline := timelineWith
                { edge := c.edge, kind := kind, ordinal := j, speed := c.speed, overspeed := c.overspeed, creep := c.creep,
                  before := .pending, after := .pending, latest := j != 0 && kind == .normalExit }
                s.atr.timeline,
              records := records },
            slc := { s.slc with
              sequence := s.slc.sequence + 1,
              urgent := s.slc.urgent ++ [cross s.ses.number j kind revision (s.slc.sequence + 1)] },
            ses := { s.ses with
              current := s.ses.current.map fun m =>
                if kind = .reverseExit then
                  { m with reversals := if m.reversals < 65535 then m.reversals + 1 else m.reversals }
                else m } }))
    ∧ ∀ m, s.ses.state = .draining → c.kind = .inward → AsmInv s → s.ses.current = some m → s.slc.line = .active →
        s.slc.urgent.length < 6 →
        let number : Word16 := match s.ses.held with
          | some x => x.number
          | none => match s.ses.mark with | none => 1 | some n => n + 1
        let tf := (s.ses.held.map (·.firstEdge)).getD c.edge
        let bodies : List TxFrame → List Body := fun q => q.map (·.body)
        ∃ s' last, exec (.headEdge t e h) s = .next s'
          ∧ s'.ses.last = some last ∧ m.wagons ≤ last.wagons
          ∧ last = { m with
              ownAxles := s.atr.counter, wagons := last.wagons, late := last.late,
              mismatch := m.mismatch || m.shuts.any fun x =>
                (x.map fun n => n.axles != s.atr.counter || n.wagons != last.wagons).getD false }
          ∧ ((∃ f ∈ s.fus.table, f.fused = none) → s'.cnd.latched.getLsbD 7 = true)
          ∧ s'.cnd.latched.getLsbD 4 = (k.latched.getLsbD 4 || s.ses.held.any fun x => x.direction != seen)
          ∧ (∀ i, k.latched.getLsbD i = true → s'.cnd.latched.getLsbD i = true)
          ∧ (∀ r ∈ s'.rst.ring, r ∈ s.rst.ring ∨ r.session = s.ses.number)
          ∧ s'.ses.state = .running ∧ s'.ses.number = number ∧ s'.ses.direction = seen ∧ s'.ses.checked = true
          ∧ s'.ses.opener = some ((s.ses.held.map (·.sender)).getD s.stc.number.toNat)
          ∧ s'.ses.tf = some tf ∧ s'.ses.tOpen = some t ∧ s'.ses.tc = some t
          ∧ s'.ses.haltExpiry = some halt ∧ s'.ses.closeExpiry = some close_
          ∧ s'.ses.drainLimit = none ∧ s'.ses.closePending = false ∧ s'.ses.closedForMatching = false ∧ s'.ses.held = none
          ∧ s'.ses.current = some
              { number := number, direction := seen, firstEdge := tf, lastCrossing := t, ownAxles := 0, wagons := 0,
                phantoms := 0, reversals := 0, haltedMs := 0, late := 0, mismatch := false, shuts := List.replicate 8 none }
          ∧ s'.fus.current = some number ∧ s'.fus.superseded = none
          ∧ (∃ f, s'.fus.table = [f] ∧ f.ordinal = 1 ∧ f.firstTime = some c.edge ∧ f.firstSpeed = some c.speed ∧ f.own = none
              ∧ f.fused = none)
          ∧ s'.was = { Was.reset with
              highest := 1, items := [{ ordinal := 1, time := c.edge, speed := c.speed, spacing := none }] }
          ∧ s'.atr.list = [1] ∧ s'.atr.counter = 1 ∧ s'.atr.returnStack = [] ∧ s'.atr.exitStack = []
          ∧ bodies s'.slc.urgent = bodies s.slc.urgent ++ .shut s.ses.number s.atr.counter last.wagons ::
              ((if s.ses.held.isSome then [] else [.opening number seen c.edge])
                ++ [.cross number 1 .normalEntry 1 c.edge c.speed c.overspeed c.creep])

/-! ### Axle Tracker -/

/-- R42 to R47: an axle that leaves over an end and comes back over the same end keeps its ordinal, its place in the list and
the counter; and the events refused as phantoms are those of the table. -/
def Obligations.ReturningAxleKeepsItsOrdinal : Prop :=
  (∀ (a b : Atr) (j : Nat), a.list.length ≤ 8 → listOperation .reverseExit a = some (b, j) →
      a.list.getLast? = some j ∧ b.list = a.list.dropLast
      ∧ ∃ c, listOperation .normalEntry b = some (c, j) ∧ c.list = a.list ∧ c.counter = a.counter
          ∧ c.exitStack = a.exitStack ∧ c.returnStack = a.returnStack.take 31)
  ∧ (∀ (a b : Atr) (j : Nat), a.list.length ≤ 8 → listOperation .normalExit a = some (b, j) →
      a.list.head? = some j ∧ b.list = a.list.tail
      ∧ ∃ c, listOperation .reEntry b = some (c, j) ∧ c.list = a.list ∧ c.counter = a.counter
          ∧ c.returnStack = a.returnStack ∧ c.exitStack = a.exitStack.take 31)
  ∧ (∀ a : Atr, listOperation .normalEntry a = none ↔
      8 ≤ a.list.length ∨ (a.returnStack = [] ∧ 65535 ≤ a.counter))
  ∧ (∀ a : Atr, listOperation .reEntry a = none ↔ 8 ≤ a.list.length)
  ∧ (∀ a : Atr, listOperation .normalExit a = none ↔ a.list = [])
  ∧ (∀ a : Atr, listOperation .reverseExit a = none ↔ a.list = [])

/-- R49, R53: the events that leave the timeline at `t` are those whose two marks have left pending and whose successor's
before-mark has left pending, or which have no successor and lie 1,000,000 µs back; then the records nothing needs are
released. Nothing else changes. -/
def Obligations.TimelineLetsGoWhatIsDone : Prop :=
  ∀ (t : Time) (s : State), s.stc.inReset = false →
    let tl := s.atr.timeline
    let gone : Nat → Bool := fun i =>
      match tl[i]?, tl[i + 1]? with
      | some e, some f => e.before != .pending && e.after != .pending && f.before != .pending
      | some e, none => e.before != .pending && e.after != .pending && reached (e.edge + 1000000) t
      | none, _ => false
    let kept := (List.range tl.length).filterMap fun i => if gone i then none else tl[i]?
    exec (.timelineRemoval t) s = .next
      { s with
        now := t,
        atr := { s.atr with
          timeline := kept,
          records := s.atr.records.filter fun r =>
            !(r.done && !s.atr.list.contains r.ordinal && !s.atr.returnStack.contains r.ordinal
              && !s.atr.exitStack.contains r.ordinal && !kept.any fun e => e.ordinal == r.ordinal) } }

/-! ### Step Analyser -/

/-- R64 to R71: a window that is due is measured with the bounds the timeline then gives and its mark is set. When both
windows of a record's latest normal event are done, that side of the record is settled: for an entry with after less before,
for an exit with before less after, of the means and of the left means, and with both spreads; without a step when a window
gave none.
`latest` is the model's bit for "the record's latest normal event" (log 6). -/
def Obligations.DueWindowIsMeasured : Prop :=
  ∀ (t : Time) (k : Nat) (e : Event) (s : State), s.stc.inReset = false → s.atr.timeline[k]? = some e →
    let offered := e.latest = true ∧ e.ordinal ≠ 0 ∧ (e.kind = .normalEntry ∨ e.kind = .normalExit)
    let marked : Event → State := fun e' => { s with now := t, atr := { s.atr with timeline := s.atr.timeline.set k e' } }
    let less : WindowResult → WindowResult → WindowResult → WindowResult → Step := fun x y b a =>
      { total := x.mean - y.mean, left := x.left - y.left, spreadBefore := b.spread, spreadAfter := a.spread }
    let step : Event → Option Step := fun e' =>
      match e'.before, e'.after with
      | .evaluated b, .evaluated a => some (if e.kind = .normalExit then less b a b a else less a b b a)
      | _, _ => none
    let side : Event → OwnRecord → OwnRecord := fun e' r =>
      if e.kind = .normalExit then { r with exitStep := step e', exitSettled := true }
      else { r with entryStep := step e', entrySettled := true }
    let settled : Event → State := fun e' =>
      { marked e' with
        atr := { s.atr with
          timeline := s.atr.timeline.set k e',
          records := s.atr.records.map fun r =>
            if r.ordinal == e.ordinal then side e' r else r } }
    let waiting : Event → Prop := fun e' =>
      ∃ r, findRecord s e.ordinal = some r ∧ ¬ (r.exit.isSome = true ∧ r.exitAfterEntry = true
        ∧ (side e' r).entrySettled = true ∧ (side e' r).exitSettled = true)
    let before : Event :=
      { e with
        before := measure s.lfe.history
          (beforeWindow (if k = 0 then none else (s.atr.timeline[k - 1]?).map (·.edge)) e.edge) }
    let after : Event :=
      { e with after := measure s.lfe.history (afterWindow e.edge ((s.atr.timeline[k + 1]?).map (·.edge))) }
    (e.before = .pending → reached (e.edge + 500001) t = true →
      (¬ offered ∨ e.after = .pending → exec (.beforeWindowDue t k) s = .next (tidy (marked before)))
      ∧ (offered → e.after ≠ .pending → waiting before → exec (.beforeWindowDue t k) s = .next (tidy (settled before))))
    ∧ (e.after = .pending →
        reached ((afterWindow e.edge ((s.atr.timeline[k + 1]?).map (·.edge))).2 + 500001) t = true →
      (¬ offered ∨ e.before = .pending → exec (.afterWindowDue t k) s = .next (tidy (marked after)))
      ∧ (offered → e.before ≠ .pending → waiting after → exec (.afterWindowDue t k) s = .next (tidy (settled after))))

/-- R60 to R63: up to 500 ms the two windows of a plateau cover the same span, guarded by a quarter of the interval but at
most 50,000 µs; from 500 ms on they are the first and the last 400 ms inside guards of 50,000 µs, as without a neighbour. -/
def Obligations.PlateauWindowsAgree : Prop :=
  ∀ (ta : Time) (i : Nat), i < 4294967296 →
    let tb := ta + BitVec.ofNat 32 i
    let g := min (i / 4) 50000
    (i ≤ 500000 →
      afterWindow ta (some tb) = (ta + BitVec.ofNat 32 g, tb - BitVec.ofNat 32 g)
      ∧ beforeWindow (some ta) tb = afterWindow ta (some tb))
    ∧ (500000 ≤ i →
      afterWindow ta (some tb) = (ta + 50000, ta + 450000) ∧ beforeWindow (some ta) tb = (tb - 450000, tb - 50000)
      ∧ afterWindow ta none = afterWindow ta (some tb) ∧ beforeWindow none tb = beforeWindow (some ta) tb)

/-- R9, R67, R68: a window whose span is expired, that holds fewer than four samples, or a saturated one, gives no mean;
any other gives the rounded means of totals and left parts, the spread of the totals and the count. -/
def Obligations.WindowGivesMeansAndSpread : Prop :=
  ∀ (history : List Sample) (start finish : Time),
    let within := history.filter fun x => !earlier x.stamp start && !earlier finish x.stamp
    let expired := ∀ oldest, history.head? = some oldest → earlier start oldest.stamp = true
    (expired ∨ within.length < 4 ∨ (∃ x ∈ within, x.saturated = true) → measure history (start, finish) = .invalid)
    ∧ (¬ expired → 4 ≤ within.length → (∀ x ∈ within, x.saturated = false) →
        ∃ r, measure history (start, finish) = .evaluated r ∧ r.count = within.length
          ∧ IsRounded (within.map (·.total)).sum within.length r.mean
          ∧ IsRounded (within.map (·.left)).sum within.length r.left
          ∧ (∃ x ∈ within, ∃ y ∈ within, r.spread = x.total - y.total)
          ∧ ∀ x ∈ within, ∀ y ∈ within, x.total - y.total ≤ r.spread)

/-- R74 to R77: the weight, the grade by the whole table of 4.5 with its downgrades for spread and overspeed, the implausible
mark, and the left share of an own estimate. -/
def Obligations.EstimateIsGraded : Prop :=
  ∀ (x : Settings) (r : OwnRecord),
    let est := formEstimate x r
    (∀ e g, r.entryStep = some e → r.exitStep = some g → IsRounded (e.total + g.total) 2 est.w)
    ∧ (∀ e, r.entryStep = some e → r.exitStep = none → est.w = e.total)
    ∧ (∀ g, r.entryStep = none → r.exitStep = some g → est.w = g.total)
    ∧ (r.entryStep = none → r.exitStep = none → est.w = 0)
    ∧ (∃ rho : Int, IsRounded (est.w * x.tol) 1000 rho
        ∧ (let wide := ∃ g ∈ r.entryStep.toList ++ r.exitStep.toList,
              (x.spreadLimit : Int) < g.spreadBefore ∨ (x.spreadLimit : Int) < g.spreadAfter
           let both := ∃ e g, r.entryStep = some e ∧ r.exitStep = some g
           let agree := ∃ e g, r.entryStep = some e ∧ r.exitStep = some g
              ∧ ((e.total - g.total).natAbs : Int) ≤ max 200 rho
           let single := (r.entryStep ≠ none ∧ r.exitStep = none) ∨ (r.entryStep = none ∧ r.exitStep ≠ none)
           let accepted := 500 ≤ est.w ∧ est.w ≤ 60000
           (est.grade = .b ↔ accepted ∧ r.overspeed = false ∧ both ∧ ((agree ∧ wide) ∨ (¬ agree ∧ ¬ wide)))
           ∧ (est.grade = .c ↔ accepted ∧ (single ∨ (both ∧ (r.overspeed = true ∨ (¬ agree ∧ wide))))))
        ∧ (est.grade = .a ↔ r.overspeed = false ∧ 500 ≤ est.w ∧ est.w ≤ 60000
            ∧ ∃ e g, r.entryStep = some e ∧ r.exitStep = some g
              ∧ ((e.total - g.total).natAbs : Int) ≤ max 200 rho
              ∧ e.spreadBefore ≤ x.spreadLimit ∧ e.spreadAfter ≤ x.spreadLimit
              ∧ g.spreadBefore ≤ x.spreadLimit ∧ g.spreadAfter ≤ x.spreadLimit))
    ∧ (est.grade = .n ↔ est.w < 500 ∨ 60000 < est.w)
    ∧ (r.overspeed = true → est.grade = .c ∨ est.grade = .n)
    ∧ (est.flags.implausible = true ↔
        (r.entryStep ≠ none ∨ r.exitStep ≠ none) ∧ (est.w < 500 ∨ 60000 < est.w))
    ∧ (est.share = none ↔ est.grade = .n ∨ stepTotals r.entryStep r.exitStep ≤ 0)
    ∧ ∀ n, est.share = some n → n ≤ 1000
        ∧ ∃ q : Int, IsRounded (stepLefts r.entryStep r.exitStep * 1000) (stepTotals r.entryStep r.exitStep).toNat q
          ∧ (n : Int) = max 0 (min 1000 q)

/-- R73, R78, R79, R141, R148 to R153: the window that settles the second side of a record finishes its estimate: it
becomes the own row of the OPEN entry, which takes the own-estimate deadline, shortened by an exit already heard, unless the
session is HALTED, and one STEP joins the BULK queue. The own part is settled by it. An entry in which every LIVE peer has
reported becomes FINAL, not forced and without LATE; where the held group waits for another axle nothing more happens. Any
other entry stays OPEN. Absent positions and lengths are read as 0 (log 29); how an exit heard 2^31 µs or more before the
deadline, or before the present, compares is log 47. A hand-over that closes the session is log 51; it needs an entry that is
not held, and is left out here. -/
def Obligations.FinishedEstimateGoesToFusionAndLine : Prop :=
  ∀ (t : Time) (k : Nat) (e : Event) (r : OwnRecord) (f : Entry) (s : State),
    s.stc.inReset = false → s.ses.state ≠ .idle → s.slc.line = .active → s.slc.bulk.length < 32 →
    s.atr.timeline[k]? = some e → e.latest = true → e.ordinal ≠ 0 → e.kind = .normalExit → e.before ≠ .pending →
    e.after = .pending → reached ((afterWindow e.edge ((s.atr.timeline[k + 1]?).map (·.edge))).2 + 500001) t = true →
    findRecord s e.ordinal = some r → r.done = false → r.exit.isSome = true → r.exitAfterEntry = true →
    r.entrySettled = true → s.was.cursor ≤ e.ordinal → findEntry s e.ordinal = some f → f.fused = none →
    let e' := { e with after := measure s.lfe.history (afterWindow e.edge ((s.atr.timeline[k + 1]?).map (·.edge))) }
    let est := formEstimate s.settings { r with exitStep := eventStep e', exitSettled := true }
    let taken : Entry := { f with own := some est, exitSpeed := r.exit.map (·.speed) }
    ((Reported s f → GroupWaits s (·.ordinal = e.ordinal)) →
      ∃ s' f', exec (.afterWindowDue t k) s = .next s'
        ∧ s'.slc.bulk = s.slc.bulk ++
            [{ body := .step s.ses.number est, target := 15, seq := s.slc.sequence + 1, failed := 0, held := 0 }]
        ∧ s'.slc.sequence = s.slc.sequence + 1
        ∧ (∀ i, i ≠ e.ordinal → findEntry s' i = findEntry s i) ∧ findEntry s' e.ordinal = some f'
        ∧ (Reported s f → f' = madeFinal taken ∧ s'.was = { s.was with roomForce := false })
        ∧ (¬ Reported s f → s'.was = s.was
            ∧ f' = { taken with deadline := f'.deadline, deadlinePeer := f'.deadlinePeer }
            ∧ (s.ses.state ≠ .halted → f'.deadlinePeer = furthestPeer s
                ∧ ∃ d, IsOwnDeadline t s taken d ∧ f'.deadline = some (cutShort t f (furthestPeer s) d))
            ∧ (s.ses.state = .halted → f'.deadline = f.deadline ∧ f'.deadlinePeer = f.deadlinePeer))
        ∧ (∀ r' ∈ s'.atr.records, r'.ordinal = e.ordinal → r'.done = true)
        ∧ s'.ses = s.ses ∧ s'.cnd = s.cnd ∧ s'.rst = s.rst)
    ∧ (Reported s f → s.fus.table.Pairwise (fun a b => a.ordinal < b.ordinal) → s.ses.state ≠ .draining →
        ∃ s', exec (.afterWindowDue t k) s = .next s' ∧ ∀ f', findEntry s' e.ordinal = some f' → f' = madeFinal taken)

/-! ### Span Line Controller -/

/-- R85, R86, R89, R92, R93, R94: after 12 recessive bit times the head of the first queue that is not empty is sent,
URGENT, TIMING, BULK, SERVICE in this order, BULK passed over during its back-off; in MUTED only the due probe, in LISTEN
nothing. BULK becomes eligible again by the back-off's end command only (log 28). -/
def Obligations.FrameStartSelectsByPrecedence : Prop :=
  ∀ (t : Time) (idleBits : Nat) (s : State),
    s.stc.inReset = false → s.stc.station ≠ .loading → s.slc.sending = none →
    let sent : TxFrame → State := fun f =>
      { s with now := t, slc := { s.slc with sending := some { frame := f, image := lineImage s.stc.number t f } } }
    let still : State := { s with now := t }
    let sends := s.slc.line = .active ∨ s.slc.line = .configFault
    let bulk := if s.slc.backoff = none then s.slc.bulk else []
    (idleBits < 12 → exec (.frameStart t idleBits) s = .next still)
    ∧ (12 ≤ idleBits →
        (∀ f rest, sends → s.slc.urgent = f :: rest → exec (.frameStart t idleBits) s = .next (sent f))
        ∧ (∀ f, sends → s.slc.urgent = [] → s.slc.timing = some f → exec (.frameStart t idleBits) s = .next (sent f))
        ∧ (∀ f rest, sends → s.slc.urgent = [] → s.slc.timing = none → bulk = f :: rest →
            exec (.frameStart t idleBits) s = .next (sent f))
        ∧ (∀ f rest, sends → s.slc.urgent = [] → s.slc.timing = none → bulk = [] → s.slc.service = f :: rest →
            exec (.frameStart t idleBits) s = .next (sent f))
        ∧ (sends → s.slc.urgent = [] → s.slc.timing = none → bulk = [] → s.slc.service = [] →
            exec (.frameStart t idleBits) s = .next still)
        ∧ (∀ f, s.slc.line = .muted → s.slc.probeDue = true → s.slc.timing = some f →
            exec (.frameStart t idleBits) s = .next (sent f))
        ∧ (s.slc.line = .muted → s.slc.probeDue = false ∨ s.slc.timing = none →
            exec (.frameStart t idleBits) s = .next still)
        ∧ (s.slc.line = .listen → exec (.frameStart t idleBits) s = .next still))

/-- R87, R88, R92, R93: a lost arbitration leaves the frame where it is with its counts, and a HAIL that waited for the
attempt takes the TIMING slot; the end of the back-off makes BULK eligible; the probe timer makes the probe due. Each acts
only when there is something for it to act on. When the waiting HAIL is placed is the model's reading (log 11). -/
def Obligations.LineEventsActWhenDue : Prop :=
  ∀ (t : Time) (s : State), s.stc.inReset = false →
    (∀ x, s.slc.sending = some x → s.slc.line ≠ .listen →
      exec (.arbitrationLost t) s = .next
        { s with
          now := t,
          slc := { s.slc with
            sending := none, timing := (if s.slc.hailWaiting = none then s.slc.timing else s.slc.hailWaiting),
            hailWaiting := none } })
    ∧ (s.slc.sending = none → exec (.arbitrationLost t) s = .next { s with now := t })
    ∧ (∀ d, s.slc.backoff = some d → reached d t = true →
        exec (.bulkBackoffEnd t) s = .next { s with now := t, slc := { s.slc with backoff := none } })
    ∧ ((∀ d, s.slc.backoff = some d → reached d t = false) → exec (.bulkBackoffEnd t) s = .next { s with now := t })
    ∧ (∀ d, s.slc.line = .muted → s.slc.probeTimer = some d → reached d t = true →
        exec (.probeTimerExpiry t) s = .next
          { s with now := t, slc := { s.slc with probeTimer := none, probeDue := true } })
    ∧ ((∀ d, s.slc.probeTimer = some d → reached d t = false) ∨ s.slc.line ≠ .muted →
        exec (.probeTimerExpiry t) s = .next { s with now := t })

/-- R88, R90, R93, R94: a successful attempt takes its frame from the head of its queue and sets both runs to 0; a HAIL
that waited for the end of a HAIL's attempt takes the slot. A successful probe ends MUTED, and LINE is present no more.
When the waiting HAIL is placed is log 11. -/
def Obligations.SuccessfulAttemptEmptiesItsPlace : Prop :=
  ∀ (t : Time) (hold : Bool) (x : Sending) (s : State),
    let k := classOfBody x.frame.body
    s.stc.inReset = false → s.slc.sending = some x → (hold = true → k ≠ .bulk) →
    (k = .timing ∨ s.slc.hailWaiting = none) →
    let c : Slc := { s.slc with sending := none, droppedRun := 0, duplicateRun := 0, hailWaiting := none }
    let after : Slc := if k = .timing then { c with timing := s.slc.hailWaiting } else withQueue k (queueOf k c).tail c
    (s.slc.line = .active ∨ s.slc.line = .configFault →
      exec (.attemptEnd t (.slots true hold)) s = .next { s with now := t, slc := after })
    ∧ (s.slc.line = .muted →
      exec (.attemptEnd t (.slots true hold)) s = .next
        { s with
          now := t,
          slc := { after with
            line := if s.stc.station = .configFault then .configFault else .active, probeTimer := none, probeDue := false },
          cnd := { s.cnd with present := s.cnd.present &&& ~~~ 2 } })

/-- R90, R92: a BULK attempt read with ack and hold backs the BULK queue off for 20,000 µs; its frame stays with one held
attempt more, and the fourth removes it. -/
def Obligations.HeldBulkAttemptBacksOff : Prop :=
  ∀ (t : Time) (x : Sending) (rest : List TxFrame) (s : State),
    s.stc.inReset = false → s.slc.sending = some x → classOfBody x.frame.body = .bulk → s.slc.bulk = x.frame :: rest →
    s.slc.hailWaiting = none →
    exec (.attemptEnd t (.slots true true)) s = .next
      { s with
        now := t,
        slc := { s.slc with
          sending := none, droppedRun := 0, duplicateRun := 0, backoff := some (t + 20000),
          bulk := if x.frame.held < 3 then { x.frame with held := x.frame.held + 1 } :: rest else rest } }

/-- R90, R91, R93, R94: an attempt without ack or with a bit error raises its frame's failed count, and at three the frame is
dropped; the eighth drop in a row makes the line state MUTED, with LINE latched and present. A failed probe leaves the slot
and starts the probe timer again. Attempts that bring the duplicate run to 2 are left to `DuplicateRunListens`. -/
def Obligations.FailedAttemptIsRetriedThenDropped : Prop :=
  ∀ (t : Time) (r : AttemptResult) (x : Sending) (rest : List TxFrame) (s : State),
    let k := classOfBody x.frame.body
    let twin := r = .mismatch .sequence ∨ r = .mismatch .stamp
    s.stc.inReset = false → s.slc.sending = some x → (∀ hold, r ≠ .slots true hold) → s.slc.hailWaiting = none →
    queueOf k s.slc = x.frame :: rest → (twin → s.slc.duplicateRun = 0) →
    let c : Slc := { s.slc with sending := none, duplicateRun := if twin then 1 else 0 }
    (s.slc.line = .active ∨ s.slc.line = .configFault →
      (x.frame.failed < 2 →
        exec (.attemptEnd t r) s = .next
          { s with now := t, slc := withQueue k ({ x.frame with failed := x.frame.failed + 1 } :: rest) c })
      ∧ (2 ≤ x.frame.failed → s.slc.droppedRun < 7 →
        exec (.attemptEnd t r) s = .next
          { s with now := t, slc := { withQueue k rest c with droppedRun := s.slc.droppedRun + 1 } })
      ∧ (2 ≤ x.frame.failed → 7 ≤ s.slc.droppedRun →
        exec (.attemptEnd t r) s = .next
          { s with
            now := t,
            slc := { c with
              line := .muted, urgent := [], bulk := [], service := [],
              timing := if k = .timing then none else s.slc.timing, probeTimer := some (t + 2000000), probeDue := false,
              droppedRun := s.slc.droppedRun + 1 },
            cnd := { s.cnd with
              latched := s.cnd.latched ||| 2, present := s.cnd.present ||| 2,
              faultLow := ((s.cnd.latched ||| 2) &&& s.cnd.enable) != 0 } }))
    ∧ (s.slc.line = .muted → k = .timing →
      exec (.attemptEnd t r) s = .next
        { s with
          now := t, slc := { c with timing := none, probeTimer := some (t + 2000000), probeDue := false } })

/-- R94: the second attempt in a row broken off in the sequence or stamp field makes the line state LISTEN, whatever
it was: the four queues are emptied, the probe timer stops, LINE is latched and present. What is received stays. That
a HAIL waiting for the attempt to end is discarded too is the model's reading (log 11). -/
def Obligations.DuplicateRunListens : Prop :=
  ∀ (t : Time) (field : FrameField) (x : Sending) (s : State),
    s.stc.inReset = false → s.slc.sending = some x → field = .sequence ∨ field = .stamp → s.slc.duplicateRun = 1 →
    ∃ s', exec (.attemptEnd t (.mismatch field)) s = .next s' ∧ s' = { s with now := t, slc := s'.slc, cnd := s'.cnd }
      ∧ s'.slc.line = .listen ∧ s'.slc.urgent = [] ∧ s'.slc.timing = none ∧ s'.slc.bulk = [] ∧ s'.slc.service = []
      ∧ s'.slc.hailWaiting = none ∧ s'.slc.probeTimer = none ∧ s'.slc.sending = none ∧ s'.slc.duplicateRun = 2
      ∧ s'.slc.receiveQueue = s.slc.receiveQueue ∧ s'.slc.hold = s.slc.hold
      ∧ s'.slc.lastSequence = s.slc.lastSequence ∧ s'.slc.sequence = s.slc.sequence
      ∧ s'.cnd.latched = s.cnd.latched ||| 2 ∧ s'.cnd.present = s.cnd.present ||| 2

/-- R96, R99, R100, R102: a good frame, new and for this station, joins the receive queue with its receive start time, sets
its node's last sequence and is acked; the frame that brings the queue to 24 asserts hold in its own hold slot. `hear` is the
Peer Table's part (R107, R108); a change of the entry's state is left to `EveryGoodFrameIsReported`. -/
def Obligations.ReceivedFrameIsTaken : Prop :=
  ∀ (t start : Time) (f : LineFrame) (k : FrameKind) (s : State),
    s.stc.inReset = false → s.stc.station ≠ .loading → s.slc.sending = none → goodFrame s.stc.number f = some k →
    (f.node.toNat < 8 →
      (hear f.stamp start (place s.ptb.peers f.node.toNat Peer.reset)).state
        = (place s.ptb.peers f.node.toNat Peer.reset).state) →
    place s.slc.lastSequence f.node.toNat none ≠ some f.seq →
    (k ≠ .ask ∧ k ≠ .reply ∨ f.target.toNat = s.stc.number.toNat ∨ f.target = 15) →
    s.slc.receiveQueue.length < 32 → s.slc.hold = false ∨ k = .opening ∨ k = .cross ∨ k = .shut →
    let drives := s.slc.line == .active || s.slc.line == .configFault
    let hold := s.slc.hold || decide (23 ≤ s.slc.receiveQueue.length)
    exec (.frameReceived t start f) s = .next
      { s with
        now := t,
        ptb := afterReport start f s,
        slc := { s.slc with
          receiveQueue := s.slc.receiveQueue ++ [{ start := start, frame := f }], hold := hold,
          lastSequence := s.slc.lastSequence.set f.node.toNat (some f.seq), ackDriven := drives,
          holdDriven := hold && drives } }

/-- R96: a frame passes exactly when none of the eight conditions holds and it does not bear this station's own number;
`PassesChecks` says so with the codes, classes, lengths, nodes and targets of 5.7 (the lengths of a REPLY: log 10). R97 to R100,
R102: a bad frame changes nothing and gets neither slot; a duplicate is acked and dropped; a frame for another node is acked and
sets the last sequence; a full queue drops a frame unacked with OVERRUN; hold refuses a frame that is not URGENT. Hold shows in
the hold slot of each but the bad one. -/
def Obligations.ReceivedFrameIsTurnedAway : Prop :=
  (∀ (own : BitVec 3) (f : LineFrame) (k : FrameKind), goodFrame own f = some k ↔ PassesChecks own k f)
  ∧ ∀ (t start : Time) (f : LineFrame) (s : State),
    s.stc.inReset = false → s.stc.station ≠ .loading → s.slc.sending = none →
    (goodFrame s.stc.number f = none →
      exec (.frameReceived t start f) s = .next
        { s with now := t, slc := { s.slc with ackDriven := false, holdDriven := false } })
    ∧ ∀ k, goodFrame s.stc.number f = some k →
      (f.node.toNat < 8 →
        (hear f.stamp start (place s.ptb.peers f.node.toNat Peer.reset)).state
          = (place s.ptb.peers f.node.toNat Peer.reset).state) →
      let drives := s.slc.line == .active || s.slc.line == .configFault
      let repeated := place s.slc.lastSequence f.node.toNat none = some f.seq
      let elsewhere := (k = .ask ∨ k = .reply) ∧ f.target.toNat ≠ s.stc.number.toNat ∧ f.target ≠ 15
      let slots : Bool → Slc → Slc := fun ack c => { c with ackDriven := ack && drives, holdDriven := s.slc.hold && drives }
      (repeated →
        exec (.frameReceived t start f) s = .next
          { s with now := t, ptb := afterReport start f s, slc := slots true s.slc })
      ∧ (¬ repeated → elsewhere →
        exec (.frameReceived t start f) s = .next
          { s with
            now := t, ptb := afterReport start f s,
            slc := slots true { s.slc with lastSequence := s.slc.lastSequence.set f.node.toNat (some f.seq) } })
      ∧ (¬ repeated → ¬ elsewhere → 32 ≤ s.slc.receiveQueue.length →
        exec (.frameReceived t start f) s = .next
          { s with
            now := t, ptb := afterReport start f s, slc := slots false s.slc,
            cnd := { s.cnd with
              latched := s.cnd.latched ||| 64, faultLow := ((s.cnd.latched ||| 64) &&& s.cnd.enable) != 0 } })
      ∧ (¬ repeated → ¬ elsewhere → s.slc.receiveQueue.length < 32 → s.slc.hold = true →
          k ≠ .opening → k ≠ .cross → k ≠ .shut →
        exec (.frameReceived t start f) s = .next
          { s with now := t, ptb := afterReport start f s, slc := slots false s.slc })

/-- R25, R86, R96, R103: what a station sends, every other station finds good, and reads back field by field, every field at
every value it can hold, the codes of states, causes, directions, grades and event kinds as 5.7 numbers them: HAIL, OPEN, CROSS,
SHUT, STEP, the record of a TALLY, and the status, asked kind and content of a REPLY. A reply other than OK carries no content
(log 10). A gross outside three bytes and the load bytes of an absent net load are left out (logs 9 and 44). -/
def Obligations.StationFramesReadBack : Prop :=
  ∀ (own other : BitVec 3) (t : Time) (f : TxFrame), own ≠ other →
    let image := lineImage own t f
    let p := image.payload
    image.stamp = t ∧ image.seq = f.seq ∧ image.node.toNat = own.toNat ∧ frameCheck image = image.check
    ∧ (∀ h, f.body = .hail h → f.target = 15 → h.p < 4294967296 → h.l < 65536 → h.station ≠ .loading →
        goodFrame other image = some .hail ∧ at4 p 0 = h.p ∧ at2 p 4 = h.l
        ∧ at1 p 6 = (match h.line with | .active => 0 | .listen => 1 | .muted => 2 | .configFault => 3)
        ∧ at1 p 7 = (match h.station with | .loading => 0 | .configFault => 1 | .settling => 2 | .ready => 3)
        ∧ at1 p 8 = (match h.session with | .idle => 0 | .running => 1 | .halted => 2 | .draining => 3)
        ∧ wordAt p 9 = h.number
        ∧ at1 p 11 = (match h.topCause with
            | none => 0 | some .config => 1 | some .line => 2 | some .saturate => 3 | some .head => 4 | some .slip => 5
            | some .zero => 6 | some .overrun => 7 | some .late => 8 | some .layout => 9)
        ∧ wordAt p 12 = h.patternSum ∧ wordAt p 14 = h.imageSum ∧ hailCodesKnown p = true
        ∧ (hailQualifies p = true ↔ h.station = .ready ∧ h.line = .active ∧ h.topCause ≠ some .line))
    ∧ (∀ number d tf, f.body = .opening number d tf → f.target = 15 →
        goodFrame other image = some .opening ∧ wordAt p 0 = number ∧ (at1 p 2 = if d = .up then 0 else 1)
        ∧ directionOfByte (p.getD 2 0) = d ∧ timeAt p 3 = tf)
    ∧ (∀ number j kind revision edge speed overspeed creep,
        f.body = .cross number j kind revision edge speed overspeed creep → f.target = 15 → j < 65536 → revision < 256 →
        speed < 65536 →
        goodFrame other image = some .cross ∧ wordAt p 0 = number ∧ at2 p 2 = j
        ∧ at1 p 4 = (match kind with | .normalEntry => 0 | .normalExit => 1 | .reEntry => 2 | .reverseExit => 3)
        ∧ at1 p 5 = revision ∧ timeAt p 6 = edge ∧ IsRounded (speed * 36 : Nat) 1000 (at2 p 10)
        ∧ bitAt p 12 0 = overspeed ∧ bitAt p 12 1 = creep)
    ∧ (∀ number axles wagons, f.body = .shut number axles wagons → f.target = 15 → axles < 65536 → wagons < 65536 →
        goodFrame other image = some .shut ∧ wordAt p 0 = number ∧ at2 p 2 = axles ∧ at2 p 4 = wagons)
    ∧ (∀ number e, f.body = .step number e → f.target = 15 → e.ordinal < 65536 → e.revision < 256 →
        -8388608 ≤ e.w → e.w ≤ 8388607 → e.entrySpeed < 65536 → (∀ x, e.share = some x → x ≤ 1000) →
        goodFrame other image = some .step ∧ wordAt p 0 = number ∧ at2 p 2 = e.ordinal
        ∧ at1 p 4 = e.revision ∧ signedAt3 p 5 = e.w
        ∧ at1 p 8 = (match e.grade with | .a => 0 | .b => 1 | .c => 2 | .n => 3)
        ∧ at2 p 9 = e.share.getD 65535 ∧ IsRounded (e.entrySpeed * 36 : Nat) 1000 (at2 p 11) ∧ timeAt p 13 = e.entryTime
        ∧ (List.range 8).map (bitAt p 17)
            = [e.flags.overspeed, e.flags.creep, e.flags.reversal, e.flags.implausible, false, false, false, false]
        ∧ stepRow p = some
            { w := e.w, grade := e.grade, share := e.share, speed := speedFromField (speedField e.entrySpeed),
              peerTime := e.entryTime, revision := e.revision, flags := e.flags, alignment := .unchecked })
    ∧ (∀ r, f.body = .tally r → f.target = 15 → RecordFits r →
        goodFrame other image = some .tally ∧ p.length = 20 + 6 * r.axles.length ∧ RecordLaid p 0 r)
    ∧ ∀ status asked content, f.body = .reply status asked content → 8 ≤ f.target.toNat →
        (status = .ok → ContentFits asked content → goodFrame other image = some .reply ∧ image.target = f.target
          ∧ at1 p 0 = 0 ∧ p.getD 1 0 = asked ∧ ContentLaid p asked content)
        ∧ (status ≠ .ok → content = .none → goodFrame other image = some .reply ∧ image.target = f.target
          ∧ at1 p 0 = (match status with | .ok => 0 | .empty => 1 | .range => 2 | .deferred => 3 | .busy => 4 | .refused => 5)
          ∧ p.getD 1 0 = asked ∧ p.length = 2)

/-! ### Peer Table -/

/-- R110, R111, R114, R121, R145: a HAIL puts its content into its sender's entry and moves the entry by the table of R111.
No other entry changes. When the entry becomes LIVE or leaves LIVE, in whatever session state, the live set is reassessed,
after the unchecked rows of a peer that has become LIVE have been checked. HAILs dispatched after the entry's silence expiry
are left out here. The layout is assessed once per HAIL (log 32); what that does is `ExitStationAndLayoutFollowTheEntries`.
How times 2^31 µs or more apart compare is log 47; a dispatch in the very microsecond of the expiry counts as after it
(log 49); a deadline given on the way to DRAINING has no peer (log 43), and which SHUTs count is log 23. -/
def Obligations.HailMovesItsEntry : Prop :=
  ∀ (t : Time) (x : RxFrame) (rest : List RxFrame) (state : PeerState) (first : Option Time) (s : State),
    let n := x.frame.node.toNat
    let c := x.frame.payload
    let p := place s.ptb.peers n Peer.reset
    let codes := at1 c 6 ≤ 3 ∧ 1 ≤ at1 c 7 ∧ at1 c 7 ≤ 3 ∧ at1 c 8 ≤ 3
    let qualifies := codes ∧ at1 c 6 = 0 ∧ at1 c 7 = 3 ∧ at1 c 11 ≠ 2
    let second := ∃ f, p.firstHail = some f ∧ elapsed f x.start ≤ 1000000
    FrameWaits s x rest .hail → s.ptb.peers.length = 8 → n < 8 → n ≠ s.stc.number.toNat →
    (∀ h, p.lastHeard = some h → reached (h + 1000001) t = false) →
    (¬ qualifies → state = .joining ∧ first = none) →
    (qualifies → p.state = .live → state = .live ∧ first = p.firstHail) →
    (qualifies → p.state = .joining → second → state = .live ∧ first = none) →
    (qualifies → p.state ≠ .live → (p.state = .joining → ¬ second) → state = .joining ∧ first = some x.start) →
    let moved : State := { afterHead t rest s with
      ptb := { s.ptb with
        peers := s.ptb.peers.set n { p with
          state := state, firstHail := first, p := some (at4 c 0), l := some (at2 c 4),
          patternSum := some (wordAt c 12), stationState := some (c.getD 7 0) } },
      ses := { s.ses with
        mark := if (s.stc.station = .settling ∨ s.stc.station = .ready) ∧ codes ∧ at1 c 8 ≠ 0 then
            raiseMark (wordAt c 9) s.ses.mark
          else s.ses.mark } }
    ∃ s0 s1, exec (.hailDispatch t) s = .next (assessLayout s1)
      ∧ ((p.state = .live ↔ state = .live) → s1 = moved)
      ∧ (p.state = .live → state ≠ .live → Reassessed t moved s1)
      ∧ (p.state ≠ .live → state = .live → Reassessed t s0 s1
          ∧ (s.fus.table.Pairwise (fun a b => a.ordinal < b.ordinal) → Rechecked n moved s0))
      ∧ place (assessLayout s1).ptb.peers n Peer.reset = { p with
          state := state, firstHail := first, p := some (at4 c 0), l := some (at2 c 4),
          patternSum := some (wordAt c 12), stationState := some (c.getD 7 0) }
      ∧ (∀ m, m ≠ n → place (assessLayout s1).ptb.peers m Peer.reset = place s.ptb.peers m Peer.reset)

/-- R121: the number mark takes a number when it is absent or when the number is later, modulo 65,536. R107, R108: the first
measured offset is held as it is; later ones move it by an eighth of the difference, truncated toward zero; a difference above
5,000 µs replaces it and takes every entry but an ABSENT one to JOINING. -/
def Obligations.OffsetAndMarkFollowWhatIsHeard : Prop :=
  (∀ n : Word16, raiseMark n none = some n)
  ∧ (∀ n m : Word16, raiseMark n (some m) = some n ↔ n = m ∨ (1 ≤ (n - m).toNat ∧ (n - m).toNat ≤ 32767))
  ∧ (∀ n m : Word16, raiseMark n (some m) = some n ∨ raiseMark n (some m) = some m)
  ∧ ∀ (stamp start : Time) (p : Peer),
    let q := hear stamp start p
    q.lastHeard = some start ∧ q.p = p.p ∧ q.l = p.l ∧ q.patternSum = p.patternSum ∧ q.stationState = p.stationState
    ∧ (p.offset = none → q.offset = some (start - stamp) ∧ q.state = p.state ∧ q.firstHail = p.firstHail)
    ∧ ∀ held, p.offset = some held →
        let d := (start - stamp - held).toInt
        (d.natAbs ≤ 5000 → q.state = p.state ∧ q.firstHail = p.firstHail
          ∧ ∃ e : Int, 8 * e.natAbs ≤ d.natAbs ∧ d.natAbs < 8 * e.natAbs + 8 ∧ (0 ≤ d → 0 ≤ e) ∧ (d ≤ 0 → e ≤ 0)
              ∧ q.offset = some (held + BitVec.ofInt 32 e))
        ∧ (5000 < d.natAbs → q.offset = some (start - stamp)
            ∧ (p.state = .absent → q.state = .absent ∧ q.firstHail = p.firstHail)
            ∧ (p.state ≠ .absent → q.state = .joining ∧ q.firstHail = none))

/-- R102, R107, R108, R114: any good frame of a peer, whatever its kind and whether or not it is then queued, goes through
`hear` at its arrival. A LIVE entry that jumps leaves the live set, which is reassessed in whatever session state. A deadline
given on the way to DRAINING has no peer (log 43); which SHUTs count is log 23. -/
def Obligations.EveryGoodFrameIsReported : Prop :=
  ∀ (t start : Time) (f : LineFrame) (k : FrameKind) (s : State),
    let n := f.node.toNat
    let p := place s.ptb.peers n Peer.reset
    let moved : State := { s with now := t, ptb := { s.ptb with peers := s.ptb.peers.set n (hear f.stamp start p) } }
    s.stc.inReset = false → s.stc.station ≠ .loading → s.slc.sending = none → goodFrame s.stc.number f = some k → n < 8 →
    s.ptb.peers.length = 8 →
    ∃ s1 s', exec (.frameReceived t start f) s = .next s'
      ∧ ((hear f.stamp start p).state = p.state → s1 = moved ∧ s'.ptb = moved.ptb)
      ∧ ((hear f.stamp start p).state ≠ p.state → s'.ptb = (assessLayout s1).ptb)
      ∧ (p.state ≠ .live → s1 = moved)
      ∧ (p.state = .live → (hear f.stamp start p).state ≠ .live → Reassessed t moved s1)
      ∧ s' = { s1 with ptb := s'.ptb, slc := s'.slc, cnd := s'.cnd }
      ∧ place s'.ptb.peers n Peer.reset = hear f.stamp start p
      ∧ (∀ m, m ≠ n → place s'.ptb.peers m Peer.reset = place s.ptb.peers m Peer.reset)

/-- R112, R114: at its silence expiry an entry in JOINING or LIVE becomes SILENT, its first-HAIL time absent; before it, and
in the other states, nothing happens. A LIVE entry leaves the live set by it, which is reassessed in whatever session state.
The layout is assessed then; what that does is `ExitStationAndLayoutFollowTheEntries`. How times 2^31 µs or more apart compare
is log 47. A deadline given on the way to DRAINING has no peer (log 43); which SHUTs count is log 23. -/
def Obligations.SilentPeerLeavesTheLiveSet : Prop :=
  ∀ (t : Time) (station : BitVec 3) (s : State),
    let p := place s.ptb.peers station.toNat Peer.reset
    let moved : State :=
      { s with
        now := t,
        ptb := { s.ptb with peers := s.ptb.peers.set station.toNat { p with state := .silent, firstHail := none } } }
    s.stc.inReset = false → s.ptb.peers.length = 8 →
    (∀ h, station ≠ s.stc.number → (p.state = .joining ∨ p.state = .live) → p.lastHeard = some h →
      reached (h + 1000001) t = true →
      ∃ s1, exec (.silenceExpiry t station) s = .next (assessLayout s1)
        ∧ (p.state = .joining → s1 = moved) ∧ (p.state = .live → Reassessed t moved s1)
        ∧ place (assessLayout s1).ptb.peers station.toNat Peer.reset = { p with state := .silent, firstHail := none }
        ∧ (∀ m, m ≠ station.toNat → place (assessLayout s1).ptb.peers m Peer.reset = place s.ptb.peers m Peer.reset))
    ∧ (station = s.stc.number ∨ p.state = .absent ∨ p.state = .silent ∨ p.lastHeard = none
        ∨ (∃ h, p.lastHeard = some h ∧ reached (h + 1000001) t = false) →
      exec (.silenceExpiry t station) s = .next { s with now := t })

/-- R113, R88, R94: every 250,000 µs the own HAIL is handed over with the content of that moment. It takes the TIMING
slot, waits while a HAIL is being sent, and is discarded in LISTEN. The place of the waiting HAIL is log 11. -/
def Obligations.OwnHailIsHandedOverEveryPeriod : Prop :=
  ∀ (t d : Time) (s : State), s.stc.inReset = false → s.ptb.hailTimer = some d →
    let hail : TxFrame :=
      { body := .hail
          { p := s.ptb.ownP, l := s.ptb.ownL, line := s.slc.line, station := s.stc.station, session := s.ses.state,
            number := s.ses.number, topCause := topCause s, patternSum := s.ptb.ownPatternSum, imageSum := s.stc.imageSum },
        target := 15, seq := s.slc.sequence + 1, failed := 0, held := 0 }
    let ptb : Ptb := { s.ptb with hailTimer := some (d + 250000) }
    let sendingHail := ∃ x h, s.slc.sending = some x ∧ x.frame.body = .hail h
    (reached d t = false → exec (.hailTimer t) s = .next { s with now := t })
    ∧ (reached d t = true →
        (s.slc.line = .listen → exec (.hailTimer t) s = .next { s with now := t, ptb := ptb })
        ∧ (s.slc.line ≠ .listen → ¬ sendingHail →
            exec (.hailTimer t) s = .next
              { s with now := t, ptb := ptb, slc := { s.slc with sequence := s.slc.sequence + 1, timing := some hail } })
        ∧ (s.slc.line ≠ .listen → sendingHail →
            exec (.hailTimer t) s = .next
              { s with
                now := t, ptb := ptb, slc := { s.slc with sequence := s.slc.sequence + 1, hailWaiting := some hail } }))

/-- R114, R115, R116: the exit station is the live station furthest downstream, the lowest number of equals; the
layout condition is present exactly when a JOINING or LIVE peer that reports SETTLING or READY overlaps this platform
or has another pattern-table sum, and each change is reported to the Condition Unit. A position or length that an
entry does not hold is read as 0 (log 29), so for a LIVE entry without one, which no run reaches, the statement is the
model's. -/
def Obligations.ExitStationAndLayoutFollowTheEntries : Prop :=
  ∀ s : State,
    let own := s.stc.number.toNat
    let entry : Nat → Peer := fun n => place s.ptb.peers n Peer.reset
    let live : Nat → Prop := fun n => n = own ∨ (n < 8 ∧ (entry n).state = .live)
    let at_ : Nat → Nat := fun n => if n = own then s.ptb.ownP else (entry n).p.getD 0
    let e := (chooseExit s).ptb.exitStation
    (chooseExit s = { s with ptb := { s.ptb with exitStation := e } })
    ∧ live e
    ∧ (∀ n, live n → s.ses.direction = .up → at_ n ≤ at_ e ∧ (at_ n = at_ e → e ≤ n))
    ∧ (∀ n, live n → s.ses.direction = .down → at_ e ≤ at_ n ∧ (at_ n = at_ e → e ≤ n))
    ∧ let clash : Nat → Prop := fun n =>
        n < 8 ∧ n ≠ own ∧ ((entry n).state = .joining ∨ (entry n).state = .live)
        ∧ ((entry n).stationState = some 2 ∨ (entry n).stationState = some 3)
        ∧ ((∃ p l, (entry n).p = some p ∧ (entry n).l = some l ∧ p < s.ptb.ownP + s.ptb.ownL ∧ s.ptb.ownP < p + l)
            ∨ ∃ sum, (entry n).patternSum = some sum ∧ sum ≠ s.ptb.ownPatternSum)
      let found := s.stc.station ≠ .configFault ∧ ∃ n, clash n
      let t := assessLayout s
      (t.ptb.layout = true ↔ found) ∧ t = { s with ptb := { s.ptb with layout := t.ptb.layout }, cnd := t.cnd }
      ∧ (found → s.ptb.layout = false → t.cnd.latched = s.cnd.latched ||| 256 ∧ t.cnd.present = s.cnd.present ||| 256)
      ∧ (¬ found → s.ptb.layout = true → t.cnd.latched = s.cnd.latched ∧ t.cnd.present = s.cnd.present &&& ~~~ 256)
      ∧ ((found ↔ s.ptb.layout = true) → t.cnd = s.cnd)

/-! ### Session Controller -/

/-- R121, R123, R127, R134, R139: in IDLE an OPEN is adopted, with its direction unchecked and its timers from its
receive start time; the own records are done here. An OPEN of the session just closed acts on the mark only. A
direction byte that is no code is a free value (log 7). A sender's absent offset is read as 0 (log 29). How an expiry 2^31 µs
or more in the past compares is log 47. -/
def Obligations.OpenIsAdoptedInIdle : Prop :=
  ∀ (t : Time) (x : RxFrame) (rest : List RxFrame) (s : State),
    let n := x.frame.node.toNat
    let c := x.frame.payload
    let number := wordAt c 0
    let d := directionOfByte (c.getD 2 0)
    let tf := timeAt c 3 + (place s.ptb.peers n Peer.reset).offset.getD 0
    let halt := x.start + BitVec.ofNat 32 (s.settings.haltS * 1000000 + 1)
    let close_ := x.start + BitVec.ofNat 32 (s.settings.closeS * 1000000 + 1)
    FrameWaits s x rest .opening → s.stc.station = .settling ∨ s.stc.station = .ready → s.ses.state = .idle →
    (c.getD 2 0 = 0 → d = .up) ∧ (c.getD 2 0 = 1 → d = .down)
    ∧ ((∀ m, s.ses.last = some m → m.number ≠ number) → (∀ r ∈ s.atr.records, r.done = true) →
        reached halt t = false → reached close_ t = false →
        ∃ s', exec (.openDispatch t) s = .next s' ∧ s' = { afterHead t rest s with
            lfe := if s.stc.station = .ready then { s.lfe with block := [] } else s.lfe,
            atr := { list := [], returnStack := [], exitStack := [], counter := 0, timeline := [], records := [] },
            ptb := { s.ptb with exitStation := s'.ptb.exitStation },
            fus := { s.fus with current := some number, superseded := none },
            ses := { s.ses with
              state := .running, number := number, direction := d, checked := false, opener := some n, tf := some tf,
              tOpen := some x.start, tc := some x.start, haltExpiry := some halt, closeExpiry := some close_,
              nextHaltTick := none, closePending := false, closedForMatching := false, drainLimit := none,
              mark := raiseMark number (raiseMark number s.ses.mark),
              current := some
                { number := number, direction := d, firstEdge := tf, lastCrossing := x.start, ownAxles := 0, wagons := 0,
                  phantoms := 0, reversals := 0, haltedMs := 0, late := 0, mismatch := false,
                  shuts := List.replicate 8 none } } }
          ∧ s'.ptb.exitStation = (chooseExit s').ptb.exitStation)
    ∧ (∀ m, s.ses.last = some m → m.number = number →
        exec (.openDispatch t) s = .next
          { afterHead t rest s with ses := { s.ses with mark := raiseMark number s.ses.mark } })

/-- R121, R125, R126, R181: an OPEN of another number within 2 s of the opening wins when its first edge is earlier, or equal
with a lower node; the winner's number, node and first edge are taken, an unchecked direction too, SLIP is latched when a
checked one differs, and a deferred request is answered RANGE. One of the held number that wins replaces node and first edge
alone. A loser, and one heard later in RUNNING or HALTED, act on the mark only; in DRAINING a later number heard later is held.
That the summary takes the winner's first edge and direction is log 26; a direction byte that is no code is log 7; and a
sender's absent offset is read as 0 (log 29). How an OPEN heard 2^31 µs or more past those 2 s compares is log 47. -/
def Obligations.CompetingOpenIsSettledByFirstEdge : Prop :=
  ∀ (t tOpen tf : Time) (opener : Nat) (x : RxFrame) (rest : List RxFrame) (s : State),
    let n := x.frame.node.toNat
    let c := x.frame.payload
    let number := wordAt c 0
    let d := directionOfByte (c.getD 2 0)
    let first := timeAt c 3 + (place s.ptb.peers n Peer.reset).offset.getD 0
    let open_ := s.ses.state = .running ∨ s.ses.state = .halted
    let within := earlier (tOpen + 2000000) x.start = false
    let wins := earlier first tf = true ∨ (first = tf ∧ n < opener)
    let marked : Ses := { s.ses with mark := raiseMark number s.ses.mark }
    FrameWaits s x rest .opening → s.stc.station = .settling ∨ s.stc.station = .ready → s.ses.tOpen = some tOpen →
    s.ses.tf = some tf → s.ses.opener = some opener →
    (number ≠ s.ses.number → open_ → within → wins →
      s.rst.deferred = none ∨ (s.slc.line = .active ∧ s.slc.service.length < 4) →
      ∃ s', exec (.openDispatch t) s = .next s'
        ∧ s' = { afterHead t rest s with
            rst := { s.rst with deferred := none },
            slc := (s.rst.deferred.map fun a => (withReply a.node .range 3 .none (afterHead t rest s)).slc).getD
              (afterHead t rest s).slc,
            ptb := { s.ptb with exitStation := s'.ptb.exitStation },
            fus := { s.fus with superseded := s.fus.current, current := some number },
            cnd := s'.cnd,
            ses := { marked with
              number := number, opener := some n, tf := some first,
              direction := if s.ses.checked then s.ses.direction else d,
              current := s.ses.current.map fun m =>
                { m with
                  number := number, firstEdge := first,
                  direction := if s.ses.checked ∨ d = s.ses.direction then m.direction else d } } }
        ∧ (s.ses.checked = false → d ≠ s.ses.direction → s'.ptb.exitStation = (chooseExit s').ptb.exitStation)
        ∧ (s.ses.checked = true ∨ d = s.ses.direction → s'.ptb.exitStation = s.ptb.exitStation)
        ∧ (s.ses.checked = true ∧ d ≠ s.ses.direction → s'.cnd.latched = s.cnd.latched ||| 16)
        ∧ (s.ses.checked = false ∨ d = s.ses.direction → s'.cnd = s.cnd))
    ∧ (number = s.ses.number → open_ → within → wins →
        exec (.openDispatch t) s = .next { afterHead t rest s with
          ses := { marked with
            opener := some n, tf := some first, current := s.ses.current.map fun m => { m with firstEdge := first } } })
    ∧ (s.ses.state ≠ .idle → within → ¬ wins →
        exec (.openDispatch t) s = .next { afterHead t rest s with ses := marked })
    ∧ (number = s.ses.number → s.ses.state ≠ .idle → ¬ within →
        exec (.openDispatch t) s = .next { afterHead t rest s with ses := marked })
    ∧ (open_ → ¬ within → exec (.openDispatch t) s = .next { afterHead t rest s with ses := marked })
    ∧ (number ≠ s.ses.number → s.ses.state = .draining → ¬ within →
        (1 ≤ (number - s.ses.number).toNat ∧ (number - s.ses.number).toNat ≤ 32767 →
          exec (.openDispatch t) s = .next { afterHead t rest s with
            ses := { marked with
              held := some { number := number, direction := d, firstEdge := first, sender := n, received := x.start } } })
        ∧ (32767 < (number - s.ses.number).toNat →
          exec (.openDispatch t) s = .next { afterHead t rest s with ses := marked }))

/-- R121, R127, R128, R143, R153: a heard CROSS restarts the timers from the later of its receive start time and the held
last-crossing time, whatever its session number; from HALTED it resumes RUNNING, adds the whole milliseconds of the stay and
gives every entry its deadline afresh. In IDLE and DRAINING it acts on the mark only. The exit that a normal exit of a current
or superseded number tells the Fusion Unit is `HeardExitShortensTheDeadline`; every other CROSS leaves the table. The
timers' next expiries lie ahead here. The whole milliseconds are caught up on leaving HALTED (log 18). Absent
positions and lengths are read as 0 (log 29). How a CROSS heard 2^31 µs or more after the held one compares is log 47; an
entry without an own row gets no deadline peer (log 48). -/
def Obligations.HeardCrossRestartsTheTimers : Prop :=
  ∀ (t : Time) (x : RxFrame) (rest : List RxFrame) (s : State),
    let c := x.frame.payload
    let tc := match s.ses.tc with
      | none => x.start
      | some held => if earlier x.start held then held else x.start
    let halt := tc + BitVec.ofNat 32 (s.settings.haltS * 1000000 + 1)
    let close_ := tc + BitVec.ofNat 32 (s.settings.closeS * 1000000 + 1)
    let marked : Ses := { s.ses with mark := raiseMark (wordAt c 0) s.ses.mark }
    FrameWaits s x rest .cross → s.stc.station = .settling ∨ s.stc.station = .ready →
    c.getD 4 0 ≠ 1 ∨ at2 c 2 = 0 ∨ (s.fus.current ≠ some (wordAt c 0) ∧ s.fus.superseded ≠ some (wordAt c 0)) →
    (∀ ms, LeavesAt t s ms → reached halt t = false → reached close_ t = false →
      ∃ s', exec (.crossDispatch t) s = .next s'
        ∧ s' = { afterHead t rest s with
            fus := { s.fus with table := s'.fus.table },
            ses := { marked with
              state := .running, tc := some tc, haltExpiry := some halt, closeExpiry := some close_, closePending := false,
              nextHaltTick := if s.ses.state = .halted then none else s.ses.nextHaltTick,
              current := s.ses.current.map fun m => { withStay s ms m with lastCrossing := tc } } }
        ∧ ResumedTable t s s'.fus.table)
    ∧ (s.ses.state = .idle ∨ s.ses.state = .draining →
        exec (.crossDispatch t) s = .next { afterHead t rest s with ses := marked })

/-- R121, R129, R135: a SHUT is recorded for its sender in the summary that bears its number: the current one, to be
compared at the close, or the last one, compared at once. With close pending, the SHUT that completes the LIVE peers'
takes the session from RUNNING or HALTED to DRAINING, where an entry that every LIVE peer has reported becomes FINAL and one
without a deadline is given one; a SHUT that does not complete them is recorded and the state stays. An OPEN entry keeps the
session in DRAINING here. That a SHUT counts for the close only with the number then held is log 23. A deadline given there
has no peer (log 43). -/
def Obligations.ShutIsRecordedInItsSummary : Prop :=
  ∀ (t : Time) (x : RxFrame) (rest : List RxFrame) (s : State),
    let n := x.frame.node.toNat
    let c := x.frame.payload
    let number := wordAt c 0
    let counts : ShutCounts := { number := number, axles := at2 c 2, wagons := at2 c 4 }
    let marked : Ses := { s.ses with mark := raiseMark number s.ses.mark }
    let recorded : State := { afterHead t rest s with
      ses := { marked with current := s.ses.current.map fun m => { m with shuts := m.shuts.set n (some counts) } } }
    let inCurrent := s.ses.state ≠ .idle ∧ ∃ m, s.ses.current = some m ∧ m.number = number
    FrameWaits s x rest .shut → s.stc.station = .settling ∨ s.stc.station = .ready →
    (inCurrent → ¬ PeersShut recorded → exec (.shutDispatch t) s = .next recorded)
    ∧ (∀ ms, inCurrent → PeersShut recorded → LeavesAt t s ms → StaysDraining recorded →
        ∃ s', exec (.shutDispatch t) s = .next s' ∧ EntersDraining t ms recorded s')
    ∧ (¬ inCurrent → ∀ m, s.ses.last = some m → m.number = number →
        exec (.shutDispatch t) s = .next { afterHead t rest s with
          ses := { marked with
            last := some { m with
              shuts := m.shuts.set n (some counts),
              mismatch := m.mismatch || (at2 c 2 != m.ownAxles || at2 c 4 != m.wagons) } } })
    ∧ (¬ inCurrent → (∀ m, s.ses.last = some m → m.number ≠ number) →
        exec (.shutDispatch t) s = .next { afterHead t rest s with ses := marked })

/-- R128, R153: at the halt expiry RUNNING becomes HALTED and every deadline is cancelled; in HALTED each further
millisecond counts, up to 4,294,967,295. Before their times, and in other states, neither does anything. Ticks count from
the moment HALTED is entered (log 18). -/
def Obligations.HaltedTimeIsCounted : Prop :=
  ∀ (t : Time) (s : State), s.stc.inReset = false →
    (∀ d, s.ses.state = .running → s.ses.haltExpiry = some d → reached d t = true →
      exec (.haltExpiry t) s = .next
        { s with
          now := t,
          ses := { s.ses with state := .halted, haltExpiry := none, nextHaltTick := some (t + 1000) },
          fus := { s.fus with
            table := s.fus.table.map fun e => { e with deadline := none, deadlinePeer := none } } })
    ∧ (s.ses.state ≠ .running ∨ s.ses.haltExpiry = none ∨ (∃ d, s.ses.haltExpiry = some d ∧ reached d t = false) →
        exec (.haltExpiry t) s = .next { s with now := t })
    ∧ (∀ d, s.ses.state = .halted → s.ses.nextHaltTick = some d → reached d t = true →
        exec (.haltedTimeTick t) s = .next
          { s with
            now := t,
            ses := { s.ses with
              nextHaltTick := some (d + 1000),
              current := s.ses.current.map fun m => { m with haltedMs := min 4294967295 (m.haltedMs + 1) } } })
    ∧ (s.ses.state ≠ .halted ∨ s.ses.nextHaltTick = none ∨ (∃ d, s.ses.nextHaltTick = some d ∧ reached d t = false) →
        exec (.haltedTimeTick t) s = .next { s with now := t })

/-- R129, R130, R132: at the close expiry a platform that still holds axles makes the close pending, and the peer test is
made at once; an empty one takes the session from RUNNING or HALTED to DRAINING, where the rest of the stay is added, an entry
that every LIVE peer has reported becomes FINAL and one without a deadline is given one; with no estimate left and nothing
left to assemble the session closes there: SHUT is sent, the summary becomes the last one with the axle count, and every
block is as at a session's end. A deadline given there has no peer (log 43); which SHUTs count is log 23. -/
def Obligations.CloseExpiryPendsOrClosesTheSession : Prop :=
  ∀ (t d : Time) (s : State),
    let ended : State := { s with now := t, ses := { s.ses with closeExpiry := none } }
    let pending : State := { s with now := t, ses := { s.ses with closeExpiry := none, closePending := true } }
    s.stc.inReset = false → s.ses.state = .running ∨ s.ses.state = .halted → s.ses.closeExpiry = some d →
    (reached d t = false → exec (.closeExpiry t) s = .next { s with now := t })
    ∧ (reached d t = true → s.atr.list ≠ [] →
        (¬ PeersShut pending → exec (.closeExpiry t) s = .next pending)
        ∧ ∀ ms, PeersShut pending → LeavesAt t s ms → StaysDraining pending →
            ∃ s', exec (.closeExpiry t) s = .next s' ∧ EntersDraining t ms pending s')
    ∧ (∀ ms, reached d t = true → LeavesAt t s ms → s.atr.list = [] → StaysDraining ended →
        ∃ s', exec (.closeExpiry t) s = .next s' ∧ EntersDraining t ms ended s')
    ∧ (∀ ms m, reached d t = true → LeavesAt t s ms → s.atr.list = [] → s.fus.table = [] → s.was.group = none →
        s.was.highest < s.was.cursor → s.ses.held = none → s.ses.current = some m → s.ses.closedForMatching = false →
        (∀ r ∈ s.atr.records, r.done = true) → s.rst.deferred = none → s.slc.line = .active → s.slc.urgent.length < 8 →
        ∃ s', exec (.closeExpiry t) s = .next s'
          ∧ s' = { s with
              now := t,
              atr := { list := [], returnStack := [], exitStack := [], counter := 0, timeline := [], records := [] },
              was := { items := [], highest := 0, cursor := 1, group := none, wagons := 0, roomForce := false },
              whu := { endA := { s.whu.endA with lastSpeed := none }, endB := { s.whu.endB with lastSpeed := none } },
              slc := { s.slc with
                sequence := s.slc.sequence + 1,
                urgent := s.slc.urgent ++
                  [{ body := .shut s.ses.number s.atr.counter m.wagons, target := 15, seq := s.slc.sequence + 1,
                     failed := 0, held := 0 }] },
              ses := s'.ses }
          ∧ s'.ses = { s.ses with
              state := .idle, drainLimit := none, haltExpiry := none, closeExpiry := none, nextHaltTick := none,
              closePending := false, current := none, last := s'.ses.last }
          ∧ s'.ses.last = some { withStay s ms m with
              ownAxles := s.atr.counter,
              mismatch := m.mismatch || m.shuts.any fun x =>
                (x.map fun c => c.axles != s.atr.counter || c.wagons != m.wagons).getD false })

/-! ### Fusion Unit -/

/-- R140, R142, R144, R148 to R151, R155: a peer's STEP is discarded, counted late or ignored as R142 and R155 say; otherwise
it becomes its sender's row, checked for alignment, in the entry held or made for its ordinal. An entry that is then complete
becomes FINAL, not forced and without LATE; where the held group waits for another axle nothing more happens. Any other entry
stays OPEN. The table has room here. A STEP whose number is the last summary's too is log 53; when a deadline is set without an
own row is log 22; one given at an entry's creation in DRAINING is log 43. Absent positions, lengths and offsets are read as 0
(log 29). How the alignment and the deadline of a STEP that waited 2^31 µs or more come out is log 47. That an entry's late count
stops at 65,535 is log 50. -/
def Obligations.StepBecomesRow : Prop :=
  ∀ (t : Time) (x : RxFrame) (rest : List RxFrame) (s : State),
    let n := x.frame.node.toNat
    let c := x.frame.payload
    let number := wordAt c 0
    let j := at2 c 2
    let known := (s.fus.current = some number ∨ s.fus.superseded = some number) ∧ s.ses.state ≠ .idle
    let entry := s.fus.table.find? fun e => e.ordinal == j
    let lateCnd : Cnd :=
      { s.cnd with
        latched := s.cnd.latched ||| 128, faultLow := ((s.cnd.latched ||| 128) &&& s.cnd.enable) != 0 }
    let lateNow : Ses := { s.ses with current := s.ses.current.map fun m => { m with late := min 65535 (m.late + 1) } }
    let row : Grade → Machine.Alignment → PeerRow := fun g a =>
      { w := (BitVec.ofNat 24 (at3 c 5)).toInt, grade := g,
        share := if at2 c 9 ≤ 1000 then some (at2 c 9) else none, speed := roundNat (at2 c 11 * 1000) 36,
        peerTime := timeAt c 13, revision := at1 c 4,
        flags := { overspeed := bitAt c 17 0, creep := bitAt c 17 1, reversal := bitAt c 17 2, implausible := bitAt c 17 3 },
        alignment := a }
    let edge : Nat → Nat := fun m => if s.ses.direction = .up then positionOf s m + lengthOf s m else positionOf s m
    let beyond := if s.ses.direction = .up then edge s.stc.number.toNat < edge n else edge n < edge s.stc.number.toNat
    let limit := if earlier (x.start + 2000000) t then t else x.start + 2000000
    FrameWaits s x rest .step → s.stc.station = .settling ∨ s.stc.station = .ready →
    ((known → j = 0 ∨ at1 c 4 = 0 ∨ 3 < at1 c 8) → (¬ known → ∀ m, s.ses.last = some m → m.number ≠ number) →
      exec (.stepDispatch t) s = .next (afterHead t rest s))
    ∧ (¬ known → ∀ m, s.ses.last = some m → m.number = number →
        exec (.stepDispatch t) s = .next { afterHead t rest s with
          cnd := lateCnd,
          ses := { s.ses with last := some { m with late := if m.late < 65535 then m.late + 1 else m.late } } })
    ∧ ∀ g, known → j ≠ 0 → at1 c 4 ≠ 0 → [Grade.a, .b, .c, .n][at1 c 8]? = some g →
      (j < s.was.cursor ∨ (entry = none ∧ s.ses.closedForMatching = true) →
        exec (.stepDispatch t) s = .next { afterHead t rest s with cnd := lateCnd, ses := lateNow })
      ∧ (∀ e, s.was.cursor ≤ j → entry = some e → e.fused.isSome = true →
          exec (.stepDispatch t) s = .next { afterHead t rest s with
            cnd := lateCnd,
            fus := { s.fus with
              table := s.fus.table.map fun f =>
                if f.ordinal = j then { f with late := if f.late < 65535 then f.late + 1 else f.late } else f } })
      ∧ (∀ e old, s.was.cursor ≤ j → entry = some e → e.fused = none → place e.rows n none = some old →
          at1 c 4 < old.revision → exec (.stepDispatch t) s = .next (afterHead t rest s))
      ∧ ∀ e, s.was.cursor ≤ j →
          (entry = some e ∧ e.fused = none ∧ (∀ old, place e.rows n none = some old → old.revision ≤ at1 c 4))
            ∨ (entry = none ∧ s.ses.closedForMatching = false ∧ s.fus.table.length < 64 ∧ e =
                { ordinal := j, firstTime := none, firstSpeed := none, own := none, exitSpeed := none,
                  rows := List.replicate 8 none, exits := List.replicate 8 none,
                  deadline := if s.ses.state = .draining then some (t + 2000000) else none,
                  deadlinePeer := none, forced := false, late := 0, fused := none }) →
          let a := alignmentOf s e n (row g .unchecked)
          let taken : Entry := { e with rows := e.rows.set n (some (row g a)) }
          let was : Was := { s.was with highest := if entry = none then max s.was.highest j else s.was.highest }
          ((IsComplete s taken → GroupWaits s (·.ordinal = j)) →
            ∃ s' f, exec (.stepDispatch t) s = .next s'
              ∧ s' = { afterHead t rest s with fus := { s.fus with table := s'.fus.table }, was := s'.was, cnd := s'.cnd }
              ∧ (∀ i, i ≠ j → findEntry s' i = findEntry s i) ∧ findEntry s' j = some f
              ∧ (IsComplete s taken → f = madeFinal taken ∧ s'.was = { was with roomForce := false })
              ∧ (¬ IsComplete s taken → s'.was = was
                  ∧ f = { taken with deadline := f.deadline, deadlinePeer := f.deadlinePeer }
                  ∧ (s.ses.state ≠ .halted → e.own = none → furthestPeer s = some n → beyond →
                      f.deadline = some limit ∧ f.deadlinePeer = none)
                  ∧ (s.ses.state = .halted ∨ e.own.isSome = true ∨ furthestPeer s ≠ some n ∨ ¬ beyond →
                      f.deadline = e.deadline ∧ f.deadlinePeer = e.deadlinePeer))
              ∧ (a = .misaligned → s'.cnd =
                  { s.cnd with
                    latched := s.cnd.latched ||| 16, faultLow := ((s.cnd.latched ||| 16) &&& s.cnd.enable) != 0 })
              ∧ (a ≠ .misaligned → s'.cnd = s.cnd))
          ∧ (IsComplete s taken → s.fus.table.Pairwise (fun a b => a.ordinal < b.ordinal) → s.ses.state ≠ .draining →
              ∃ s', exec (.stepDispatch t) s = .next s' ∧ ∀ f, findEntry s' j = some f → f = madeFinal taken)

/-- R144: when the check is made, a row is misaligned exactly when the interval between the two entry edges differs
from the expected lag by more than a quarter of the smaller neighbouring gap, at least 10,000 µs; otherwise it is
aligned. Where the check is not made, it is unchecked. A LIVE peer's position, length or offset that its entry does
not hold, which no run reaches, is read as 0 (log 29). Gaps and deviations of 2^31 µs or more are log 47. -/
def Obligations.RowIsCheckedAgainstTheLag : Prop :=
  ∀ (s : State) (e : Entry) (n : Nat) (r : PeerRow),
    let own := s.stc.number.toNat
    let live := n ≠ own ∧ (place s.ptb.peers n Peer.reset).state = .live
    (∀ (first : Time) (v : Nat), e.firstTime = some first → e.firstSpeed = some v → 0 < v → live → e.fused = none →
      let p := place s.ptb.peers n Peer.reset
      let up := s.ses.direction = .up
      let ownEdge : Int := if up then s.ptb.ownP else s.ptb.ownP + s.ptb.ownL
      let peerEdge : Int := if up then p.p.getD 0 else p.p.getD 0 + p.l.getD 0
      let gaps := [e.ordinal - 1, e.ordinal + 1].filterMap fun j =>
        ((s.fus.table.find? fun f => f.ordinal == j).bind (·.firstTime)).map fun u => (first - u).toInt.natAbs
      let tolerance :=
        match gaps with
        | [] => 10000
        | [a] => max 10000 (a / 4)
        | a :: b :: _ => max 10000 (min a b / 4)
      ∃ lag : Int, IsRounded ((if up then ownEdge - peerEdge else peerEdge - ownEdge) * 1000000) v lag
        ∧ let deviation := (first - (r.peerTime + p.offset.getD 0)).toInt - lag
          alignmentOf s e n r = if tolerance < deviation.natAbs then .misaligned else .aligned)
    ∧ (e.firstTime = none ∨ e.firstSpeed = none ∨ e.firstSpeed = some 0 ∨ ¬ live ∨ e.fused.isSome = true →
        alignmentOf s e n r = .unchecked)

/-- R121, R127, R128, R143, R149, R152, R153: a heard normal exit of a current or superseded number is kept in the OPEN entry
of its ordinal unless a higher revision is held; from the entry's deadline peer it shortens the deadline to 1,000,000 µs after
its receive start, but not before the present. With no entry, a FINAL one or a higher revision held, the exit changes nothing.
In RUNNING and HALTED the timers restart first, as for any crossing, and from HALTED the entries are resumed, so the exit
shortens a deadline given afresh (log 41); in IDLE and DRAINING the session keeps all but its mark. The stay's whole
milliseconds are log 18, a resumed entry without a deadline peer is log 48, absent positions and lengths are log 29, and how
times 2^31 µs or more apart compare is log 47. An entry complete with the exit was complete before it, so that an earlier
test would have made it FINAL, and is left out. -/
def Obligations.HeardExitShortensTheDeadline : Prop :=
  ∀ (t : Time) (ms : Nat) (x : RxFrame) (rest : List RxFrame) (s : State),
    let n := x.frame.node.toNat
    let c := x.frame.payload
    let number := wordAt c 0
    let j := at2 c 2
    let entry := s.fus.table.find? fun e => e.ordinal == j
    let marked : Ses := { s.ses with mark := raiseMark number s.ses.mark }
    let tc := match s.ses.tc with
      | none => x.start
      | some held => if earlier x.start held then held else x.start
    let halt := tc + BitVec.ofNat 32 (s.settings.haltS * 1000000 + 1)
    let close_ := tc + BitVec.ofNat 32 (s.settings.closeS * 1000000 + 1)
    let ses : Ses :=
      if s.ses.state = .idle ∨ s.ses.state = .draining then marked
      else
        { marked with
          state := .running, tc := some tc, haltExpiry := some halt, closeExpiry := some close_, closePending := false,
          nextHaltTick := if s.ses.state = .halted then none else s.ses.nextHaltTick,
          current := s.ses.current.map fun m => { withStay s ms m with lastCrossing := tc } }
    let heard : ExitHeard := { revision := at1 c 5, received := x.start }
    let cut := x.start + 1000000
    let shorter : Time → Time := fun d =>
      let e := if earlier cut d then cut else d
      if earlier e t then t else e
    let base : List Entry → State := fun table => { afterHead t rest s with ses := ses, fus := { s.fus with table := table } }
    FrameWaits s x rest .cross → s.stc.station = .settling ∨ s.stc.station = .ready →
    s.ses.state = .idle ∨ s.ses.state = .draining
      ∨ (LeavesAt t s ms ∧ reached halt t = false ∧ reached close_ t = false) →
    c.getD 4 0 = 1 → j ≠ 0 → s.fus.current = some number ∨ s.fus.superseded = some number →
    (∀ e, entry = some e → e.fused = none → (∀ h, place e.exits n none = some h → h.revision ≤ at1 c 5) →
      n < e.exits.length → ¬ IsComplete s { e with exits := e.exits.set n (some heard) } →
      ∃ table s' e' f, exec (.crossDispatch t) s = .next s' ∧ ResumedTable t s table
        ∧ s' = base s'.fus.table
        ∧ (∀ i, i ≠ j → findEntry s' i = table.find? fun e => e.ordinal == i)
        ∧ (table.find? fun e => e.ordinal == j) = some e'
        ∧ findEntry s' j = some f ∧ f = { e' with exits := e.exits.set n (some heard), deadline := f.deadline }
        ∧ (e'.deadlinePeer = some n → f.deadline = e'.deadline.map shorter)
        ∧ (e'.deadlinePeer ≠ some n → f.deadline = e'.deadline))
    ∧ (entry = none
          ∨ (∃ e, entry = some e ∧ (e.fused.isSome = true ∨ ∃ h, place e.exits n none = some h ∧ at1 c 5 < h.revision)) →
        ∃ table, exec (.crossDispatch t) s = .next (base table) ∧ ResumedTable t s table)

/-- R150, R152, R161: at its deadline an OPEN entry is forced and becomes FINAL from the rows it holds, with LATE latched;
when the Wagon Assembler still waits for another axle of its held group, nothing more happens. Before its deadline, and
when it is FINAL, nothing happens. LATE at a force is log 21. -/
def Obligations.DeadlineForcesTheEntry : Prop :=
  ∀ (t : Time) (ordinal : Word16) (s : State), s.stc.inReset = false →
    let j := ordinal.toNat
    ((∀ e, findEntry s j = some e →
        e.fused.isSome = true ∨ e.deadline = none ∨ ∃ d, e.deadline = some d ∧ reached d t = false) →
      exec (.deadlineReached t ordinal) s = .next { s with now := t })
    ∧ ∀ e d, findEntry s j = some e → e.fused = none → e.deadline = some d → reached d t = true →
      (∃ s', exec (.deadlineReached t ordinal) s = .next s' ∧ s'.cnd.latched.getLsbD 7 = true
        ∧ (s.fus.table.Pairwise (fun a b => a.ordinal < b.ordinal) → s.ses.state ≠ .draining →
            ∀ f, findEntry s' j = some f → f = { e with
              forced := true, fused := some (fuse e), deadline := none, deadlinePeer := none }))
      ∧ ∀ group waiting f, s.was.group = some group → group.first ≤ waiting → waiting < group.first + group.count →
          waiting ≠ j → findEntry s waiting = some f → f.fused = none → s.ses.state ≠ .draining →
          ∃ s', exec (.deadlineReached t ordinal) s = .next s'
            ∧ s' = { s with
                now := t, fus := { s.fus with table := s'.fus.table }, was := { s.was with roomForce := false },
                cnd := { s.cnd with
                  latched := s.cnd.latched ||| 128, faultLow := ((s.cnd.latched ||| 128) &&& s.cnd.enable) != 0 } }
            ∧ (∀ i, i ≠ j → findEntry s' i = findEntry s i)
            ∧ findEntry s' j = some { e with
                forced := true, fused := some (fuse e), deadline := none, deadlinePeer := none }

/-- R130 to R132, R154, R162: at the drain limit every OPEN entry is forced, the train is assembled to its end, no
estimate is left, and the session closes: its summary becomes the last one. A held OPEN then begins its session at once;
without one the state is IDLE. LATE only when an entry is forced is log 21; where the drain tests run is log 12; the held
OPEN's begin is log 17. -/
def Obligations.DrainLimitClosesTheSession : Prop :=
  ∀ (t d : Time) (s : State), s.stc.inReset = false → AsmInv s → s.ses.state = .draining → s.ses.drainLimit = some d →
    (reached d t = false → exec (.drainLimit t) s = .next { s with now := t })
    ∧ (reached d t = true →
        ∃ s' m, exec (.drainLimit t) s = .next s' ∧ s.ses.current = some m
          ∧ s'.fus.table = [] ∧ s'.was = Was.reset ∧ s'.atr.list = [] ∧ s'.atr.counter = 0 ∧ s'.atr.records = []
          ∧ s'.ses.drainLimit = none ∧ s'.ses.closedForMatching = false ∧ s'.ses.held = none
          ∧ ((∃ e ∈ s.fus.table, e.fused = none) → s'.cnd.latched.getLsbD 7 = true)
          ∧ (∃ last, s'.ses.last = some last ∧ last.number = m.number ∧ last.direction = m.direction
              ∧ last.firstEdge = m.firstEdge ∧ last.lastCrossing = m.lastCrossing ∧ last.shuts = m.shuts
              ∧ last.ownAxles = s.atr.counter)
          ∧ (s.ses.held = none → s'.ses.state = .idle ∧ s'.ses.current = none)
          ∧ ∀ h, s.ses.held = some h → s'.ses.state = .running ∧ s'.ses.number = h.number
              ∧ s'.ses.direction = h.direction ∧ s'.ses.checked = false ∧ s'.ses.opener = some h.sender
              ∧ s'.ses.tf = some h.firstEdge ∧ s'.fus.current = some h.number ∧ s'.fus.superseded = none)

/-- R146, R147: the fused values of an entry. The included estimates are the own row and the peer rows that are not
misaligned, of grade A, B or C, with the weights 4, 2 and 1; the fused weight lies between the smallest and the largest of
them. -/
def Obligations.FusedWeightLiesWithin : Prop :=
  ∀ e : Entry,
    let weight : Grade → Nat := fun g => match g with
      | .a => 4
      | .b => 2
      | .c => 1
      | .n => 0
    let rows := e.rows.filterMap id
    let estimates : List (Int × Grade × Option Nat × Nat) :=
      ((e.own.toList.map fun o => (o.w, o.grade, o.share, o.entrySpeed)) ++
        ((rows.filter fun r => r.alignment != .misaligned).map fun r => (r.w, r.grade, r.share, r.speed))).filter
        fun y => y.2.1 != .n
    let sharing := estimates.filter fun y => y.2.2.1.isSome
    let speeds := e.own.toList.map (·.entrySpeed) ++ rows.map (·.speed)
    let weights := (estimates.map fun y => weight y.2.1).sum
    let f := fuse e
    (estimates = [] → f.f = 0 ∧ f.grade = .n ∧ f.share = none)
    ∧ (estimates ≠ [] →
        IsRounded (estimates.map fun y => (weight y.2.1 : Int) * y.1).sum weights f.f
        ∧ (∀ lo : Int, (∀ y ∈ estimates, lo ≤ y.1) → lo ≤ f.f) ∧ (∀ hi : Int, (∀ y ∈ estimates, y.1 ≤ hi) → f.f ≤ hi)
        ∧ (f.grade = .a ↔ 2 ≤ (estimates.filter fun y => y.2.1 == .a).length)
        ∧ (f.grade = .b ↔ (estimates.filter fun y => y.2.1 == .a).length = 1
            ∨ ((estimates.filter fun y => y.2.1 == .a).length = 0 ∧ 2 ≤ estimates.length))
        ∧ (f.grade = .c ↔ (estimates.filter fun y => y.2.1 == .a).length = 0 ∧ estimates.length = 1)
        ∧ IsRounded (estimates.map fun y => (weight y.2.1 : Int) * y.2.2.2).sum weights f.speed)
    ∧ (estimates = [] → speeds ≠ [] → IsRounded (speeds.map Int.ofNat).sum speeds.length f.speed)
    ∧ (speeds = [] → f.speed = e.firstSpeed.getD 0)
    ∧ (f.share = none ↔ sharing = [])
    ∧ (∀ n, f.share = some n →
        IsRounded (sharing.map fun y => (weight y.2.1 : Int) * (y.2.2.1.getD 0 : Nat)).sum
          (sharing.map fun y => weight y.2.1).sum n)
    ∧ (f.overspeed = true ↔ (∃ o, e.own = some o ∧ o.flags.overspeed = true) ∨ ∃ r ∈ rows, r.flags.overspeed = true)
    ∧ (f.creep = true ↔ (∃ o, e.own = some o ∧ o.flags.creep = true) ∨ ∃ r ∈ rows, r.flags.creep = true)
    ∧ (f.reversal = true ↔ (∃ o, e.own = some o ∧ o.flags.reversal = true) ∨ ∃ r ∈ rows, r.flags.reversal = true)
    ∧ f.misaligned = (rows.filter fun r => r.alignment == .misaligned).length
    ∧ f.unchecked = (rows.filter fun r => r.alignment == .unchecked).length

/-! ### Wagon Assembler and Record Store -/

/-- R157 to R168: how axles become records. An ordinal handed over becomes an item of the spacing list, and each spacing of two
neighbouring items is formed once, rounded. A pass takes the group that the trial at the cursor gives, stores a held group
whose axles are ready and goes on from there with the cursor past it; it stops where an axle is not ready, where nothing is
known at the cursor and where a pattern waits, and room force ends with a pass that stores nothing. The record of a group: its
axles from the FINAL entries, a missing one unweighed; gross, worst grade and mean speed; the overload, longitudinal and lateral
checks; flags and counts; and the numbers it is stored under. -/
def Obligations.RecordGathersItsAxles : Prop :=
  (∀ (s : State) (j : Nat) (time : Time) (v : Nat), 1 ≤ j →
    let item : State → Nat → Option SpacingItem := fun s i => s.was.items.find? fun x => x.ordinal == i
    let s' := takeFirstEntry j time v s
    s' = { s with was := { s.was with highest := max s.was.highest j, items := s'.was.items } }
    ∧ (j < s.was.cursor ∨ s.was.cursor + 127 < j ∨ (item s j).isSome = true → s'.was.items = s.was.items)
    ∧ (s.was.cursor ≤ j → j ≤ s.was.cursor + 127 → item s j = none →
        (∀ i, i ≠ j → i + 1 ≠ j → item s' i = item s i)
        ∧ (item s (j + 1) = none → item s' j = some { ordinal := j, time := time, speed := v, spacing := none })
        ∧ (∀ y, item s (j + 1) = some y → ∃ d, item s' j = some { ordinal := j, time := time, speed := v, spacing := some d }
            ∧ IsRounded ((y.time - time).toInt * (v + y.speed : Nat)) 2000000 d)
        ∧ (item s (j - 1) = none → item s' (j - 1) = none)
        ∧ (∀ x d, item s (j - 1) = some x → x.spacing = some d → item s' (j - 1) = some x)
        ∧ (∀ x, item s (j - 1) = some x → x.spacing = none → ∃ d, item s' (j - 1) = some { x with spacing := some d }
            ∧ IsRounded ((time - x.time).toInt * (x.speed + v : Nat)) 2000000 d)))
  ∧ (∀ s : State, (∀ p ∈ s.settings.patterns, 1 ≤ p.axles) →
      let stopped : State := { s with was := { s.was with roomForce := false } }
      (s.was.group = none →
        (¬ TrialOpen s ∨ TrialWaits s → pass s = stopped)
        ∧ ∀ g, TrialOpen s → GroupChosen s g → pass s = pass { s with was := { s.was with group := some g } })
      ∧ ∀ g, s.was.group = some g → g.first = s.was.cursor → 1 ≤ g.count →
        (¬ GroupReady s g → pass s = stopped)
        ∧ (GroupReady s g →
            let stored := storeRecord (buildRecord s g) s
            let gone := s.fus.table.filter fun e => decide (g.first ≤ e.ordinal ∧ e.ordinal < g.first + g.count)
            let next : State := { stored with
              was := { stored.was with
                cursor := g.first + g.count, group := none, roomForce := stored.was.roomForce && gone.isEmpty,
                items := s.was.items.filter fun x => !decide (g.first ≤ x.ordinal ∧ x.ordinal < g.first + g.count) },
              fus := { s.fus with
                table := s.fus.table.filter fun e => !decide (g.first ≤ e.ordinal ∧ e.ordinal < g.first + g.count) },
              ses := { stored.ses with
                current := stored.ses.current.map fun m =>
                  { m with late := min 65535 (m.late + (gone.map (·.late)).sum) } } }
            ∃ b, pass s = { pass next with was := { (pass next).was with roomForce := b } }
              ∧ (next.was.roomForce = false → b = false)))
  ∧ ∀ (s : State) (g : Group),
    let ords := (List.range g.count).map (g.first + ·)
    let entry : Nat → Option Entry := fun j => s.fus.table.find? fun e => e.ordinal == j
    let fused : Nat → Option Fused := fun j => (entry j).bind (·.fused)
    let there := ords.filterMap fused
    let pattern := g.pattern.bind fun k => s.settings.patterns[k - 1]?
    let rank : Grade → Nat := fun g => match g with
      | .a => 0
      | .b => 1
      | .c => 2
      | .n => 3
    let r := buildRecord s g
    (r.index = s.rst.nextIndex ∧ r.session = s.ses.number ∧ r.wagon = s.was.wagons + 1 ∧ r.first = g.first
      ∧ r.pattern = g.pattern)
    ∧ r.axles = ords.map (fun j => match fused j with
        | some f => { w := f.f, grade := f.grade, share := f.share, reversal := f.reversal }
        | none => { w := 0, grade := .n, share := none, reversal := false })
    ∧ r.gross = (r.axles.map (·.w)).sum
    ∧ (pattern = none → r.kind = .unmatched)
    ∧ (∀ p, pattern = some p → r.kind = if p.loco then .loco else .wagon)
    ∧ (∀ a ∈ r.axles, rank a.grade ≤ rank r.grade) ∧ (r.grade = .a ∨ ∃ a ∈ r.axles, a.grade = r.grade)
    ∧ (there = [] → r.meanSpeed = 0)
    ∧ (there ≠ [] → ∃ v : Nat, IsRounded (there.map fun f => (f.speed : Int)).sum there.length v
        ∧ IsRounded (v * 36) 1000 r.meanSpeed)
    ∧ (r.overload = true ↔ ∃ p, pattern = some p ∧ p.loco = false ∧ p.maxGross < r.gross)
    ∧ (r.lateral = true ↔
        ∃ a ∈ r.axles, ∃ share, a.share = some share ∧ (share < s.settings.latLo ∨ s.settings.latHi < share))
    ∧ (r.longitudinal = true ↔
        ∃ p, pattern = some p ∧ p.loco = false ∧ (∀ a ∈ r.axles, a.grade ≠ .n) ∧ 0 < r.gross
          ∧ ∃ front rear : Int,
            IsRounded (((r.axles.take (p.split.getD 0)).map (·.w)).sum * 1000) r.gross.toNat front
            ∧ IsRounded (((r.axles.drop (p.split.getD 0)).map (·.w)).sum * 1000) r.gross.toNat rear
            ∧ (s.settings.longLimit : Int) < max front rear)
    ∧ (r.overspeed = true ↔ ∃ f ∈ there, f.overspeed = true) ∧ (r.creep = true ↔ ∃ f ∈ there, f.creep = true)
    ∧ (r.reversal = true ↔ ∃ f ∈ there, f.reversal = true)
    ∧ (r.forced = true ↔ ∃ j ∈ ords, ∀ e, entry j = some e → e.forced = true)
    ∧ r.misaligned = min 15 (there.map (·.misaligned)).sum ∧ r.unchecked = min 255 (there.map (·.unchecked)).sum

/-- R168 to R170, R181: storing a record: the counters, the ring with its oldest record removed when it is full, the read
pointer and OVERRUN, the summary's wagon count, the TALLY of the exit station and the answer to a deferred request. The BULK
and SERVICE queues have room and the line is ACTIVE here. -/
def Obligations.StoredRecordJoinsTheRing : Prop :=
  ∀ (r : WagonRecord) (s : State),
    let full := decide (128 ≤ s.rst.ring.length)
    let overrun := full && (s.rst.ring.head?.any fun o => o.index == s.rst.readPointer)
    let sends := s.ptb.exitStation == s.stc.number.toNat
    let asked := s.rst.deferred.any fun d => d.session == r.session && d.wagon == r.wagon
    let tally : List TxFrame :=
      if sends then [{ body := .tally r, target := 15, seq := s.slc.sequence + 1, failed := 0, held := 0 }] else []
    let seq := s.slc.sequence + (if sends then 1 else 0)
    let answers : List TxFrame :=
      if asked then
        [{ body := .reply .ok 3 (.record r), target := (s.rst.deferred.map (·.node)).getD 0, seq := seq + 1, failed := 0,
           held := 0 }]
      else []
    s.slc.line = .active → s.slc.bulk.length < 32 → s.slc.service.length < 4 →
    storeRecord r s = { s with
      was := { s.was with wagons := r.wagon },
      rst :=
        { ring := s.rst.ring.drop (if full then 1 else 0) ++ [r], nextIndex := s.rst.nextIndex + 1,
          readPointer := if overrun then (s.rst.ring[1]?.map (·.index)).getD 0 else s.rst.readPointer,
          deferred := if asked then none else s.rst.deferred },
      ses := { s.ses with
        current := s.ses.current.map fun m =>
          { m with wagons := if m.wagons < 65535 then m.wagons + 1 else m.wagons } },
      cnd := if overrun then
          { s.cnd with
            latched := s.cnd.latched ||| 64, faultLow := ((s.cnd.latched ||| 64) &&& s.cnd.enable) != 0 }
        else s.cnd,
      slc := { s.slc with
        sequence := seq + (if asked then 1 else 0), bulk := s.slc.bulk ++ tally, service := s.slc.service ++ answers } }

/-! ### Recorder service -/

/-- R178, R179: FETCH-NEXT, FETCH and SEEK. FETCH-NEXT answers the record at the read pointer and advances it, or EMPTY;
FETCH answers the record at an index, or RANGE; SEEK moves the pointer to a held index or to the next one, or answers RANGE. -/
def Obligations.FetchAndSeekReadTheRing : Prop :=
  ∀ (t : Time) (x : RxFrame) (rest : List RxFrame) (k : Byte) (s : State),
    let node := x.frame.node
    let i := wordAt x.frame.payload 1
    let s₀ := afterHead t rest s
    let held := ∃ r ∈ s.rst.ring, r.index = i
    AskWaits s x rest k → s.stc.station ≠ .configFault → RstInv s →
    (k = 1 → s.rst.readPointer = s.rst.nextIndex → exec (.fetchNext t) s = .next (withReply node .empty 1 .none s₀))
    ∧ (k = 1 → s.rst.readPointer ≠ s.rst.nextIndex →
        ∃ r ∈ s.rst.ring, r.index = s.rst.readPointer ∧ exec (.fetchNext t) s = .next
          (withReply node .ok 1 (.record r)
            { s₀ with rst := { s.rst with readPointer := s.rst.readPointer + 1 } }))
    ∧ (k = 2 → ∀ r ∈ s.rst.ring, r.index = i → exec (.fetch t) s = .next (withReply node .ok 2 (.record r) s₀))
    ∧ (k = 2 → ¬ held → exec (.fetch t) s = .next (withReply node .range 2 .none s₀))
    ∧ (k = 4 → held ∨ i = s.rst.nextIndex → exec (.seek t) s = .next
        (withReply node .ok 4 .none { s₀ with rst := { s.rst with readPointer := i } }))
    ∧ (k = 4 → ¬ held → i ≠ s.rst.nextIndex → exec (.seek t) s = .next (withReply node .range 4 .none s₀))

/-- R180: FETCH-WAGON: BUSY while a request is held; the newest record with the session and wagon number; DEFERRED, with the
request held, for a wagon of the open session still to come; RANGE otherwise. -/
def Obligations.FetchWagonFindsOrWaits : Prop :=
  ∀ (t : Time) (x : RxFrame) (rest : List RxFrame) (s : State),
    let node := x.frame.node
    let session := wordAt x.frame.payload 1
    let wagon := at2 x.frame.payload 3
    let s₀ := afterHead t rest s
    let asked : WagonRecord → Prop := fun r => r.session = session ∧ r.wagon = wagon
    let awaited := s.ses.state ≠ .idle ∧ s.ses.number = session ∧ s.was.wagons < wagon
    AskWaits s x rest 3 → s.stc.station ≠ .configFault →
    (s.rst.deferred.isSome = true → exec (.fetchWagon t) s = .next (withReply node .busy 3 .none s₀))
    ∧ (s.rst.deferred = none →
        (∀ older r newer, s.rst.ring = older ++ r :: newer → asked r → (∀ y ∈ newer, ¬ asked y) →
          exec (.fetchWagon t) s = .next (withReply node .ok 3 (.record r) s₀))
        ∧ ((∀ r ∈ s.rst.ring, ¬ asked r) → awaited → exec (.fetchWagon t) s = .next
            (withReply node .deferred 3 .none
              { s₀ with rst := { s.rst with deferred := some { node := node, session := session, wagon := wagon } } }))
        ∧ ((∀ r ∈ s.rst.ring, ¬ asked r) → ¬ awaited →
            exec (.fetchWagon t) s = .next (withReply node .range 3 .none s₀)))

/-- R182, R183: SUMMARY answers the current summary with the axle count and the halted time of the moment and its mismatch
clear, or the last one as it is held; CONDITIONS answers the causes, the states and the net load. Halted time is caught up
to the moment in whole milliseconds (log 18). -/
def Obligations.SummaryAndConditionsAreReported : Prop :=
  ∀ (t : Time) (x : RxFrame) (rest : List RxFrame) (k : Byte) (s : State),
    let node := x.frame.node
    let which := at1 x.frame.payload 1
    let s₀ := afterHead t rest s
    AskWaits s x rest k →
    (∀ m, k = 5 → which = 0 → s.ses.state ≠ .idle → s.ses.current = some m →
      (s.ses.state ≠ .halted → exec (.summary t) s = .next
        (withReply node .ok 5 (.summary false { m with ownAxles := s.atr.counter, mismatch := false }) s₀))
      ∧ (∀ tick, s.ses.state = .halted → s.ses.nextHaltTick = some tick → reached (tick - 1000) t = true →
          exec (.summary t) s = .next
            (withReply node .ok 5
              (.summary false
                { m with
                  ownAxles := s.atr.counter, mismatch := false,
                  haltedMs := min 4294967295 (m.haltedMs + elapsed (tick - 1000) t / 1000) })
              s₀)))
    ∧ (k = 5 → which = 0 → s.ses.state = .idle → exec (.summary t) s = .next (withReply node .empty 5 .none s₀))
    ∧ (∀ m, k = 5 → which = 1 → s.ses.last = some m →
        exec (.summary t) s = .next (withReply node .ok 5 (.summary true m) s₀))
    ∧ (k = 5 → which = 1 → s.ses.last = none → exec (.summary t) s = .next (withReply node .empty 5 .none s₀))
    ∧ (k = 5 → 1 < which → exec (.summary t) s = .next (withReply node .range 5 .none s₀))
    ∧ (k = 6 → exec (.conditions t) s = .next
        (withReply node .ok 6
          (.conditions
            { latched := s.cnd.latched, enable := s.cnd.enable, top := topCause s,
              netLoad := s.lfe.history.getLast?.map fun y => y.total - s.lfe.z, station := s.stc.station,
              line := s.slc.line, session := s.ses.state })
          s₀))

/-- R185, R186, R188: CLEAR clears the named causes but those whose condition is present, the pin follows, and the
reply carries what is then latched; the top cause is the latched one of highest priority. The reply to CLEAR carries
the mask alone (log 45). -/
def Obligations.ClearKeepsPresentCauses : Prop :=
  (∀ (t : Time) (x : RxFrame) (rest : List RxFrame) (s : State), AskWaits s x rest 7 →
    let mask := at2 x.frame.payload 1
    ∃ latched : CauseMask,
      (∀ i : Nat, i < 9 → latched.getLsbD i =
        (s.cnd.latched.getLsbD i && (!mask.testBit i || s.cnd.present.getLsbD i)))
      ∧ exec (.clear t) s = .next
          (withReply x.frame.node .ok 7 (.mask latched)
            { afterHead t rest s with
              cnd := { s.cnd with latched := latched, faultLow := (latched &&& s.cnd.enable) != 0 } }))
  ∧ (∀ s : State, topCause s = none ↔ s.cnd.latched = 0)
  ∧ (∀ (s : State) (c : Cause), topCause s = some c ↔
      s.cnd.latched.getLsbD (priority c - 1) = true ∧ ∀ i : Nat, i < priority c - 1 → s.cnd.latched.getLsbD i = false)

/-- R101, R175, R176: an unknown asked kind is answered REFUSED, and so are the fetch asks in CONFIG FAULT. An ASK other
than RESTART waits while the SERVICE queue is full; in LISTEN and MUTED it is taken without effect. A TALLY or REPLY is
taken and discarded. The lengths of replies are log 10. -/
def Obligations.OtherAsksAreRefusedOrWait : Prop :=
  ∀ (t : Time) (x : RxFrame) (rest : List RxFrame) (s : State),
    let k := askedKind x
    let s₀ := afterHead t rest s
    let takes : Instr → Prop := fun i =>
      (i = .fetchNext t ∧ k = 1) ∨ (i = .fetch t ∧ k = 2) ∨ (i = .fetchWagon t ∧ k = 3) ∨ (i = .seek t ∧ k = 4)
    let takesAny : Instr → Prop := fun i =>
      takes i ∨ (i = .summary t ∧ k = 5) ∨ (i = .conditions t ∧ k = 6) ∨ (i = .clear t ∧ k = 7)
        ∨ (i = .askUnknown t ∧ ¬ (1 ≤ k.toNat ∧ k.toNat ≤ 8))
    (AskWaits s x rest k →
      (¬ (1 ≤ k.toNat ∧ k.toNat ≤ 8) → exec (.askUnknown t) s = .next (withReply x.frame.node .refused k .none s₀))
      ∧ ∀ i, takes i → s.stc.station = .configFault → exec i s = .next (withReply x.frame.node .refused k .none s₀))
    ∧ (∀ i, FrameWaits s x rest .ask → takesAny i →
        (s.slc.line = .listen ∨ s.slc.line = .muted → exec i s = .next s₀)
        ∧ (s.slc.line = .active ∨ s.slc.line = .configFault → 4 ≤ s.slc.service.length →
            exec i s = .next { s with now := t }))
    ∧ (∀ kind, kind = .tally ∨ kind = .reply → FrameWaits s x rest kind → exec (.tallyReplyDispatch t) s = .next s₀)

/-! ### What every step keeps -/

/-- R88, R93, R94, R99, R100, R106, R115, R185, R187, R192, R198: every command keeps what holds of the queues, of the causes and
their present indications, of FAULT#, of the peer table and of the I2C pins. That the line state reads ACTIVE in LOADING is
the model's value (log 5). -/
def Obligations.EveryStepKeepsLineAndCauses : Prop :=
  ∀ s t : State, step s = .next t →
    (SlcInv s → SlcInv t) ∧ (CndInv s → CndInv t) ∧ (PtbInv s → PtbInv t)
    ∧ (StcInv s → StcInv t)

/-- R1, R5, R6, R8, R11, R12, R14, R31, R42 to R50: every command keeps the sizes and ranges of samples and zero, the unpaired
runs, and the order of the axles. -/
def Obligations.EveryStepKeepsLoadAndAxles : Prop :=
  ∀ s t : State, step s = .next t → (LfeInv s → LfeInv t) ∧ (WhuInv s → WhuInv t) ∧ (AtrInv s → AtrInv t)

/-- R120 to R134, R139, R150, R154, R157 to R164, R168, R169, R171: every command keeps the estimate table, the session's
fields, the cursor and the ring in their proper shape; with closed for matching, and in IDLE, no estimate is held. That the
summary's number, direction and first edge stay the session's is log 26. -/
def Obligations.EveryStepKeepsTrainAndRing : Prop :=
  ∀ s t : State, step s = .next t → (FusInv s → FusInv t) ∧ (AsmInv s → AsmInv t) ∧ (RstInv s → RstInv t)

/-- Every invariant of the three statements above holds at `State.reset`; the values the spec does not give are those of log 5. -/
def Obligations.ResetMeetsEveryInvariant : Prop :=
  SlcInv State.reset ∧ CndInv State.reset ∧ PtbInv State.reset ∧ LfeInv State.reset ∧ WhuInv State.reset
  ∧ AtrInv State.reset ∧ FusInv State.reset ∧ AsmInv State.reset ∧ RstInv State.reset ∧ StcInv State.reset

end
end

