-- ==== Sys2Proof/Laws/Rounding.lean ====
section
/-! SUPPORT. Rounding and sums, as the statements speak of them. -/

namespace Sys2Proof.Machine

open Sys2Proof

/-- Rounding to nearest, halves away from zero, gives the value the statements call rounded (chapter 0). -/
theorem roundDiv_isRounded (n : Int) (d : Nat) (hd : 0 < d) : IsRounded n d (roundDiv n d) := by
  unfold IsRounded roundDiv
  have h1 := Nat.div_add_mod (2 * n.natAbs + d) (2 * d)
  have h2 := Nat.mod_lt (2 * n.natAbs + d) (show 0 < 2 * d by omega)
  generalize hq : (2 * n.natAbs + d) / (2 * d) = q at *
  generalize (2 * n.natAbs + d) % (2 * d) = r at *
  have e1 : (2 * d) * q = 2 * (d * q) := by ring
  rw [e1] at h1
  have e3 : (d : Int) * (q : Int) = ((d * q : Nat) : Int) := by push_cast; rfl
  split
  · rw [mul_neg, e3]
    simp only [Int.natAbs_neg, Int.natAbs_natCast]
    generalize d * q = m at *
    constructor <;> omega
  · rw [e3]
    simp only [Int.natAbs_natCast]
    generalize d * q = m at *
    constructor <;> omega

/-- The same for the rounding of natural numbers. -/
theorem roundNat_isRounded (n d : Nat) (hd : 0 < d) : IsRounded (n : Int) d (roundNat n d) := by
  have := roundDiv_isRounded (n : Int) d hd
  unfold roundDiv at this
  rw [if_neg (by omega)] at this
  simpa [roundNat] using this

/-- A quotient is rounded to one value only. -/
theorem rounded_unique {n : Int} {d : Nat} {x y : Int} (hd : 0 < d) (h : IsRounded n d x) (h' : IsRounded n d y) : x = y := by
  have key : ∀ {x y : Int}, IsRounded n d x → IsRounded n d y → ¬ x < y := by
    intro x y h h' hlt
    obtain ⟨h1, h2⟩ := h
    obtain ⟨h3, h4⟩ := h'
    have e1 : (x + 1) * d ≤ y * d := Int.mul_le_mul_of_nonneg_right (by omega) (by omega)
    have e2 : (x + 1) * (d : Int) = d * x + d := by ring
    have e3 : y * (d : Int) = d * y := by ring
    rw [e2, e3] at e1
    have a1 : ((d * x.natAbs : Nat) : Int) = |(d : Int) * x| := by rw [abs_mul]; simp
    have a2 : ((d * y.natAbs : Nat) : Int) = |(d : Int) * y| := by rw [abs_mul]; simp
    have c1 : 0 ≤ x → 0 ≤ (d : Int) * x := fun h => Int.mul_nonneg (by omega) h
    have c2 : x + 1 ≤ 0 → (d : Int) * x + d ≤ 0 := by
      intro h
      have : (d : Int) * (x + 1) ≤ 0 := Int.mul_nonpos_of_nonneg_of_nonpos (by omega) h
      rw [mul_add, mul_one] at this; exact this
    generalize d * x.natAbs = p at *
    generalize d * y.natAbs = q at *
    generalize (d : Int) * x = m at *
    generalize (d : Int) * y = k at *
    have b1 : (p : Int) = m ∨ (p : Int) = -m := by rw [a1]; exact abs_choice m
    have b2 : (q : Int) = k ∨ (q : Int) = -k := by rw [a2]; exact abs_choice k
    omega
  rcases lt_trichotomy x y with h1 | h1 | h1
  · exact absurd h1 (key h h')
  · exact h1
  · exact absurd h1 (key h' h)

/-- Rounding keeps a lower bound. -/
theorem rounded_ge {n : Int} {d : Nat} {x lo : Int} (hd : 0 < d) (h : IsRounded n d x) (hl : lo * d ≤ n) : lo ≤ x := by
  by_contra hx
  have h1 : x + 1 ≤ lo := by omega
  have h2 : (x + 1) * d ≤ lo * d := Int.mul_le_mul_of_nonneg_right h1 (by omega)
  have h3 := h.1
  have h4 : (x + 1) * (d : Int) = d * x + d := by ring
  rw [h4] at h2
  generalize (d : Int) * x = m at *
  omega

/-- Rounding keeps an upper bound. -/
theorem rounded_le {n : Int} {d : Nat} {x hi : Int} (hd : 0 < d) (h : IsRounded n d x) (hl : n ≤ hi * d) : x ≤ hi := by
  by_contra hx
  have h1 : hi + 1 ≤ x := by omega
  have h2 : (hi + 1) * d ≤ x * d := Int.mul_le_mul_of_nonneg_right h1 (by omega)
  have h3 := h.1
  have h4 : (hi + 1) * (d : Int) = hi * d + d := by ring
  have h5 : x * (d : Int) = d * x := by ring
  rw [h4, h5] at h2
  generalize (d : Int) * x = m at *
  omega

/-- The model's sum is the sum of the list. -/
theorem total_eq (xs : List Int) : total xs = xs.sum := by
  unfold total; rw [List.sum_eq_foldl]

end Sys2Proof.Machine
end

