-- ==== Sys2Proof/Laws/Deadlines.lean ====
section
/-! SUPPORT. Leaving HALTED, and the deadlines of the estimate table (R128, R148, R151 to R153): what each function can do. -/

namespace Sys2Proof.Machine

open Sys2Proof

/-- What leaving RUNNING or HALTED does to the session (R128). -/
theorem leave_eq {t : Time} {ms : Nat} (M : State) (hn : M.now = t) (h : LeavesAt t M ms) :
    leaveHalted M =
      { M with ses := { M.ses with
          nextHaltTick := if M.ses.state = .halted then none else M.ses.nextHaltTick,
          current := M.ses.current.map (withStay M ms) } } := by
  rcases h with hr | ⟨hr, tick, ht, hre, hms⟩
  · have hlh : leaveHalted M = M := by unfold leaveHalted; simp [hr]
    have hw : withStay M ms = id := by funext m; unfold withStay; simp [hr]
    rw [hlh, hw, if_neg (by rw [hr]; decide), Option.map_id_apply]
  · have hun : uncountedMs M = ms := by
      unfold uncountedMs; rw [ht, hn]; simp only
      rw [if_pos (show reached (tick - 1000) t = true from hre)]; exact hms.symm
    have hw : withStay M ms = addHalted ms := by funext m; unfold withStay addHalted; simp [hr]
    unfold leaveHalted
    have : (M.ses.state == .halted) = true := by simp [hr]
    rw [if_pos this, hun, hw, if_pos hr]; rfl

/-- When the own part of an entry counts as settled (R148). -/
theorem ownSettled_iff (s : State) (e : Entry) : ownSettled s e = true ↔ OwnSettled s e := by
  unfold ownSettled findRecord OwnSettled
  rw [Bool.and_eq_true]
  cases h : (s.atr.records.find? fun r => r.ordinal == e.ordinal) with
  | none => simp
  | some r => simp

/-- A station's exit edge, as the statements speak of it. -/
theorem exitEdge_exitAt (s : State) (n) : exitEdge s n = exitAt s n := by unfold exitEdge exitAt; cases s.ses.direction <;> rfl

/-- The distance to a station, cut off at 0 (R151). -/
theorem exitDistance_eq (s : State) (n) :
    exitDistance s n = if s.ses.direction = .up then exitAt s n - exitAt s s.stc.number.toNat
      else exitAt s s.stc.number.toNat - exitAt s n := by
  unfold exitDistance; rw [exitEdge_exitAt, exitEdge_exitAt]; unfold ownNumber; cases s.ses.direction <;> rfl

/-- A distance above 0 is a station downstream (R151). -/
theorem exitDistance_pos (s : State) (n) : 0 < exitDistance s n ↔ LiesBeyond s n := by
  rw [exitDistance_eq]; unfold LiesBeyond; split <;> omega

/-- The own-estimate deadline is the one R151 gives. -/
theorem ownDeadline_is {t : Time} (s : State) (e : Entry) (hn : s.now = t) : IsOwnDeadline t s e (ownDeadline s e) := by
  have key : ∀ distance : Nat, ((furthestPeer s).map (exitDistance s)).getD 0 = distance → ∃ travel : Nat,
      IsRounded (distance * 1000000 : Nat) (max 500 (e.exitSpeed.getD 500)) travel
    ∧ ownDeadline s e = t + BitVec.ofNat 32 (min 28000000 travel + 2000000) := by
    intro distance hd
    refine ⟨roundNat (distance * 1000000) (max 500 (e.exitSpeed.getD 500)), ?_, ?_⟩
    · exact roundNat_isRounded _ _ (by omega)
    · unfold ownDeadline travelUs addUs; rw [hn, hd]
  unfold IsOwnDeadline
  cases hfp : furthestPeer s with
  | none => exact key 0 (by rw [hfp]; rfl)
  | some n => exact key _ (by rw [hfp]; simp only [Option.map_some, Option.getD_some, exitDistance_eq])

/-- The shortening by a heard exit, as the statements speak of it (R152). -/
theorem shortened_cut {t : Time} (s : State) (e : Entry) (n : Option Nat) (d : Time) (hn : s.now = t) :
    shortened s e n d = cutShort t e n d := by
  unfold shortened cutShort notPast
  rw [hn]
  cases n.bind fun n => place e.exits n none with
  | none => rfl
  | some x => simp only [earliest, addUs]; rfl

/-- What a resumption does to an entry (R153). -/
theorem resumed_is {t : Time} (s M : State) (e : Entry) (hn : M.now = t) (hf : furthestPeer M = furthestPeer s)
    (hs : ∀ e, ownSettled M e = ownSettled s e)
   (hx : ∀ n, exitDistance M n = exitDistance s n) : Resumed t s e (resumedEntry M e) := by
  have hd : ownDeadline M e = ownDeadline { s with now := t } e := by
    unfold ownDeadline; rw [hf, hn]
    have : furthestPeer { s with now := t } = furthestPeer s := rfl
    rw [this]
    have h2 : exitDistance M = exitDistance { s with now := t } := by funext n; rw [hx]; rfl
    rw [h2]
  have hne : earlier (t + 2000000) t = false := by
    unfold earlier elapsed
    have : (t - (t + 2000000)) = 4292967296#32 := by bv_omega
    rw [this, Bool.and_eq_false_iff]; right; decide
  have hr : resumedEntry M e =
      (if e.fused.isSome then e else if ownSettled s e then
        { e with
          deadline := some (cutShort t e (furthestPeer s) (ownDeadline { s with now := t } e)),
          deadlinePeer := furthestPeer s }
     else match furthestPeer s with
      | none => e
      | some n => if e.own.isNone && 0 < exitDistance s n && (place e.rows n none).isSome then
          { e with deadline := some (t + 2000000), deadlinePeer := none } else e) := by
    unfold resumedEntry isFinal withDeadline
    rw [hs, hf, hd, shortened_cut M e _ _ hn]
    split
    · rfl
    · split
      · rfl
      · cases furthestPeer s with
        | none => rfl
        | some n =>
          simp only [hx, shortened_cut M e _ _ hn]
          split
          · have : cutShort t e none (addUs M.now 2000000) = t + 2000000 := by
              have hs2 : addUs M.now 2000000 = t + 2000000 := by rw [hn]; simp [addUs]
              rw [hs2]
              unfold cutShort
              simp only [Option.bind_none]
              rw [if_neg (by rw [hne]; simp)]
            rw [this]
          · rfl
  rw [hr]
  have hset := ownSettled_iff s e
  unfold Resumed
  simp only
  refine ⟨?_, ?_, ?_⟩
  · intro h1 h2
    refine ⟨ownDeadline { s with now := t } e, ?_, ?_⟩
    · exact ownDeadline_is (t := t) { s with now := t } e rfl
    · simp only [h1, Option.isSome_none, Bool.false_eq_true, if_false]
      rw [if_pos (hset.mpr h2)]
  · rintro h1 ⟨h2, n, h3, h4, h5⟩
    simp only [h1, Option.isSome_none, Bool.false_eq_true, if_false]
    rw [if_neg (by rw [hset, OwnSettled, h2]; simp)]
    rw [h3]
    simp only
    rw [if_pos (by simp [h2, h5, (exitDistance_pos s n).mpr h4])]
  · rintro (h | ⟨h1, h2⟩)
    · rw [if_pos h]
    · split
      · rfl
      · rw [if_neg (by rw [hset]; exact h1)]
        cases hfp : furthestPeer s with
        | none => rfl
        | some n =>
          simp only
          rw [if_neg]
          intro hh
          simp only [Bool.and_eq_true, decide_eq_true_iff, Option.isNone_iff_eq_none] at hh
          exact h2 ⟨hh.1.1, n, hfp, (exitDistance_pos s n).mp hh.1.2, hh.2⟩

end Sys2Proof.Machine
end

