-- ==== Sys2Proof/Laws/Frames.lean ====
section
/-! SUPPORT. What each shared operation can change, said once: the result is the state with these blocks replaced. -/

namespace Sys2Proof.Machine

open Sys2Proof

theorem setEndUnit_eq (e u) (s : State) : ∃ w, setEndUnit e u s = { s with whu := w } := by
  cases e <;> exact ⟨_, rfl⟩

theorem discardHalf_eq (e n) (s : State) : ∃ w c, discardHalf e n s = { s with whu := w, cnd := c } := by
  unfold discardHalf onlyIf; simp only
  split <;> cases e <;> exact ⟨_, _, rfl⟩

theorem clearFaults_eq (e) (s : State) : ∃ w c, clearFaults e s = { s with whu := w, cnd := c } := by
  unfold clearFaults; simp only
  split <;> cases e <;> exact ⟨_, _, rfl⟩

theorem assessLayout_eq (s : State) : ∃ b c, assessLayout s = { s with ptb := { s.ptb with layout := b }, cnd := c } := by
  unfold assessLayout; simp only
  split
  · exact ⟨_, _, rfl⟩
  · split <;> exact ⟨_, _, rfl⟩

theorem handOver_eq (b t) (s : State) : ∃ x c, handOver b t s = { s with slc := x, cnd := c } := by
  unfold handOver onlyIf; simp only; split
  · split <;> exact ⟨_, _, rfl⟩
  · exact ⟨_, _, rfl⟩

theorem startFrame_eq (n) (s : State) : ∃ x, startFrame n s = { s with slc := { s.slc with sending := x } } := by
  unfold startFrame; split
  · split
    · exact ⟨_, rfl⟩
    · exact ⟨_, rfl⟩
  · exact ⟨_, rfl⟩

theorem loseArbitration_eq (s : State) : ∃ x, loseArbitration s = { s with slc := x } := by
  unfold loseArbitration; split <;> exact ⟨_, rfl⟩

theorem attemptFailed_eq (k f) (s : State) : ∃ x c, attemptFailed k f s = { s with slc := x, cnd := c } := by
  unfold attemptFailed onlyIf; simp only
  split
  · exact ⟨_, _, rfl⟩
  · split
    · exact ⟨_, _, rfl⟩
    · split <;> exact ⟨_, _, rfl⟩

theorem countBreakOff_eq (r) (s : State) : ∃ x, countBreakOff r s = { s with slc := x } := by
  unfold countBreakOff; split <;> exact ⟨_, rfl⟩

theorem attemptOutcome_eq (r f) (s : State) : ∃ x c, attemptOutcome r f s = { s with slc := x, cnd := c } := by
  unfold attemptOutcome; simp only
  split
  · split
    · exact ⟨_, _, rfl⟩
    · unfold attemptSuccess; simp only; split <;> exact ⟨_, _, rfl⟩
  · obtain ⟨x, hx⟩ := countBreakOff_eq r s
    obtain ⟨y, c, hy⟩ := attemptFailed_eq (classOfBody f.body) f (countBreakOff r s)
    rw [hy, hx]; unfold onlyIf
    split <;> exact ⟨_, _, rfl⟩

theorem endAttempt_eq (r) (s : State) : ∃ x c, endAttempt r s = { s with slc := x, cnd := c } := by
  unfold endAttempt
  split
  · exact ⟨_, _, rfl⟩
  · rename_i y _
    obtain ⟨x, c, h⟩ := attemptOutcome_eq r y.frame { s with slc := { s.slc with sending := none } }
    rw [h]; exact ⟨_, _, rfl⟩

theorem admitFrame_eq (k t f) (s : State) : ∃ x c, admitFrame k t f s = { s with slc := x, cnd := c } := by
  unfold admitFrame; simp only
  split
  · exact ⟨_, _, rfl⟩
  · split
    · exact ⟨_, _, rfl⟩
    · split
      · exact ⟨_, _, rfl⟩
      · split <;> exact ⟨_, _, rfl⟩

theorem testBlock_eq (s : State) : ∃ l b c, testBlock s = { s with lfe := l, stc := { s.stc with station := b }, cnd := c } := by
  unfold testBlock checkZeroLimit onlyIf settle; simp only
  split
  · split <;> exact ⟨_, _, _, rfl⟩
  · split
    · split <;> exact ⟨_, _, _, rfl⟩
    · split <;> exact ⟨_, _, _, rfl⟩

theorem gatherSample_eq (x) (s : State) : ∃ l b c, gatherSample x s = { s with lfe := l, stc := { s.stc with station := b }, cnd := c } := by
  unfold gatherSample; simp only
  split
  · unfold onlyIf; split
    · obtain ⟨l, b, c, h⟩ := testBlock_eq { s with lfe := { s.lfe with block := s.lfe.block ++ [x] } }
      rw [h]; exact ⟨_, _, _, rfl⟩
    · exact ⟨_, _, _, rfl⟩
  · exact ⟨_, _, _, rfl⟩

theorem instantDue_eq (x) (s : State) : ∃ l b c, instantDue x s = { s with lfe := l, stc := { s.stc with station := b }, cnd := c } := by
  unfold instantDue; split
  · exact ⟨_, _, _, rfl⟩
  · unfold onlyIf; split
    · unfold takeInstant onlyIf; simp only; split
      · unfold formSample onlyIf; simp only
        split
        · exact (gatherSample_eq _ _).elim fun l ⟨b, c, h⟩ => ⟨l, b, c, h⟩
        · exact (gatherSample_eq _ _).elim fun l ⟨b, c, h⟩ => ⟨l, b, c, h⟩
      · exact ⟨_, _, _, rfl⟩
    · exact ⟨_, _, _, rfl⟩

theorem abandonBlock_eq (s : State) : ∃ l, abandonBlock s = { s with lfe := { s.lfe with block := l } } := by
  unfold abandonBlock; split <;> exact ⟨_, rfl⟩

theorem joinRing_eq (r) (s : State) : ∃ x c, joinRing r s = { s with rst := x, cnd := c } := by
  unfold joinRing overwriteOldest; simp only
  split
  · exact ⟨_, _, rfl⟩
  · split
    · exact ⟨_, _, rfl⟩
    · split <;> exact ⟨_, _, rfl⟩

theorem handHail_eq (s : State) : ∃ x c, handHail s = { s with slc := x, cnd := c } := handOver_eq _ _ _

theorem enterConfigFault_eq (m) (s : State) : ∃ a b c d e p1 p2 p3 p4 q, enterConfigFault m s =
    { s with settings := a, stc := { s.stc with station := b, imageSum := c, i2cReleased := q }, lfe := d, slc := e,
             ptb := { s.ptb with ownP := p1, ownL := p2, ownPatternSum := p3, hailTimer := p4 },
             cnd := (enterConfigFault m s).cnd } := by
  unfold enterConfigFault; simp only
  obtain ⟨x, c, h⟩ := handHail_eq (reportPresent .config (setEnable allCausesMask { s with
    stc := { s.stc with station := .configFault, imageSum := m, i2cReleased := true },
    slc := { s.slc with line := .configFault },
    ptb := { s.ptb with ownP := 0, ownL := 0, ownPatternSum := 0, hailTimer := some (addUs s.now 250000) } }))
  rw [h]; exact ⟨_, _, _, _, _, _, _, _, _, _, rfl⟩

theorem enterSettling_eq (x p l m u v) (s : State) : ∃ a b c d e p1 p2 p3 p4 q, enterSettling x p l m u v s =
    { s with settings := a, stc := { s.stc with station := b, imageSum := c, i2cReleased := q }, lfe := d, slc := e,
             ptb := { s.ptb with ownP := p1, ownL := p2, ownPatternSum := p3, hailTimer := p4 },
             cnd := (enterSettling x p l m u v s).cnd } := by
  unfold enterSettling handHail; simp only
  generalize hb : Body.hail _ = y
  clear hb
  obtain ⟨x, c, h⟩ := handOver_eq y broadcast { s with
    settings := x,
    stc := { s.stc with station := .settling, imageSum := u, i2cReleased := true },
    lfe := { s.lfe with excitation := true, nextInstant := some (addUs s.now 625) },
    slc := { s.slc with line := .active },
    ptb := { s.ptb with
      ownP := p, ownL := l, ownPatternSum := v, hailTimer := some (addUs s.now 250000) } }
  rw [h]; exact ⟨_, _, _, _, _, _, _, _, _, _, rfl⟩

theorem endLoading_eq (i) (s : State) : ∃ a b c d e p1 p2 p3 p4 q, endLoading i s =
    { s with settings := a, stc := { s.stc with station := b, imageSum := c, i2cReleased := q }, lfe := d, slc := e,
             ptb := { s.ptb with ownP := p1, ownL := p2, ownPatternSum := p3, hailTimer := p4 },
             cnd := (endLoading i s).cnd } := by
  unfold endLoading
  split
  · split
    · exact enterConfigFault_eq _ _
    · exact enterConfigFault_eq _ _
    · exact enterSettling_eq _ _ _ _ _ _ _
  · exact ⟨_, _, _, _, _, _, _, _, _, _, rfl⟩

theorem reply_eq (n x k c) (s : State) : ∃ a b, reply n x k c s = { s with slc := a, cnd := b } := handOver_eq _ _ _

theorem sendTally_eq (r) (s : State) : ∃ a b, sendTally r s = { s with slc := a, cnd := b } := by
  unfold sendTally onlyIf
  split
  · exact handOver_eq _ _ _
  · exact ⟨_, _, rfl⟩

theorem answerDeferred_eq (r) (s : State) :
    ∃ a b d, answerDeferred r s = { s with slc := a, cnd := b, rst := { s.rst with deferred := d } } := by
  unfold answerDeferred
  split
  · exact ⟨_, _, _, rfl⟩
  · rename_i d _
    split
    · obtain ⟨a, b, h⟩ := reply_eq d.node .ok askFetchWagon (.record r) { s with rst := { s.rst with deferred := none } }
      rw [h]
      exact ⟨_, _, _, rfl⟩
    · exact ⟨_, _, _, rfl⟩

theorem refuseDeferred_eq (s : State) :
    ∃ a b, refuseDeferred s = { s with slc := a, cnd := b, rst := { s.rst with deferred := none } } := by
  unfold refuseDeferred
  split
  · rename_i h
    refine ⟨s.slc, s.cnd, ?_⟩
    rw [← h]
  · rename_i d _
    obtain ⟨a, b, h⟩ := reply_eq d.node .range askFetchWagon .none { s with rst := { s.rst with deferred := none } }
    rw [h]
    exact ⟨_, _, rfl⟩

theorem storeRecord_eq (r) (s : State) :
    ∃ a b d, storeRecord r s =
      { s with
        was := { s.was with wagons := r.wagon }, slc := a, cnd := b, rst := d,
        ses := { s.ses with current := s.ses.current.map fun m => { m with wagons := countUp 65535 m.wagons } } } := by
  unfold storeRecord
  obtain ⟨a1, b1, h1⟩ := joinRing_eq r { s with was := { s.was with wagons := r.wagon } }
  simp only [h1]
  obtain ⟨a2, b2, h2⟩ := sendTally_eq r (countWagon { s with was := { s.was with wagons := r.wagon }, rst := a1, cnd := b1 })
  rw [h2]
  obtain ⟨a3, b3, d3, h3⟩ := answerDeferred_eq r
    { countWagon { s with was := { s.was with wagons := r.wagon }, rst := a1, cnd := b1 } with slc := a2, cnd := b2 }
  rw [h3]
  exact ⟨_, _, _, rfl⟩

theorem completeRecord_eq (n) (s : State) (r) : ∃ a b, completeRecord n s r = { s with slc := a, cnd := b } := by
  unfold completeRecord
  split
  · exact ⟨_, _, rfl⟩
  · exact handOver_eq _ _ _

theorem completeAll_eq (n) : ∀ (rs : List OwnRecord) (s : State),
    ∃ a b, rs.foldl (completeRecord n) s = { s with slc := a, cnd := b }
  | [], s => ⟨_, _, rfl⟩
  | r :: rs, s => by
    obtain ⟨a, b, h⟩ := completeRecord_eq n s r
    obtain ⟨c, d, h'⟩ := completeAll_eq n rs { s with slc := a, cnd := b }
    rw [List.foldl_cons, h, h']
    exact ⟨_, _, rfl⟩

theorem freshStart_eq (n) (s : State) : ∃ a b, freshStart n s = { s with slc := a, cnd := b, atr := Atr.reset } := by
  unfold freshStart
  obtain ⟨a, b, h⟩ := completeAll_eq n s.atr.records s
  simp only [h]
  exact ⟨_, _, rfl⟩

/-- R132: the close changes the SES as `fileSummary` says, and empties tracker, assembly and deferred request. -/
theorem closeSession_eq (s : State) :
    ∃ a b w, closeSession s =
      { s with
        slc := a, cnd := b, whu := w, atr := Atr.reset, was := Was.reset, ses := (fileSummary s).ses,
        rst := { s.rst with deferred := none } } := by
  unfold closeSession clearAssembly clearLastSpeeds handShut
  obtain ⟨a1, b1, h1⟩ := handOver_eq
    (.shut s.ses.number s.atr.counter ((s.ses.current.map (·.wagons)).getD 0)) broadcast s
  obtain ⟨a2, b2, h2⟩ := refuseDeferred_eq (fileSummary { s with slc := a1, cnd := b1 })
  simp only [h1, h2]
  obtain ⟨a3, b3, h3⟩ := freshStart_eq (fileSummary { s with slc := a1, cnd := b1 }).ses.number
    { fileSummary { s with slc := a1, cnd := b1 } with
      slc := a2, cnd := b2, rst := { (fileSummary { s with slc := a1, cnd := b1 }).rst with deferred := none } }
  rw [h3]
  exact ⟨_, _, _, rfl⟩

theorem beginSession_eq (n d b o x y z) (s : State) :
    ∃ l a c p, beginSession n d b o x y z s =
      { s with
        ses := (beginFields n d b o x y z s).ses, lfe := l, slc := a, cnd := c, atr := Atr.reset,
        fus := { s.fus with current := some n, superseded := none }, ptb := p } := by
  unfold beginSession
  obtain ⟨l, h1⟩ := abandonBlock_eq (beginFields n d b o x y z s)
  simp only [h1]
  obtain ⟨a, c, h2⟩ := freshStart_eq s.ses.number
    { beginFields n d b o x y z s with lfe := { (beginFields n d b o x y z s).lfe with block := l } }
  rw [h2]
  exact ⟨_, _, _, _, rfl⟩

end Sys2Proof.Machine
end

