-- ==== Sys2Proof/Laws/Lookups.lean ====
section
/-! SUPPORT. Places, estimate entries and latching: what the shared operations over them do. -/

namespace Sys2Proof.Machine

open Sys2Proof

/-- A place just set reads back. -/
theorem place_set_self {α} (xs : List α) (n : Nat) (x d : α) (h : n < xs.length) : place (setPlace xs n x) n d = x := by
  simp [place, setPlace, List.getD, h]

/-- Setting a place leaves the others. -/
theorem place_set_other {α} (xs : List α) (n m : Nat) (x d : α) (h : m ≠ n) : place (setPlace xs n x) m d = place xs m d := by
  simp [place, setPlace, List.getD, Ne.symm h]

/-- A change by ordinal reaches the entry of that ordinal. -/
theorem find_map_entry (xs : List Entry) (j : Nat) (f : Entry → Entry) (hf : ∀ r, (f r).ordinal = r.ordinal) :
    (xs.map fun r => if r.ordinal == j then f r else r).find? (fun r => r.ordinal == j) = (xs.find? fun r => r.ordinal == j).map f := by
  induction xs with
  | nil => rfl
  | cons x xs ih =>
    simp only [List.map_cons, List.find?_cons]
    by_cases h : x.ordinal = j
    · simp [h, hf]
    · have : (x.ordinal == j) = false := by simpa using h
      simp only [this, Bool.false_eq_true, if_false, ih]

/-- Changing the entry of an ordinal: what is then found there. -/
theorem findEntry_changeEntry (s : State) (j : Nat) (f : Entry → Entry) (hf : ∀ r, (f r).ordinal = r.ordinal) :
   findEntry (changeEntry j f s) j = (findEntry s j).map f := find_map_entry _ _ _ hf

/-- Changing the entry of an ordinal leaves every other ordinal's. -/
theorem changeEntry_other (s : State) (j i : Nat) (f : Entry → Entry) (hf : ∀ r, (f r).ordinal = r.ordinal) (hi : i ≠ j) :
   findEntry (changeEntry j f s) i = findEntry s i := by
  unfold findEntry changeEntry
  simp only
  induction s.fus.table with
  | nil => rfl
  | cons x xs ih =>
    simp only [List.map_cons, List.find?_cons]
    by_cases h : x.ordinal = j
    · have h1 : (x.ordinal == i) = false := by simp [h, Ne.symm hi]
      have h2 : ((f x).ordinal == i) = false := by rw [hf]; exact h1
      simp only [h, beq_self_eq_true, if_true, h2]
      have h3 : (x.ordinal == i) = false := h1
      rw [← h] at ih ⊢; rw [h3]; exact ih
    · have h2 : (x.ordinal == j) = false := by simpa using h
      simp only [h2, Bool.false_eq_true, if_false]
      rw [ih]

/-- An inserted entry is found by its ordinal. -/
theorem find_insert_self (e : Entry) (xs : List Entry) (h : xs.find? (fun x => x.ordinal == e.ordinal) = none) :
   (insertEntry e xs).find? (fun x => x.ordinal == e.ordinal) = some e := by
  induction xs with
  | nil => simp [insertEntry]
  | cons x xs ih =>
    rw [List.find?_cons] at h
    unfold insertEntry
    split
    · simp
    · rw [List.find?_cons]
      by_cases hx : (x.ordinal == e.ordinal) = true
      · simp [hx] at h
      · have : (x.ordinal == e.ordinal) = false := by simpa using hx
        rw [this] at h ⊢
        exact ih h

/-- Inserting an entry leaves every other ordinal's. -/
theorem find_insert_other (e : Entry) (xs : List Entry) (i : Nat) (hi : i ≠ e.ordinal) :
   (insertEntry e xs).find? (fun x => x.ordinal == i) = xs.find? fun x => x.ordinal == i := by
  have h0 : (e.ordinal == i) = false := by simpa using Ne.symm hi
  induction xs with
  | nil => simp [insertEntry, h0]
  | cons x xs ih =>
    unfold insertEntry
    split
    · rw [List.find?_cons, h0]
    · rw [List.find?_cons, List.find?_cons, ih]

/-- What the table holds after an insertion (R139). -/
theorem mem_insertEntry (e f : Entry) (xs) : f ∈ insertEntry e xs ↔ f = e ∨ f ∈ xs := by
  induction xs with
  | nil => simp [insertEntry]
  | cons x xs ih => unfold insertEntry; split <;> simp [ih]; grind

/-- Insertion keeps the table ascending (R139). -/
theorem insertEntry_rising (e : Entry) (xs : List Entry) (h : xs.Pairwise (fun e f => e.ordinal < f.ordinal))
    (hn : ∀ x ∈ xs, x.ordinal ≠ e.ordinal) : (insertEntry e xs).Pairwise (fun e f => e.ordinal < f.ordinal) := by
  induction xs with
  | nil => simp [insertEntry]
  | cons x xs ih =>
    unfold insertEntry
    rw [List.pairwise_cons] at h
    split
    · rename_i hl
      rw [List.pairwise_cons, List.pairwise_cons]
      refine ⟨?_, h⟩
      intro y hy
      rcases List.mem_cons.mp hy with rfl | hy
      · exact hl
      · have := h.1 y hy; omega
    · rename_i hl
      rw [List.pairwise_cons]
      refine ⟨?_, ih h.2 (fun y hy => hn y (List.mem_cons_of_mem _ hy))⟩
      intro y hy
      rcases (mem_insertEntry _ _ _).mp hy with rfl | hy
      · have := hn x (by simp); omega
      · exact h.1 y hy

/-- An entry without the row of a live peer stays OPEN when tested (R149). -/
theorem testEntry_stuck (s : State) (j q : Nat) (e : Entry) (h : findEntry s j = some e) (hq : q ∈ livePeers s) (hr : place e.rows q none = none) :
   testEntry j s = s := by
  unfold testEntry
  rw [h]
  simp only
  rw [if_neg]
  unfold complete
  rw [Bool.and_eq_true]
  rintro ⟨_, h2⟩
  rw [List.all_eq_true] at h2
  have := h2 q hq
  simp [rowComplete, hr] at this

/-- What latching LATE writes. -/
theorem latch_late (s : State) : latch .late s = { s with cnd := { s.cnd with
        latched := s.cnd.latched ||| 128, faultLow := ((s.cnd.latched ||| 128) &&& s.cnd.enable) != 0 } } := by
  have : causeBit .late = 128 := by decide
  simp only [latch, drivePin, this]

/-- What latching SLIP writes. -/
theorem latch_slip (s : State) : latch .slip s = { s with cnd := { s.cnd with
        latched := s.cnd.latched ||| 16, faultLow := ((s.cnd.latched ||| 16) &&& s.cnd.enable) != 0 } } := by
  have : causeBit .slip = 16 := by decide
  simp only [latch, drivePin, this]

end Sys2Proof.Machine
end

