-- ==== Sys2Proof/Laws/Passes.lean ====
section
/-! SUPPORT. The Wagon Assembler's pass: what it can change, when a trial matches, fails or waits, and when a pass
has stopped (R159 to R163). -/

namespace Sys2Proof.Machine

open Sys2Proof

/-- What leaving a group changes (R164). -/
theorem leaveGroup_eq (g) (s : State) : ∃ (rf : Bool) (f : Summary → Nat), leaveGroup g s =
    { s with
      was := { s.was with
        cursor := g.first + g.count, group := none, items := s.was.items.filter fun x => !inGroup g x.ordinal, roomForce := rf }
      fus := { s.fus with table := s.fus.table.filter fun e => !inGroup g e.ordinal }
      ses := { s.ses with current := s.ses.current.map fun m => { m with late := f m } } } := by
  unfold leaveGroup releaseEntries
  simp only
  split
  · exact ⟨_, _, rfl⟩
  · exact ⟨_, _, rfl⟩

/-- What storing a group changes (R164 to R170). -/
theorem storeGroup_eq (g) (s : State) : ∃ a b d w rf f, storeGroup g s =
    { s with
      slc := a, cnd := b, rst := d
      was := { s.was with
        wagons := w, cursor := g.first + g.count, group := none, roomForce := rf,
        items := s.was.items.filter fun x => !inGroup g x.ordinal }
      fus := { s.fus with table := s.fus.table.filter fun e => !inGroup g e.ordinal }
      ses := { s.ses with current := s.ses.current.map f } } := by
  unfold storeGroup
  obtain ⟨a, b, d, e⟩ := storeRecord_eq (buildRecord s g) s
  rw [e]
  obtain ⟨rf, f, e2⟩ := leaveGroup_eq g
    { s with
        was := { s.was with wagons := (buildRecord s g).wagon }, slc := a, cnd := b, rst := d,
        ses := { s.ses with current := s.ses.current.map fun m => { m with wagons := countUp 65535 m.wagons } } }
  rw [e2]
  refine ⟨a, b, d, (buildRecord s g).wagon, rf,
    fun m =>
      let stored : Summary := { m with wagons := countUp 65535 m.wagons }
      { stored with late := f stored }, ?_⟩
  simp only [Option.map_map]
  rfl

/-- What each action of a pass keeps, the pass keeps (R161). -/
theorem passLoop_keeps {Q : State → Prop} (h1 : ∀ g s, s.was.group = some g → Q s → Q (storeGroup g s))
   (h2 : ∀ g s, Q s → Q { s with was := { s.was with group := g } })
   (h3 : ∀ b s, Q s → Q { s with was := { s.was with roomForce := b } }) :
   ∀ n b s, Q s → Q (passLoop n b s) := by
  intro n
  have he : ∀ b s, Q s → Q (endPass b s) := by
    intro b s hs; unfold endPass; split
    · exact hs
    · exact h3 _ _ hs
  induction n with
  | zero => exact fun b s hs => he b s hs
  | succ n ih =>
    intro b s hs
    unfold passLoop
    split
    · rename_i g hg
      split
      · exact ih _ _ (h1 g s hg hs)
      · exact he _ _ hs
    · split
      · split
        · exact he _ _ hs
        · exact ih _ _ (h2 _ _ hs)
      · exact he _ _ hs

/-- A pass leaves the session state and takes entries only away. -/
theorem pass_frame (s : State) : (pass s).ses.state = s.ses.state ∧ (pass s).ses.held = s.ses.held ∧
    (pass s).ses.closedForMatching = s.ses.closedForMatching ∧ ∀ e ∈ (pass s).fus.table, e ∈ s.fus.table := by
  unfold pass
  refine passLoop_keeps (Q := fun t => t.ses.state = s.ses.state ∧ t.ses.held = s.ses.held
      ∧ t.ses.closedForMatching = s.ses.closedForMatching ∧ ∀ e ∈ t.fus.table, e ∈ s.fus.table)
    ?_ ?_ ?_ _ _ _ ⟨rfl, rfl, rfl, fun _ h => h⟩
  · intro g t _ ⟨h1, h2, h3, h4⟩
    obtain ⟨a, b', d, w, rf, f, e⟩ := storeGroup_eq g t
    rw [e]
    exact ⟨h1, h2, h3, fun x hx => h4 x (List.mem_of_mem_filter hx)⟩
  · intro g t h; exact h
  · intro g t h; exact h

/-- Repetitions of a pass that suffice from a state. -/
def repetitions (s : State) : Nat :=
  if s.was.group.isSome then max 2 (2 * (s.was.highest + 1 - s.was.cursor)) else 2 * (s.was.highest + 1 - s.was.cursor) + 1

/-- What a pass needs to end: patterns of one axle at least, and a held group at the cursor. -/
def wellGrouped (s : State) : Prop := (∀ p ∈ s.settings.patterns, 1 ≤ p.axles) ∧ ∀ g, s.was.group = some g →
    g.first = s.was.cursor ∧ 1 ≤ g.count

/-- A trial gives a group at the cursor, of one axle at least. -/
theorem trial_group (s : State) :
    ∀ (ps : List Pattern) (k : Nat) (g : Group), (∀ p ∈ ps, 1 ≤ p.axles) → trial s k ps = some g → g.first = s.was.cursor
    ∧ 1 ≤ g.count := by
  intro ps
  induction ps with
  | nil => intro k g _ h; simp only [trial, Option.some.injEq] at h; subst h; exact ⟨rfl, le_refl _⟩
  | cons p ps ih =>
    intro k g hp h
    unfold trial at h
    split at h
    · simp only [Option.some.injEq] at h; subst h; exact ⟨rfl, hp p (by simp)⟩
    · cases h
    · exact ih _ _ (fun q hq => hp q (by simp [hq])) h

/-- A pass has stopped after that many repetitions. -/
theorem passLoop_succ : ∀ (n : Nat) (b : Bool) (s : State), wellGrouped s → repetitions s ≤ n →
    passLoop (n + 1) b s = passLoop n b s := by
  intro n
  induction n with
  | zero => intro b s _ h; unfold repetitions at h; split at h <;> omega
  | succ n ih =>
    intro b s hw h
    rw [passLoop.eq_def, passLoop.eq_def (n + 1)]
    simp only
    cases hg : s.was.group with
    | some g =>
      simp only
      split
      · obtain ⟨h1, h2⟩ := hw.2 g hg
        obtain ⟨a, b', d, w, rf, f, e⟩ := storeGroup_eq g s
        refine ih _ _ ?_ ?_
        · rw [e]; exact ⟨hw.1, fun _ h => by cases h⟩
        · rw [e]; unfold repetitions at h ⊢; simp only [hg, Option.isSome_some, if_true] at h
          simp only [Option.isSome_none, Bool.false_eq_true, if_false]; omega
      · rfl
    | none =>
      simp only
      split
      · rename_i hr
        cases ht : trial s 1 s.settings.patterns with
        | none => rfl
        | some g =>
          simp only
          have hgd := trial_group s _ _ _ hw.1 ht
          have hle : s.was.cursor ≤ s.was.highest := by unfold cursorReachable at hr; simp at hr; exact hr.1
          refine ih _ _ ⟨hw.1, fun g' h' => by cases h'; exact hgd⟩ ?_
          unfold repetitions at h ⊢
          simp only [hg, Option.isSome_none, Bool.false_eq_true, if_false] at h
          simp only [Option.isSome_some, if_true]; omega
      · rfl

/-- More repetitions change nothing. -/
theorem passLoop_enough (s : State) (b) (hw : wellGrouped s) :
    ∀ n, repetitions s ≤ n → ∀ k, passLoop (n + k) b s = passLoop n b s := by
  intro n hn k
  induction k with
  | zero => rfl
  | succ k ih => rw [show n + (k + 1) = (n + k) + 1 by omega, passLoop_succ _ _ _ hw (by omega), ih]

/-- The pass, with any number of repetitions that suffices (R161). -/
theorem passLoop_pass (s : State) (hw : wellGrouped s) (n) (hn : repetitions s ≤ n) : passLoop n false s = pass s := by
  have hl : repetitions s ≤ passLimit s := by
    unfold repetitions passLimit; split <;> omega
  unfold pass
  have e1 := passLoop_enough s false hw (repetitions s) (le_refl _) (n - repetitions s)
  have e2 := passLoop_enough s false hw (repetitions s) (le_refl _) (passLimit s - repetitions s)
  rw [show repetitions s + (n - repetitions s) = n by omega] at e1
  rw [show repetitions s + (passLimit s - repetitions s) = passLimit s by omega] at e2
  rw [e1, e2]

/-- Whether something was stored before shows in room force alone. -/
theorem passLoop_stored :
    ∀ (n : Nat) (s : State), ∃ c,
    passLoop n true s = { passLoop n false s with was := { (passLoop n false s).was with roomForce := c } }
   ∧ (s.was.roomForce = false → c = false) := by
  intro n
  have he : ∀ s : State, ∃ c,
      endPass true s = { endPass false s with was := { (endPass false s).was with roomForce := c } }
      ∧ (s.was.roomForce = false → c = false) :=
    fun s => ⟨s.was.roomForce, rfl, id⟩
  have hself : ∀ (n : Nat) (b) (s : State), s.was.roomForce = false → (passLoop n b s).was.roomForce = false := by
    intro n
    induction n with
    | zero => intro b s h; unfold passLoop endPass; split <;> first | exact h | rfl
    | succ n ih =>
      intro b s h
      unfold passLoop
      have hep : (endPass b s).was.roomForce = false := by unfold endPass; split <;> first | exact h | rfl
      split
      · rename_i g hg
        split
        · refine ih _ _ ?_
          obtain ⟨a, b', d, e⟩ := storeRecord_eq (buildRecord s g) s
          unfold storeGroup
          rw [e]
          unfold leaveGroup releaseEntries addLate onCurrent
          simp only
          split <;> first | exact h | rfl
        · exact hep
      · split
        · split
          · exact hep
          · exact ih _ _ h
        · exact hep
  induction n with
  | zero => exact he
  | succ n ih =>
    intro s
    unfold passLoop
    split
    · rename_i g hg
      split
      · exact ⟨(passLoop n true (storeGroup g s)).was.roomForce, rfl, fun h => by
          have := hself (n + 1) true s h
          unfold passLoop at this
          rw [hg] at this
          simp only at this
          rw [if_pos (by assumption)] at this
          exact this⟩
      · exact he s
    · split
      · split
        · exact he s
        · obtain ⟨c, h1, h2⟩ := ih { s with was := { s.was with group := some _ } }
          exact ⟨c, h1, h2⟩
      · exact he s


/-- When a spacing fails its range (R159). -/
theorem testSpacing_fails (uf : Bool) (x : Option Int) (r : Range) :
    testSpacing uf x r = .fail ↔ (∃ d, x = some d ∧ Outside d r) ∨ (x = none ∧ uf = true) := by
  unfold testSpacing Outside
  cases x with
  | none => cases uf <;> simp
  | some d =>
    simp only [Option.some.injEq, exists_eq_left', reduceCtorEq, false_and, or_false]
    split <;> rename_i h <;> simp at h ⊢ <;> omega

/-- When a spacing matches its range (R159). -/
theorem testSpacing_hits (uf : Bool) (x : Option Int) (r : Range) :
    testSpacing uf x r = .hit ↔ ∃ d, x = some d ∧ ¬ Outside d r := by
  unfold testSpacing Outside
  cases x with
  | none => cases uf <;> simp
  | some d =>
    simp only [Option.some.injEq, exists_eq_left']
    split <;> rename_i h <;> simp at h ⊢ <;> omega

/-- One failure fails the whole. -/
theorem joinTrials_fails (a b : Trial) :
    joinTrials a b = .fail ↔ a = .fail ∨ b = .fail := by cases a <;> cases b <;> simp [joinTrials]
/-- The whole matches when both do. -/
theorem joinTrials_hits (a b : Trial) :
    joinTrials a b = .hit ↔ a = .hit ∧ b = .hit := by cases a <;> cases b <;> simp [joinTrials]

/-- When the spacings inside a group fail (R159). -/
theorem testInside_fails (s : State) (uf : Bool) : ∀ (rs : List Range) (u k : Nat), testInside s uf (u + k) rs = .fail ↔
   ∃ c ∈ (rs.zipIdx k).map (fun x => (knownSpacing s (u + x.2), x.1)), (∃ d, c.1 = some d ∧ Outside d c.2)
       ∨ (c.1 = none ∧ uf = true) := by
  intro rs
  induction rs with
  | nil => intro u k; simp [testInside]
  | cons r rs ih =>
    intro u k
    unfold testInside
    rw [joinTrials_fails, testSpacing_fails, show u + k + 1 = u + (k + 1) by omega, ih u (k + 1),
        show spacingOf s (u + k) = knownSpacing s (u + k) from rfl]
    simp only [List.zipIdx_cons, List.map_cons, List.mem_cons, exists_eq_or_imp]

/-- When the spacings inside a group match (R159). -/
theorem testInside_hits (s : State) (uf : Bool) : ∀ (rs : List Range) (u k : Nat), testInside s uf (u + k) rs = .hit ↔
   ∀ c ∈ (rs.zipIdx k).map (fun x => (knownSpacing s (u + x.2), x.1)), ∃ d, c.1 = some d ∧ ¬ Outside d c.2 := by
  intro rs
  induction rs with
  | nil => intro u k; simp [testInside]
  | cons r rs ih =>
    intro u k
    unfold testInside
    rw [joinTrials_hits, testSpacing_hits, show u + k + 1 = u + (k + 1) by omega, ih u (k + 1),
        show spacingOf s (u + k) = knownSpacing s (u + k) from rfl]
    simp only [List.zipIdx_cons, List.map_cons, List.mem_cons, forall_eq_or_imp]

/-- When a pattern fails (R159, R162, R163). -/
theorem testPattern_fails (s : State) (p : Pattern) : testPattern s p = .fail ↔ PatternFails s p := by
  unfold testPattern PatternFails checksOf
  simp only
  by_cases h1 : s.ses.closedForMatching = true ∧ s.was.highest < s.was.cursor + p.axles - 1
  · rw [if_pos (by simp [h1])]; simp [h1]
  · rw [if_neg (by simpa using h1)]
    have hor : (s.ses.closedForMatching || s.was.roomForce) = true ↔
        (s.ses.closedForMatching = true ∨ s.was.roomForce = true) := by simp
    rw [joinTrials_fails]
    have := testInside_fails s (s.ses.closedForMatching || s.was.roomForce) p.spacings s.was.cursor 0
    rw [Nat.add_zero] at this
    rw [this]
    by_cases h2 : s.ses.closedForMatching = true ∧ s.was.cursor + p.axles - 1 = s.was.highest
    · rw [if_pos (by simpa using h2), if_pos h2]
      simp only [List.append_nil, hor]
      constructor
      · rintro (h | h)
        · exact .inr h
        · cases h
      · rintro (h | h)
        · exact absurd h h1
        · exact .inl h
    · rw [if_neg (by simpa using h2), if_neg h2, testSpacing_fails]
      simp only [hor, List.mem_append, List.mem_singleton]
      constructor
      · rintro (⟨c, h, h'⟩ | h)
        · exact .inr ⟨c, .inl h, h'⟩
        · exact .inr ⟨_, .inr rfl, h⟩
      · rintro (h | ⟨c, h | rfl, h'⟩)
        · exact absurd h h1
        · exact .inl ⟨c, h, h'⟩
        · exact .inr h'

/-- When a pattern matches (R159, R162, R163). -/
theorem testPattern_hits (s : State) (p : Pattern) : testPattern s p = .hit ↔ PatternMatches s p := by
  unfold testPattern PatternMatches checksOf
  simp only
  by_cases h1 : s.ses.closedForMatching = true ∧ s.was.highest < s.was.cursor + p.axles - 1
  · rw [if_pos (by simp [h1])]; simp [h1]
  · rw [if_neg (by simpa using h1)]
    rw [joinTrials_hits]
    have := testInside_hits s (s.ses.closedForMatching || s.was.roomForce) p.spacings s.was.cursor 0
    rw [Nat.add_zero] at this
    rw [this]
    by_cases h2 : s.ses.closedForMatching = true ∧ s.was.cursor + p.axles - 1 = s.was.highest
    · rw [if_pos (by simpa using h2), if_pos h2]
      simp only [List.append_nil]
      exact ⟨fun h => ⟨h1, h.1⟩, fun h => ⟨h.2, trivial⟩⟩
    · rw [if_neg (by simpa using h2), if_neg h2, testSpacing_hits]
      simp only [List.mem_append, List.mem_singleton]
      constructor
      · rintro ⟨h, h'⟩
        refine ⟨h1, ?_⟩
        rintro c (hc | rfl)
        · exact h c hc
        · exact h'
      · rintro ⟨_, h⟩
        exact ⟨fun c hc => h c (.inl hc), h _ (.inr rfl)⟩

/-- The group a trial gives (R160). -/
theorem trial_chosen (s : State) (g : Group) : ∀ (ps : List Pattern) (k : Nat),
   ((∃ (i : Nat) (p : Pattern), ps[i]? = some p ∧ (∀ (j : Nat) (q : Pattern), j < i → ps[j]? = some q → PatternFails s q)
       ∧ PatternMatches s p ∧ g = { pattern := some (k + i), first := s.was.cursor, count := p.axles })
      ∨ ((∀ q ∈ ps, PatternFails s q) ∧ g = { pattern := none, first := s.was.cursor, count := 1 })) →
          trial s k ps = some g := by
  intro ps
  induction ps with
  | nil =>
    rintro k (⟨i, p, h, _⟩ | ⟨_, h⟩)
    · simp at h
    · rw [h]; rfl
  | cons p ps ih =>
    rintro k (⟨i, q, h, hf, hm, hg⟩ | ⟨hf, hg⟩)
    · unfold trial
      cases i with
      | zero =>
        simp at h; subst h
        rw [(testPattern_hits s p).mpr hm]; rw [hg]; rfl
      | succ i =>
        have h0 := hf 0 p (by omega) rfl
        rw [(testPattern_fails s p).mpr h0]
        simp only
        refine ih (k + 1) (.inl ⟨i, q, by simpa using h, ?_, hm, ?_⟩)
        · intro j r hj hr
          exact hf (j + 1) r (by omega) (by simpa using hr)
        · rw [hg, show k + 1 + i = k + (i + 1) by omega]
    · unfold trial
      rw [(testPattern_fails s p).mpr (hf p (by simp))]
      exact ih (k + 1) (.inr ⟨fun q hq => hf q (by simp [hq]), hg⟩)

/-- A trial that a waiting pattern stops (R160). -/
theorem trial_waits (s : State) : ∀ (ps : List Pattern) (k : Nat),
   (∃ (i : Nat) (p : Pattern), ps[i]? = some p ∧ (∀ (j : Nat) (q : Pattern), j < i → ps[j]? = some q → PatternFails s q)
       ∧ ¬ PatternFails s p ∧ ¬ PatternMatches s p) → trial s k ps = none := by
  intro ps
  induction ps with
  | nil =>
    rintro k ⟨i, p, h, _⟩
    simp at h
  | cons p ps ih =>
    rintro k ⟨i, q, h, hf, h1, h2⟩
    unfold trial
    cases i with
    | zero =>
      simp at h; subst h
      cases hh : testPattern s p with
      | hit => exact absurd ((testPattern_hits s p).mp hh) h2
      | fail => exact absurd ((testPattern_fails s p).mp hh) h1
      | wait => rfl
    | succ i =>
      rw [(testPattern_fails s p).mpr (hf 0 p (by omega) rfl)]
      simp only
      exact ih (k + 1) ⟨i, q, by simpa using h, fun j r hj hr => hf (j + 1) r (by omega) (by simpa using hr), h1, h2⟩

/-- Below the highest ordinal of the table. -/
theorem lt_highestEntry (s : State) (j : Nat) : (decide (j < highestEntry s)) = true ↔ ∃ e ∈ s.fus.table, j < e.ordinal := by
  unfold highestEntry
  have : ∀ (l : List Entry) (n : Nat), j < l.foldl (fun n e => max n e.ordinal) n ↔ j < n ∨ ∃ e ∈ l, j < e.ordinal := by
    intro l
    induction l with
    | nil => intro n; simp
    | cons e l ih =>
      intro n
      simp only [List.foldl_cons, ih, List.mem_cons, exists_eq_or_imp]
      constructor
      · rintro (h | h)
        · rcases (lt_max_iff.mp h) with h | h
          · exact .inl h
          · exact .inr (.inl h)
        · exact .inr (.inr h)
      · rintro (h | h | h)
        · exact .inl (lt_max_iff.mpr (.inl h))
        · exact .inl (lt_max_iff.mpr (.inr h))
        · exact .inr h
  rw [decide_eq_true_iff, this]; simp

/-- The missing ordinals (R162, R163). -/
theorem missing_iff (s : State) (j) : missing s j = true ↔ IsMissing s j := by
  unfold missing IsMissing
  have := lt_highestEntry s j
  simp only [decide_eq_true_iff] at this
  simp only [Bool.and_eq_true, Bool.or_eq_true, decide_eq_true_iff, Option.isNone_iff_eq_none, findEntry, and_assoc, this]

/-- When a group is ready (R161). -/
theorem groupReady_iff (s : State) (g) : groupReady s g = true ↔ GroupReady s g := by
  unfold groupReady GroupReady groupOrdinals
  simp only [List.all_map, List.all_eq_true, List.mem_range, Function.comp]
  have key : ∀ j, axleReady s j = true ↔
      (IsMissing s j ∨ ∃ e, (s.fus.table.find? fun e => e.ordinal == j) = some e ∧ e.fused.isSome = true) := by
    intro j
    unfold axleReady
    cases h : findEntry s j with
    | none =>
      have h' : (s.fus.table.find? fun e => e.ordinal == j) = none := h
      simp only [missing_iff, h', reduceCtorEq, false_and, exists_false, or_false]
    | some e =>
      have h' : (s.fus.table.find? fun e => e.ordinal == j) = some e := h
      simp [h', isFinal, IsMissing]
  constructor
  · intro h j h1 h2
    have := h (j - g.first) (by omega)
    rw [show g.first + (j - g.first) = j by omega] at this
    exact (key j).mp this
  · intro h i hi
    exact (key _).mpr (h _ (by omega) (by omega))

/-- When a trial can be made at the cursor (R161). -/
theorem cursorReachable_iff (s : State) : cursorReachable s = true ↔ TrialOpen s := by
  unfold cursorReachable TrialOpen
  simp only [Bool.and_eq_true, Bool.or_eq_true, decide_eq_true_iff, missing_iff, findItem, findEntry, List.find?_isSome,
      beq_iff_eq, or_assoc]

end Sys2Proof.Machine
end

