-- ==== Sys2Proof/Laws/Finality.lean ====
section
/-! SUPPORT. Finality (R148 to R150), the peer test and entry to DRAINING (R129, R130), and changes of the live set (R114):
what each can do, where the held group waits for another axle. -/

namespace Sys2Proof.Machine

open Sys2Proof

/-- Every LIVE peer has reported, as the model tests it (R149). -/
theorem allReported_iff (s : State) (e : Entry) : (livePeers s).all (rowComplete e) = true ↔ Reported s e := by
  rw [List.all_eq_true]
  unfold Reported rowComplete
  refine forall_congr' fun n => forall_congr' fun _ => ?_
  cases place e.rows n none with
  | none => simp
  | some r => cases place e.exits n none <;> simp

/-- When an entry is tested complete (R148, R149). -/
theorem complete_iff (s : State) (e : Entry) : complete s e = true ↔ e.fused = none ∧ IsComplete s e := by
  unfold complete IsComplete isFinal
  rw [Bool.and_eq_true, Bool.and_eq_true, allReported_iff, Bool.or_eq_true, ownSettled_iff, beq_iff_eq]
  simp [and_assoc]

/-- A pass ends at once where the held group waits for an OPEN entry (R161, R163). -/
theorem pass_waits (s : State) (p : Entry → Prop) (h : GroupWaits s p) :
    pass s = { s with was := { s.was with roomForce := false } } := by
  obtain ⟨g, j, e, hg, h1, h2, hf, ho, _⟩ := h
  have hr : groupReady s g = false := by
    unfold groupReady groupOrdinals
    rw [List.all_eq_false]
    refine ⟨j, ?_, ?_⟩
    · rw [List.mem_map]; exact ⟨j - g.first, by rw [List.mem_range]; omega, by omega⟩
    · unfold axleReady; rw [hf]; simp [isFinal, ho]
  unfold pass passLimit
  rw [passLoop.eq_def]
  simp only [hg, hr, Bool.false_eq_true, if_false, endPass]

/-- The draining tests do nothing while an OPEN entry is held (R130). -/
theorem drainTests_open (s : State) (e : Entry) (h : e ∈ s.fus.table) (ho : e.fused = none) : drainTests s = s := by
  have h1 : allFinal s = false := by
    unfold allFinal; rw [List.all_eq_false]; exact ⟨e, h, by simp [isFinal, ho]⟩
  have h2 : s.fus.table.isEmpty = false := by cases ht : s.fus.table <;> simp_all
  unfold drainTests
  split
  · simp only [h1, Bool.and_false, Bool.false_eq_true, if_false, h2]
  · rfl

/-- An entry that is not complete stays as it is when tested (R149). -/
theorem testEntry_open (s : State) (j : Nat) (e : Entry) (h : findEntry s j = some e) (hc : complete s e = false) :
    testEntry j s = s := by
  unfold testEntry; rw [h]; simp [hc]

theorem find_ordinal {s : State} {j : Nat} {e : Entry} (h : findEntry s j = some e) : e.ordinal = j := by
  unfold findEntry at h; simpa using List.find?_some h

/-- A complete entry becomes FINAL when tested; nothing more happens where the held group waits for another (R150). -/
theorem testEntry_final (s : State) (j : Nat) (e : Entry) (h : findEntry s j = some e) (hc : complete s e = true)
    (hg : GroupWaits s (·.ordinal = j)) :
    testEntry j s = { s with
      fus := { s.fus with table := s.fus.table.map fun e => if e.ordinal == j then madeFinal e else e },
      was := { s.was with roomForce := false } } := by
  have hA : GroupWaits (changeEntry j madeFinal s) (·.ordinal = j) := by
    obtain ⟨g, i, f, h1, h2, h3, h4, h5, h6⟩ := hg
    have hi : i ≠ j := by simpa only [find_ordinal h4] using h6
    exact ⟨g, i, f, h1, h2, h3, (changeEntry_other s j i madeFinal (fun _ => rfl) hi).trans h4, h5, h6⟩
  unfold testEntry
  rw [h]
  simp only [hc, if_true]
  unfold finalize finalEntry
  have he : (changeEntry j (fun e => { e with fused := some (fuse e), deadline := none, deadlinePeer := none }) s)
      = changeEntry j madeFinal s := rfl
  rw [he, pass_waits _ _ hA]
  obtain ⟨g, i, f, h1, h2, h3, h4, h5, h6⟩ := hA
  refine (drainTests_open _ f ?_ h5).trans rfl
  exact List.mem_of_find?_eq_some h4

theorem complete_congr {s t : State} (h1 : t.stc = s.stc) (h2 : t.ptb = s.ptb) (h3 : t.ses.state = s.ses.state)
    (h4 : t.atr = s.atr) (e : Entry) : complete t e = complete s e := by
  have hp : peer t = peer s := by funext n; simp [peer, h2]
  have hl : livePeers t = livePeers s := by
    unfold livePeers; congr 1; funext n; simp [isLive, ownNumber, h1, hp]
  unfold complete ownSettled findRecord
  rw [hl, h3, h4]

theorem rising_eq {xs : List Entry} (h : xs.Pairwise (fun a b => a.ordinal < b.ordinal)) {a b : Entry} (ha : a ∈ xs)
    (hb : b ∈ xs) (hab : a.ordinal = b.ordinal) : a = b := by
  induction xs with
  | nil => cases ha
  | cons x xs ih =>
    rw [List.pairwise_cons] at h
    rcases List.mem_cons.mp ha with h1 | h1 <;> rcases List.mem_cons.mp hb with h2 | h2
    · rw [h1, h2]
    · have := h.1 b h2; rw [← h1] at this; omega
    · have := h.1 a h1; rw [← h2] at this; omega
    · exact ih h.2 h1 h2

theorem rising_find {s : State} (h : s.fus.table.Pairwise (fun a b => a.ordinal < b.ordinal)) {e : Entry}
    (he : e ∈ s.fus.table) : findEntry s e.ordinal = some e := by
  unfold findEntry
  cases hf : s.fus.table.find? (fun x => x.ordinal == e.ordinal) with
  | none => rw [List.find?_eq_none] at hf; exact absurd (beq_self_eq_true _) (hf e he)
  | some x =>
    have h1 := List.find?_some hf
    rw [rising_eq h (List.mem_of_find?_eq_some hf) he (by simpa using h1)]

/-- A map that keeps ordinals, and the entry then found. -/
theorem find_mapped (xs : List Entry) (j : Nat) (f : Entry → Entry) (hf : ∀ r, (f r).ordinal = r.ordinal) :
    (xs.map f).find? (fun e => e.ordinal == j) = (xs.find? fun e => e.ordinal == j).map f := by
  induction xs with
  | nil => rfl
  | cons x xs ih =>
    simp only [List.map_cons, List.find?_cons, hf]
    split
    · rfl
    · exact ih

/-- The state while entries are tested: those of the ordinals `js` have been. -/
def testedSoFar (s : State) (js : List Nat) (w : Was) : State :=
  { s with
    fus := { s.fus with
      table := s.fus.table.map fun e => if complete s e && js.contains e.ordinal then madeFinal e else e },
    was := w }

theorem testedSoFar_step (s : State) (js : List Nat) (w : Was) (hw : w = s.was ∨ w = { s.was with roomForce := false })
    (hr : s.fus.table.Pairwise (fun a b => a.ordinal < b.ordinal)) (hg : GroupWaits s (IsComplete s))
    (j : Nat) :
    ∃ w', testEntry j (testedSoFar s js w) = testedSoFar s (js ++ [j]) w'
      ∧ ((∃ e ∈ s.fus.table, complete s e = true ∧ e.ordinal = j ∧ e.ordinal ∉ js) →
          w' = { s.was with roomForce := false })
      ∧ ((∀ e ∈ s.fus.table, ¬ (complete s e = true ∧ e.ordinal = j ∧ e.ordinal ∉ js)) → w' = w) := by
  have hord : ∀ (js : List Nat) (r : Entry), (if complete s r && js.contains r.ordinal then madeFinal r else r).ordinal = r.ordinal := by
    intro js r; split <;> rfl
  have hfind : ∀ i, findEntry (testedSoFar s js w) i =
      (findEntry s i).map fun e => if complete s e && js.contains e.ordinal then madeFinal e else e :=
    fun i => find_mapped _ _ _ (hord js)
  have hcomp : ∀ e, complete (testedSoFar s js w) e = complete s e := fun e => complete_congr rfl rfl rfl rfl e
  by_cases hc : ∃ e ∈ s.fus.table, complete s e = true ∧ e.ordinal = j ∧ e.ordinal ∉ js
  · obtain ⟨e, he, hce, hej, hejs⟩ := hc
    have hfe : findEntry s j = some e := hej ▸ rising_find hr he
    have hf : findEntry (testedSoFar s js w) j = some e := by
      rw [hfind, hfe]; simp [hejs]
    have hgw : GroupWaits (testedSoFar s js w) (·.ordinal = j) := by
      obtain ⟨g, i, f, h1, h2, h3, h4, h5, h6⟩ := hg
      have hcf : complete s f = false := by
        rw [Bool.eq_false_iff]; exact fun h => h6 ((complete_iff s f).mp h).2
      refine ⟨g, i, f, ?_, h2, h3, ?_, h5, ?_⟩
      · rcases hw with hw | hw <;> rw [testedSoFar, hw] <;> exact h1
      · rw [hfind, h4]; simp [hcf]
      · intro hfj
        have h7 : f = e := rising_eq hr (List.mem_of_find?_eq_some h4) he (by rw [hej]; exact hfj)
        rw [h7, hce] at hcf; cases hcf
    refine ⟨{ s.was with roomForce := false }, ?_, fun _ => rfl, fun h => absurd ⟨hce, hej, hejs⟩ (h e he)⟩
    rw [testEntry_final _ j e hf (by rw [hcomp]; exact hce) hgw]
    have hwas : ({ w with roomForce := false } : Was) = { s.was with roomForce := false } := by
      rcases hw with hw | hw <;> rw [hw]
    unfold testedSoFar
    simp only [hwas, List.map_map]
    congr 2
    apply List.map_congr_left
    intro x hx
    simp only [Function.comp_apply, hord]
    by_cases hxj : x.ordinal = j
    · have hxe : x = e := rising_eq hr hx he (by rw [hxj, hej])
      subst hxe
      have hn : j ∉ js := hxj ▸ hejs
      simp [hxj, hce, hn]
    · simp [hxj]
  · have hstay : testEntry j (testedSoFar s js w) = testedSoFar s js w := by
      cases hfe : findEntry s j with
      | none => unfold testEntry; rw [hfind, hfe]; rfl
      | some e =>
        refine testEntry_open _ j _ (by rw [hfind, hfe]; rfl) ?_
        have he := List.mem_of_find?_eq_some hfe
        have hej := find_ordinal hfe
        by_cases hce : complete s e = true
        · have hejs : e.ordinal ∈ js := by
            by_contra h; exact hc ⟨e, he, hce, hej, h⟩
          simp only [hce, List.contains_eq_mem, hejs, decide_true, Bool.and_self, if_true]
          simp [complete, isFinal, madeFinal]
        · simp only [hce, Bool.false_and, Bool.false_eq_true, if_false]
          rw [hcomp]; simpa using hce
    refine ⟨w, ?_, fun h => absurd h hc, fun _ => rfl⟩
    rw [hstay]
    unfold testedSoFar
    simp only
    congr 2
    apply List.map_congr_left
    intro x hx
    by_cases hxj : x.ordinal = j ∧ complete s x = true
    · have : x.ordinal ∈ js := by by_contra h; exact hc ⟨x, hx, hxj.2, hxj.1, h⟩
      have hm : x.ordinal ∈ js ++ [j] := List.mem_append_left _ this
      simp only [List.contains_eq_mem, this, hm]
    · by_cases h1 : complete s x = true
      · have h2 : x.ordinal ≠ j := fun h => hxj ⟨h, h1⟩
        simp [h1, h2]
      · simp [h1]

/-- An entry once it has been tested (R149, R150). -/
def testedEntry (s : State) (e : Entry) : Entry := if complete s e then madeFinal e else e

theorem testedEntry_ordinal (s : State) (e : Entry) : (testedEntry s e).ordinal = e.ordinal := by
  unfold testedEntry; split <;> rfl

theorem testAll_fold (s : State) (hr : s.fus.table.Pairwise (fun a b => a.ordinal < b.ordinal))
    (hg : GroupWaits s (IsComplete s)) :
    ∀ (js ks : List Nat) (w : Was), (w = s.was ∨ w = { s.was with roomForce := false }) →
      ∃ w', js.foldl (fun s j => testEntry j s) (testedSoFar s ks w) = testedSoFar s (ks ++ js) w'
        ∧ (w = { s.was with roomForce := false } → w' = w)
        ∧ ((∃ e ∈ s.fus.table, complete s e = true ∧ e.ordinal ∈ js ∧ e.ordinal ∉ ks) →
            w' = { s.was with roomForce := false }) := by
  intro js
  induction js with
  | nil => intro ks w _; exact ⟨w, by simp, fun _ => rfl, fun h => by obtain ⟨_, _, _, h, _⟩ := h; cases h⟩
  | cons j js ih =>
    intro ks w hw
    obtain ⟨w1, h1, h2, h3⟩ := testedSoFar_step s ks w hw hr hg j
    have hw1 : w1 = s.was ∨ w1 = { s.was with roomForce := false } := by
      by_cases hc : ∃ e ∈ s.fus.table, complete s e = true ∧ e.ordinal = j ∧ e.ordinal ∉ ks
      · exact .inr (h2 hc)
      · rw [h3 (fun e he hh => hc ⟨e, he, hh⟩)]; exact hw
    have hkeep : w = { s.was with roomForce := false } → w1 = { s.was with roomForce := false } := by
      intro hwf
      by_cases hc : ∃ e ∈ s.fus.table, complete s e = true ∧ e.ordinal = j ∧ e.ordinal ∉ ks
      · exact h2 hc
      · rw [h3 (fun e he hh => hc ⟨e, he, hh⟩)]; exact hwf
    obtain ⟨w2, g1, g2, g3⟩ := ih (ks ++ [j]) w1 hw1
    refine ⟨w2, ?_, ?_, ?_⟩
    · rw [List.foldl_cons, h1, g1, List.append_assoc, List.singleton_append]
    · intro hwf
      rw [g2 (hkeep hwf), hkeep hwf, hwf]
    · rintro ⟨e, he, hc, hj, hk⟩
      rcases List.mem_cons.mp hj with hj | hj
      · have := h2 ⟨e, he, hc, hj, hk⟩
        rw [g2 this, this]
      · by_cases hej : e.ordinal = j
        · have := h2 ⟨e, he, hc, hej, hk⟩
          rw [g2 this, this]
        · exact g3 ⟨e, he, hc, hj, by simp [hk, hej]⟩

/-- What the test of every OPEN entry does, where the held group waits for one that stays OPEN (R149, R150). -/
theorem testAll_eq (s : State) (h : TestWaits s (IsComplete s)) :
    ∃ w, testAll s = { s with fus := { s.fus with table := s.fus.table.map (testedEntry s) }, was := w }
      ∧ ((∃ e ∈ s.fus.table, complete s e = true) → w = { s.was with roomForce := false })
      ∧ ((∀ e ∈ s.fus.table, complete s e = false) → w = s.was) := by
  by_cases hc : ∃ e ∈ s.fus.table, complete s e = true
  · have hc' := hc
    obtain ⟨e, he, hce⟩ := hc'
    obtain ⟨hr, hg⟩ := h ⟨e, he, (complete_iff s e).mp hce⟩
    have hs : testedSoFar s [] s.was = s := by
      unfold testedSoFar
      have : s.fus.table.map (fun e => if (complete s e && ([] : List Nat).contains e.ordinal) = true then madeFinal e else e)
          = s.fus.table := by
        conv_rhs => rw [← List.map_id s.fus.table]
        apply List.map_congr_left; intro x _; simp
      rw [this]
    obtain ⟨w, h1, _, h3⟩ := testAll_fold s hr hg (openOrdinals s) [] s.was (.inl rfl)
    have hopen : ∀ x ∈ s.fus.table, complete s x = true → x.ordinal ∈ openOrdinals s := by
      intro x hx hcx
      unfold openOrdinals
      rw [List.mem_map]
      refine ⟨x, ?_, rfl⟩
      rw [List.mem_filter]
      exact ⟨hx, by simp [isFinal, ((complete_iff s x).mp hcx).1]⟩
    refine ⟨w, ?_, fun _ => h3 ⟨e, he, hce, hopen e he hce, by simp⟩, fun hn => ?_⟩
    · rw [hs] at h1
      unfold testAll
      rw [h1]
      unfold testedSoFar
      rw [List.nil_append]
      simp only
      congr 2
      apply List.map_congr_left
      intro x hx
      unfold testedEntry
      by_cases hcx : complete s x = true
      · simp [hcx, hopen x hx hcx]
      · simp [hcx]
    · rw [hn e he] at hce; cases hce
  · have hn : ∀ e ∈ s.fus.table, complete s e = false := by
      intro e he; rw [Bool.eq_false_iff]; exact fun hh => hc ⟨e, he, hh⟩
    refine ⟨s.was, ?_, fun h => absurd h hc, fun _ => rfl⟩
    have hmap : s.fus.table.map (testedEntry s) = s.fus.table := by
      conv_rhs => rw [← List.map_id s.fus.table]
      apply List.map_congr_left; intro x hx; simp [testedEntry, hn x hx]
    rw [hmap]
    have hst : ∀ j, testEntry j s = s := by
      intro j
      cases hf : findEntry s j with
      | none => unfold testEntry; rw [hf]
      | some e => exact testEntry_open s j e hf (hn e (List.mem_of_find?_eq_some hf))
    unfold testAll
    generalize openOrdinals s = js
    induction js with
    | nil => rfl
    | cons a js ih => rw [List.foldl_cons, hst, ih]

/-- A table mapped by a function that does what `Tested` says of each entry. -/
theorem tested_map {p : Entry → Prop} {other : Entry → Entry} {s s' : State} (f : Entry → Entry)
    (ht : s'.fus.table = s.fus.table.map f)
    (h1 : ∀ e : Entry, e.fused.isSome = true → f e = e)
    (h2 : ∀ e : Entry, e.fused = none → p e → f e = madeFinal e)
    (h3 : ∀ e : Entry, e.fused = none → ¬ p e → f e = other e)
    (h4 : (∃ e ∈ s.fus.table, e.fused = none ∧ p e) → s'.was = { s.was with roomForce := false })
    (h5 : (∀ e ∈ s.fus.table, e.fused = none → ¬ p e) → s'.was = s.was) : Tested p other s s' := by
  refine ⟨?_, h4, h5⟩
  rw [ht, List.forall₂_map_right_iff, List.forall₂_same]
  exact fun e _ => ⟨h1 e, h2 e, h3 e⟩

theorem testAll_is (s : State) (h : TestWaits s (IsComplete s)) :
    testAll s = { s with fus := { s.fus with table := (testAll s).fus.table }, was := (testAll s).was }
      ∧ Tested (IsComplete s) id s (testAll s) := by
  obtain ⟨w, h1, h2, h3⟩ := testAll_eq s h
  refine ⟨by rw [h1], tested_map (testedEntry s) (by rw [h1]) ?_ ?_ ?_ ?_ ?_⟩
  · intro e he; simp [testedEntry, complete, isFinal, he]
  · intro e he hc; simp [testedEntry, (complete_iff s e).mpr ⟨he, hc⟩]
  · intro e he hc
    have : complete s e = false := by rw [Bool.eq_false_iff]; exact fun hh => hc ((complete_iff s e).mp hh).2
    simp [testedEntry, this]
  · rintro ⟨e, he, hf, hc⟩
    rw [h1]; exact h2 ⟨e, he, (complete_iff s e).mpr ⟨hf, hc⟩⟩
  · intro hn
    rw [h1]; exact h3 fun e he => by
      rw [Bool.eq_false_iff]; exact fun hh => hn e he ((complete_iff s e).mp hh).1 ((complete_iff s e).mp hh).2

/-- The deadline an OPEN entry has in DRAINING (R153). -/
def drainedEntry (t : Time) (e : Entry) : Entry :=
  if e.deadline.isSome then e else { e with deadline := some (t + 2000000), deadlinePeer := none }

/-- Entry to DRAINING where an OPEN entry stays (R128 to R131, R153). -/
theorem enterDraining_is {t : Time} (s : State) (ms : Nat) (hn : s.now = t) (hl : LeavesAt t s ms)
    (h : StaysDraining s) : EntersDraining t ms s (enterDraining s) := by
  have hlh := leave_eq s hn hl
  obtain ⟨⟨e0, he0, ho0, hr0⟩, htw⟩ := h
  unfold enterDraining
  simp only [hlh]
  generalize hA : (State.mk s.pending s.now s.stc s.settings s.lfe s.whu s.atr s.slc s.ptb _ s.fus s.was s.rst s.cnd : State) = A
  have hAc : ∀ e, IsComplete A e ↔ Reported s e := by
    intro e; rw [← hA]; unfold IsComplete
    have : ∀ x : Ses, Reported { s with ses := x } e ↔ Reported s e := fun _ => Iff.rfl
    simp [this]
  have hAf : A.fus = s.fus := by rw [← hA]
  have hAw : A.was = s.was := by rw [← hA]
  have htA : TestWaits A (IsComplete A) := by
    have he : IsComplete A = Reported s := funext fun e => propext (hAc e)
    rw [he]
    intro hx
    rw [hAf] at hx
    obtain ⟨a, b⟩ := htw hx
    refine ⟨by rw [hAf]; exact a, ?_⟩
    obtain ⟨g, j, e, h1, h2, h3, h4, h5, h6⟩ := b
    exact ⟨g, j, e, by rw [hAw]; exact h1, h2, h3, by unfold findEntry at h4 ⊢; rw [hAf]; exact h4, h5, h6⟩
  obtain ⟨w, h1, h2, h3⟩ := testAll_eq A htA
  rw [h1]
  have hAs : A.ses.state = .draining := by rw [← hA]
  have hAn : A.now = t := by rw [← hA]; exact hn
  have hci : ∀ e, complete A e = true ↔ e.fused = none ∧ Reported s e := by
    intro e; rw [complete_iff, hAc]
  simp only [hAs, beq_self_eq_true, onlyIf, if_true]
  have hopen : drainEntry A (testedEntry A e0) = drainedEntry t e0 := by
    have hc0 : complete A e0 = false := by rw [Bool.eq_false_iff]; exact fun hh => hr0 ((hci e0).mp hh).2
    simp [testedEntry, hc0, drainEntry, drainedEntry, isFinal, ho0, hAn, addUs]
  have hdd : ∀ T : List Entry, drainDeadlines { A with fus := { A.fus with table := T }, was := w } =
      { A with fus := { A.fus with table := T.map (drainEntry A) }, was := w } := fun T => rfl
  rw [hdd, List.map_map]
  have hm : drainedEntry t e0 ∈ s.fus.table.map (drainEntry A ∘ testedEntry A) := by
    rw [List.mem_map]; exact ⟨e0, he0, hopen⟩
  have hod : (drainedEntry t e0).fused = none := by unfold drainedEntry; split <;> exact ho0
  rw [drainTests_open _ (drainedEntry t e0) (by rw [hAf]; exact hm) hod, hAf]
  refine ⟨?_, tested_map (drainEntry A ∘ testedEntry A) rfl ?_ ?_ ?_ ?_ ?_⟩
  · rw [← hA]; simp [hn, addUs]
  · intro e he
    have hc : complete A e = false := by simp [complete, isFinal, he]
    simp [testedEntry, hc, drainEntry, isFinal, he]
  · intro e he hr
    have hc : complete A e = true := (hci e).mpr ⟨he, hr⟩
    simp [testedEntry, hc, drainEntry, isFinal, madeFinal]
  · intro e he hr
    have hc : complete A e = false := by rw [Bool.eq_false_iff]; exact fun hh => hr ((hci e).mp hh).2
    simp [testedEntry, hc, drainEntry, isFinal, he, hAn, addUs]
  · rintro ⟨e, he, hf, hr⟩
    show w = _
    rw [h2 ⟨e, by rw [hAf]; exact he, (hci e).mpr ⟨hf, hr⟩⟩, hAw]
  · intro hx
    show w = _
    rw [h3 (fun e he => by
      rw [Bool.eq_false_iff]; exact fun hh => hx e (by rw [hAf] at he; exact he) ((hci e).mp hh).1 ((hci e).mp hh).2), hAw]

/-- The condition of the peer test (R129). -/
theorem peerTest_iff (s : State) :
    (s.ses.closePending && timersRun s && !(livePeers s).isEmpty && (livePeers s).all (shutRecorded s)) = true
      ↔ PeersShut s := by
  unfold PeersShut timersRun
  simp only [Bool.and_eq_true, Bool.or_eq_true, beq_iff_eq, Bool.not_eq_true', List.isEmpty_eq_false_iff, List.all_eq_true,
    and_assoc]
  refine and_congr_right fun _ => and_congr_right fun _ => and_congr_right fun hne => ?_
  unfold shutRecorded
  cases hm : s.ses.current with
  | none =>
    simp only [Bool.false_eq_true, reduceCtorEq, false_and, exists_false, iff_false]
    intro hx
    obtain ⟨n, hn⟩ := List.exists_mem_of_ne_nil _ hne
    exact hx n hn
  | some m =>
    simp only [Option.some.injEq, exists_eq_left']
    refine forall_congr' fun n => forall_congr' fun _ => ?_
    cases place m.shuts n none <;> simp

theorem peerTest_stays (s : State) (h : ¬ PeersShut s) : peerTest s = s := by
  unfold peerTest onlyIf; rw [if_neg (mt (peerTest_iff s).mp h)]

theorem peerTest_drains (s : State) (h : PeersShut s) : peerTest s = enterDraining s := by
  unfold peerTest onlyIf; rw [if_pos ((peerTest_iff s).mpr h)]

/-! ### The exit station (R115) -/

theorem chooseExit_congr (s t : State) (h1 : s.ptb.peers = t.ptb.peers) (h2 : s.ptb.ownP = t.ptb.ownP)
    (h3 : s.stc.number = t.stc.number) (h4 : s.ses.direction = t.ses.direction) :
    (chooseExit s).ptb.exitStation = (chooseExit t).ptb.exitStation := by
  have hp : peer s = peer t := by funext n; simp [peer, h1]
  have ho : ownNumber s = ownNumber t := by simp [ownNumber, h3]
  have hl : isLive s = isLive t := by funext n; simp [isLive, hp, ho]
  have hls : liveSet s = liveSet t := by simp [liveSet, hl, ho]
  have hpos : positionOf s = positionOf t := by funext n; simp [positionOf, ho, h2, hp]
  have hf : ∀ d, furtherDown d s = furtherDown d t := by intro d; funext a b; cases d <;> simp [furtherDown, hpos]
  have : ∀ d xs, furthest d s xs = furthest d t xs := by intro d xs; cases xs <;> simp [furthest, hf]
  simp only [chooseExit, this, h4, hls, ho]

/-- The exit station stands as chosen, in a Peer Table otherwise that of `s` (R115). -/
def ExitChosen (s u : State) : Prop :=
  (u.now = s.now ∧ u.stc = s.stc ∧ u.settings = s.settings) ∧ u.ptb = { s.ptb with exitStation := u.ptb.exitStation }
    ∧ u.ptb.exitStation = (chooseExit u).ptb.exitStation

theorem ExitChosen.of {s u v : State} (h : ExitChosen s u) (h0 : v.now = u.now) (h1 : v.stc = u.stc)
    (h4 : v.settings = u.settings) (h2 : v.ptb = u.ptb) (h3 : v.ses.direction = u.ses.direction) : ExitChosen s v := by
  obtain ⟨⟨d, a, e⟩, b, c⟩ := h
  refine ⟨⟨h0.trans d, h1.trans a, h4.trans e⟩, by rw [h2]; exact b, ?_⟩
  rw [h2, c]; exact chooseExit_congr _ _ (by rw [h2]) (by rw [h2]) (by rw [h1]) h3.symm

theorem ExitChosen.choose {s u : State} (h1 : u.now = s.now ∧ u.stc = s.stc ∧ u.settings = s.settings)
    (h2 : ∃ x, u.ptb = { s.ptb with exitStation := x }) :
    ExitChosen s (chooseExit u) := by
  obtain ⟨x, h2⟩ := h2
  exact ⟨h1, by unfold chooseExit; simp only [h2], chooseExit_congr _ _ rfl rfl rfl rfl⟩

theorem ExitChosen.pass {s u : State} (h : ExitChosen s u) : ExitChosen s (pass u) := by
  unfold Machine.pass
  refine passLoop_keeps (Q := ExitChosen s) ?_ ?_ ?_ _ _ _ h
  · intro g v _ hv
    obtain ⟨a, b, d, w, rf, f, e⟩ := storeGroup_eq g v
    exact hv.of (by rw [e]) (by rw [e]) (by rw [e]) (by rw [e]) (by rw [e])
  · exact fun g v hv => hv.of rfl rfl rfl rfl rfl
  · exact fun g v hv => hv.of rfl rfl rfl rfl rfl

theorem ExitChosen.begin {s u : State} (h : ExitChosen s u) (n d b o x y z) : ExitChosen s (beginSession n d b o x y z u) := by
  unfold beginSession
  simp only
  obtain ⟨l, h1⟩ := abandonBlock_eq (beginFields n d b o x y z u)
  obtain ⟨a, c, h2⟩ := freshStart_eq u.ses.number (abandonBlock (beginFields n d b o x y z u))
  rw [h2, h1]
  exact .choose h.1 ⟨_, h.2.1⟩

theorem ExitChosen.drainTests {s u : State} (h : ExitChosen s u) : ExitChosen s (drainTests u) := by
  have hclose : ∀ v, ExitChosen s v → ExitChosen s (adoptHeld (closeSession v)) := by
    intro v hv
    have hc : ExitChosen s (closeSession v) := by
      obtain ⟨a, b, w, e⟩ := closeSession_eq v
      exact hv.of (by rw [e]) (by rw [e]) (by rw [e]) (by rw [e]) (by rw [e]; rfl)
    unfold adoptHeld
    split
    · exact hc
    · refine ExitChosen.begin ?_ _ _ _ _ _ _ _
      exact hc.of rfl rfl rfl rfl rfl
  unfold Machine.drainTests
  split
  · have hm : ExitChosen s (if !u.ses.closedForMatching && allFinal u then closeMatching u else u) := by
      split
      · refine ExitChosen.pass ?_
        exact h.of rfl rfl rfl rfl rfl
      · exact h
    generalize (if !u.ses.closedForMatching && allFinal u then closeMatching u else u) = v at hm
    simp only
    split
    · exact hclose v hm
    · exact hm
  · exact h

theorem ExitChosen.testAll {s u : State} (h : ExitChosen s u) : ExitChosen s (testAll u) := by
  unfold Machine.testAll
  generalize openOrdinals u = js
  induction js generalizing u with
  | nil => exact h
  | cons j js ih =>
    rw [List.foldl_cons]
    apply ih
    unfold testEntry
    split
    · exact h
    · split
      · refine ExitChosen.drainTests (ExitChosen.pass ?_)
        exact h.of rfl rfl rfl rfl rfl
      · exact h

theorem ExitChosen.enterDraining {s u : State} (h : ExitChosen s u) : ExitChosen s (enterDraining u) := by
  have hl : ExitChosen s (leaveHalted u) := by
    unfold leaveHalted; split
    · exact h.of rfl rfl rfl rfl rfl
    · exact h
  unfold Machine.enterDraining
  simp only
  refine ExitChosen.drainTests ?_
  generalize hB : Machine.testAll _ = B
  have hB' : ExitChosen s B := by
    rw [← hB]; refine ExitChosen.testAll ?_
    exact hl.of rfl rfl rfl rfl rfl
  unfold onlyIf; split
  · exact hB'.of rfl rfl rfl rfl rfl
  · exact hB'

/-- What a change of the live set sets off, from the state with the changed entry (R114). -/
theorem liveSetChanged_is {t : Time} (s : State) (hn : s.now = t) : Reassessed t s (liveSetChanged s) := by
  unfold liveSetChanged
  generalize hC : chooseExit s = C
  have hCe : C = { s with ptb := C.ptb } := by rw [← hC]; rfl
  have hCx : ExitChosen s C := by rw [← hC]; exact .choose ⟨rfl, rfl, rfl⟩ ⟨_, rfl⟩
  obtain ⟨e, hCp⟩ : ∃ e, C.ptb = { s.ptb with exitStation := e } := ⟨_, hCx.2.1⟩
  have hrep : ∀ x, Reported C x ↔ Reported s x := by intro x; rw [← hC]; exact Iff.rfl
  have hcmp : ∀ x, IsComplete C x ↔ IsComplete s x := by intro x; rw [← hC]; exact Iff.rfl
  have hrepf : Reported C = Reported s := funext fun x => propext (hrep x)
  have hcmpf : IsComplete C = IsComplete s := funext fun x => propext (hcmp x)
  have hCf : C.fus = s.fus := by rw [hCe]
  have hCw : C.was = s.was := by rw [hCe]
  have hCs : C.ses = s.ses := by rw [hCe]
  have htwC : ∀ p, TestWaits s p → TestWaits C p := by
    intro p h; rw [← hC]; exact h
  have hpx : ExitChosen s (peerTest (testAll C)) := by
    unfold peerTest onlyIf; split
    · exact hCx.testAll.enterDraining
    · exact hCx.testAll
  refine ⟨hpx.1.1, hpx.1.2.1, hpx.1.2.2, by rw [← hpx.2.2]; exact hpx.2.1, ?_, ?_⟩
  · intro htw hps
    obtain ⟨h1, h2⟩ := testAll_is C (by rw [hcmpf]; exact htwC _ htw)
    rw [hcmpf] at h2
    generalize testAll C = T at *
    have hpT : ¬ PeersShut T := by
      intro h; apply hps; rw [h1, ← hC] at h; exact h
    rw [peerTest_stays T hpT]
    refine ⟨?_, ?_⟩
    · rw [h1, hCe]
    · obtain ⟨a, b, c⟩ := h2
      rw [hCf] at a b c; rw [hCw] at b c
      exact ⟨a, b, c⟩
  · intro ms hps hl hsd
    have htw : TestWaits C (IsComplete C) := by
      rw [hcmpf]; apply htwC
      rintro ⟨x, hx, hf, hc⟩
      obtain ⟨hr, g, j, y, a1, a2, a3, a4, a5, a6⟩ := hsd.2 ⟨x, hx, hf, hc.2⟩
      exact ⟨hr, g, j, y, a1, a2, a3, a4, a5, fun hh => a6 hh.2⟩
    obtain ⟨w, h1, h2, h3⟩ := testAll_eq C htw
    have hcT : ∀ x, complete C x = true ↔ x.fused = none ∧ IsComplete s x := by
      intro x; rw [complete_iff, hcmp]
    have hord := testedEntry_ordinal C
    generalize hT : testAll C = T at *
    have hwT : w = s.was ∨ w = { s.was with roomForce := false } := by
      by_cases hx : ∃ x ∈ C.fus.table, complete C x = true
      · right; rw [h2 hx, hCw]
      · left; rw [h3 (fun x hx' => by rw [Bool.eq_false_iff]; exact fun hh => hx ⟨x, hx', hh⟩), hCw]
    have hstill : ∀ x : Entry, ¬ Reported s x → testedEntry C x = x := by
      intro x hr
      have : complete C x = false := by rw [Bool.eq_false_iff]; exact fun hh => hr ((hcT x).mp hh).2.2
      simp [testedEntry, this]
    have hopen : ∀ x : Entry, (testedEntry C x).fused = none → testedEntry C x = x := by
      intro x hx
      unfold testedEntry at hx ⊢
      split at hx
      · cases hx
      · rename_i h; rw [if_neg h]
    have hTt : T.fus.table = s.fus.table.map (testedEntry C) := by rw [h1, hCf]
    have hTw : T.was = w := by rw [h1]
    have hTg : T.was.group = s.was.group := by rw [hTw]; rcases hwT with h | h <;> rw [h]
    have hTr : Reported T = Reported s := by rw [h1, ← hC]; rfl
    have hsT : StaysDraining T := by
      obtain ⟨⟨e0, b1, b2, b3⟩, b4⟩ := hsd
      refine ⟨⟨e0, ?_, b2, by rw [hTr]; exact b3⟩, ?_⟩
      · rw [hTt, List.mem_map]; exact ⟨e0, b1, hstill e0 b3⟩
      · rw [hTr]
        rintro ⟨x, hx, hxf, hxr⟩
        rw [hTt, List.mem_map] at hx
        obtain ⟨y, hy, hyx⟩ := hx
        have hyx' : y = x := by rw [← hyx]; exact (hopen y (by rw [hyx]; exact hxf)).symm
        obtain ⟨hr, g, j, f, a1, a2, a3, a4, a5, a6⟩ := b4 ⟨y, hy, by rw [hyx']; exact hxf, by rw [hyx']; exact hxr⟩
        refine ⟨?_, g, j, f, by rw [hTg]; exact a1, a2, a3, ?_, a5, a6⟩
        · rw [hTt, List.pairwise_map]; simpa only [hord] using hr
        · have : findEntry T j = (findEntry s j).map (testedEntry C) := by
            unfold findEntry; rw [hTt]; exact find_mapped _ _ _ hord
          rw [this, a4, Option.map_some, hstill f a6]
    have hTs : T.ses = s.ses := by rw [h1]; exact hCs
    have hpT : PeersShut T := by rw [h1, ← hC]; exact hps
    rw [peerTest_drains T hpT]
    have hlT : LeavesAt t T ms := by unfold LeavesAt; rw [hTs]; exact hl
    obtain ⟨d1, d2⟩ := enterDraining_is (t := t) T ms (by rw [h1, hCe]; exact hn) hlT hsT
    rw [hTr] at d2
    generalize enterDraining T = D at *
    have hDp : D.ptb = C.ptb := (congrArg State.ptb d1).trans (by rw [h1])
    obtain ⟨t1, t2, t3⟩ := d2
    rw [hTt, List.forall₂_map_left_iff] at t1
    have hRD : Reported { s with ptb := D.ptb } = Reported s := by rw [hDp, ← hC]; rfl
    unfold EntersDraining
    rw [hRD]
    refine ⟨?_, ?_, ?_, ?_⟩
    · rw [hDp]
      clear hRD t1 t2 t3
      subst hC; subst h1
      exact d1
    · refine t1.imp ?_
      rintro x y ⟨c1, c2, c3⟩
      by_cases hc : complete C x = true
      · have hx := (hcT x).mp hc
        have he : testedEntry C x = madeFinal x := by simp [testedEntry, hc]
        have hy : y = madeFinal x := by rw [← he]; exact c1 (by rw [he]; rfl)
        exact ⟨fun h => (by rw [hx.1] at h; cases h), fun _ _ => hy, fun _ h => absurd hx.2.2 h⟩
      · have he : testedEntry C x = x := by simp [testedEntry, hc]
        rw [he] at c1 c2 c3
        exact ⟨c1, c2, c3⟩
    · rintro ⟨x, hx, hxf, hxr⟩
      show D.was = { s.was with roomForce := false }
      by_cases hc : ∃ y ∈ T.fus.table, y.fused = none ∧ Reported s y
      · rw [t2 hc, hTw]; rcases hwT with h | h <;> rw [h]
      · rw [t3 (fun y hy hyf hyr => hc ⟨y, hy, hyf, hyr⟩), hTw]
        have hcx : complete C x = true := by
          by_contra hcx
          refine hc ⟨x, ?_, hxf, hxr⟩
          rw [hTt, List.mem_map]; exact ⟨x, hx, by simp [testedEntry, hcx]⟩
        rw [h2 ⟨x, by rw [hCf]; exact hx, hcx⟩, hCw]
    · intro hno
      show D.was = s.was
      have hno' : ∀ x ∈ s.fus.table, complete C x = false := by
        intro x hx
        rw [Bool.eq_false_iff]; exact fun hh => hno x hx ((hcT x).mp hh).1 ((hcT x).mp hh).2.2
      rw [t3, hTw, h3 (fun x hx => hno' x (by rw [hCf] at hx; exact hx)), hCw]
      intro y hy hyf hyr
      rw [hTt, List.mem_map] at hy
      obtain ⟨x, hx, hxy⟩ := hy
      have : testedEntry C x = x := by simp [testedEntry, hno' x hx]
      rw [this] at hxy
      exact hno x hx (by rw [hxy]; exact hyf) (by rw [hxy]; exact hyr)

/-- A change of the live set leaves the peer entries as they are. -/
theorem Reassessed.peers {t : Time} {s s' : State} (h : Reassessed t s s') : s'.ptb.peers = s.ptb.peers :=
  (congrArg Ptb.peers h.2.2.2.1 :)

/-- What the test of one OPEN entry does, where a complete one finds the held group waiting for another (R149, R150). -/
theorem testEntry_is (s : State) (j : Nat) (e : Entry) (h : findEntry s j = some e) (ho : e.fused = none)
    (hw : IsComplete s e → GroupWaits s (·.ordinal = j)) :
    ∃ u f, testEntry j s = u ∧ u = { s with fus := { s.fus with table := u.fus.table }, was := u.was }
      ∧ (∀ i, i ≠ j → findEntry u i = findEntry s i) ∧ findEntry u j = some f
      ∧ (IsComplete s e → f = madeFinal e ∧ u.was = { s.was with roomForce := false })
      ∧ (¬ IsComplete s e → f = e ∧ u = s) := by
  by_cases hc : IsComplete s e
  · have hce : complete s e = true := (complete_iff s e).mpr ⟨ho, hc⟩
    rw [testEntry_final s j e h hce (hw hc)]
    have hchg : ∀ i, findEntry { s with
        fus := { s.fus with table := s.fus.table.map fun e => if e.ordinal == j then madeFinal e else e },
        was := { s.was with roomForce := false } } i = findEntry (changeEntry j madeFinal s) i := fun _ => rfl
    refine ⟨_, madeFinal e, rfl, rfl, ?_, ?_, fun _ => ⟨rfl, rfl⟩, fun hn => absurd hc hn⟩
    · intro i hi
      rw [hchg]; exact changeEntry_other s j i madeFinal (fun _ => rfl) hi
    · rw [hchg, findEntry_changeEntry s j madeFinal (fun _ => rfl), h]; rfl
  · have hce : complete s e = false := by
      rw [Bool.eq_false_iff]; exact fun hh => hc ((complete_iff s e).mp hh).2
    rw [testEntry_open s j e h hce]
    exact ⟨s, e, rfl, rfl, fun _ _ => rfl, h, fun hh => absurd hh hc, fun _ => ⟨rfl, rfl⟩⟩

/-- A complete entry that its own assembly leaves in the table is FINAL, not forced (R150). -/
theorem testEntry_made (s : State) (j : Nat) (e : Entry) (h : findEntry s j = some e) (ho : e.fused = none)
    (hc : IsComplete s e) (hr : s.fus.table.Pairwise (fun a b => a.ordinal < b.ordinal)) (hd : s.ses.state ≠ .draining)
    (f : Entry) (hf : findEntry (testEntry j s) j = some f) : f = madeFinal e := by
  have hce : complete s e = true := (complete_iff s e).mpr ⟨ho, hc⟩
  have hte : testEntry j s = drainTests (pass (changeEntry j madeFinal s)) := by
    unfold testEntry; rw [h]; simp only [hce, if_true]; rfl
  rw [hte] at hf
  obtain ⟨p1, p2, p3, p4⟩ := pass_frame (changeEntry j madeFinal s)
  have hdt : drainTests (pass (changeEntry j madeFinal s)) = pass (changeEntry j madeFinal s) := by
    unfold drainTests; rw [if_neg]; simp only [beq_iff_eq]; rw [p1]; exact hd
  rw [hdt] at hf
  have hm := p4 f (List.mem_of_find?_eq_some hf)
  have hrA : (changeEntry j madeFinal s).fus.table.Pairwise (fun a b => a.ordinal < b.ordinal) := by
    unfold changeEntry
    simp only
    rw [List.pairwise_map]
    refine hr.imp ?_
    intro a b hab
    split <;> split <;> exact hab
  have hA : findEntry (changeEntry j madeFinal s) j = some (madeFinal e) := by
    rw [findEntry_changeEntry s j madeFinal (fun _ => rfl), h]; rfl
  exact rising_eq hrA hm (List.mem_of_find?_eq_some hA) (by rw [find_ordinal hf, find_ordinal hA])

end Sys2Proof.Machine
end

