-- ==== Sys2Proof/Laws/State.lean ====
section
/-! SUPPORT. One lemma per field per named update: what the update writes, and that it leaves every other field alone.
All hold by definition. -/

namespace Sys2Proof.Machine

open Sys2Proof

/-! ### latch -/

@[simp] theorem latch_pending (c : Cause) (s : State) : (latch c s).pending = s.pending := rfl
@[simp] theorem latch_now (c : Cause) (s : State) : (latch c s).now = s.now := rfl
@[simp] theorem latch_stc (c : Cause) (s : State) : (latch c s).stc = s.stc := rfl
@[simp] theorem latch_settings (c : Cause) (s : State) : (latch c s).settings = s.settings := rfl
@[simp] theorem latch_lfe (c : Cause) (s : State) : (latch c s).lfe = s.lfe := rfl
@[simp] theorem latch_whu (c : Cause) (s : State) : (latch c s).whu = s.whu := rfl
@[simp] theorem latch_atr (c : Cause) (s : State) : (latch c s).atr = s.atr := rfl
@[simp] theorem latch_slc (c : Cause) (s : State) : (latch c s).slc = s.slc := rfl
@[simp] theorem latch_ptb (c : Cause) (s : State) : (latch c s).ptb = s.ptb := rfl
@[simp] theorem latch_ses (c : Cause) (s : State) : (latch c s).ses = s.ses := rfl
@[simp] theorem latch_fus (c : Cause) (s : State) : (latch c s).fus = s.fus := rfl
@[simp] theorem latch_was (c : Cause) (s : State) : (latch c s).was = s.was := rfl
@[simp] theorem latch_rst (c : Cause) (s : State) : (latch c s).rst = s.rst := rfl
@[simp] theorem latch_cnd_latched (c : Cause) (s : State) :
    (latch c s).cnd.latched = (s.cnd.latched ||| causeBit c) := rfl
@[simp] theorem latch_cnd_present (c : Cause) (s : State) :
    (latch c s).cnd.present = s.cnd.present := rfl
@[simp] theorem latch_cnd_enable (c : Cause) (s : State) :
    (latch c s).cnd.enable = s.cnd.enable := rfl
@[simp] theorem latch_cnd_faultLow (c : Cause) (s : State) :
    (latch c s).cnd.faultLow = (((s.cnd.latched ||| causeBit c) &&& s.cnd.enable) != 0) := rfl

/-! ### reportPresent -/

@[simp] theorem reportPresent_pending (c : Cause) (s : State) : (reportPresent c s).pending = s.pending := rfl
@[simp] theorem reportPresent_now (c : Cause) (s : State) : (reportPresent c s).now = s.now := rfl
@[simp] theorem reportPresent_stc (c : Cause) (s : State) : (reportPresent c s).stc = s.stc := rfl
@[simp] theorem reportPresent_settings (c : Cause) (s : State) : (reportPresent c s).settings = s.settings := rfl
@[simp] theorem reportPresent_lfe (c : Cause) (s : State) : (reportPresent c s).lfe = s.lfe := rfl
@[simp] theorem reportPresent_whu (c : Cause) (s : State) : (reportPresent c s).whu = s.whu := rfl
@[simp] theorem reportPresent_atr (c : Cause) (s : State) : (reportPresent c s).atr = s.atr := rfl
@[simp] theorem reportPresent_slc (c : Cause) (s : State) : (reportPresent c s).slc = s.slc := rfl
@[simp] theorem reportPresent_ptb (c : Cause) (s : State) : (reportPresent c s).ptb = s.ptb := rfl
@[simp] theorem reportPresent_ses (c : Cause) (s : State) : (reportPresent c s).ses = s.ses := rfl
@[simp] theorem reportPresent_fus (c : Cause) (s : State) : (reportPresent c s).fus = s.fus := rfl
@[simp] theorem reportPresent_was (c : Cause) (s : State) : (reportPresent c s).was = s.was := rfl
@[simp] theorem reportPresent_rst (c : Cause) (s : State) : (reportPresent c s).rst = s.rst := rfl
@[simp] theorem reportPresent_cnd_latched (c : Cause) (s : State) :
    (reportPresent c s).cnd.latched = (s.cnd.latched ||| causeBit c) := rfl
@[simp] theorem reportPresent_cnd_present (c : Cause) (s : State) :
    (reportPresent c s).cnd.present = (s.cnd.present ||| causeBit c) := rfl
@[simp] theorem reportPresent_cnd_enable (c : Cause) (s : State) :
    (reportPresent c s).cnd.enable = s.cnd.enable := rfl
@[simp] theorem reportPresent_cnd_faultLow (c : Cause) (s : State) :
    (reportPresent c s).cnd.faultLow = (((s.cnd.latched ||| causeBit c) &&& s.cnd.enable) != 0) := rfl

/-! ### reportAbsent -/

@[simp] theorem reportAbsent_pending (c : Cause) (s : State) : (reportAbsent c s).pending = s.pending := rfl
@[simp] theorem reportAbsent_now (c : Cause) (s : State) : (reportAbsent c s).now = s.now := rfl
@[simp] theorem reportAbsent_stc (c : Cause) (s : State) : (reportAbsent c s).stc = s.stc := rfl
@[simp] theorem reportAbsent_settings (c : Cause) (s : State) : (reportAbsent c s).settings = s.settings := rfl
@[simp] theorem reportAbsent_lfe (c : Cause) (s : State) : (reportAbsent c s).lfe = s.lfe := rfl
@[simp] theorem reportAbsent_whu (c : Cause) (s : State) : (reportAbsent c s).whu = s.whu := rfl
@[simp] theorem reportAbsent_atr (c : Cause) (s : State) : (reportAbsent c s).atr = s.atr := rfl
@[simp] theorem reportAbsent_slc (c : Cause) (s : State) : (reportAbsent c s).slc = s.slc := rfl
@[simp] theorem reportAbsent_ptb (c : Cause) (s : State) : (reportAbsent c s).ptb = s.ptb := rfl
@[simp] theorem reportAbsent_ses (c : Cause) (s : State) : (reportAbsent c s).ses = s.ses := rfl
@[simp] theorem reportAbsent_fus (c : Cause) (s : State) : (reportAbsent c s).fus = s.fus := rfl
@[simp] theorem reportAbsent_was (c : Cause) (s : State) : (reportAbsent c s).was = s.was := rfl
@[simp] theorem reportAbsent_rst (c : Cause) (s : State) : (reportAbsent c s).rst = s.rst := rfl
@[simp] theorem reportAbsent_cnd_latched (c : Cause) (s : State) :
    (reportAbsent c s).cnd.latched = s.cnd.latched := rfl
@[simp] theorem reportAbsent_cnd_present (c : Cause) (s : State) :
    (reportAbsent c s).cnd.present = (s.cnd.present &&& ~~~ (causeBit c)) := rfl
@[simp] theorem reportAbsent_cnd_enable (c : Cause) (s : State) :
    (reportAbsent c s).cnd.enable = s.cnd.enable := rfl
@[simp] theorem reportAbsent_cnd_faultLow (c : Cause) (s : State) :
    (reportAbsent c s).cnd.faultLow = s.cnd.faultLow := rfl

/-! ### clearCauses -/

@[simp] theorem clearCauses_pending (m : CauseMask) (s : State) : (clearCauses m s).pending = s.pending := rfl
@[simp] theorem clearCauses_now (m : CauseMask) (s : State) : (clearCauses m s).now = s.now := rfl
@[simp] theorem clearCauses_stc (m : CauseMask) (s : State) : (clearCauses m s).stc = s.stc := rfl
@[simp] theorem clearCauses_settings (m : CauseMask) (s : State) : (clearCauses m s).settings = s.settings := rfl
@[simp] theorem clearCauses_lfe (m : CauseMask) (s : State) : (clearCauses m s).lfe = s.lfe := rfl
@[simp] theorem clearCauses_whu (m : CauseMask) (s : State) : (clearCauses m s).whu = s.whu := rfl
@[simp] theorem clearCauses_atr (m : CauseMask) (s : State) : (clearCauses m s).atr = s.atr := rfl
@[simp] theorem clearCauses_slc (m : CauseMask) (s : State) : (clearCauses m s).slc = s.slc := rfl
@[simp] theorem clearCauses_ptb (m : CauseMask) (s : State) : (clearCauses m s).ptb = s.ptb := rfl
@[simp] theorem clearCauses_ses (m : CauseMask) (s : State) : (clearCauses m s).ses = s.ses := rfl
@[simp] theorem clearCauses_fus (m : CauseMask) (s : State) : (clearCauses m s).fus = s.fus := rfl
@[simp] theorem clearCauses_was (m : CauseMask) (s : State) : (clearCauses m s).was = s.was := rfl
@[simp] theorem clearCauses_rst (m : CauseMask) (s : State) : (clearCauses m s).rst = s.rst := rfl
@[simp] theorem clearCauses_cnd_latched (m : CauseMask) (s : State) :
    (clearCauses m s).cnd.latched = ((s.cnd.latched &&& ~~~ m) ||| (s.cnd.latched &&& m &&& s.cnd.present)) := rfl
@[simp] theorem clearCauses_cnd_present (m : CauseMask) (s : State) :
    (clearCauses m s).cnd.present = s.cnd.present := rfl
@[simp] theorem clearCauses_cnd_enable (m : CauseMask) (s : State) :
    (clearCauses m s).cnd.enable = s.cnd.enable := rfl
@[simp] theorem clearCauses_cnd_faultLow (m : CauseMask) (s : State) :
    (clearCauses m s).cnd.faultLow = ((((s.cnd.latched &&& ~~~ m) ||| (s.cnd.latched &&& m &&& s.cnd.present)) &&& s.cnd.enable) != 0) := rfl

/-! ### setEnable -/

@[simp] theorem setEnable_pending (m : CauseMask) (s : State) : (setEnable m s).pending = s.pending := rfl
@[simp] theorem setEnable_now (m : CauseMask) (s : State) : (setEnable m s).now = s.now := rfl
@[simp] theorem setEnable_stc (m : CauseMask) (s : State) : (setEnable m s).stc = s.stc := rfl
@[simp] theorem setEnable_settings (m : CauseMask) (s : State) : (setEnable m s).settings = s.settings := rfl
@[simp] theorem setEnable_lfe (m : CauseMask) (s : State) : (setEnable m s).lfe = s.lfe := rfl
@[simp] theorem setEnable_whu (m : CauseMask) (s : State) : (setEnable m s).whu = s.whu := rfl
@[simp] theorem setEnable_atr (m : CauseMask) (s : State) : (setEnable m s).atr = s.atr := rfl
@[simp] theorem setEnable_slc (m : CauseMask) (s : State) : (setEnable m s).slc = s.slc := rfl
@[simp] theorem setEnable_ptb (m : CauseMask) (s : State) : (setEnable m s).ptb = s.ptb := rfl
@[simp] theorem setEnable_ses (m : CauseMask) (s : State) : (setEnable m s).ses = s.ses := rfl
@[simp] theorem setEnable_fus (m : CauseMask) (s : State) : (setEnable m s).fus = s.fus := rfl
@[simp] theorem setEnable_was (m : CauseMask) (s : State) : (setEnable m s).was = s.was := rfl
@[simp] theorem setEnable_rst (m : CauseMask) (s : State) : (setEnable m s).rst = s.rst := rfl
@[simp] theorem setEnable_cnd_latched (m : CauseMask) (s : State) :
    (setEnable m s).cnd.latched = s.cnd.latched := rfl
@[simp] theorem setEnable_cnd_present (m : CauseMask) (s : State) :
    (setEnable m s).cnd.present = s.cnd.present := rfl
@[simp] theorem setEnable_cnd_enable (m : CauseMask) (s : State) :
    (setEnable m s).cnd.enable = (m) := rfl
@[simp] theorem setEnable_cnd_faultLow (m : CauseMask) (s : State) :
    (setEnable m s).cnd.faultLow = ((s.cnd.latched &&& m) != 0) := rfl

/-! ### acceptHead -/

@[simp] theorem acceptHead_pending (s : State) : (acceptHead s).pending = s.pending := rfl
@[simp] theorem acceptHead_now (s : State) : (acceptHead s).now = s.now := rfl
@[simp] theorem acceptHead_stc (s : State) : (acceptHead s).stc = s.stc := rfl
@[simp] theorem acceptHead_settings (s : State) : (acceptHead s).settings = s.settings := rfl
@[simp] theorem acceptHead_lfe (s : State) : (acceptHead s).lfe = s.lfe := rfl
@[simp] theorem acceptHead_whu (s : State) : (acceptHead s).whu = s.whu := rfl
@[simp] theorem acceptHead_atr (s : State) : (acceptHead s).atr = s.atr := rfl
@[simp] theorem acceptHead_slc_urgent (s : State) :
    (acceptHead s).slc.urgent = s.slc.urgent := rfl
@[simp] theorem acceptHead_slc_timing (s : State) :
    (acceptHead s).slc.timing = s.slc.timing := rfl
@[simp] theorem acceptHead_slc_bulk (s : State) :
    (acceptHead s).slc.bulk = s.slc.bulk := rfl
@[simp] theorem acceptHead_slc_service (s : State) :
    (acceptHead s).slc.service = s.slc.service := rfl
@[simp] theorem acceptHead_slc_hailWaiting (s : State) :
    (acceptHead s).slc.hailWaiting = s.slc.hailWaiting := rfl
@[simp] theorem acceptHead_slc_sequence (s : State) :
    (acceptHead s).slc.sequence = s.slc.sequence := rfl
@[simp] theorem acceptHead_slc_backoff (s : State) :
    (acceptHead s).slc.backoff = s.slc.backoff := rfl
@[simp] theorem acceptHead_slc_droppedRun (s : State) :
    (acceptHead s).slc.droppedRun = s.slc.droppedRun := rfl
@[simp] theorem acceptHead_slc_duplicateRun (s : State) :
    (acceptHead s).slc.duplicateRun = s.slc.duplicateRun := rfl
@[simp] theorem acceptHead_slc_line (s : State) :
    (acceptHead s).slc.line = s.slc.line := rfl
@[simp] theorem acceptHead_slc_probeTimer (s : State) :
    (acceptHead s).slc.probeTimer = s.slc.probeTimer := rfl
@[simp] theorem acceptHead_slc_probeDue (s : State) :
    (acceptHead s).slc.probeDue = s.slc.probeDue := rfl
@[simp] theorem acceptHead_slc_receiveQueue (s : State) :
    (acceptHead s).slc.receiveQueue = (s.slc.receiveQueue.tail) := rfl
@[simp] theorem acceptHead_slc_hold (s : State) :
    (acceptHead s).slc.hold = (holdAfter s.slc.hold s.slc.receiveQueue.length s.slc.receiveQueue.tail.length) := rfl
@[simp] theorem acceptHead_slc_lastSequence (s : State) :
    (acceptHead s).slc.lastSequence = s.slc.lastSequence := rfl
@[simp] theorem acceptHead_slc_sending (s : State) :
    (acceptHead s).slc.sending = s.slc.sending := rfl
@[simp] theorem acceptHead_slc_ackDriven (s : State) :
    (acceptHead s).slc.ackDriven = s.slc.ackDriven := rfl
@[simp] theorem acceptHead_slc_holdDriven (s : State) :
    (acceptHead s).slc.holdDriven = s.slc.holdDriven := rfl
@[simp] theorem acceptHead_ptb (s : State) : (acceptHead s).ptb = s.ptb := rfl
@[simp] theorem acceptHead_ses (s : State) : (acceptHead s).ses = s.ses := rfl
@[simp] theorem acceptHead_fus (s : State) : (acceptHead s).fus = s.fus := rfl
@[simp] theorem acceptHead_was (s : State) : (acceptHead s).was = s.was := rfl
@[simp] theorem acceptHead_rst (s : State) : (acceptHead s).rst = s.rst := rfl
@[simp] theorem acceptHead_cnd (s : State) : (acceptHead s).cnd = s.cnd := rfl

/-! ### driveSlots -/

@[simp] theorem driveSlots_pending (ack : Bool) (s : State) : (driveSlots ack s).pending = s.pending := rfl
@[simp] theorem driveSlots_now (ack : Bool) (s : State) : (driveSlots ack s).now = s.now := rfl
@[simp] theorem driveSlots_stc (ack : Bool) (s : State) : (driveSlots ack s).stc = s.stc := rfl
@[simp] theorem driveSlots_settings (ack : Bool) (s : State) : (driveSlots ack s).settings = s.settings := rfl
@[simp] theorem driveSlots_lfe (ack : Bool) (s : State) : (driveSlots ack s).lfe = s.lfe := rfl
@[simp] theorem driveSlots_whu (ack : Bool) (s : State) : (driveSlots ack s).whu = s.whu := rfl
@[simp] theorem driveSlots_atr (ack : Bool) (s : State) : (driveSlots ack s).atr = s.atr := rfl
@[simp] theorem driveSlots_slc_urgent (ack : Bool) (s : State) :
    (driveSlots ack s).slc.urgent = s.slc.urgent := rfl
@[simp] theorem driveSlots_slc_timing (ack : Bool) (s : State) :
    (driveSlots ack s).slc.timing = s.slc.timing := rfl
@[simp] theorem driveSlots_slc_bulk (ack : Bool) (s : State) :
    (driveSlots ack s).slc.bulk = s.slc.bulk := rfl
@[simp] theorem driveSlots_slc_service (ack : Bool) (s : State) :
    (driveSlots ack s).slc.service = s.slc.service := rfl
@[simp] theorem driveSlots_slc_hailWaiting (ack : Bool) (s : State) :
    (driveSlots ack s).slc.hailWaiting = s.slc.hailWaiting := rfl
@[simp] theorem driveSlots_slc_sequence (ack : Bool) (s : State) :
    (driveSlots ack s).slc.sequence = s.slc.sequence := rfl
@[simp] theorem driveSlots_slc_backoff (ack : Bool) (s : State) :
    (driveSlots ack s).slc.backoff = s.slc.backoff := rfl
@[simp] theorem driveSlots_slc_droppedRun (ack : Bool) (s : State) :
    (driveSlots ack s).slc.droppedRun = s.slc.droppedRun := rfl
@[simp] theorem driveSlots_slc_duplicateRun (ack : Bool) (s : State) :
    (driveSlots ack s).slc.duplicateRun = s.slc.duplicateRun := rfl
@[simp] theorem driveSlots_slc_line (ack : Bool) (s : State) :
    (driveSlots ack s).slc.line = s.slc.line := rfl
@[simp] theorem driveSlots_slc_probeTimer (ack : Bool) (s : State) :
    (driveSlots ack s).slc.probeTimer = s.slc.probeTimer := rfl
@[simp] theorem driveSlots_slc_probeDue (ack : Bool) (s : State) :
    (driveSlots ack s).slc.probeDue = s.slc.probeDue := rfl
@[simp] theorem driveSlots_slc_receiveQueue (ack : Bool) (s : State) :
    (driveSlots ack s).slc.receiveQueue = s.slc.receiveQueue := rfl
@[simp] theorem driveSlots_slc_hold (ack : Bool) (s : State) :
    (driveSlots ack s).slc.hold = s.slc.hold := rfl
@[simp] theorem driveSlots_slc_lastSequence (ack : Bool) (s : State) :
    (driveSlots ack s).slc.lastSequence = s.slc.lastSequence := rfl
@[simp] theorem driveSlots_slc_sending (ack : Bool) (s : State) :
    (driveSlots ack s).slc.sending = s.slc.sending := rfl
@[simp] theorem driveSlots_slc_ackDriven (ack : Bool) (s : State) :
    (driveSlots ack s).slc.ackDriven = ((ack && drivesSlots s.slc)) := rfl
@[simp] theorem driveSlots_slc_holdDriven (ack : Bool) (s : State) :
    (driveSlots ack s).slc.holdDriven = ((s.slc.hold && drivesSlots s.slc)) := rfl
@[simp] theorem driveSlots_ptb (ack : Bool) (s : State) : (driveSlots ack s).ptb = s.ptb := rfl
@[simp] theorem driveSlots_ses (ack : Bool) (s : State) : (driveSlots ack s).ses = s.ses := rfl
@[simp] theorem driveSlots_fus (ack : Bool) (s : State) : (driveSlots ack s).fus = s.fus := rfl
@[simp] theorem driveSlots_was (ack : Bool) (s : State) : (driveSlots ack s).was = s.was := rfl
@[simp] theorem driveSlots_rst (ack : Bool) (s : State) : (driveSlots ack s).rst = s.rst := rfl
@[simp] theorem driveSlots_cnd (ack : Bool) (s : State) : (driveSlots ack s).cnd = s.cnd := rfl

/-! ### ignoreFrame -/

@[simp] theorem ignoreFrame_pending (s : State) : (ignoreFrame s).pending = s.pending := rfl
@[simp] theorem ignoreFrame_now (s : State) : (ignoreFrame s).now = s.now := rfl
@[simp] theorem ignoreFrame_stc (s : State) : (ignoreFrame s).stc = s.stc := rfl
@[simp] theorem ignoreFrame_settings (s : State) : (ignoreFrame s).settings = s.settings := rfl
@[simp] theorem ignoreFrame_lfe (s : State) : (ignoreFrame s).lfe = s.lfe := rfl
@[simp] theorem ignoreFrame_whu (s : State) : (ignoreFrame s).whu = s.whu := rfl
@[simp] theorem ignoreFrame_atr (s : State) : (ignoreFrame s).atr = s.atr := rfl
@[simp] theorem ignoreFrame_slc_urgent (s : State) :
    (ignoreFrame s).slc.urgent = s.slc.urgent := rfl
@[simp] theorem ignoreFrame_slc_timing (s : State) :
    (ignoreFrame s).slc.timing = s.slc.timing := rfl
@[simp] theorem ignoreFrame_slc_bulk (s : State) :
    (ignoreFrame s).slc.bulk = s.slc.bulk := rfl
@[simp] theorem ignoreFrame_slc_service (s : State) :
    (ignoreFrame s).slc.service = s.slc.service := rfl
@[simp] theorem ignoreFrame_slc_hailWaiting (s : State) :
    (ignoreFrame s).slc.hailWaiting = s.slc.hailWaiting := rfl
@[simp] theorem ignoreFrame_slc_sequence (s : State) :
    (ignoreFrame s).slc.sequence = s.slc.sequence := rfl
@[simp] theorem ignoreFrame_slc_backoff (s : State) :
    (ignoreFrame s).slc.backoff = s.slc.backoff := rfl
@[simp] theorem ignoreFrame_slc_droppedRun (s : State) :
    (ignoreFrame s).slc.droppedRun = s.slc.droppedRun := rfl
@[simp] theorem ignoreFrame_slc_duplicateRun (s : State) :
    (ignoreFrame s).slc.duplicateRun = s.slc.duplicateRun := rfl
@[simp] theorem ignoreFrame_slc_line (s : State) :
    (ignoreFrame s).slc.line = s.slc.line := rfl
@[simp] theorem ignoreFrame_slc_probeTimer (s : State) :
    (ignoreFrame s).slc.probeTimer = s.slc.probeTimer := rfl
@[simp] theorem ignoreFrame_slc_probeDue (s : State) :
    (ignoreFrame s).slc.probeDue = s.slc.probeDue := rfl
@[simp] theorem ignoreFrame_slc_receiveQueue (s : State) :
    (ignoreFrame s).slc.receiveQueue = s.slc.receiveQueue := rfl
@[simp] theorem ignoreFrame_slc_hold (s : State) :
    (ignoreFrame s).slc.hold = s.slc.hold := rfl
@[simp] theorem ignoreFrame_slc_lastSequence (s : State) :
    (ignoreFrame s).slc.lastSequence = s.slc.lastSequence := rfl
@[simp] theorem ignoreFrame_slc_sending (s : State) :
    (ignoreFrame s).slc.sending = s.slc.sending := rfl
@[simp] theorem ignoreFrame_slc_ackDriven (s : State) :
    (ignoreFrame s).slc.ackDriven = (false) := rfl
@[simp] theorem ignoreFrame_slc_holdDriven (s : State) :
    (ignoreFrame s).slc.holdDriven = (false) := rfl
@[simp] theorem ignoreFrame_ptb (s : State) : (ignoreFrame s).ptb = s.ptb := rfl
@[simp] theorem ignoreFrame_ses (s : State) : (ignoreFrame s).ses = s.ses := rfl
@[simp] theorem ignoreFrame_fus (s : State) : (ignoreFrame s).fus = s.fus := rfl
@[simp] theorem ignoreFrame_was (s : State) : (ignoreFrame s).was = s.was := rfl
@[simp] theorem ignoreFrame_rst (s : State) : (ignoreFrame s).rst = s.rst := rfl
@[simp] theorem ignoreFrame_cnd (s : State) : (ignoreFrame s).cnd = s.cnd := rfl

/-! ### setPeer -/

@[simp] theorem setPeer_pending (n : Nat) (p : Peer) (s : State) : (setPeer n p s).pending = s.pending := rfl
@[simp] theorem setPeer_now (n : Nat) (p : Peer) (s : State) : (setPeer n p s).now = s.now := rfl
@[simp] theorem setPeer_stc (n : Nat) (p : Peer) (s : State) : (setPeer n p s).stc = s.stc := rfl
@[simp] theorem setPeer_settings (n : Nat) (p : Peer) (s : State) : (setPeer n p s).settings = s.settings := rfl
@[simp] theorem setPeer_lfe (n : Nat) (p : Peer) (s : State) : (setPeer n p s).lfe = s.lfe := rfl
@[simp] theorem setPeer_whu (n : Nat) (p : Peer) (s : State) : (setPeer n p s).whu = s.whu := rfl
@[simp] theorem setPeer_atr (n : Nat) (p : Peer) (s : State) : (setPeer n p s).atr = s.atr := rfl
@[simp] theorem setPeer_slc (n : Nat) (p : Peer) (s : State) : (setPeer n p s).slc = s.slc := rfl
@[simp] theorem setPeer_ptb_peers (n : Nat) (p : Peer) (s : State) :
    (setPeer n p s).ptb.peers = (setPlace s.ptb.peers n p) := rfl
@[simp] theorem setPeer_ptb_ownP (n : Nat) (p : Peer) (s : State) :
    (setPeer n p s).ptb.ownP = s.ptb.ownP := rfl
@[simp] theorem setPeer_ptb_ownL (n : Nat) (p : Peer) (s : State) :
    (setPeer n p s).ptb.ownL = s.ptb.ownL := rfl
@[simp] theorem setPeer_ptb_ownPatternSum (n : Nat) (p : Peer) (s : State) :
    (setPeer n p s).ptb.ownPatternSum = s.ptb.ownPatternSum := rfl
@[simp] theorem setPeer_ptb_exitStation (n : Nat) (p : Peer) (s : State) :
    (setPeer n p s).ptb.exitStation = s.ptb.exitStation := rfl
@[simp] theorem setPeer_ptb_layout (n : Nat) (p : Peer) (s : State) :
    (setPeer n p s).ptb.layout = s.ptb.layout := rfl
@[simp] theorem setPeer_ptb_hailTimer (n : Nat) (p : Peer) (s : State) :
    (setPeer n p s).ptb.hailTimer = s.ptb.hailTimer := rfl
@[simp] theorem setPeer_ses (n : Nat) (p : Peer) (s : State) : (setPeer n p s).ses = s.ses := rfl
@[simp] theorem setPeer_fus (n : Nat) (p : Peer) (s : State) : (setPeer n p s).fus = s.fus := rfl
@[simp] theorem setPeer_was (n : Nat) (p : Peer) (s : State) : (setPeer n p s).was = s.was := rfl
@[simp] theorem setPeer_rst (n : Nat) (p : Peer) (s : State) : (setPeer n p s).rst = s.rst := rfl
@[simp] theorem setPeer_cnd (n : Nat) (p : Peer) (s : State) : (setPeer n p s).cnd = s.cnd := rfl

/-! ### chooseExit -/

@[simp] theorem chooseExit_pending (s : State) : (chooseExit s).pending = s.pending := rfl
@[simp] theorem chooseExit_now (s : State) : (chooseExit s).now = s.now := rfl
@[simp] theorem chooseExit_stc (s : State) : (chooseExit s).stc = s.stc := rfl
@[simp] theorem chooseExit_settings (s : State) : (chooseExit s).settings = s.settings := rfl
@[simp] theorem chooseExit_lfe (s : State) : (chooseExit s).lfe = s.lfe := rfl
@[simp] theorem chooseExit_whu (s : State) : (chooseExit s).whu = s.whu := rfl
@[simp] theorem chooseExit_atr (s : State) : (chooseExit s).atr = s.atr := rfl
@[simp] theorem chooseExit_slc (s : State) : (chooseExit s).slc = s.slc := rfl
@[simp] theorem chooseExit_ptb_peers (s : State) :
    (chooseExit s).ptb.peers = s.ptb.peers := rfl
@[simp] theorem chooseExit_ptb_ownP (s : State) :
    (chooseExit s).ptb.ownP = s.ptb.ownP := rfl
@[simp] theorem chooseExit_ptb_ownL (s : State) :
    (chooseExit s).ptb.ownL = s.ptb.ownL := rfl
@[simp] theorem chooseExit_ptb_ownPatternSum (s : State) :
    (chooseExit s).ptb.ownPatternSum = s.ptb.ownPatternSum := rfl
@[simp] theorem chooseExit_ptb_exitStation (s : State) :
    (chooseExit s).ptb.exitStation = ((furthest s.ses.direction s (liveSet s)).getD (ownNumber s)) := rfl
@[simp] theorem chooseExit_ptb_layout (s : State) :
    (chooseExit s).ptb.layout = s.ptb.layout := rfl
@[simp] theorem chooseExit_ptb_hailTimer (s : State) :
    (chooseExit s).ptb.hailTimer = s.ptb.hailTimer := rfl
@[simp] theorem chooseExit_ses (s : State) : (chooseExit s).ses = s.ses := rfl
@[simp] theorem chooseExit_fus (s : State) : (chooseExit s).fus = s.fus := rfl
@[simp] theorem chooseExit_was (s : State) : (chooseExit s).was = s.was := rfl
@[simp] theorem chooseExit_rst (s : State) : (chooseExit s).rst = s.rst := rfl
@[simp] theorem chooseExit_cnd (s : State) : (chooseExit s).cnd = s.cnd := rfl

/-! ### changeEntry -/

@[simp] theorem changeEntry_pending (j : Nat) (f : Entry → Entry) (s : State) : (changeEntry j f s).pending = s.pending := rfl
@[simp] theorem changeEntry_now (j : Nat) (f : Entry → Entry) (s : State) : (changeEntry j f s).now = s.now := rfl
@[simp] theorem changeEntry_stc (j : Nat) (f : Entry → Entry) (s : State) : (changeEntry j f s).stc = s.stc := rfl
@[simp] theorem changeEntry_settings (j : Nat) (f : Entry → Entry) (s : State) : (changeEntry j f s).settings = s.settings := rfl
@[simp] theorem changeEntry_lfe (j : Nat) (f : Entry → Entry) (s : State) : (changeEntry j f s).lfe = s.lfe := rfl
@[simp] theorem changeEntry_whu (j : Nat) (f : Entry → Entry) (s : State) : (changeEntry j f s).whu = s.whu := rfl
@[simp] theorem changeEntry_atr (j : Nat) (f : Entry → Entry) (s : State) : (changeEntry j f s).atr = s.atr := rfl
@[simp] theorem changeEntry_slc (j : Nat) (f : Entry → Entry) (s : State) : (changeEntry j f s).slc = s.slc := rfl
@[simp] theorem changeEntry_ptb (j : Nat) (f : Entry → Entry) (s : State) : (changeEntry j f s).ptb = s.ptb := rfl
@[simp] theorem changeEntry_ses (j : Nat) (f : Entry → Entry) (s : State) : (changeEntry j f s).ses = s.ses := rfl
@[simp] theorem changeEntry_fus_table (j : Nat) (f : Entry → Entry) (s : State) :
    (changeEntry j f s).fus.table = (s.fus.table.map fun e => if e.ordinal == j then f e else e) := rfl
@[simp] theorem changeEntry_fus_current (j : Nat) (f : Entry → Entry) (s : State) :
    (changeEntry j f s).fus.current = s.fus.current := rfl
@[simp] theorem changeEntry_fus_superseded (j : Nat) (f : Entry → Entry) (s : State) :
    (changeEntry j f s).fus.superseded = s.fus.superseded := rfl
@[simp] theorem changeEntry_was (j : Nat) (f : Entry → Entry) (s : State) : (changeEntry j f s).was = s.was := rfl
@[simp] theorem changeEntry_rst (j : Nat) (f : Entry → Entry) (s : State) : (changeEntry j f s).rst = s.rst := rfl
@[simp] theorem changeEntry_cnd (j : Nat) (f : Entry → Entry) (s : State) : (changeEntry j f s).cnd = s.cnd := rfl

/-! ### markForced -/

@[simp] theorem markForced_pending (j : Nat) (s : State) : (markForced j s).pending = s.pending := rfl
@[simp] theorem markForced_now (j : Nat) (s : State) : (markForced j s).now = s.now := rfl
@[simp] theorem markForced_stc (j : Nat) (s : State) : (markForced j s).stc = s.stc := rfl
@[simp] theorem markForced_settings (j : Nat) (s : State) : (markForced j s).settings = s.settings := rfl
@[simp] theorem markForced_lfe (j : Nat) (s : State) : (markForced j s).lfe = s.lfe := rfl
@[simp] theorem markForced_whu (j : Nat) (s : State) : (markForced j s).whu = s.whu := rfl
@[simp] theorem markForced_atr (j : Nat) (s : State) : (markForced j s).atr = s.atr := rfl
@[simp] theorem markForced_slc (j : Nat) (s : State) : (markForced j s).slc = s.slc := rfl
@[simp] theorem markForced_ptb (j : Nat) (s : State) : (markForced j s).ptb = s.ptb := rfl
@[simp] theorem markForced_ses (j : Nat) (s : State) : (markForced j s).ses = s.ses := rfl
@[simp] theorem markForced_fus_current (j : Nat) (s : State) :
    (markForced j s).fus.current = s.fus.current := rfl
@[simp] theorem markForced_fus_superseded (j : Nat) (s : State) :
    (markForced j s).fus.superseded = s.fus.superseded := rfl
@[simp] theorem markForced_was (j : Nat) (s : State) : (markForced j s).was = s.was := rfl
@[simp] theorem markForced_rst (j : Nat) (s : State) : (markForced j s).rst = s.rst := rfl
@[simp] theorem markForced_cnd (j : Nat) (s : State) : (markForced j s).cnd = s.cnd := rfl

/-! ### setRow -/

@[simp] theorem setRow_pending (j n : Nat) (r : PeerRow) (s : State) : (setRow j n r s).pending = s.pending := rfl
@[simp] theorem setRow_now (j n : Nat) (r : PeerRow) (s : State) : (setRow j n r s).now = s.now := rfl
@[simp] theorem setRow_stc (j n : Nat) (r : PeerRow) (s : State) : (setRow j n r s).stc = s.stc := rfl
@[simp] theorem setRow_settings (j n : Nat) (r : PeerRow) (s : State) : (setRow j n r s).settings = s.settings := rfl
@[simp] theorem setRow_lfe (j n : Nat) (r : PeerRow) (s : State) : (setRow j n r s).lfe = s.lfe := rfl
@[simp] theorem setRow_whu (j n : Nat) (r : PeerRow) (s : State) : (setRow j n r s).whu = s.whu := rfl
@[simp] theorem setRow_atr (j n : Nat) (r : PeerRow) (s : State) : (setRow j n r s).atr = s.atr := rfl
@[simp] theorem setRow_slc (j n : Nat) (r : PeerRow) (s : State) : (setRow j n r s).slc = s.slc := rfl
@[simp] theorem setRow_ptb (j n : Nat) (r : PeerRow) (s : State) : (setRow j n r s).ptb = s.ptb := rfl
@[simp] theorem setRow_ses (j n : Nat) (r : PeerRow) (s : State) : (setRow j n r s).ses = s.ses := rfl
@[simp] theorem setRow_fus_current (j n : Nat) (r : PeerRow) (s : State) :
    (setRow j n r s).fus.current = s.fus.current := rfl
@[simp] theorem setRow_fus_superseded (j n : Nat) (r : PeerRow) (s : State) :
    (setRow j n r s).fus.superseded = s.fus.superseded := rfl
@[simp] theorem setRow_was (j n : Nat) (r : PeerRow) (s : State) : (setRow j n r s).was = s.was := rfl
@[simp] theorem setRow_rst (j n : Nat) (r : PeerRow) (s : State) : (setRow j n r s).rst = s.rst := rfl
@[simp] theorem setRow_cnd (j n : Nat) (r : PeerRow) (s : State) : (setRow j n r s).cnd = s.cnd := rfl

/-! ### cancelDeadlines -/

@[simp] theorem cancelDeadlines_pending (s : State) : (cancelDeadlines s).pending = s.pending := rfl
@[simp] theorem cancelDeadlines_now (s : State) : (cancelDeadlines s).now = s.now := rfl
@[simp] theorem cancelDeadlines_stc (s : State) : (cancelDeadlines s).stc = s.stc := rfl
@[simp] theorem cancelDeadlines_settings (s : State) : (cancelDeadlines s).settings = s.settings := rfl
@[simp] theorem cancelDeadlines_lfe (s : State) : (cancelDeadlines s).lfe = s.lfe := rfl
@[simp] theorem cancelDeadlines_whu (s : State) : (cancelDeadlines s).whu = s.whu := rfl
@[simp] theorem cancelDeadlines_atr (s : State) : (cancelDeadlines s).atr = s.atr := rfl
@[simp] theorem cancelDeadlines_slc (s : State) : (cancelDeadlines s).slc = s.slc := rfl
@[simp] theorem cancelDeadlines_ptb (s : State) : (cancelDeadlines s).ptb = s.ptb := rfl
@[simp] theorem cancelDeadlines_ses (s : State) : (cancelDeadlines s).ses = s.ses := rfl
@[simp] theorem cancelDeadlines_fus_current (s : State) :
    (cancelDeadlines s).fus.current = s.fus.current := rfl
@[simp] theorem cancelDeadlines_fus_superseded (s : State) :
    (cancelDeadlines s).fus.superseded = s.fus.superseded := rfl
@[simp] theorem cancelDeadlines_was (s : State) : (cancelDeadlines s).was = s.was := rfl
@[simp] theorem cancelDeadlines_rst (s : State) : (cancelDeadlines s).rst = s.rst := rfl
@[simp] theorem cancelDeadlines_cnd (s : State) : (cancelDeadlines s).cnd = s.cnd := rfl

/-! ### resumeDeadlines -/

@[simp] theorem resumeDeadlines_pending (s : State) : (resumeDeadlines s).pending = s.pending := rfl
@[simp] theorem resumeDeadlines_now (s : State) : (resumeDeadlines s).now = s.now := rfl
@[simp] theorem resumeDeadlines_stc (s : State) : (resumeDeadlines s).stc = s.stc := rfl
@[simp] theorem resumeDeadlines_settings (s : State) : (resumeDeadlines s).settings = s.settings := rfl
@[simp] theorem resumeDeadlines_lfe (s : State) : (resumeDeadlines s).lfe = s.lfe := rfl
@[simp] theorem resumeDeadlines_whu (s : State) : (resumeDeadlines s).whu = s.whu := rfl
@[simp] theorem resumeDeadlines_atr (s : State) : (resumeDeadlines s).atr = s.atr := rfl
@[simp] theorem resumeDeadlines_slc (s : State) : (resumeDeadlines s).slc = s.slc := rfl
@[simp] theorem resumeDeadlines_ptb (s : State) : (resumeDeadlines s).ptb = s.ptb := rfl
@[simp] theorem resumeDeadlines_ses (s : State) : (resumeDeadlines s).ses = s.ses := rfl
@[simp] theorem resumeDeadlines_fus_table (s : State) :
    (resumeDeadlines s).fus.table = (s.fus.table.map (resumedEntry s)) := rfl
@[simp] theorem resumeDeadlines_fus_current (s : State) :
    (resumeDeadlines s).fus.current = s.fus.current := rfl
@[simp] theorem resumeDeadlines_fus_superseded (s : State) :
    (resumeDeadlines s).fus.superseded = s.fus.superseded := rfl
@[simp] theorem resumeDeadlines_was (s : State) : (resumeDeadlines s).was = s.was := rfl
@[simp] theorem resumeDeadlines_rst (s : State) : (resumeDeadlines s).rst = s.rst := rfl
@[simp] theorem resumeDeadlines_cnd (s : State) : (resumeDeadlines s).cnd = s.cnd := rfl

/-! ### drainDeadlines -/

@[simp] theorem drainDeadlines_pending (s : State) : (drainDeadlines s).pending = s.pending := rfl
@[simp] theorem drainDeadlines_now (s : State) : (drainDeadlines s).now = s.now := rfl
@[simp] theorem drainDeadlines_stc (s : State) : (drainDeadlines s).stc = s.stc := rfl
@[simp] theorem drainDeadlines_settings (s : State) : (drainDeadlines s).settings = s.settings := rfl
@[simp] theorem drainDeadlines_lfe (s : State) : (drainDeadlines s).lfe = s.lfe := rfl
@[simp] theorem drainDeadlines_whu (s : State) : (drainDeadlines s).whu = s.whu := rfl
@[simp] theorem drainDeadlines_atr (s : State) : (drainDeadlines s).atr = s.atr := rfl
@[simp] theorem drainDeadlines_slc (s : State) : (drainDeadlines s).slc = s.slc := rfl
@[simp] theorem drainDeadlines_ptb (s : State) : (drainDeadlines s).ptb = s.ptb := rfl
@[simp] theorem drainDeadlines_ses (s : State) : (drainDeadlines s).ses = s.ses := rfl
@[simp] theorem drainDeadlines_fus_table (s : State) :
    (drainDeadlines s).fus.table = (s.fus.table.map (drainEntry s)) := rfl
@[simp] theorem drainDeadlines_fus_current (s : State) :
    (drainDeadlines s).fus.current = s.fus.current := rfl
@[simp] theorem drainDeadlines_fus_superseded (s : State) :
    (drainDeadlines s).fus.superseded = s.fus.superseded := rfl
@[simp] theorem drainDeadlines_was (s : State) : (drainDeadlines s).was = s.was := rfl
@[simp] theorem drainDeadlines_rst (s : State) : (drainDeadlines s).rst = s.rst := rfl
@[simp] theorem drainDeadlines_cnd (s : State) : (drainDeadlines s).cnd = s.cnd := rfl

/-! ### fusBegin -/

@[simp] theorem fusBegin_pending (n : Word16) (s : State) : (fusBegin n s).pending = s.pending := rfl
@[simp] theorem fusBegin_now (n : Word16) (s : State) : (fusBegin n s).now = s.now := rfl
@[simp] theorem fusBegin_stc (n : Word16) (s : State) : (fusBegin n s).stc = s.stc := rfl
@[simp] theorem fusBegin_settings (n : Word16) (s : State) : (fusBegin n s).settings = s.settings := rfl
@[simp] theorem fusBegin_lfe (n : Word16) (s : State) : (fusBegin n s).lfe = s.lfe := rfl
@[simp] theorem fusBegin_whu (n : Word16) (s : State) : (fusBegin n s).whu = s.whu := rfl
@[simp] theorem fusBegin_atr (n : Word16) (s : State) : (fusBegin n s).atr = s.atr := rfl
@[simp] theorem fusBegin_slc (n : Word16) (s : State) : (fusBegin n s).slc = s.slc := rfl
@[simp] theorem fusBegin_ptb (n : Word16) (s : State) : (fusBegin n s).ptb = s.ptb := rfl
@[simp] theorem fusBegin_ses (n : Word16) (s : State) : (fusBegin n s).ses = s.ses := rfl
@[simp] theorem fusBegin_fus_table (n : Word16) (s : State) :
    (fusBegin n s).fus.table = s.fus.table := rfl
@[simp] theorem fusBegin_fus_current (n : Word16) (s : State) :
    (fusBegin n s).fus.current = (some n) := rfl
@[simp] theorem fusBegin_fus_superseded (n : Word16) (s : State) :
    (fusBegin n s).fus.superseded = (none) := rfl
@[simp] theorem fusBegin_was (n : Word16) (s : State) : (fusBegin n s).was = s.was := rfl
@[simp] theorem fusBegin_rst (n : Word16) (s : State) : (fusBegin n s).rst = s.rst := rfl
@[simp] theorem fusBegin_cnd (n : Word16) (s : State) : (fusBegin n s).cnd = s.cnd := rfl

/-! ### onCurrent -/

@[simp] theorem onCurrent_pending (f : Summary → Summary) (s : State) : (onCurrent f s).pending = s.pending := rfl
@[simp] theorem onCurrent_now (f : Summary → Summary) (s : State) : (onCurrent f s).now = s.now := rfl
@[simp] theorem onCurrent_stc (f : Summary → Summary) (s : State) : (onCurrent f s).stc = s.stc := rfl
@[simp] theorem onCurrent_settings (f : Summary → Summary) (s : State) : (onCurrent f s).settings = s.settings := rfl
@[simp] theorem onCurrent_lfe (f : Summary → Summary) (s : State) : (onCurrent f s).lfe = s.lfe := rfl
@[simp] theorem onCurrent_whu (f : Summary → Summary) (s : State) : (onCurrent f s).whu = s.whu := rfl
@[simp] theorem onCurrent_atr (f : Summary → Summary) (s : State) : (onCurrent f s).atr = s.atr := rfl
@[simp] theorem onCurrent_slc (f : Summary → Summary) (s : State) : (onCurrent f s).slc = s.slc := rfl
@[simp] theorem onCurrent_ptb (f : Summary → Summary) (s : State) : (onCurrent f s).ptb = s.ptb := rfl
@[simp] theorem onCurrent_ses_state (f : Summary → Summary) (s : State) :
    (onCurrent f s).ses.state = s.ses.state := rfl
@[simp] theorem onCurrent_ses_number (f : Summary → Summary) (s : State) :
    (onCurrent f s).ses.number = s.ses.number := rfl
@[simp] theorem onCurrent_ses_direction (f : Summary → Summary) (s : State) :
    (onCurrent f s).ses.direction = s.ses.direction := rfl
@[simp] theorem onCurrent_ses_checked (f : Summary → Summary) (s : State) :
    (onCurrent f s).ses.checked = s.ses.checked := rfl
@[simp] theorem onCurrent_ses_opener (f : Summary → Summary) (s : State) :
    (onCurrent f s).ses.opener = s.ses.opener := rfl
@[simp] theorem onCurrent_ses_tf (f : Summary → Summary) (s : State) :
    (onCurrent f s).ses.tf = s.ses.tf := rfl
@[simp] theorem onCurrent_ses_tOpen (f : Summary → Summary) (s : State) :
    (onCurrent f s).ses.tOpen = s.ses.tOpen := rfl
@[simp] theorem onCurrent_ses_mark (f : Summary → Summary) (s : State) :
    (onCurrent f s).ses.mark = s.ses.mark := rfl
@[simp] theorem onCurrent_ses_tc (f : Summary → Summary) (s : State) :
    (onCurrent f s).ses.tc = s.ses.tc := rfl
@[simp] theorem onCurrent_ses_haltExpiry (f : Summary → Summary) (s : State) :
    (onCurrent f s).ses.haltExpiry = s.ses.haltExpiry := rfl
@[simp] theorem onCurrent_ses_closeExpiry (f : Summary → Summary) (s : State) :
    (onCurrent f s).ses.closeExpiry = s.ses.closeExpiry := rfl
@[simp] theorem onCurrent_ses_nextHaltTick (f : Summary → Summary) (s : State) :
    (onCurrent f s).ses.nextHaltTick = s.ses.nextHaltTick := rfl
@[simp] theorem onCurrent_ses_closePending (f : Summary → Summary) (s : State) :
    (onCurrent f s).ses.closePending = s.ses.closePending := rfl
@[simp] theorem onCurrent_ses_drainLimit (f : Summary → Summary) (s : State) :
    (onCurrent f s).ses.drainLimit = s.ses.drainLimit := rfl
@[simp] theorem onCurrent_ses_closedForMatching (f : Summary → Summary) (s : State) :
    (onCurrent f s).ses.closedForMatching = s.ses.closedForMatching := rfl
@[simp] theorem onCurrent_ses_held (f : Summary → Summary) (s : State) :
    (onCurrent f s).ses.held = s.ses.held := rfl
@[simp] theorem onCurrent_ses_current (f : Summary → Summary) (s : State) :
    (onCurrent f s).ses.current = (s.ses.current.map f) := rfl
@[simp] theorem onCurrent_ses_last (f : Summary → Summary) (s : State) :
    (onCurrent f s).ses.last = s.ses.last := rfl
@[simp] theorem onCurrent_fus (f : Summary → Summary) (s : State) : (onCurrent f s).fus = s.fus := rfl
@[simp] theorem onCurrent_was (f : Summary → Summary) (s : State) : (onCurrent f s).was = s.was := rfl
@[simp] theorem onCurrent_rst (f : Summary → Summary) (s : State) : (onCurrent f s).rst = s.rst := rfl
@[simp] theorem onCurrent_cnd (f : Summary → Summary) (s : State) : (onCurrent f s).cnd = s.cnd := rfl

/-! ### addLate -/

@[simp] theorem addLate_pending (n : Nat) (s : State) : (addLate n s).pending = s.pending := rfl
@[simp] theorem addLate_now (n : Nat) (s : State) : (addLate n s).now = s.now := rfl
@[simp] theorem addLate_stc (n : Nat) (s : State) : (addLate n s).stc = s.stc := rfl
@[simp] theorem addLate_settings (n : Nat) (s : State) : (addLate n s).settings = s.settings := rfl
@[simp] theorem addLate_lfe (n : Nat) (s : State) : (addLate n s).lfe = s.lfe := rfl
@[simp] theorem addLate_whu (n : Nat) (s : State) : (addLate n s).whu = s.whu := rfl
@[simp] theorem addLate_atr (n : Nat) (s : State) : (addLate n s).atr = s.atr := rfl
@[simp] theorem addLate_slc (n : Nat) (s : State) : (addLate n s).slc = s.slc := rfl
@[simp] theorem addLate_ptb (n : Nat) (s : State) : (addLate n s).ptb = s.ptb := rfl
@[simp] theorem addLate_ses_state (n : Nat) (s : State) :
    (addLate n s).ses.state = s.ses.state := rfl
@[simp] theorem addLate_ses_number (n : Nat) (s : State) :
    (addLate n s).ses.number = s.ses.number := rfl
@[simp] theorem addLate_ses_direction (n : Nat) (s : State) :
    (addLate n s).ses.direction = s.ses.direction := rfl
@[simp] theorem addLate_ses_checked (n : Nat) (s : State) :
    (addLate n s).ses.checked = s.ses.checked := rfl
@[simp] theorem addLate_ses_opener (n : Nat) (s : State) :
    (addLate n s).ses.opener = s.ses.opener := rfl
@[simp] theorem addLate_ses_tf (n : Nat) (s : State) :
    (addLate n s).ses.tf = s.ses.tf := rfl
@[simp] theorem addLate_ses_tOpen (n : Nat) (s : State) :
    (addLate n s).ses.tOpen = s.ses.tOpen := rfl
@[simp] theorem addLate_ses_mark (n : Nat) (s : State) :
    (addLate n s).ses.mark = s.ses.mark := rfl
@[simp] theorem addLate_ses_tc (n : Nat) (s : State) :
    (addLate n s).ses.tc = s.ses.tc := rfl
@[simp] theorem addLate_ses_haltExpiry (n : Nat) (s : State) :
    (addLate n s).ses.haltExpiry = s.ses.haltExpiry := rfl
@[simp] theorem addLate_ses_closeExpiry (n : Nat) (s : State) :
    (addLate n s).ses.closeExpiry = s.ses.closeExpiry := rfl
@[simp] theorem addLate_ses_nextHaltTick (n : Nat) (s : State) :
    (addLate n s).ses.nextHaltTick = s.ses.nextHaltTick := rfl
@[simp] theorem addLate_ses_closePending (n : Nat) (s : State) :
    (addLate n s).ses.closePending = s.ses.closePending := rfl
@[simp] theorem addLate_ses_drainLimit (n : Nat) (s : State) :
    (addLate n s).ses.drainLimit = s.ses.drainLimit := rfl
@[simp] theorem addLate_ses_closedForMatching (n : Nat) (s : State) :
    (addLate n s).ses.closedForMatching = s.ses.closedForMatching := rfl
@[simp] theorem addLate_ses_held (n : Nat) (s : State) :
    (addLate n s).ses.held = s.ses.held := rfl
@[simp] theorem addLate_ses_last (n : Nat) (s : State) :
    (addLate n s).ses.last = s.ses.last := rfl
@[simp] theorem addLate_fus (n : Nat) (s : State) : (addLate n s).fus = s.fus := rfl
@[simp] theorem addLate_was (n : Nat) (s : State) : (addLate n s).was = s.was := rfl
@[simp] theorem addLate_rst (n : Nat) (s : State) : (addLate n s).rst = s.rst := rfl
@[simp] theorem addLate_cnd (n : Nat) (s : State) : (addLate n s).cnd = s.cnd := rfl

/-! ### countWagon -/

@[simp] theorem countWagon_pending (s : State) : (countWagon s).pending = s.pending := rfl
@[simp] theorem countWagon_now (s : State) : (countWagon s).now = s.now := rfl
@[simp] theorem countWagon_stc (s : State) : (countWagon s).stc = s.stc := rfl
@[simp] theorem countWagon_settings (s : State) : (countWagon s).settings = s.settings := rfl
@[simp] theorem countWagon_lfe (s : State) : (countWagon s).lfe = s.lfe := rfl
@[simp] theorem countWagon_whu (s : State) : (countWagon s).whu = s.whu := rfl
@[simp] theorem countWagon_atr (s : State) : (countWagon s).atr = s.atr := rfl
@[simp] theorem countWagon_slc (s : State) : (countWagon s).slc = s.slc := rfl
@[simp] theorem countWagon_ptb (s : State) : (countWagon s).ptb = s.ptb := rfl
@[simp] theorem countWagon_ses_state (s : State) :
    (countWagon s).ses.state = s.ses.state := rfl
@[simp] theorem countWagon_ses_number (s : State) :
    (countWagon s).ses.number = s.ses.number := rfl
@[simp] theorem countWagon_ses_direction (s : State) :
    (countWagon s).ses.direction = s.ses.direction := rfl
@[simp] theorem countWagon_ses_checked (s : State) :
    (countWagon s).ses.checked = s.ses.checked := rfl
@[simp] theorem countWagon_ses_opener (s : State) :
    (countWagon s).ses.opener = s.ses.opener := rfl
@[simp] theorem countWagon_ses_tf (s : State) :
    (countWagon s).ses.tf = s.ses.tf := rfl
@[simp] theorem countWagon_ses_tOpen (s : State) :
    (countWagon s).ses.tOpen = s.ses.tOpen := rfl
@[simp] theorem countWagon_ses_mark (s : State) :
    (countWagon s).ses.mark = s.ses.mark := rfl
@[simp] theorem countWagon_ses_tc (s : State) :
    (countWagon s).ses.tc = s.ses.tc := rfl
@[simp] theorem countWagon_ses_haltExpiry (s : State) :
    (countWagon s).ses.haltExpiry = s.ses.haltExpiry := rfl
@[simp] theorem countWagon_ses_closeExpiry (s : State) :
    (countWagon s).ses.closeExpiry = s.ses.closeExpiry := rfl
@[simp] theorem countWagon_ses_nextHaltTick (s : State) :
    (countWagon s).ses.nextHaltTick = s.ses.nextHaltTick := rfl
@[simp] theorem countWagon_ses_closePending (s : State) :
    (countWagon s).ses.closePending = s.ses.closePending := rfl
@[simp] theorem countWagon_ses_drainLimit (s : State) :
    (countWagon s).ses.drainLimit = s.ses.drainLimit := rfl
@[simp] theorem countWagon_ses_closedForMatching (s : State) :
    (countWagon s).ses.closedForMatching = s.ses.closedForMatching := rfl
@[simp] theorem countWagon_ses_held (s : State) :
    (countWagon s).ses.held = s.ses.held := rfl
@[simp] theorem countWagon_ses_last (s : State) :
    (countWagon s).ses.last = s.ses.last := rfl
@[simp] theorem countWagon_fus (s : State) : (countWagon s).fus = s.fus := rfl
@[simp] theorem countWagon_was (s : State) : (countWagon s).was = s.was := rfl
@[simp] theorem countWagon_rst (s : State) : (countWagon s).rst = s.rst := rfl
@[simp] theorem countWagon_cnd (s : State) : (countWagon s).cnd = s.cnd := rfl

/-! ### countPhantom -/

@[simp] theorem countPhantom_pending (s : State) : (countPhantom s).pending = s.pending := rfl
@[simp] theorem countPhantom_now (s : State) : (countPhantom s).now = s.now := rfl
@[simp] theorem countPhantom_stc (s : State) : (countPhantom s).stc = s.stc := rfl
@[simp] theorem countPhantom_settings (s : State) : (countPhantom s).settings = s.settings := rfl
@[simp] theorem countPhantom_lfe (s : State) : (countPhantom s).lfe = s.lfe := rfl
@[simp] theorem countPhantom_whu (s : State) : (countPhantom s).whu = s.whu := rfl
@[simp] theorem countPhantom_atr (s : State) : (countPhantom s).atr = s.atr := rfl
@[simp] theorem countPhantom_slc (s : State) : (countPhantom s).slc = s.slc := rfl
@[simp] theorem countPhantom_ptb (s : State) : (countPhantom s).ptb = s.ptb := rfl
@[simp] theorem countPhantom_ses_state (s : State) :
    (countPhantom s).ses.state = s.ses.state := rfl
@[simp] theorem countPhantom_ses_number (s : State) :
    (countPhantom s).ses.number = s.ses.number := rfl
@[simp] theorem countPhantom_ses_direction (s : State) :
    (countPhantom s).ses.direction = s.ses.direction := rfl
@[simp] theorem countPhantom_ses_checked (s : State) :
    (countPhantom s).ses.checked = s.ses.checked := rfl
@[simp] theorem countPhantom_ses_opener (s : State) :
    (countPhantom s).ses.opener = s.ses.opener := rfl
@[simp] theorem countPhantom_ses_tf (s : State) :
    (countPhantom s).ses.tf = s.ses.tf := rfl
@[simp] theorem countPhantom_ses_tOpen (s : State) :
    (countPhantom s).ses.tOpen = s.ses.tOpen := rfl
@[simp] theorem countPhantom_ses_mark (s : State) :
    (countPhantom s).ses.mark = s.ses.mark := rfl
@[simp] theorem countPhantom_ses_tc (s : State) :
    (countPhantom s).ses.tc = s.ses.tc := rfl
@[simp] theorem countPhantom_ses_haltExpiry (s : State) :
    (countPhantom s).ses.haltExpiry = s.ses.haltExpiry := rfl
@[simp] theorem countPhantom_ses_closeExpiry (s : State) :
    (countPhantom s).ses.closeExpiry = s.ses.closeExpiry := rfl
@[simp] theorem countPhantom_ses_nextHaltTick (s : State) :
    (countPhantom s).ses.nextHaltTick = s.ses.nextHaltTick := rfl
@[simp] theorem countPhantom_ses_closePending (s : State) :
    (countPhantom s).ses.closePending = s.ses.closePending := rfl
@[simp] theorem countPhantom_ses_drainLimit (s : State) :
    (countPhantom s).ses.drainLimit = s.ses.drainLimit := rfl
@[simp] theorem countPhantom_ses_closedForMatching (s : State) :
    (countPhantom s).ses.closedForMatching = s.ses.closedForMatching := rfl
@[simp] theorem countPhantom_ses_held (s : State) :
    (countPhantom s).ses.held = s.ses.held := rfl
@[simp] theorem countPhantom_ses_last (s : State) :
    (countPhantom s).ses.last = s.ses.last := rfl
@[simp] theorem countPhantom_fus (s : State) : (countPhantom s).fus = s.fus := rfl
@[simp] theorem countPhantom_was (s : State) : (countPhantom s).was = s.was := rfl
@[simp] theorem countPhantom_rst (s : State) : (countPhantom s).rst = s.rst := rfl
@[simp] theorem countPhantom_cnd (s : State) : (countPhantom s).cnd = s.cnd := rfl

/-! ### countReversal -/

@[simp] theorem countReversal_pending (s : State) : (countReversal s).pending = s.pending := rfl
@[simp] theorem countReversal_now (s : State) : (countReversal s).now = s.now := rfl
@[simp] theorem countReversal_stc (s : State) : (countReversal s).stc = s.stc := rfl
@[simp] theorem countReversal_settings (s : State) : (countReversal s).settings = s.settings := rfl
@[simp] theorem countReversal_lfe (s : State) : (countReversal s).lfe = s.lfe := rfl
@[simp] theorem countReversal_whu (s : State) : (countReversal s).whu = s.whu := rfl
@[simp] theorem countReversal_atr (s : State) : (countReversal s).atr = s.atr := rfl
@[simp] theorem countReversal_slc (s : State) : (countReversal s).slc = s.slc := rfl
@[simp] theorem countReversal_ptb (s : State) : (countReversal s).ptb = s.ptb := rfl
@[simp] theorem countReversal_ses_state (s : State) :
    (countReversal s).ses.state = s.ses.state := rfl
@[simp] theorem countReversal_ses_number (s : State) :
    (countReversal s).ses.number = s.ses.number := rfl
@[simp] theorem countReversal_ses_direction (s : State) :
    (countReversal s).ses.direction = s.ses.direction := rfl
@[simp] theorem countReversal_ses_checked (s : State) :
    (countReversal s).ses.checked = s.ses.checked := rfl
@[simp] theorem countReversal_ses_opener (s : State) :
    (countReversal s).ses.opener = s.ses.opener := rfl
@[simp] theorem countReversal_ses_tf (s : State) :
    (countReversal s).ses.tf = s.ses.tf := rfl
@[simp] theorem countReversal_ses_tOpen (s : State) :
    (countReversal s).ses.tOpen = s.ses.tOpen := rfl
@[simp] theorem countReversal_ses_mark (s : State) :
    (countReversal s).ses.mark = s.ses.mark := rfl
@[simp] theorem countReversal_ses_tc (s : State) :
    (countReversal s).ses.tc = s.ses.tc := rfl
@[simp] theorem countReversal_ses_haltExpiry (s : State) :
    (countReversal s).ses.haltExpiry = s.ses.haltExpiry := rfl
@[simp] theorem countReversal_ses_closeExpiry (s : State) :
    (countReversal s).ses.closeExpiry = s.ses.closeExpiry := rfl
@[simp] theorem countReversal_ses_nextHaltTick (s : State) :
    (countReversal s).ses.nextHaltTick = s.ses.nextHaltTick := rfl
@[simp] theorem countReversal_ses_closePending (s : State) :
    (countReversal s).ses.closePending = s.ses.closePending := rfl
@[simp] theorem countReversal_ses_drainLimit (s : State) :
    (countReversal s).ses.drainLimit = s.ses.drainLimit := rfl
@[simp] theorem countReversal_ses_closedForMatching (s : State) :
    (countReversal s).ses.closedForMatching = s.ses.closedForMatching := rfl
@[simp] theorem countReversal_ses_held (s : State) :
    (countReversal s).ses.held = s.ses.held := rfl
@[simp] theorem countReversal_ses_last (s : State) :
    (countReversal s).ses.last = s.ses.last := rfl
@[simp] theorem countReversal_fus (s : State) : (countReversal s).fus = s.fus := rfl
@[simp] theorem countReversal_was (s : State) : (countReversal s).was = s.was := rfl
@[simp] theorem countReversal_rst (s : State) : (countReversal s).rst = s.rst := rfl
@[simp] theorem countReversal_cnd (s : State) : (countReversal s).cnd = s.cnd := rfl

/-! ### meetNumber -/

@[simp] theorem meetNumber_pending (n : Word16) (s : State) : (meetNumber n s).pending = s.pending := rfl
@[simp] theorem meetNumber_now (n : Word16) (s : State) : (meetNumber n s).now = s.now := rfl
@[simp] theorem meetNumber_stc (n : Word16) (s : State) : (meetNumber n s).stc = s.stc := rfl
@[simp] theorem meetNumber_settings (n : Word16) (s : State) : (meetNumber n s).settings = s.settings := rfl
@[simp] theorem meetNumber_lfe (n : Word16) (s : State) : (meetNumber n s).lfe = s.lfe := rfl
@[simp] theorem meetNumber_whu (n : Word16) (s : State) : (meetNumber n s).whu = s.whu := rfl
@[simp] theorem meetNumber_atr (n : Word16) (s : State) : (meetNumber n s).atr = s.atr := rfl
@[simp] theorem meetNumber_slc (n : Word16) (s : State) : (meetNumber n s).slc = s.slc := rfl
@[simp] theorem meetNumber_ptb (n : Word16) (s : State) : (meetNumber n s).ptb = s.ptb := rfl
@[simp] theorem meetNumber_ses_state (n : Word16) (s : State) :
    (meetNumber n s).ses.state = s.ses.state := rfl
@[simp] theorem meetNumber_ses_number (n : Word16) (s : State) :
    (meetNumber n s).ses.number = s.ses.number := rfl
@[simp] theorem meetNumber_ses_direction (n : Word16) (s : State) :
    (meetNumber n s).ses.direction = s.ses.direction := rfl
@[simp] theorem meetNumber_ses_checked (n : Word16) (s : State) :
    (meetNumber n s).ses.checked = s.ses.checked := rfl
@[simp] theorem meetNumber_ses_opener (n : Word16) (s : State) :
    (meetNumber n s).ses.opener = s.ses.opener := rfl
@[simp] theorem meetNumber_ses_tf (n : Word16) (s : State) :
    (meetNumber n s).ses.tf = s.ses.tf := rfl
@[simp] theorem meetNumber_ses_tOpen (n : Word16) (s : State) :
    (meetNumber n s).ses.tOpen = s.ses.tOpen := rfl
@[simp] theorem meetNumber_ses_mark (n : Word16) (s : State) :
    (meetNumber n s).ses.mark = (raiseMark n s.ses.mark) := rfl
@[simp] theorem meetNumber_ses_tc (n : Word16) (s : State) :
    (meetNumber n s).ses.tc = s.ses.tc := rfl
@[simp] theorem meetNumber_ses_haltExpiry (n : Word16) (s : State) :
    (meetNumber n s).ses.haltExpiry = s.ses.haltExpiry := rfl
@[simp] theorem meetNumber_ses_closeExpiry (n : Word16) (s : State) :
    (meetNumber n s).ses.closeExpiry = s.ses.closeExpiry := rfl
@[simp] theorem meetNumber_ses_nextHaltTick (n : Word16) (s : State) :
    (meetNumber n s).ses.nextHaltTick = s.ses.nextHaltTick := rfl
@[simp] theorem meetNumber_ses_closePending (n : Word16) (s : State) :
    (meetNumber n s).ses.closePending = s.ses.closePending := rfl
@[simp] theorem meetNumber_ses_drainLimit (n : Word16) (s : State) :
    (meetNumber n s).ses.drainLimit = s.ses.drainLimit := rfl
@[simp] theorem meetNumber_ses_closedForMatching (n : Word16) (s : State) :
    (meetNumber n s).ses.closedForMatching = s.ses.closedForMatching := rfl
@[simp] theorem meetNumber_ses_held (n : Word16) (s : State) :
    (meetNumber n s).ses.held = s.ses.held := rfl
@[simp] theorem meetNumber_ses_current (n : Word16) (s : State) :
    (meetNumber n s).ses.current = s.ses.current := rfl
@[simp] theorem meetNumber_ses_last (n : Word16) (s : State) :
    (meetNumber n s).ses.last = s.ses.last := rfl
@[simp] theorem meetNumber_fus (n : Word16) (s : State) : (meetNumber n s).fus = s.fus := rfl
@[simp] theorem meetNumber_was (n : Word16) (s : State) : (meetNumber n s).was = s.was := rfl
@[simp] theorem meetNumber_rst (n : Word16) (s : State) : (meetNumber n s).rst = s.rst := rfl
@[simp] theorem meetNumber_cnd (n : Word16) (s : State) : (meetNumber n s).cnd = s.cnd := rfl

/-! ### restartTimers -/

@[simp] theorem restartTimers_pending (tc : Time) (s : State) : (restartTimers tc s).pending = s.pending := rfl
@[simp] theorem restartTimers_now (tc : Time) (s : State) : (restartTimers tc s).now = s.now := rfl
@[simp] theorem restartTimers_stc (tc : Time) (s : State) : (restartTimers tc s).stc = s.stc := rfl
@[simp] theorem restartTimers_settings (tc : Time) (s : State) : (restartTimers tc s).settings = s.settings := rfl
@[simp] theorem restartTimers_lfe (tc : Time) (s : State) : (restartTimers tc s).lfe = s.lfe := rfl
@[simp] theorem restartTimers_whu (tc : Time) (s : State) : (restartTimers tc s).whu = s.whu := rfl
@[simp] theorem restartTimers_atr (tc : Time) (s : State) : (restartTimers tc s).atr = s.atr := rfl
@[simp] theorem restartTimers_slc (tc : Time) (s : State) : (restartTimers tc s).slc = s.slc := rfl
@[simp] theorem restartTimers_ptb (tc : Time) (s : State) : (restartTimers tc s).ptb = s.ptb := rfl
@[simp] theorem restartTimers_ses_state (tc : Time) (s : State) :
    (restartTimers tc s).ses.state = (SessionState.running) := rfl
@[simp] theorem restartTimers_ses_number (tc : Time) (s : State) :
    (restartTimers tc s).ses.number = s.ses.number := rfl
@[simp] theorem restartTimers_ses_direction (tc : Time) (s : State) :
    (restartTimers tc s).ses.direction = s.ses.direction := rfl
@[simp] theorem restartTimers_ses_checked (tc : Time) (s : State) :
    (restartTimers tc s).ses.checked = s.ses.checked := rfl
@[simp] theorem restartTimers_ses_opener (tc : Time) (s : State) :
    (restartTimers tc s).ses.opener = s.ses.opener := rfl
@[simp] theorem restartTimers_ses_tf (tc : Time) (s : State) :
    (restartTimers tc s).ses.tf = s.ses.tf := rfl
@[simp] theorem restartTimers_ses_tOpen (tc : Time) (s : State) :
    (restartTimers tc s).ses.tOpen = s.ses.tOpen := rfl
@[simp] theorem restartTimers_ses_mark (tc : Time) (s : State) :
    (restartTimers tc s).ses.mark = s.ses.mark := rfl
@[simp] theorem restartTimers_ses_tc (tc : Time) (s : State) :
    (restartTimers tc s).ses.tc = (some tc) := rfl
@[simp] theorem restartTimers_ses_haltExpiry (tc : Time) (s : State) :
    (restartTimers tc s).ses.haltExpiry = (some (addUs tc (haltUs s))) := rfl
@[simp] theorem restartTimers_ses_closeExpiry (tc : Time) (s : State) :
    (restartTimers tc s).ses.closeExpiry = (some (addUs tc (closeUs s))) := rfl
@[simp] theorem restartTimers_ses_nextHaltTick (tc : Time) (s : State) :
    (restartTimers tc s).ses.nextHaltTick = s.ses.nextHaltTick := rfl
@[simp] theorem restartTimers_ses_closePending (tc : Time) (s : State) :
    (restartTimers tc s).ses.closePending = (false) := rfl
@[simp] theorem restartTimers_ses_drainLimit (tc : Time) (s : State) :
    (restartTimers tc s).ses.drainLimit = s.ses.drainLimit := rfl
@[simp] theorem restartTimers_ses_closedForMatching (tc : Time) (s : State) :
    (restartTimers tc s).ses.closedForMatching = s.ses.closedForMatching := rfl
@[simp] theorem restartTimers_ses_held (tc : Time) (s : State) :
    (restartTimers tc s).ses.held = s.ses.held := rfl
@[simp] theorem restartTimers_ses_last (tc : Time) (s : State) :
    (restartTimers tc s).ses.last = s.ses.last := rfl
@[simp] theorem restartTimers_fus (tc : Time) (s : State) : (restartTimers tc s).fus = s.fus := rfl
@[simp] theorem restartTimers_was (tc : Time) (s : State) : (restartTimers tc s).was = s.was := rfl
@[simp] theorem restartTimers_rst (tc : Time) (s : State) : (restartTimers tc s).rst = s.rst := rfl
@[simp] theorem restartTimers_cnd (tc : Time) (s : State) : (restartTimers tc s).cnd = s.cnd := rfl

/-! ### fileSummary -/

@[simp] theorem fileSummary_pending (s : State) : (fileSummary s).pending = s.pending := rfl
@[simp] theorem fileSummary_now (s : State) : (fileSummary s).now = s.now := rfl
@[simp] theorem fileSummary_stc (s : State) : (fileSummary s).stc = s.stc := rfl
@[simp] theorem fileSummary_settings (s : State) : (fileSummary s).settings = s.settings := rfl
@[simp] theorem fileSummary_lfe (s : State) : (fileSummary s).lfe = s.lfe := rfl
@[simp] theorem fileSummary_whu (s : State) : (fileSummary s).whu = s.whu := rfl
@[simp] theorem fileSummary_atr (s : State) : (fileSummary s).atr = s.atr := rfl
@[simp] theorem fileSummary_slc (s : State) : (fileSummary s).slc = s.slc := rfl
@[simp] theorem fileSummary_ptb (s : State) : (fileSummary s).ptb = s.ptb := rfl
@[simp] theorem fileSummary_ses_state (s : State) :
    (fileSummary s).ses.state = (SessionState.idle) := rfl
@[simp] theorem fileSummary_ses_number (s : State) :
    (fileSummary s).ses.number = s.ses.number := rfl
@[simp] theorem fileSummary_ses_direction (s : State) :
    (fileSummary s).ses.direction = s.ses.direction := rfl
@[simp] theorem fileSummary_ses_checked (s : State) :
    (fileSummary s).ses.checked = s.ses.checked := rfl
@[simp] theorem fileSummary_ses_opener (s : State) :
    (fileSummary s).ses.opener = s.ses.opener := rfl
@[simp] theorem fileSummary_ses_tf (s : State) :
    (fileSummary s).ses.tf = s.ses.tf := rfl
@[simp] theorem fileSummary_ses_tOpen (s : State) :
    (fileSummary s).ses.tOpen = s.ses.tOpen := rfl
@[simp] theorem fileSummary_ses_mark (s : State) :
    (fileSummary s).ses.mark = s.ses.mark := rfl
@[simp] theorem fileSummary_ses_tc (s : State) :
    (fileSummary s).ses.tc = s.ses.tc := rfl
@[simp] theorem fileSummary_ses_haltExpiry (s : State) :
    (fileSummary s).ses.haltExpiry = (none) := rfl
@[simp] theorem fileSummary_ses_closeExpiry (s : State) :
    (fileSummary s).ses.closeExpiry = (none) := rfl
@[simp] theorem fileSummary_ses_nextHaltTick (s : State) :
    (fileSummary s).ses.nextHaltTick = (none) := rfl
@[simp] theorem fileSummary_ses_closePending (s : State) :
    (fileSummary s).ses.closePending = (false) := rfl
@[simp] theorem fileSummary_ses_drainLimit (s : State) :
    (fileSummary s).ses.drainLimit = (none) := rfl
@[simp] theorem fileSummary_ses_closedForMatching (s : State) :
    (fileSummary s).ses.closedForMatching = (false) := rfl
@[simp] theorem fileSummary_ses_held (s : State) :
    (fileSummary s).ses.held = s.ses.held := rfl
@[simp] theorem fileSummary_ses_current (s : State) :
    (fileSummary s).ses.current = (none) := rfl
@[simp] theorem fileSummary_fus (s : State) : (fileSummary s).fus = s.fus := rfl
@[simp] theorem fileSummary_was (s : State) : (fileSummary s).was = s.was := rfl
@[simp] theorem fileSummary_rst (s : State) : (fileSummary s).rst = s.rst := rfl
@[simp] theorem fileSummary_cnd (s : State) : (fileSummary s).cnd = s.cnd := rfl

/-! ### raiseHighest -/

@[simp] theorem raiseHighest_pending (j : Nat) (s : State) : (raiseHighest j s).pending = s.pending := rfl
@[simp] theorem raiseHighest_now (j : Nat) (s : State) : (raiseHighest j s).now = s.now := rfl
@[simp] theorem raiseHighest_stc (j : Nat) (s : State) : (raiseHighest j s).stc = s.stc := rfl
@[simp] theorem raiseHighest_settings (j : Nat) (s : State) : (raiseHighest j s).settings = s.settings := rfl
@[simp] theorem raiseHighest_lfe (j : Nat) (s : State) : (raiseHighest j s).lfe = s.lfe := rfl
@[simp] theorem raiseHighest_whu (j : Nat) (s : State) : (raiseHighest j s).whu = s.whu := rfl
@[simp] theorem raiseHighest_atr (j : Nat) (s : State) : (raiseHighest j s).atr = s.atr := rfl
@[simp] theorem raiseHighest_slc (j : Nat) (s : State) : (raiseHighest j s).slc = s.slc := rfl
@[simp] theorem raiseHighest_ptb (j : Nat) (s : State) : (raiseHighest j s).ptb = s.ptb := rfl
@[simp] theorem raiseHighest_ses (j : Nat) (s : State) : (raiseHighest j s).ses = s.ses := rfl
@[simp] theorem raiseHighest_fus (j : Nat) (s : State) : (raiseHighest j s).fus = s.fus := rfl
@[simp] theorem raiseHighest_was_items (j : Nat) (s : State) :
    (raiseHighest j s).was.items = s.was.items := rfl
@[simp] theorem raiseHighest_was_highest (j : Nat) (s : State) :
    (raiseHighest j s).was.highest = (max s.was.highest j) := rfl
@[simp] theorem raiseHighest_was_cursor (j : Nat) (s : State) :
    (raiseHighest j s).was.cursor = s.was.cursor := rfl
@[simp] theorem raiseHighest_was_group (j : Nat) (s : State) :
    (raiseHighest j s).was.group = s.was.group := rfl
@[simp] theorem raiseHighest_was_wagons (j : Nat) (s : State) :
    (raiseHighest j s).was.wagons = s.was.wagons := rfl
@[simp] theorem raiseHighest_was_roomForce (j : Nat) (s : State) :
    (raiseHighest j s).was.roomForce = s.was.roomForce := rfl
@[simp] theorem raiseHighest_rst (j : Nat) (s : State) : (raiseHighest j s).rst = s.rst := rfl
@[simp] theorem raiseHighest_cnd (j : Nat) (s : State) : (raiseHighest j s).cnd = s.cnd := rfl

/-! ### clearAssembly -/

@[simp] theorem clearAssembly_pending (s : State) : (clearAssembly s).pending = s.pending := rfl
@[simp] theorem clearAssembly_now (s : State) : (clearAssembly s).now = s.now := rfl
@[simp] theorem clearAssembly_stc (s : State) : (clearAssembly s).stc = s.stc := rfl
@[simp] theorem clearAssembly_settings (s : State) : (clearAssembly s).settings = s.settings := rfl
@[simp] theorem clearAssembly_lfe (s : State) : (clearAssembly s).lfe = s.lfe := rfl
@[simp] theorem clearAssembly_whu (s : State) : (clearAssembly s).whu = s.whu := rfl
@[simp] theorem clearAssembly_atr (s : State) : (clearAssembly s).atr = s.atr := rfl
@[simp] theorem clearAssembly_slc (s : State) : (clearAssembly s).slc = s.slc := rfl
@[simp] theorem clearAssembly_ptb (s : State) : (clearAssembly s).ptb = s.ptb := rfl
@[simp] theorem clearAssembly_ses (s : State) : (clearAssembly s).ses = s.ses := rfl
@[simp] theorem clearAssembly_fus (s : State) : (clearAssembly s).fus = s.fus := rfl
@[simp] theorem clearAssembly_was (s : State) : (clearAssembly s).was = Was.reset := rfl
@[simp] theorem clearAssembly_rst (s : State) : (clearAssembly s).rst = s.rst := rfl
@[simp] theorem clearAssembly_cnd (s : State) : (clearAssembly s).cnd = s.cnd := rfl

/-! ### clearLastSpeeds -/

@[simp] theorem clearLastSpeeds_pending (s : State) : (clearLastSpeeds s).pending = s.pending := rfl
@[simp] theorem clearLastSpeeds_now (s : State) : (clearLastSpeeds s).now = s.now := rfl
@[simp] theorem clearLastSpeeds_stc (s : State) : (clearLastSpeeds s).stc = s.stc := rfl
@[simp] theorem clearLastSpeeds_settings (s : State) : (clearLastSpeeds s).settings = s.settings := rfl
@[simp] theorem clearLastSpeeds_lfe (s : State) : (clearLastSpeeds s).lfe = s.lfe := rfl
@[simp] theorem clearLastSpeeds_atr (s : State) : (clearLastSpeeds s).atr = s.atr := rfl
@[simp] theorem clearLastSpeeds_slc (s : State) : (clearLastSpeeds s).slc = s.slc := rfl
@[simp] theorem clearLastSpeeds_ptb (s : State) : (clearLastSpeeds s).ptb = s.ptb := rfl
@[simp] theorem clearLastSpeeds_ses (s : State) : (clearLastSpeeds s).ses = s.ses := rfl
@[simp] theorem clearLastSpeeds_fus (s : State) : (clearLastSpeeds s).fus = s.fus := rfl
@[simp] theorem clearLastSpeeds_was (s : State) : (clearLastSpeeds s).was = s.was := rfl
@[simp] theorem clearLastSpeeds_rst (s : State) : (clearLastSpeeds s).rst = s.rst := rfl
@[simp] theorem clearLastSpeeds_cnd (s : State) : (clearLastSpeeds s).cnd = s.cnd := rfl

/-! ### changeRecord -/

@[simp] theorem changeRecord_pending (j : Nat) (f : OwnRecord → OwnRecord) (s : State) : (changeRecord j f s).pending = s.pending := rfl
@[simp] theorem changeRecord_now (j : Nat) (f : OwnRecord → OwnRecord) (s : State) : (changeRecord j f s).now = s.now := rfl
@[simp] theorem changeRecord_stc (j : Nat) (f : OwnRecord → OwnRecord) (s : State) : (changeRecord j f s).stc = s.stc := rfl
@[simp] theorem changeRecord_settings (j : Nat) (f : OwnRecord → OwnRecord) (s : State) : (changeRecord j f s).settings = s.settings := rfl
@[simp] theorem changeRecord_lfe (j : Nat) (f : OwnRecord → OwnRecord) (s : State) : (changeRecord j f s).lfe = s.lfe := rfl
@[simp] theorem changeRecord_whu (j : Nat) (f : OwnRecord → OwnRecord) (s : State) : (changeRecord j f s).whu = s.whu := rfl
@[simp] theorem changeRecord_atr_list (j : Nat) (f : OwnRecord → OwnRecord) (s : State) :
    (changeRecord j f s).atr.list = s.atr.list := rfl
@[simp] theorem changeRecord_atr_returnStack (j : Nat) (f : OwnRecord → OwnRecord) (s : State) :
    (changeRecord j f s).atr.returnStack = s.atr.returnStack := rfl
@[simp] theorem changeRecord_atr_exitStack (j : Nat) (f : OwnRecord → OwnRecord) (s : State) :
    (changeRecord j f s).atr.exitStack = s.atr.exitStack := rfl
@[simp] theorem changeRecord_atr_counter (j : Nat) (f : OwnRecord → OwnRecord) (s : State) :
    (changeRecord j f s).atr.counter = s.atr.counter := rfl
@[simp] theorem changeRecord_atr_timeline (j : Nat) (f : OwnRecord → OwnRecord) (s : State) :
    (changeRecord j f s).atr.timeline = s.atr.timeline := rfl
@[simp] theorem changeRecord_atr_records (j : Nat) (f : OwnRecord → OwnRecord) (s : State) :
    (changeRecord j f s).atr.records = (s.atr.records.map fun r => if r.ordinal == j then f r else r) := rfl
@[simp] theorem changeRecord_slc (j : Nat) (f : OwnRecord → OwnRecord) (s : State) : (changeRecord j f s).slc = s.slc := rfl
@[simp] theorem changeRecord_ptb (j : Nat) (f : OwnRecord → OwnRecord) (s : State) : (changeRecord j f s).ptb = s.ptb := rfl
@[simp] theorem changeRecord_ses (j : Nat) (f : OwnRecord → OwnRecord) (s : State) : (changeRecord j f s).ses = s.ses := rfl
@[simp] theorem changeRecord_fus (j : Nat) (f : OwnRecord → OwnRecord) (s : State) : (changeRecord j f s).fus = s.fus := rfl
@[simp] theorem changeRecord_was (j : Nat) (f : OwnRecord → OwnRecord) (s : State) : (changeRecord j f s).was = s.was := rfl
@[simp] theorem changeRecord_rst (j : Nat) (f : OwnRecord → OwnRecord) (s : State) : (changeRecord j f s).rst = s.rst := rfl
@[simp] theorem changeRecord_cnd (j : Nat) (f : OwnRecord → OwnRecord) (s : State) : (changeRecord j f s).cnd = s.cnd := rfl

/-! ### setEvent -/

@[simp] theorem setEvent_pending (k : Nat) (e : Event) (s : State) : (setEvent k e s).pending = s.pending := rfl
@[simp] theorem setEvent_now (k : Nat) (e : Event) (s : State) : (setEvent k e s).now = s.now := rfl
@[simp] theorem setEvent_stc (k : Nat) (e : Event) (s : State) : (setEvent k e s).stc = s.stc := rfl
@[simp] theorem setEvent_settings (k : Nat) (e : Event) (s : State) : (setEvent k e s).settings = s.settings := rfl
@[simp] theorem setEvent_lfe (k : Nat) (e : Event) (s : State) : (setEvent k e s).lfe = s.lfe := rfl
@[simp] theorem setEvent_whu (k : Nat) (e : Event) (s : State) : (setEvent k e s).whu = s.whu := rfl
@[simp] theorem setEvent_atr_list (k : Nat) (e : Event) (s : State) :
    (setEvent k e s).atr.list = s.atr.list := rfl
@[simp] theorem setEvent_atr_returnStack (k : Nat) (e : Event) (s : State) :
    (setEvent k e s).atr.returnStack = s.atr.returnStack := rfl
@[simp] theorem setEvent_atr_exitStack (k : Nat) (e : Event) (s : State) :
    (setEvent k e s).atr.exitStack = s.atr.exitStack := rfl
@[simp] theorem setEvent_atr_counter (k : Nat) (e : Event) (s : State) :
    (setEvent k e s).atr.counter = s.atr.counter := rfl
@[simp] theorem setEvent_atr_timeline (k : Nat) (e : Event) (s : State) :
    (setEvent k e s).atr.timeline = (setPlace s.atr.timeline k e) := rfl
@[simp] theorem setEvent_atr_records (k : Nat) (e : Event) (s : State) :
    (setEvent k e s).atr.records = s.atr.records := rfl
@[simp] theorem setEvent_slc (k : Nat) (e : Event) (s : State) : (setEvent k e s).slc = s.slc := rfl
@[simp] theorem setEvent_ptb (k : Nat) (e : Event) (s : State) : (setEvent k e s).ptb = s.ptb := rfl
@[simp] theorem setEvent_ses (k : Nat) (e : Event) (s : State) : (setEvent k e s).ses = s.ses := rfl
@[simp] theorem setEvent_fus (k : Nat) (e : Event) (s : State) : (setEvent k e s).fus = s.fus := rfl
@[simp] theorem setEvent_was (k : Nat) (e : Event) (s : State) : (setEvent k e s).was = s.was := rfl
@[simp] theorem setEvent_rst (k : Nat) (e : Event) (s : State) : (setEvent k e s).rst = s.rst := rfl
@[simp] theorem setEvent_cnd (k : Nat) (e : Event) (s : State) : (setEvent k e s).cnd = s.cnd := rfl

/-! ### setEndUnit -/

@[simp] theorem setEndUnit_pending (e : PlatformEnd) (u : EndUnit) (s : State) : (setEndUnit e u s).pending = s.pending := by
  cases e <;> rfl
@[simp] theorem setEndUnit_now (e : PlatformEnd) (u : EndUnit) (s : State) : (setEndUnit e u s).now = s.now := by
  cases e <;> rfl
@[simp] theorem setEndUnit_stc (e : PlatformEnd) (u : EndUnit) (s : State) : (setEndUnit e u s).stc = s.stc := by
  cases e <;> rfl
@[simp] theorem setEndUnit_settings (e : PlatformEnd) (u : EndUnit) (s : State) : (setEndUnit e u s).settings = s.settings := by
  cases e <;> rfl
@[simp] theorem setEndUnit_lfe (e : PlatformEnd) (u : EndUnit) (s : State) : (setEndUnit e u s).lfe = s.lfe := by
  cases e <;> rfl
@[simp] theorem setEndUnit_atr (e : PlatformEnd) (u : EndUnit) (s : State) : (setEndUnit e u s).atr = s.atr := by
  cases e <;> rfl
@[simp] theorem setEndUnit_slc (e : PlatformEnd) (u : EndUnit) (s : State) : (setEndUnit e u s).slc = s.slc := by
  cases e <;> rfl
@[simp] theorem setEndUnit_ptb (e : PlatformEnd) (u : EndUnit) (s : State) : (setEndUnit e u s).ptb = s.ptb := by
  cases e <;> rfl
@[simp] theorem setEndUnit_ses (e : PlatformEnd) (u : EndUnit) (s : State) : (setEndUnit e u s).ses = s.ses := by
  cases e <;> rfl
@[simp] theorem setEndUnit_fus (e : PlatformEnd) (u : EndUnit) (s : State) : (setEndUnit e u s).fus = s.fus := by
  cases e <;> rfl
@[simp] theorem setEndUnit_was (e : PlatformEnd) (u : EndUnit) (s : State) : (setEndUnit e u s).was = s.was := by
  cases e <;> rfl
@[simp] theorem setEndUnit_rst (e : PlatformEnd) (u : EndUnit) (s : State) : (setEndUnit e u s).rst = s.rst := by
  cases e <;> rfl
@[simp] theorem setEndUnit_cnd (e : PlatformEnd) (u : EndUnit) (s : State) : (setEndUnit e u s).cnd = s.cnd := by
  cases e <;> rfl

/-! ### setLastSpeed -/

@[simp] theorem setLastSpeed_pending (e : PlatformEnd) (v : Nat) (s : State) : (setLastSpeed e v s).pending = s.pending := by
  cases e <;> rfl
@[simp] theorem setLastSpeed_now (e : PlatformEnd) (v : Nat) (s : State) : (setLastSpeed e v s).now = s.now := by
  cases e <;> rfl
@[simp] theorem setLastSpeed_stc (e : PlatformEnd) (v : Nat) (s : State) : (setLastSpeed e v s).stc = s.stc := by
  cases e <;> rfl
@[simp] theorem setLastSpeed_settings (e : PlatformEnd) (v : Nat) (s : State) : (setLastSpeed e v s).settings = s.settings := by
  cases e <;> rfl
@[simp] theorem setLastSpeed_lfe (e : PlatformEnd) (v : Nat) (s : State) : (setLastSpeed e v s).lfe = s.lfe := by
  cases e <;> rfl
@[simp] theorem setLastSpeed_atr (e : PlatformEnd) (v : Nat) (s : State) : (setLastSpeed e v s).atr = s.atr := by
  cases e <;> rfl
@[simp] theorem setLastSpeed_slc (e : PlatformEnd) (v : Nat) (s : State) : (setLastSpeed e v s).slc = s.slc := by
  cases e <;> rfl
@[simp] theorem setLastSpeed_ptb (e : PlatformEnd) (v : Nat) (s : State) : (setLastSpeed e v s).ptb = s.ptb := by
  cases e <;> rfl
@[simp] theorem setLastSpeed_ses (e : PlatformEnd) (v : Nat) (s : State) : (setLastSpeed e v s).ses = s.ses := by
  cases e <;> rfl
@[simp] theorem setLastSpeed_fus (e : PlatformEnd) (v : Nat) (s : State) : (setLastSpeed e v s).fus = s.fus := by
  cases e <;> rfl
@[simp] theorem setLastSpeed_was (e : PlatformEnd) (v : Nat) (s : State) : (setLastSpeed e v s).was = s.was := by
  cases e <;> rfl
@[simp] theorem setLastSpeed_rst (e : PlatformEnd) (v : Nat) (s : State) : (setLastSpeed e v s).rst = s.rst := by
  cases e <;> rfl
@[simp] theorem setLastSpeed_cnd (e : PlatformEnd) (v : Nat) (s : State) : (setLastSpeed e v s).cnd = s.cnd := by
  cases e <;> rfl

@[simp] theorem endUnit_setEndUnit (e : PlatformEnd) (u : EndUnit) (s : State) : endUnit (setEndUnit e u s) e = u := by
  cases e <;> rfl

@[simp] theorem endUnit_setEndUnit_other (e : PlatformEnd) (u : EndUnit) (s : State) :
    endUnit (setEndUnit e u s) (otherEnd e) = endUnit s (otherEnd e) := by
  cases e <;> rfl

/-! ### Guards and the clock -/

@[simp] theorem onlyIf_true (f : State → State) (s : State) : onlyIf true f s = f s := rfl

@[simp] theorem onlyIf_false (f : State → State) (s : State) : onlyIf false f s = s := rfl

theorem atTime_held (t : Time) (f : State → State) (s : State) (h : s.stc.inReset = true) : atTime t f s = s := by
  simp [atTime, h]

theorem atTime_running (t : Time) (f : State → State) (s : State) (h : s.stc.inReset = false) :
    atTime t f s = f { s with now := t } := by
  simp [atTime, h]

end Sys2Proof.Machine
end

