-- ==== Sys2Proof/Laws/Heads.lean ====
section
/-! SUPPORT. What the discarding of a HALF does to its end and to the causes (R22, R23, R31, R32, R36). -/

namespace Sys2Proof.Machine

open Sys2Proof

/-- The run and the faults of an end after a discarded HALF. -/
theorem faultByRun_countUnpaired (g : HeadNo) (u : EndUnit) :
    faultByRun (countUnpaired g { u with half := none }) = discardedEnd g u := by
  obtain ⟨l1, l2, hf, rh, rc, f1, f2, ls⟩ := u
  unfold faultByRun countUnpaired discardedEnd countUp isDead setFault otherHead
  by_cases h : rh = some g
  · subst h
    by_cases h3 : rc < 4
    · by_cases h4 : rc = 3 <;> cases g <;> cases f1 <;> cases f2 <;> simp [h3, h4]
    · by_cases h4 : rc = 4 <;> cases g <;> cases f1 <;> cases f2 <;> simp [h3, h4]
  · have hb : (rh == some g) = false := by simpa using h
    cases g <;> cases f1 <;> cases f2 <;> simp [h, hb]

/-- What discarding a HALF does. -/
theorem discardHalf_does (e : PlatformEnd) (g : HeadNo) (s : State) :
    discardHalf e g s
      = setEndUnit e (discardedEnd g (endUnit s e)) { s with cnd := causesAfterDiscard g (endUnit s e) s.cnd } := by
  unfold discardHalf causesAfterDiscard
  rw [faultByRun_countUnpaired]
  generalize discardedEnd g (endUnit s e) = u
  unfold onlyIf
  by_cases h : u.runCount = 4
  · simp only [h, beq_self_eq_true, if_true]
    cases e <;> rfl
  · have : (u.runCount == 4) = false := by simpa using h
    simp only [h, this, Bool.false_eq_true, if_false]

/-- The lock of a head plays no part in it. -/
theorem discardedEnd_lock (g h : HeadNo) (x : Option Time) (u : EndUnit) :
    discardedEnd g (setLock h x u) = setLock h x (discardedEnd g u) := by cases h <;> rfl

/-- Nor in which head works. -/
theorem workingHead_setLock (h : HeadNo) (x : Option Time) (u : EndUnit) :
    workingHead (setLock h x u) = workingHead u := by cases h <;> rfl

/-- An end that keeps a working head keeps its last speed. -/
theorem discardedEnd_lastSpeed (g h : HeadNo) (u : EndUnit) (hw : workingHead (discardedEnd g u) = some h) :
    (discardedEnd g u).lastSpeed = u.lastSpeed := by
  unfold workingHead at hw
  have key : (discardedEnd g u).lastSpeed = if (discardedEnd g u).fault1 && (discardedEnd g u).fault2
      && !(u.fault1 && u.fault2) then none else u.lastSpeed := rfl
  rw [key]
  cases h1 : (discardedEnd g u).fault1 <;> cases h2 : (discardedEnd g u).fault2 <;> simp [h1, h2] at hw ⊢

end Sys2Proof.Machine
end

