-- ==== Sys2Proof/Laws/Moves.lean ====
section
/-! SUPPORT. What a step can do, said once: every step is a chain of the elementary moves listed in `KeptStore`, `KeptPass` and `Kept`. A
property that every one of them keeps is kept by every step (`Kept.step`); an invariant is proved by going through the
moves. Most invariants need less of the session, table and assembly moves: `Simple`. -/

namespace Sys2Proof.Machine

open Sys2Proof

/-- Two entries of one ordinal with tables of the same size: what every change to an entry leaves. -/
def Entry.sameKey (e f : Entry) : Prop :=
  f.ordinal = e.ordinal ∧ f.rows.length = e.rows.length ∧ f.exits.length = e.exits.length

/-- Two units of an end with the same head faults, and the same run or none: what every change to a unit leaves, but for
the end of a half and the clearing of faults. -/
def EndUnit.sameRun (u v : EndUnit) : Prop :=
  v.fault1 = u.fault1 ∧ v.fault2 = u.fault2
    ∧ ((v.runHead = u.runHead ∧ v.runCount = u.runCount) ∨ (v.runHead = none ∧ v.runCount = 0))

/-- A change to the SES that neither closes the session nor closes it for matching. -/
def Ses.goesTo (y x : Ses) : Prop :=
  (x.state = .idle → y.state = .idle) ∧ (x.closedForMatching = true → y.closedForMatching = true)

theorem Ses.goesTo.same {y x : Ses} (h : x.state = y.state) (h' : x.closedForMatching = y.closedForMatching) :
    y.goesTo x := ⟨fun e => h ▸ e, fun e => h' ▸ e⟩

/-- `P` is kept by every elementary move of the machine but the ends of a session. -/
structure KeptStore (P : State → Prop) : Prop where
  now        : ∀ t s, P s → P { s with now := t }
  unit       : ∀ e u s, (endUnit s e).sameRun u → P s → P (setEndUnit e u s)
  speeds     : ∀ s, P s → P (clearLastSpeeds s)
  discard    : ∀ e h s, P s → P (discardHalf e h s)
  faultsGone : ∀ e s, P s → P (clearFaults e s)
  peer       : ∀ n p s, P s → P (setPeer n p s)
  exit       : ∀ s, P s → P (chooseExit s)
  layout     : ∀ s, P s → P (assessLayout s)
  hailTimer  : ∀ x s, P s → P { s with ptb := { s.ptb with hailTimer := x } }
  ses        : ∀ x s, (SesGood s.ses → SesGood x) → s.ses.goesTo x → P s → P { s with ses := x }
  spacing    : ∀ j s, P s → P (formSpacing j s)
  highest    : ∀ j s, P s → P (raiseHighest j s)
  firstEntry : ∀ j t v s, P s → P (takeFirstEntry j t v s)
  roomForce  : ∀ b s, P s → P { s with was := { s.was with roomForce := b } }
  wagons     : ∀ n s, P s → P { s with was := { s.was with wagons := n } }
  trialled   : ∀ g s, s.was.group = none → cursorReachable s = true → trial s 1 s.settings.patterns = some g → P s →
                 P { s with was := { s.was with group := some g } }
  moveOn     : ∀ g s, s.was.group = some g → P s → P (leaveGroup g s)
  latch      : ∀ c s, P s → P (latch c s)
  clear      : ∀ m s, P s → P (clearCauses m s)
  handOver   : ∀ b t s, P s → P (handOver b t s)
  start      : ∀ n s, P s → P (startFrame n s)
  lose       : ∀ s, P s → P (loseArbitration s)
  attempt    : ∀ r s, P s → P (endAttempt r s)
  backoff    : ∀ s, P s → P (endBackoff s)
  probe      : ∀ s, P s → P (expireProbeTimer s)
  ignore     : ∀ s, P s → P (ignoreFrame s)
  admitted   : ∀ k t f s, P s → P (admitFrame k t f s)
  accept     : ∀ s, P s → s.slc.receiveQueue ≠ [] → P (acceptHead s)
  instant    : ∀ x s, P s → P (instantDue x s)
  abandon    : ∀ s, P s → P (abandonBlock s)
  listMove   : ∀ k s a j, P s → listOperation k s.atr = some (a, j) → P { s with atr := a }
  timeline   : ∀ x s, x.length ≤ 32 ∨ x.length ≤ s.atr.timeline.length → P s →
                 P { s with atr := { s.atr with timeline := x } }
  records    : ∀ x s, P s → P { s with atr := { s.atr with records := x } }
  freshAtr   : ∀ s, P s → P { s with atr := Atr.reset }
  fusMap     : ∀ (f : Entry → Entry) s, (∀ e : Entry, e.sameKey (f e)) → P s →
                 P { s with fus := { s.fus with table := s.fus.table.map f } }
  fusNumbers : ∀ x y s, P s → P { s with fus := { s.fus with current := x, superseded := y } }
  create     : ∀ j x y s, mayCreate s j = true → s.fus.table.length < 64 → findEntry s j = none → P s →
                 P (createEntry j x y s)
  join       : ∀ r s, P s → r.index = s.rst.nextIndex → P (joinRing r s)
  deferred   : ∀ x s, P s → P { s with rst := { s.rst with deferred := x } }
  fetched    : ∀ s r, P s → recordAt s s.rst.readPointer = some r →
                 P { s with rst := { s.rst with readPointer := s.rst.readPointer + 1 } }
  sought     : ∀ i s, P s → ((recordAt s i).isSome || i == s.rst.nextIndex) = true →
                 P { s with rst := { s.rst with readPointer := i } }
  fullReset  : ∀ s, P s → P (fullReset s)
  release    : ∀ x s, P s → P (release x s)
  restart    : ∀ x s, P s → P (restart x s)
  endLoading : ∀ x s, P s → P (endLoading x s)

variable {P : State → Prop}

/-! ### Shared operations -/

theorem kept_onlyIf {p : Bool} {f : State → State} {s : State} (hs : P s) (hf : P s → P (f s)) : P (onlyIf p f s) := by
  unfold onlyIf
  split
  · exact hf hs
  · exact hs

theorem kept_foldl {α : Type} {f : State → α → State} (hf : ∀ s a, P s → P (f s a)) :
    ∀ (xs : List α) (s : State), P s → P (xs.foldl f s) := by
  intro xs
  induction xs with
  | nil => exact fun s hs => hs
  | cons a xs ih => exact fun s hs => ih (f s a) (hf s a hs)

/-- A change to the current summary that leaves what the session holds as well. -/
def Summary.sameHead (m n : Summary) : Prop :=
  n.number = m.number ∧ n.direction = m.direction ∧ n.firstEdge = m.firstEdge ∧ n.lastCrossing = m.lastCrossing

/-- A change to the SES that keeps the session facts by rewriting the summary only. -/
theorem SesGood.onSummary {y : Ses} (h : SesGood y) (f : Summary → Summary) (hf : ∀ m : Summary, m.sameHead (f m)) :
    SesGood { y with current := y.current.map f } := by
  obtain ⟨h1, h2, h3, h4, h5, h6, h7, h8, h9, h10⟩ := h
  refine ⟨fun hi => by simp [h1 hi], fun hi => ?_, h3, h4, h5, h6, h7, h8, h9, h10⟩
  obtain ⟨m, e, a, b, c, d⟩ := h2 hi
  obtain ⟨fa, fb, fc, fd⟩ := hf m
  exact ⟨f m, by simp [e], fa.trans a, fb.trans b, by rw [fc]; exact c, by rw [fd]; exact d⟩

theorem KeptStore.onCurrent (h : KeptStore P) (f : Summary → Summary) (hf : ∀ m : Summary, m.sameHead (f m)) {s : State}
    (hs : P s) : P (onCurrent f s) := h.ses _ s (fun h => h.onSummary f hf) (.same rfl rfl) hs

theorem KeptStore.changeEntry (h : KeptStore P) {j : Nat} {f : Entry → Entry} (hf : ∀ e : Entry, e.sameKey (f e)) {s : State} (hs : P s) :
    P (changeEntry j f s) := by
  refine h.fusMap _ s ?_ hs
  intro e
  split
  · exact hf e
  · exact ⟨rfl, rfl, rfl⟩

theorem KeptStore.changeRecord (h : KeptStore P) {j : Nat} {f : OwnRecord → OwnRecord} {s : State} (hs : P s) :
    P (changeRecord j f s) := h.records _ s hs

theorem KeptStore.reply (h : KeptStore P) {n : BitVec 4} {x : ReplyStatus} {k : Byte} {c : Content} {s : State} (hs : P s) :
    P (reply n x k c s) := h.handOver _ _ s hs

/-! ### Wagon assembly and store -/

theorem KeptStore.sendTally (h : KeptStore P) {r : WagonRecord} {s : State} (hs : P s) : P (sendTally r s) :=
  kept_onlyIf hs fun hs => h.handOver _ _ s hs

theorem KeptStore.answerDeferred (h : KeptStore P) {r : WagonRecord} {s : State} (hs : P s) : P (answerDeferred r s) := by
  unfold Machine.answerDeferred
  split
  · exact hs
  · split
    · exact h.reply (h.deferred _ s hs)
    · exact hs

theorem KeptStore.refuseDeferred (h : KeptStore P) {s : State} (hs : P s) : P (refuseDeferred s) := by
  unfold Machine.refuseDeferred
  split
  · exact hs
  · exact h.reply (h.deferred _ s hs)

theorem KeptStore.countWagon (h : KeptStore P) {s : State} (hs : P s) : P (countWagon s) :=
  h.onCurrent (fun m => { m with wagons := countUp 65535 m.wagons }) (fun _ => ⟨rfl, rfl, rfl, rfl⟩) hs

theorem KeptStore.storeRecord (h : KeptStore P) {r : WagonRecord} {s : State} (hs : P s) (hr : r.index = s.rst.nextIndex) :
    P (storeRecord r s) := by
  unfold Machine.storeRecord
  exact h.answerDeferred (h.sendTally (h.countWagon (h.join _ _ (h.wagons _ s hs) hr)))

theorem KeptStore.addLate (h : KeptStore P) {n : Nat} {s : State} (hs : P s) : P (addLate n s) :=
  h.onCurrent (fun m => { m with late := min 65535 (m.late + n) }) (fun _ => ⟨rfl, rfl, rfl, rfl⟩) hs

theorem KeptStore.storeGroup (h : KeptStore P) {g : Group} {s : State} (hg : s.was.group = some g) (hs : P s) :
    P (storeGroup g s) := by
  refine h.moveOn g _ ?_ (h.storeRecord hs rfl)
  obtain ⟨_, _, _, e⟩ := storeRecord_eq (buildRecord s g) s
  rw [e]
  exact hg

theorem KeptStore.endPass (h : KeptStore P) {b : Bool} {s : State} (hs : P s) : P (endPass b s) := by
  unfold Machine.endPass
  split
  · exact hs
  · exact h.roomForce _ s hs

theorem KeptStore.passLoop (h : KeptStore P) : ∀ (n : Nat) (b : Bool) (s : State), P s → P (passLoop n b s) := by
  intro n
  induction n with
  | zero => exact fun b s hs => h.endPass hs
  | succ n ih =>
    intro b s hs
    unfold Machine.passLoop
    split
    · rename_i g hg
      split
      · exact ih _ _ (h.storeGroup hg hs)
      · exact h.endPass hs
    · rename_i hg
      split
      · rename_i hc
        split
        · exact h.endPass hs
        · rename_i g ht
          exact ih _ _ (h.trialled g s hg hc ht hs)
      · exact h.endPass hs

theorem KeptStore.pass (h : KeptStore P) {s : State} (hs : P s) : P (pass s) := h.passLoop _ _ s hs

/-! ### Session begin and close -/

theorem KeptStore.completeRecord (h : KeptStore P) {n : Word16} {s : State} {r : OwnRecord} (hs : P s) :
    P (completeRecord n s r) := by
  unfold Machine.completeRecord
  split
  · exact hs
  · exact h.handOver _ _ s hs

theorem KeptStore.freshStart (h : KeptStore P) {n : Word16} {s : State} (hs : P s) : P (freshStart n s) :=
  h.freshAtr _ (kept_foldl (fun _ _ hs => h.completeRecord hs) _ _ hs)

theorem KeptStore.chooseExit (h : KeptStore P) {s : State} (hs : P s) : P (chooseExit s) := h.exit s hs

theorem KeptStore.meetNumber (h : KeptStore P) {n : Word16} {s : State} (hs : P s) : P (meetNumber n s) :=
  h.ses _ s (fun ⟨a, b, c, d, e, f, g, i, j, k⟩ => ⟨a, b, c, d, e, f, g, i, j, k⟩) (.same rfl rfl) hs

theorem KeptStore.fusBegin (h : KeptStore P) {n : Word16} {s : State} (hs : P s) : P (fusBegin n s) := h.fusNumbers _ _ s hs

theorem SesGood.begin {n : Word16} {d : Direction} {b : Bool} {o : Nat} {x y z : Time} {s : State}
    (hi : s.ses.state = .idle) (h : SesGood s.ses) : SesGood (beginFields n d b o x y z s).ses := by
  have hh : s.ses.held = none := by
    cases e : s.ses.held with
    | none => rfl
    | some _ => exact absurd (h.held (by simp [e])) (by simp [hi])
  constructor <;> simp [beginFields, beginSummary, hh]

theorem KeptStore.beginSession (h : KeptStore P) {n : Word16} {d : Direction} {b : Bool} {o : Nat} {x y z : Time} {s : State}
    (hi : s.ses.state = .idle) (hs : P s) : P (beginSession n d b o x y z s) :=
  h.exit _ (h.fusBegin (h.freshStart (h.abandon _
    (h.ses _ s (fun hg => hg.begin hi) ⟨fun e => (by cases e), fun e => (by cases e)⟩ hs))))

/-- `P` is kept by the draining tests too: by closing for matching, and by the close of a session whose table is empty. -/
structure KeptPass (P : State → Prop) : Prop extends KeptStore P where
  matching : ∀ s, s.ses.state = .draining → allFinal s = true → P s → P (closeMatching s)
  finish   : ∀ s, s.fus.table = [] → P s → P (adoptHeld (closeSession s))

theorem KeptPass.drainTests (h : KeptPass P) {s : State} (hs : P s) : P (drainTests s) := by
  unfold Machine.drainTests
  split
  · rename_i hd
    extract_lets s1
    have h1 : P s1 := by
      show P (if (!s.ses.closedForMatching && allFinal s) = true then Machine.closeMatching s else s)
      split
      · rename_i hf
        exact h.matching _ (by simpa using hd) (by simp at hf; exact hf.2) hs
      · exact hs
    split
    · rename_i hc
      exact h.finish _ (by simp at hc; exact hc.2) h1
    · exact h1
  · exact hs

theorem KeptPass.assemble (h : KeptPass P) {s : State} (hs : P s) : P (assemble s) := h.drainTests (h.pass hs)

/-! ### Fusion -/

theorem KeptPass.finalEntry (h : KeptPass P) {j : Nat} {s : State} (hs : P s) : P (finalEntry j s) :=
  h.pass (h.changeEntry (fun _ => by exact ⟨rfl, rfl, rfl⟩) hs)

theorem KeptPass.finalize (h : KeptPass P) {j : Nat} {s : State} (hs : P s) : P (finalize j s) := h.drainTests (h.finalEntry hs)

theorem KeptPass.testEntry (h : KeptPass P) {j : Nat} {s : State} (hs : P s) : P (testEntry j s) := by
  unfold Machine.testEntry
  split
  · exact hs
  · split
    · exact h.finalize hs
    · exact hs

theorem KeptPass.testAll (h : KeptPass P) {s : State} (hs : P s) : P (testAll s) :=
  kept_foldl (fun _ _ hs => h.testEntry hs) _ _ hs

theorem KeptPass.lateInEntry (h : KeptPass P) {j : Nat} {s : State} (hs : P s) : P (lateInEntry j s) :=
  h.latch _ _ (h.changeEntry (fun _ => by exact ⟨rfl, rfl, rfl⟩) hs)

theorem KeptPass.lateInCurrent (h : KeptPass P) {s : State} (hs : P s) : P (lateInCurrent s) := h.latch _ _ (h.addLate hs)

theorem KeptPass.lateInLast (h : KeptPass P) {s : State} (hs : P s) : P (lateInLast s) := h.latch _ _
    (h.ses _ s (fun ⟨a, b, c, d, e, f, g, i, j, k⟩ => ⟨a, b, c, d, e, f, g, i, j, k⟩) (.same rfl rfl) hs)

theorem KeptPass.lateWithoutEntry (h : KeptPass P) {n : Word16} {s : State} (hs : P s) : P (lateWithoutEntry n s) := by
  unfold Machine.lateWithoutEntry
  split
  · exact h.lateInCurrent hs
  · exact h.lateInLast hs

theorem KeptPass.markForced (h : KeptPass P) {j : Nat} {s : State} (hs : P s) : P (markForced j s) :=
  h.changeEntry (fun _ => by exact ⟨rfl, rfl, rfl⟩) hs

theorem KeptPass.forceEntry (h : KeptPass P) {j : Nat} {s : State} (hs : P s) : P (forceEntry j s) :=
  h.finalize (h.latch _ _ (h.markForced hs))

theorem KeptPass.forceAll (h : KeptPass P) {s : State} (hs : P s) : P (forceAll s) := by
  unfold Machine.forceAll
  split
  · exact hs
  · exact kept_foldl (fun _ _ hs => h.finalEntry (h.markForced hs)) _ _ (h.latch _ _ hs)

theorem KeptPass.makeRoom (h : KeptPass P) : ∀ (n : Nat) (s : State), P s → P (makeRoom n s) := by
  intro n
  induction n with
  | zero => exact fun s hs => hs
  | succ n ih =>
    intro s hs
    unfold Machine.makeRoom
    extract_lets s1 x s2
    have h1 : P s1 := by
      show P (match openOrdinals s with
        | [] => s
        | j :: _ => Machine.forceEntry j s)
      split
      · exact hs
      · exact h.forceEntry hs
    have h2 : P s2 := h.assemble (h.roomForce _ _ h1)
    split
    · exact h1
    · split
      · exact h2
      · exact ih _ h2

theorem KeptPass.ensureEntry (h : KeptPass P) {j : Nat} {x : Option Time} {y : Option Nat} {s : State} (hs : P s) :
    P (ensureEntry j x y s) := by
  unfold Machine.ensureEntry
  split
  · exact hs
  · extract_lets number s1
    have h1 : P s1 := by
      show P (if hasRoom s = true then s else Machine.makeRoom 65 s)
      split
      · exact hs
      · exact h.makeRoom _ s hs
    split
    · rename_i hc
      simp only [Bool.and_eq_true, hasRoom, decide_eq_true_eq, Option.isNone_iff_eq_none] at hc
      exact h.create _ _ _ _ hc.1.1.2 hc.1.2 hc.2 h1
    · exact h1

theorem KeptPass.setRow (h : KeptPass P) {j n : Nat} {r : PeerRow} {s : State} (hs : P s) : P (setRow j n r s) :=
  h.changeEntry (fun _ => by simp [Entry.sameKey, setPlace]) hs

theorem KeptPass.checkRow (h : KeptPass P) {j n : Nat} {r : PeerRow} {s : State} (hs : P s) : P (checkRow j n r s) := by
  unfold Machine.checkRow
  split
  · exact hs
  · exact kept_onlyIf (h.setRow hs) fun hs => h.latch _ _ hs

theorem KeptPass.recheckRow (h : KeptPass P) {j n : Nat} {s : State} (hs : P s) : P (recheckRow j n s) := by
  unfold Machine.recheckRow
  split
  · exact hs
  · split
    · exact hs
    · split
      · exact h.checkRow hs
      · exact hs

theorem KeptPass.recheckEntry (h : KeptPass P) {j : Nat} {s : State} (hs : P s) : P (recheckEntry j s) :=
  kept_foldl (fun _ _ hs => h.recheckRow hs) _ _ hs

theorem KeptPass.recheckPeer (h : KeptPass P) {n : Nat} {s : State} (hs : P s) : P (recheckPeer n s) :=
  kept_foldl (fun _ _ hs => h.recheckRow hs) _ _ hs

theorem KeptPass.setOwnDeadline (h : KeptPass P) {j : Nat} {s : State} (hs : P s) : P (setOwnDeadline j s) := by
  unfold Machine.setOwnDeadline
  split
  · exact hs
  · exact h.changeEntry (fun _ => by exact ⟨rfl, rfl, rfl⟩) hs

theorem KeptPass.setRowDeadline (h : KeptPass P) {j n : Nat} {t : Time} {s : State} (hs : P s) : P (setRowDeadline j n t s) := by
  unfold Machine.setRowDeadline
  split
  · exact hs
  · refine h.changeEntry (fun e => ?_) hs
    split <;> exact ⟨rfl, rfl, rfl⟩

theorem KeptPass.cancelDeadlines (h : KeptPass P) {s : State} (hs : P s) : P (cancelDeadlines s) :=
  h.fusMap _ s (fun _ => ⟨rfl, rfl, rfl⟩) hs

theorem resumedEntry_sameKey (s : State) (e : Entry) : e.sameKey (resumedEntry s e) := by
  unfold resumedEntry
  split
  · exact ⟨rfl, rfl, rfl⟩
  · split
    · exact ⟨rfl, rfl, rfl⟩
    · split
      · exact ⟨rfl, rfl, rfl⟩
      · split <;> exact ⟨rfl, rfl, rfl⟩

theorem KeptPass.resumeDeadlines (h : KeptPass P) {s : State} (hs : P s) : P (resumeDeadlines s) :=
  h.fusMap _ s (resumedEntry_sameKey s) hs

theorem drainEntry_sameKey (s : State) (e : Entry) : e.sameKey (drainEntry s e) := by
  unfold drainEntry
  split <;> exact ⟨rfl, rfl, rfl⟩

theorem KeptPass.drainDeadlines (h : KeptPass P) {s : State} (hs : P s) : P (drainDeadlines s) :=
  h.fusMap _ s (drainEntry_sameKey s) hs

theorem KeptPass.deadlineDue (h : KeptPass P) {j : Nat} {s : State} (hs : P s) : P (deadlineDue j s) := by
  unfold Machine.deadlineDue
  split
  · exact hs
  · exact kept_onlyIf hs fun hs => h.forceEntry hs

theorem KeptPass.takeOwn (h : KeptPass P) {e : Estimate} {s : State} (hs : P s) : P (takeOwn e s) := by
  unfold Machine.takeOwn
  split
  · exact hs
  · split
    · exact h.lateInCurrent hs
    · simp only
      have h1 := h.ensureEntry (j := e.ordinal) (x := some e.entryTime) (y := some e.entrySpeed) hs
      split
      · exact h.lateWithoutEntry h1
      · split
        · exact h.lateInEntry h1
        · exact h.testEntry (h.setOwnDeadline (h.changeEntry (fun _ => by exact ⟨rfl, rfl, rfl⟩) h1))

theorem KeptPass.notifyEntry (h : KeptPass P) {j : Nat} {x : Option (Time × Nat)} {s : State} (hs : P s) :
    P (notifyEntry j x s) := by
  unfold Machine.notifyEntry
  split
  · exact h.ensureEntry hs
  · split
    · exact hs
    · split
      · exact hs
      · exact h.recheckEntry (h.changeEntry (fun _ => by exact ⟨rfl, rfl, rfl⟩) hs)

theorem KeptPass.putRow (h : KeptPass P) {j n : Nat} {t : Time} {r : PeerRow} {e : Entry} {s : State} (hs : P s) :
    P (putRow j n t r e s) := by
  unfold Machine.putRow
  split
  · split
    · exact hs
    · exact h.testEntry (h.setRowDeadline (h.checkRow hs))
  · exact h.testEntry (h.setRowDeadline (h.checkRow hs))

theorem KeptPass.takeRow (h : KeptPass P) {j n : Nat} {t : Time} {r : PeerRow} {s : State} (hs : P s) :
    P (takeRow j n t r s) := by
  unfold Machine.takeRow
  split
  · exact h.lateInCurrent hs
  · simp only
    have h1 := h.ensureEntry (j := j) (x := none) (y := none) hs
    split
    · exact h.lateWithoutEntry h1
    · split
      · exact h.lateInEntry h1
      · exact h.putRow h1

theorem KeptPass.takeStep (h : KeptPass P) {n : Nat} {t : Time} {p : List Byte} {s : State} (hs : P s) :
    P (takeStep n t p s) := by
  unfold Machine.takeStep
  split
  · exact hs
  · split
    · split
      · exact hs
      · split
        · exact hs
        · exact h.takeRow hs
    · split
      · exact h.lateInLast hs
      · exact hs

theorem hearExit_sameKey (s : State) (n : Nat) (x : ExitHeard) (e : Entry) : e.sameKey (hearExit s n x e) := by
  unfold hearExit
  simp only
  split
  · exact ⟨rfl, rfl, by simp [setPlace]⟩
  · split <;> exact ⟨rfl, rfl, by simp [setPlace]⟩

theorem KeptPass.crossHeard (h : KeptPass P) {n : Nat} {t : Time} {p : List Byte} {s : State} (hs : P s) :
    P (crossHeard n t p s) := by
  unfold Machine.crossHeard
  simp only
  split
  · split
    · exact hs
    · split
      · exact h.testEntry (h.changeEntry (hearExit_sameKey s n _) hs)
      · exact hs
  · exact hs

/-! ### All moves, and the invariants that need less of them -/

/-- `P` is kept by every elementary move, the early close of R133 with them. -/
structure Kept (P : State → Prop) : Prop extends KeptPass P where
  cut : ∀ s, s.ses.state = .draining → s.ses.held = none → P s → P (closeSession (closeMatching (forceAll s)))

/-- `P` is kept whatever becomes of the SES, of the spacing list and of the estimate table's other fields. -/
structure Simple (P : State → Prop) : Prop where
  now        : ∀ t s, P s → P { s with now := t }
  unit       : ∀ e u s, (endUnit s e).sameRun u → P s → P (setEndUnit e u s)
  speeds     : ∀ s, P s → P (clearLastSpeeds s)
  discard    : ∀ e h s, P s → P (discardHalf e h s)
  faultsGone : ∀ e s, P s → P (clearFaults e s)
  peer       : ∀ n p s, P s → P (setPeer n p s)
  exit       : ∀ s, P s → P (chooseExit s)
  layout     : ∀ s, P s → P (assessLayout s)
  hailTimer  : ∀ x s, P s → P { s with ptb := { s.ptb with hailTimer := x } }
  ses        : ∀ x s, P s → P { s with ses := x }
  was        : ∀ x s, P s → P { s with was := x }
  latch      : ∀ c s, P s → P (latch c s)
  clear      : ∀ m s, P s → P (clearCauses m s)
  handOver   : ∀ b t s, P s → P (handOver b t s)
  start      : ∀ n s, P s → P (startFrame n s)
  lose       : ∀ s, P s → P (loseArbitration s)
  attempt    : ∀ r s, P s → P (endAttempt r s)
  backoff    : ∀ s, P s → P (endBackoff s)
  probe      : ∀ s, P s → P (expireProbeTimer s)
  ignore     : ∀ s, P s → P (ignoreFrame s)
  admitted   : ∀ k t f s, P s → P (admitFrame k t f s)
  accept     : ∀ s, P s → s.slc.receiveQueue ≠ [] → P (acceptHead s)
  instant    : ∀ x s, P s → P (instantDue x s)
  abandon    : ∀ s, P s → P (abandonBlock s)
  listMove   : ∀ k s a j, P s → listOperation k s.atr = some (a, j) → P { s with atr := a }
  timeline   : ∀ x s, x.length ≤ 32 ∨ x.length ≤ s.atr.timeline.length → P s →
                 P { s with atr := { s.atr with timeline := x } }
  records    : ∀ x s, P s → P { s with atr := { s.atr with records := x } }
  freshAtr   : ∀ s, P s → P { s with atr := Atr.reset }
  fusMap     : ∀ (f : Entry → Entry) s, (∀ e : Entry, e.sameKey (f e)) → P s →
                 P { s with fus := { s.fus with table := s.fus.table.map f } }
  fusFilter  : ∀ (p : Entry → Bool) s, P s → P { s with fus := { s.fus with table := s.fus.table.filter p } }
  fusNumbers : ∀ x y s, P s → P { s with fus := { s.fus with current := x, superseded := y } }
  fusCreate  : ∀ j x y d s, P s → s.fus.table.length < 64 → findEntry s j = none →
                 P { s with fus := { s.fus with table := insertEntry (newEntry j x y d) s.fus.table } }
  join       : ∀ r s, P s → r.index = s.rst.nextIndex → P (joinRing r s)
  deferred   : ∀ x s, P s → P { s with rst := { s.rst with deferred := x } }
  fetched    : ∀ s r, P s → recordAt s s.rst.readPointer = some r →
                 P { s with rst := { s.rst with readPointer := s.rst.readPointer + 1 } }
  sought     : ∀ i s, P s → ((recordAt s i).isSome || i == s.rst.nextIndex) = true →
                 P { s with rst := { s.rst with readPointer := i } }
  fullReset  : ∀ s, P s → P (fullReset s)
  release    : ∀ x s, P s → P (release x s)
  restart    : ∀ x s, P s → P (restart x s)
  endLoading : ∀ x s, P s → P (endLoading x s)

theorem Simple.formSpacing (h : Simple P) {j : Nat} {s : State} (hs : P s) : P (formSpacing j s) := by
  unfold Machine.formSpacing
  split
  · split
    · exact hs
    · exact h.was _ s hs
  · exact hs

theorem Simple.takeFirstEntry (h : Simple P) {j : Nat} {t : Time} {v : Nat} {s : State} (hs : P s) :
    P (takeFirstEntry j t v s) := by
  unfold Machine.takeFirstEntry
  simp only
  split
  · exact h.formSpacing (h.formSpacing (h.was _ _ (h.was _ s hs)))
  · exact h.was _ s hs

theorem Simple.leaveGroup (h : Simple P) {g : Group} {s : State} (hs : P s) : P (leaveGroup g s) := by
  unfold Machine.leaveGroup releaseEntries
  simp only
  split
  · exact h.fusFilter _ _ (h.ses _ _ (h.was _ s hs))
  · exact h.was _ _ (h.fusFilter _ _ (h.ses _ _ (h.was _ s hs)))

theorem Simple.refuseDeferred (h : Simple P) {s : State} (hs : P s) : P (refuseDeferred s) := by
  unfold Machine.refuseDeferred
  split
  · exact hs
  · exact h.handOver _ _ _ (h.deferred _ s hs)

theorem Simple.completeRecord (h : Simple P) {n : Word16} {s : State} {r : OwnRecord} (hs : P s) :
    P (completeRecord n s r) := by
  unfold Machine.completeRecord
  split
  · exact hs
  · exact h.handOver _ _ s hs

theorem Simple.freshStart (h : Simple P) {n : Word16} {s : State} (hs : P s) : P (freshStart n s) :=
  h.freshAtr _ (kept_foldl (fun _ _ hs => h.completeRecord hs) _ _ hs)

theorem Simple.closeSession (h : Simple P) {s : State} (hs : P s) : P (closeSession s) := by
  unfold Machine.closeSession
  exact h.was _ _ (h.speeds _ (h.freshStart (h.refuseDeferred (h.ses _ _ (h.handOver _ _ s hs)))))

theorem Simple.beginSession (h : Simple P) {n : Word16} {d : Direction} {b : Bool} {o : Nat} {x y z : Time} {s : State}
    (hs : P s) : P (beginSession n d b o x y z s) :=
  h.exit _ (h.fusNumbers _ _ _ (h.freshStart (h.abandon _ (h.ses _ s hs))))

theorem Simple.adoptHeld (h : Simple P) {s : State} (hs : P s) : P (adoptHeld s) := by
  unfold Machine.adoptHeld
  split
  · exact hs
  · exact h.beginSession (h.ses _ s hs)

theorem Simple.keptStore (h : Simple P) : KeptStore P where
  now := h.now
  unit := h.unit
  speeds := h.speeds
  discard := h.discard
  faultsGone := h.faultsGone
  peer := h.peer
  exit := h.exit
  layout := h.layout
  hailTimer := h.hailTimer
  ses x s _ _ hs := h.ses x s hs
  spacing _ _ hs := h.formSpacing hs
  highest _ s hs := h.was _ s hs
  firstEntry _ _ _ _ hs := h.takeFirstEntry hs
  roomForce _ s hs := h.was _ s hs
  wagons _ s hs := h.was _ s hs
  trialled _ s _ _ _ hs := h.was _ s hs
  moveOn _ _ _ hs := h.leaveGroup hs
  latch := h.latch
  clear := h.clear
  handOver := h.handOver
  start := h.start
  lose := h.lose
  attempt := h.attempt
  backoff := h.backoff
  probe := h.probe
  ignore := h.ignore
  admitted := h.admitted
  accept := h.accept
  instant := h.instant
  abandon := h.abandon
  listMove := h.listMove
  timeline := h.timeline
  records := h.records
  freshAtr := h.freshAtr
  fusMap := h.fusMap
  fusNumbers := h.fusNumbers
  create j x y s _ hl hj hs := h.was _ _ (h.fusCreate j x y _ s hs hl hj)
  join := h.join
  deferred := h.deferred
  fetched := h.fetched
  sought := h.sought
  fullReset := h.fullReset
  release := h.release
  restart := h.restart
  endLoading := h.endLoading

theorem Simple.keptPass (h : Simple P) : KeptPass P :=
  { h.keptStore with
    matching := fun _ _ _ hs => h.keptStore.pass (h.ses _ _ hs)
    finish := fun _ _ hs => h.adoptHeld (h.closeSession hs) }

theorem Simple.kept (h : Simple P) : Kept P :=
  { h.keptPass with
    cut := fun _ _ _ hs => h.closeSession (h.keptPass.pass (h.ses _ _ (h.keptPass.forceAll hs))) }

end Sys2Proof.Machine
end

