-- ==== Sys2Proof/Laws/PerInstr.lean ====
section
/-! SUPPORT. Statements made command by command. -/

namespace Sys2Proof.Laws

open Sys2Proof

/-- The table gives no row bits, so no table word of any width spells the command. -/
def SpelledByNoWord.Statement (i : Instr) : Prop := ∀ nbits w : Nat, decodeTableWord nbits w ≠ some i

theorem spelled_by_no_word (i : Instr) : SpelledByNoWord.Statement i := by
  intro nbits w h
  cases h

theorem SpelledByNoWord.fullReset : SpelledByNoWord.Statement .fullReset :=
  spelled_by_no_word _

theorem SpelledByNoWord.resetRelease (straps : Straps) : SpelledByNoWord.Statement (.resetRelease straps) :=
  spelled_by_no_word _

theorem SpelledByNoWord.imageReadDone (t : Time) (image : ImageRead) :
    SpelledByNoWord.Statement (.imageReadDone t image) :=
  spelled_by_no_word _

theorem SpelledByNoWord.instant (t : Time) (r0 r1 r2 r3 : BitVec 24) :
    SpelledByNoWord.Statement (.instant t r0 r1 r2 r3) :=
  spelled_by_no_word _

theorem SpelledByNoWord.headEdge (t : Time) (e : PlatformEnd) (h : HeadNo) :
    SpelledByNoWord.Statement (.headEdge t e h) :=
  spelled_by_no_word _

theorem SpelledByNoWord.halfExpiry (t : Time) (e : PlatformEnd) : SpelledByNoWord.Statement (.halfExpiry t e) :=
  spelled_by_no_word _

theorem SpelledByNoWord.beforeWindowDue (t : Time) (k : Nat) : SpelledByNoWord.Statement (.beforeWindowDue t k) :=
  spelled_by_no_word _

theorem SpelledByNoWord.afterWindowDue (t : Time) (k : Nat) : SpelledByNoWord.Statement (.afterWindowDue t k) :=
  spelled_by_no_word _

theorem SpelledByNoWord.timelineRemoval (t : Time) : SpelledByNoWord.Statement (.timelineRemoval t) :=
  spelled_by_no_word _

theorem SpelledByNoWord.frameStart (t : Time) (idleBits : Nat) : SpelledByNoWord.Statement (.frameStart t idleBits) :=
  spelled_by_no_word _

theorem SpelledByNoWord.arbitrationLost (t : Time) : SpelledByNoWord.Statement (.arbitrationLost t) :=
  spelled_by_no_word _

theorem SpelledByNoWord.attemptEnd (t : Time) (result : AttemptResult) :
    SpelledByNoWord.Statement (.attemptEnd t result) :=
  spelled_by_no_word _

theorem SpelledByNoWord.bulkBackoffEnd (t : Time) : SpelledByNoWord.Statement (.bulkBackoffEnd t) :=
  spelled_by_no_word _

theorem SpelledByNoWord.probeTimerExpiry (t : Time) : SpelledByNoWord.Statement (.probeTimerExpiry t) :=
  spelled_by_no_word _

theorem SpelledByNoWord.frameReceived (t start : Time) (frame : LineFrame) :
    SpelledByNoWord.Statement (.frameReceived t start frame) :=
  spelled_by_no_word _

theorem SpelledByNoWord.hailDispatch (t : Time) : SpelledByNoWord.Statement (.hailDispatch t) :=
  spelled_by_no_word _

theorem SpelledByNoWord.openDispatch (t : Time) : SpelledByNoWord.Statement (.openDispatch t) :=
  spelled_by_no_word _

theorem SpelledByNoWord.crossDispatch (t : Time) : SpelledByNoWord.Statement (.crossDispatch t) :=
  spelled_by_no_word _

theorem SpelledByNoWord.shutDispatch (t : Time) : SpelledByNoWord.Statement (.shutDispatch t) :=
  spelled_by_no_word _

theorem SpelledByNoWord.stepDispatch (t : Time) : SpelledByNoWord.Statement (.stepDispatch t) :=
  spelled_by_no_word _

theorem SpelledByNoWord.tallyReplyDispatch (t : Time) : SpelledByNoWord.Statement (.tallyReplyDispatch t) :=
  spelled_by_no_word _

theorem SpelledByNoWord.fetchNext (t : Time) : SpelledByNoWord.Statement (.fetchNext t) :=
  spelled_by_no_word _

theorem SpelledByNoWord.fetch (t : Time) : SpelledByNoWord.Statement (.fetch t) :=
  spelled_by_no_word _

theorem SpelledByNoWord.fetchWagon (t : Time) : SpelledByNoWord.Statement (.fetchWagon t) :=
  spelled_by_no_word _

theorem SpelledByNoWord.seek (t : Time) : SpelledByNoWord.Statement (.seek t) :=
  spelled_by_no_word _

theorem SpelledByNoWord.summary (t : Time) : SpelledByNoWord.Statement (.summary t) :=
  spelled_by_no_word _

theorem SpelledByNoWord.conditions (t : Time) : SpelledByNoWord.Statement (.conditions t) :=
  spelled_by_no_word _

theorem SpelledByNoWord.clear (t : Time) : SpelledByNoWord.Statement (.clear t) :=
  spelled_by_no_word _

theorem SpelledByNoWord.restart (t : Time) (straps : Straps) : SpelledByNoWord.Statement (.restart t straps) :=
  spelled_by_no_word _

theorem SpelledByNoWord.askUnknown (t : Time) : SpelledByNoWord.Statement (.askUnknown t) :=
  spelled_by_no_word _

theorem SpelledByNoWord.hailTimer (t : Time) : SpelledByNoWord.Statement (.hailTimer t) :=
  spelled_by_no_word _

theorem SpelledByNoWord.silenceExpiry (t : Time) (station : BitVec 3) :
    SpelledByNoWord.Statement (.silenceExpiry t station) :=
  spelled_by_no_word _

theorem SpelledByNoWord.haltExpiry (t : Time) : SpelledByNoWord.Statement (.haltExpiry t) :=
  spelled_by_no_word _

theorem SpelledByNoWord.haltedTimeTick (t : Time) : SpelledByNoWord.Statement (.haltedTimeTick t) :=
  spelled_by_no_word _

theorem SpelledByNoWord.closeExpiry (t : Time) : SpelledByNoWord.Statement (.closeExpiry t) :=
  spelled_by_no_word _

theorem SpelledByNoWord.drainLimit (t : Time) : SpelledByNoWord.Statement (.drainLimit t) :=
  spelled_by_no_word _

theorem SpelledByNoWord.deadlineReached (t : Time) (ordinal : Word16) :
    SpelledByNoWord.Statement (.deadlineReached t ordinal) :=
  spelled_by_no_word _

end Sys2Proof.Laws
end

