-- ==== Sys2Proof/Laws/Rows.lean ====
section
/-! SUPPORT. Checking rows again (R144, R145): what it does to an entry, to the table and to the causes. -/

namespace Sys2Proof.Machine

open Sys2Proof

/-- What an alignment depends on (R144). -/
theorem alignmentOf_congr {s t : State} {e f : Entry} (h1 : t.stc = s.stc)
    (h2 : t.ptb = { s.ptb with exitStation := t.ptb.exitStation }) (h3 : t.ses.direction = s.ses.direction)
    (h4 : ∀ i, i = e.ordinal - 1 ∨ i = e.ordinal + 1 →
      (findEntry t i).bind (·.firstTime) = (findEntry s i).bind (·.firstTime))
    (h5 : f = { e with rows := f.rows }) (n : Nat) (r : PeerRow) : alignmentOf t f n r = alignmentOf s e n r := by
  have hp : peer t = peer s := by funext n; unfold peer; rw [h2]
  have hP : t.ptb.ownP = s.ptb.ownP := by rw [h2]
  have hL : t.ptb.ownL = s.ptb.ownL := by rw [h2]
  have hl : isLive t n = isLive s n := by simp [isLive, ownNumber, h1, hp]
  have hpos : ∀ m, positionOf t m = positionOf s m := by intro m; simp [positionOf, ownNumber, h1, hP, hp]
  have hlen : ∀ m, lengthOf t m = lengthOf s m := by intro m; simp [lengthOf, ownNumber, h1, hL, hp]
  have hedge : ∀ m, entryEdge t m = entryEdge s m := by intro m; simp [entryEdge, h3, hpos, hlen]
  have hlag : ∀ v, expectedLag t n v = expectedLag s n v := by intro v; simp [expectedLag, h3, hedge, ownNumber, h1]
  have hloc : ∀ u, toLocal t n u = toLocal s n u := by intro u; simp [toLocal, hp]
  have htol : ∀ u, alignTolerance t u e.ordinal = alignTolerance s u e.ordinal := by
    intro u
    have hgap : ∀ i, i = e.ordinal - 1 ∨ i = e.ordinal + 1 → neighbourGap t u i = neighbourGap s u i := by
      intro i hi; simp [neighbourGap, h4 i hi]
    simp [alignTolerance, hgap]
  rw [h5]
  unfold alignmentOf isFinal
  simp only [hl, hlag, hloc, htol]

/-- The causes with SLIP latched. -/
def slipped (c : Cnd) : Cnd :=
  { c with latched := c.latched ||| 16, faultLow := ((c.latched ||| 16) &&& c.enable) != 0 }

theorem slipped_twice (c : Cnd) : slipped (slipped c) = slipped c := by
  unfold slipped; simp [BitVec.or_assoc]

/-- An entry whose row of station `n` has been checked again (R145). -/
def rowChecked (s : State) (n : Nat) (e : Entry) : Entry :=
  match place e.rows n none with
  | none => e
  | some r => { e with rows := e.rows.set n (some (checkedRow s e n r)) }

theorem rowChecked_keeps (s : State) (n : Nat) (e : Entry) :
    rowChecked s n e = { e with rows := (rowChecked s n e).rows } ∧ (rowChecked s n e).rows.length = e.rows.length := by
  unfold rowChecked; split <;> simp

theorem rowChecked_place (s : State) (n m : Nat) (e : Entry) :
    place (rowChecked s n e).rows m none = (place e.rows m none).map fun r => if m = n then checkedRow s e n r else r := by
  unfold rowChecked
  by_cases hm : m = n
  · subst hm
    cases hp : place e.rows m none with
    | none => simp [hp]
    | some r =>
      simp only [Option.map_some, if_true]
      have hl : m < e.rows.length := by
        by_contra h
        rw [place, List.getD_eq_default _ _ (by omega)] at hp; cases hp
      exact place_set_self _ _ _ _ hl
  · simp only [hm, if_false, Option.map_id']
    split
    · rfl
    · exact place_set_other _ _ _ _ _ hm

/-- What checking the row of one station again does (R144, R145). -/
theorem recheckRow_eq (j n : Nat) (s : State) (e : Entry) (h : findEntry s j = some e) :
    ∃ f : Entry → Entry, (∀ x : Entry, f x = { x with rows := (f x).rows }) ∧ f e = rowChecked s n e
      ∧ ∃ c : Cnd, recheckRow j n s = { s with fus := (changeEntry j f s).fus, cnd := c }
        ∧ (FoundMisaligned s e n → c = slipped s.cnd) ∧ (¬ FoundMisaligned s e n → c = s.cnd) := by
  have hid : ∀ f : Entry → Entry, (∀ x, f x = x) → changeEntry j f s = s := by
    intro f hf; unfold changeEntry; simp [hf]
  have hstay : rowChecked s n e = e → ¬ FoundMisaligned s e n → recheckRow j n s = s → ∃ f : Entry → Entry,
      (∀ x : Entry, f x = { x with rows := (f x).rows }) ∧ f e = rowChecked s n e
      ∧ ∃ c : Cnd, recheckRow j n s = { s with fus := (changeEntry j f s).fus, cnd := c }
        ∧ (FoundMisaligned s e n → c = slipped s.cnd) ∧ (¬ FoundMisaligned s e n → c = s.cnd) := by
    intro h1 h2 h3
    refine ⟨id, fun _ => rfl, h1.symm, s.cnd, ?_, fun h => absurd h h2, fun _ => rfl⟩
    rw [h3, hid id fun _ => rfl]
  cases hp : place e.rows n none with
  | none =>
    refine hstay (by simp [rowChecked, hp]) ?_ (by simp [recheckRow, h, hp])
    rintro ⟨_, r, hr, _⟩; rw [hp] at hr; cases hr
  | some r =>
    have hset : e.rows.set n (some r) = e.rows := by
      have hl : n < e.rows.length := by
        by_contra h
        rw [place, List.getD_eq_default _ _ (by omega)] at hp; cases hp
      have : e.rows[n] = some r := by simpa [place, List.getD, hl] using hp
      rw [← this]; simp
    by_cases hc : e.fused = none ∧ r.alignment = .unchecked
    · have hgo : recheckRow j n s = checkRow j n r s := by
        simp [recheckRow, h, hp, hc.1, hc.2, isFinal]
      rw [hgo]
      refine ⟨fun x => { x with rows := setPlace x.rows n (some { r with alignment := alignmentOf s e n r }) },
        fun _ => rfl, ?_, ?_⟩
      · simp [rowChecked, hp, checkedRow, hc, setPlace]
      · unfold checkRow
        rw [h]
        simp only
        by_cases ha : alignmentOf s e n r = .misaligned
        · refine ⟨slipped s.cnd, ?_, fun _ => rfl, fun hn => absurd ⟨hc.1, r, hp, hc.2, ha⟩ hn⟩
          simp only [ha, beq_self_eq_true, onlyIf, if_true, latch_slip]
          rfl
        · refine ⟨s.cnd, ?_, ?_, fun _ => rfl⟩
          · have : (alignmentOf s e n r == .misaligned) = false := beq_eq_false_iff_ne.mpr ha
            simp only [this, onlyIf, Bool.false_eq_true, if_false]
            rfl
          · rintro ⟨_, r', h1, _, h2⟩
            rw [hp] at h1; cases h1; exact absurd h2 ha
    · refine hstay ?_ ?_ ?_
      · simp [rowChecked, hp, checkedRow, hc, hset]
      · rintro ⟨h1, r', h2, h3, _⟩
        rw [hp] at h2; cases h2; exact hc ⟨h1, h3⟩
      · simp only [recheckRow, h, hp]
        rw [if_neg]
        intro hh
        apply hc
        simpa [isFinal, and_comm] using hh

theorem alignment_after {s t : State} {j : Nat} {e g : Entry} (ht : t = { s with fus := { s.fus with table := t.fus.table }, cnd := t.cnd })
    (ho : ∀ i, i ≠ j → findEntry t i = findEntry s i) (he : findEntry s j = some e) (hg : findEntry t j = some g)
    (hge : g = { e with rows := g.rows }) (n : Nat) (r : PeerRow) : alignmentOf t g n r = alignmentOf s e n r := by
  refine alignmentOf_congr ?_ ?_ ?_ ?_ hge n r
  · rw [ht]
  · rw [ht]
  · rw [ht]
  · intro i _
    by_cases hi : i = j
    · rw [hi, he, hg, hge]; rfl
    · rw [ho i hi]

theorem checkedRow_after {s t : State} {e g : Entry} (h : ∀ n r, alignmentOf t g n r = alignmentOf s e n r)
    (hge : g = { e with rows := g.rows }) (n : Nat) (r : PeerRow) : checkedRow t g n r = checkedRow s e n r := by
  have hf : g.fused = e.fused := by rw [hge]
  unfold checkedRow; rw [h, hf]

theorem misaligned_after {s t : State} {e g : Entry} (h : ∀ n r, alignmentOf t g n r = alignmentOf s e n r)
    (hge : g = { e with rows := g.rows }) (n : Nat) (hp : place g.rows n none = place e.rows n none) :
    FoundMisaligned t g n ↔ FoundMisaligned s e n := by
  have hf : g.fused = e.fused := by rw [hge]
  unfold FoundMisaligned; rw [hf, hp]; simp only [h]

/-- What checking the rows of an entry again does (R145, first case). -/
theorem recheckEntry_fold (s : State) (j : Nat) (e : Entry) (h : findEntry s j = some e) :
    ∀ (ms ks : List Nat) (t : State) (g : Entry), (ks ++ ms).Nodup →
      t = { s with fus := { s.fus with table := t.fus.table }, cnd := t.cnd } →
      (∀ i, i ≠ j → findEntry t i = findEntry s i) → findEntry t j = some g →
      g = { e with rows := g.rows } → g.rows.length = e.rows.length →
      (∀ m, place g.rows m none = (place e.rows m none).map fun r => if m ∈ ks then checkedRow s e m r else r) →
      ((∃ m ∈ ks, FoundMisaligned s e m) → t.cnd = slipped s.cnd) →
      ((∀ m ∈ ks, ¬ FoundMisaligned s e m) → t.cnd = s.cnd) →
      ∃ u f, ms.foldl (fun s n => recheckRow j n s) t = u
        ∧ u = { s with fus := { s.fus with table := u.fus.table }, cnd := u.cnd }
        ∧ (∀ i, i ≠ j → findEntry u i = findEntry s i) ∧ findEntry u j = some f
        ∧ f = { e with rows := f.rows } ∧ f.rows.length = e.rows.length
        ∧ (∀ m, place f.rows m none = (place e.rows m none).map fun r => if m ∈ ks ++ ms then checkedRow s e m r else r)
        ∧ ((∃ m ∈ ks ++ ms, FoundMisaligned s e m) → u.cnd = slipped s.cnd)
        ∧ ((∀ m ∈ ks ++ ms, ¬ FoundMisaligned s e m) → u.cnd = s.cnd) := by
  intro ms
  induction ms with
  | nil =>
    intro ks t g _ h1 h2 h3 h4 h5 h6 h7 h8
    exact ⟨t, g, rfl, h1, h2, h3, h4, h5, by simpa using h6, by simpa using h7, by simpa using h8⟩
  | cons n ms ih =>
    intro ks t g hnd h1 h2 h3 h4 h5 h6 h7 h8
    have hnk : n ∉ ks := by
      intro hk
      have := List.nodup_append.mp hnd
      exact this.2.2 n hk n (List.mem_cons_self) rfl
    have hal := alignment_after h1 h2 h h3 h4
    have hrow : place g.rows n none = place e.rows n none := by rw [h6]; simp [hnk]
    obtain ⟨f, f1, f2, c, f3, f4, f5⟩ := recheckRow_eq j n t g h3
    have hmis := misaligned_after hal h4 n hrow
    rw [hmis] at f4 f5
    have hfo : ∀ x : Entry, (f x).ordinal = x.ordinal := by intro x; rw [f1 x]
    have hk := rowChecked_keeps t n g
    have hks : ks ++ n :: ms = (ks ++ [n]) ++ ms := by simp
    rw [List.foldl_cons, hks]
    refine ih (ks ++ [n]) (recheckRow j n t) (rowChecked t n g) (by rw [← hks]; exact hnd) ?_ ?_ ?_ ?_ ?_ ?_ ?_ ?_
    · rw [f3]
      have hf : ({ t with fus := (changeEntry j f t).fus, cnd := c } : State)
        = { t with fus := { t.fus with table := (changeEntry j f t).fus.table }, cnd := c } := rfl
      rw [hf, h1]
    · intro i hi
      have : findEntry (recheckRow j n t) i = findEntry (changeEntry j f t) i := by rw [f3]; rfl
      rw [this, changeEntry_other t j i f hfo hi, h2 i hi]
    · have : findEntry (recheckRow j n t) j = findEntry (changeEntry j f t) j := by rw [f3]; rfl
      rw [this, findEntry_changeEntry t j f hfo, h3, Option.map_some, f2]
    · rw [hk.1, h4]
    · rw [hk.2, h5]
    · intro m
      rw [rowChecked_place, h6]
      by_cases hm : m = n
      · subst hm
        simp only [hnk, if_false, Option.map_id', if_true, List.mem_append, List.mem_singleton, or_true]
        simp only [checkedRow_after hal h4]
      · simp only [hm, if_false, Option.map_id', List.mem_append, List.mem_singleton, or_false]
    · rintro ⟨m, hm, hx⟩
      rw [f3]
      show c = slipped s.cnd
      by_cases hn : FoundMisaligned s e n
      · rw [f4 hn]
        by_cases hall : ∃ m ∈ ks, FoundMisaligned s e m
        · rw [h7 hall, slipped_twice]
        · rw [h8 fun m hm hx => hall ⟨m, hm, hx⟩]
      · rw [f5 hn]
        refine h7 ⟨m, ?_, hx⟩
        rcases List.mem_append.mp hm with hm | hm
        · exact hm
        · rw [List.mem_singleton] at hm; exact absurd (hm ▸ hx) hn
    · intro hx
      rw [f3]
      show c = s.cnd
      rw [f5 (hx n (by simp)), h8 fun m hm => hx m (List.mem_append_left _ hm)]

/-- What checking the rows of an entry again does (R145, first case). -/
theorem recheckEntry_is (s : State) (j : Nat) (e : Entry) (h : findEntry s j = some e) :
    ∃ u f, recheckEntry j s = u
      ∧ u = { s with fus := { s.fus with table := u.fus.table }, cnd := u.cnd }
      ∧ (∀ i, i ≠ j → findEntry u i = findEntry s i) ∧ findEntry u j = some f
      ∧ f = { e with rows := f.rows } ∧ f.rows.length = e.rows.length
      ∧ (∀ m, place f.rows m none = (place e.rows m none).map fun r => if m < 8 then checkedRow s e m r else r)
      ∧ ((∃ m, m < 8 ∧ FoundMisaligned s e m) → u.cnd = slipped s.cnd)
      ∧ ((∀ m, m < 8 → ¬ FoundMisaligned s e m) → u.cnd = s.cnd) := by
  obtain ⟨u, f, h1, h2, h3, h4, h5, h6, h7, h8, h9⟩ :=
    recheckEntry_fold s j e h stationNumbers [] s e (by decide) rfl (fun _ _ => rfl) h rfl rfl (by simp) (by simp) (by simp)
  have hm : ∀ m, m ∈ [] ++ stationNumbers ↔ m < 8 := by intro m; simp [stationNumbers]; omega
  simp only [hm] at h7 h8 h9
  exact ⟨u, f, h1, h2, h3, h4, h5, h6, h7, h8, h9⟩

/-- The table once the rows of station `n` in the entries of the ordinals `js` have been checked again. -/
def recheckedSoFar (s : State) (n : Nat) (js : List Nat) (c : Cnd) : State :=
  { s with
    fus := { s.fus with table := s.fus.table.map fun e => if js.contains e.ordinal then rowChecked s n e else e }, cnd := c }

theorem recheckPeer_fold (s : State) (n : Nat) (hr : s.fus.table.Pairwise (fun a b => a.ordinal < b.ordinal)) :
    ∀ (js ks : List Nat) (c : Cnd), (ks ++ js).Nodup →
      ((∃ e ∈ s.fus.table, e.ordinal ∈ ks ∧ FoundMisaligned s e n) → c = slipped s.cnd) →
      ((∀ e ∈ s.fus.table, e.ordinal ∈ ks → ¬ FoundMisaligned s e n) → c = s.cnd) →
      ∃ d, js.foldl (fun s j => recheckRow j n s) (recheckedSoFar s n ks c) = recheckedSoFar s n (ks ++ js) d
        ∧ ((∃ e ∈ s.fus.table, e.ordinal ∈ ks ++ js ∧ FoundMisaligned s e n) → d = slipped s.cnd)
        ∧ ((∀ e ∈ s.fus.table, e.ordinal ∈ ks ++ js → ¬ FoundMisaligned s e n) → d = s.cnd) := by
  intro js
  induction js with
  | nil => intro ks c _ h1 h2; exact ⟨c, by simp, by simpa using h1, by simpa using h2⟩
  | cons j js ih =>
    intro ks c hnd h1 h2
    have hjk : j ∉ ks := by
      intro hk
      exact (List.nodup_append.mp hnd).2.2 j hk j (List.mem_cons_self) rfl
    have hks : ks ++ j :: js = (ks ++ [j]) ++ js := by simp
    have hord : ∀ ks : List Nat, ∀ x : Entry, (if ks.contains x.ordinal then rowChecked s n x else x).ordinal = x.ordinal := by
      intro ks x; split
      · rw [(rowChecked_keeps s n x).1]
      · rfl
    have hfind : ∀ i, findEntry (recheckedSoFar s n ks c) i =
        (findEntry s i).map fun e => if ks.contains e.ordinal then rowChecked s n e else e :=
      fun i => find_mapped _ _ _ (hord ks)
    rw [List.foldl_cons, hks]
    cases hfe : findEntry s j with
    | none =>
      have hnone : ∀ e ∈ s.fus.table, e.ordinal ≠ j := by
        intro e he hej
        rw [← hej, rising_find hr he] at hfe; cases hfe
      have hst : recheckRow j n (recheckedSoFar s n ks c) = recheckedSoFar s n (ks ++ [j]) c := by
        have : recheckRow j n (recheckedSoFar s n ks c) = recheckedSoFar s n ks c := by
          unfold recheckRow; rw [hfind, hfe]; rfl
        rw [this]
        unfold recheckedSoFar
        simp only
        congr 2
        apply List.map_congr_left
        intro x hx
        simp [hnone x hx]
      rw [hst]
      refine ih (ks ++ [j]) c (by rw [← hks]; exact hnd) ?_ ?_
      · rintro ⟨e, he, hk, hm⟩
        refine h1 ⟨e, he, ?_, hm⟩
        simpa [hnone e he] using hk
      · intro hx; exact h2 fun e he hk => hx e he (List.mem_append_left _ hk)
    | some e =>
      have he := List.mem_of_find?_eq_some hfe
      have hej := find_ordinal hfe
      have hfr : findEntry (recheckedSoFar s n ks c) j = some e := by
        rw [hfind, hfe]; simp [hej, hjk]
      have hal : ∀ m r, alignmentOf (recheckedSoFar s n ks c) e m r = alignmentOf s e m r := by
        intro m r
        refine alignmentOf_congr (s := s) (t := recheckedSoFar s n ks c) (e := e) (f := e) rfl rfl rfl ?_ rfl m r
        intro i _
        rw [hfind]
        cases findEntry s i with
        | none => rfl
        | some x =>
          simp only [Option.map_some, Option.bind_some]
          split
          · rw [(rowChecked_keeps s n x).1]
          · rfl
      obtain ⟨f, f1, f2, d, f3, f4, f5⟩ := recheckRow_eq j n _ e hfr
      rw [misaligned_after hal rfl n rfl] at f4 f5
      have hrc : rowChecked (recheckedSoFar s n ks c) n e = rowChecked s n e := by
        unfold rowChecked; simp only [checkedRow_after hal rfl]
      rw [hrc] at f2
      have hst : recheckRow j n (recheckedSoFar s n ks c) = recheckedSoFar s n (ks ++ [j]) d := by
        rw [f3]
        unfold recheckedSoFar changeEntry
        simp only [List.map_map]
        congr 2
        apply List.map_congr_left
        intro x hx
        simp only [Function.comp_apply, hord]
        by_cases hxj : x.ordinal = j
        · have hxe : x = e := rising_eq hr hx he (by rw [hxj, hej])
          subst hxe
          simp [hej, hjk, f2]
        · simp [hxj]
      rw [hst]
      refine ih (ks ++ [j]) d (by rw [← hks]; exact hnd) ?_ ?_
      · rintro ⟨x, hx, hk, hm⟩
        by_cases hn : FoundMisaligned s e n
        · rw [f4 hn]
          show slipped c = _
          by_cases hall : ∃ e ∈ s.fus.table, e.ordinal ∈ ks ∧ FoundMisaligned s e n
          · rw [h1 hall, slipped_twice]
          · rw [h2 fun e he hk hm => hall ⟨e, he, hk, hm⟩]
        · rw [f5 hn]
          refine h1 ⟨x, hx, ?_, hm⟩
          rcases List.mem_append.mp hk with hk | hk
          · exact hk
          · rw [List.mem_singleton] at hk
            rw [rising_eq hr hx he (by rw [hk, hej])] at hm
            exact absurd hm hn
      · intro hx
        rw [f5 (hx e he (by simp [hej]))]
        exact h2 fun e he hk => hx e he (List.mem_append_left _ hk)

/-- What checking the rows of a station that has become LIVE does (R145, second case). -/
theorem recheckPeer_is (s : State) (n : Nat) (hr : s.fus.table.Pairwise (fun a b => a.ordinal < b.ordinal)) :
    Rechecked n s (recheckPeer n s) := by
  have hinit : recheckedSoFar s n [] s.cnd = s := by
    unfold recheckedSoFar; simp
  have hnd : (openOrdinals s).Nodup := by
    unfold openOrdinals
    have : ((s.fus.table.filter fun e => !isFinal e).map (·.ordinal)).Pairwise (· < ·) := by
      rw [List.pairwise_map]; exact hr.filter _
    exact this.imp fun h => Nat.ne_of_lt h
  obtain ⟨d, h1, h2, h3⟩ := recheckPeer_fold s n hr (openOrdinals s) [] s.cnd (by simpa using hnd) (by simp) (by simp)
  rw [hinit, List.nil_append] at h1
  rw [List.nil_append] at h2 h3
  have hopen : ∀ x ∈ s.fus.table, x.fused = none → x.ordinal ∈ openOrdinals s := by
    intro x hx hf
    unfold openOrdinals
    rw [List.mem_map]
    exact ⟨x, by rw [List.mem_filter]; exact ⟨hx, by simp [isFinal, hf]⟩, rfl⟩
  have hout : ∀ x ∈ s.fus.table, x.ordinal ∉ openOrdinals s → rowChecked s n x = x := by
    intro x hx hno
    have hf : x.fused ≠ none := fun hf => hno (hopen x hx hf)
    unfold rowChecked
    cases hp : place x.rows n none with
    | none => rfl
    | some r =>
      have hl : n < x.rows.length := by
        by_contra h
        rw [place, List.getD_eq_default _ _ (by omega)] at hp; cases hp
      have : x.rows[n] = some r := by simpa [place, List.getD, hl] using hp
      simp [checkedRow, hf, ← this]
  unfold recheckPeer
  rw [h1]
  refine ⟨rfl, ?_, ?_, ?_⟩
  · show List.Forall₂ _ s.fus.table (s.fus.table.map _)
    rw [List.forall₂_map_right_iff, List.forall₂_same]
    intro x hx
    have : (if (openOrdinals s).contains x.ordinal = true then rowChecked s n x else x) = rowChecked s n x := by
      by_cases h : x.ordinal ∈ openOrdinals s
      · simp [h]
      · simp [h, hout x hx h]
    rw [this]
    exact ⟨(rowChecked_keeps s n x).1, (rowChecked_keeps s n x).2, fun m => rowChecked_place s n m x⟩
  · rintro ⟨e, he, hm⟩
    exact h2 ⟨e, he, hopen e he hm.1, hm⟩
  · intro hx; exact h3 fun e he _ => hx e he

/-- What checking the rows of a station again can change. -/
theorem recheckPeer_eq (n : Nat) (s : State) :
    ∃ x c, recheckPeer n s = { s with fus := { s.fus with table := x }, cnd := c } := by
  unfold recheckPeer
  generalize openOrdinals s = js
  induction js generalizing s with
  | nil => exact ⟨_, _, rfl⟩
  | cons j js ih =>
    rw [List.foldl_cons]
    obtain ⟨x, c, h⟩ := ih (recheckRow j n s)
    rw [h]
    cases hf : findEntry s j with
    | none => unfold recheckRow; rw [hf]; exact ⟨_, _, rfl⟩
    | some e =>
      obtain ⟨f, _, _, d, h, _⟩ := recheckRow_eq j n s e hf
      rw [h]; exact ⟨_, _, rfl⟩

/-- What replacing a peer entry does (R114, R145): its row alone, unless the entry enters or leaves LIVE. -/
theorem replacePeer_is {t : Time} (n : Nat) (p : Peer) (s : State) (ht : s.now = t) (hn : n ≠ ownNumber s)
    (hl : n < s.ptb.peers.length) :
    (((peer s n).state = .live ↔ p.state = .live) → replacePeer n p s = setPeer n p s)
    ∧ ((peer s n).state = .live → p.state ≠ .live → Reassessed t (setPeer n p s) (replacePeer n p s))
    ∧ ((peer s n).state ≠ .live → p.state = .live →
        Reassessed t (recheckPeer n (setPeer n p s)) (replacePeer n p s)) := by
  have hp : peer (setPeer n p s) n = p := place_set_self _ _ _ _ hl
  have hnow : isLive (setPeer n p s) n = (p.state == .live) := by
    unfold isLive; rw [hp]; simp [ownNumber, setPeer]; exact fun _ => hn
  have hwas : isLive s n = ((peer s n).state == .live) := by simp [isLive, hn]
  unfold replacePeer
  simp only [hnow, hwas]
  refine ⟨?_, ?_, ?_⟩
  · intro h
    rw [if_pos]
    rw [beq_iff_eq, Bool.eq_iff_iff, beq_iff_eq, beq_iff_eq]; exact h
  · intro h1 h2
    have h3 : (p.state == .live) = false := beq_eq_false_iff_ne.mpr h2
    rw [h1, h3]
    exact liveSetChanged_is _ ht
  · intro h1 h2
    have h3 : ((peer s n).state == .live) = false := beq_eq_false_iff_ne.mpr h1
    rw [h2, h3]
    refine liveSetChanged_is _ ?_
    obtain ⟨x, c, h⟩ := recheckPeer_eq n (setPeer n p s)
    show (recheckPeer n (setPeer n p s)).now = t
    rw [h]; exact ht

end Sys2Proof.Machine
end

