-- ==== Sys2Proof/Laws/Services.lean ====
section
/-! SUPPORT. Dispatch, answers and the ring: what the shared operations over them do. -/

namespace Sys2Proof.Machine

open Sys2Proof

/-- Taking the frame at the head of the receive queue (R100, R101). -/
theorem afterHead_eq (t : Time) (s : State) (x : RxFrame) (rest : List RxFrame) (h : s.slc.receiveQueue = x :: rest) :
   acceptHead { s with now := t } = afterHead t rest s := by
  unfold acceptHead afterHead setReceiveQueue holdAfter
  simp [h]

/-- A dispatch command of the waiting kind acts on the head. -/
theorem dispatch_eq (k : FrameKind) (f : RxFrame → State → State)
    (t : Time) (s : State) (x : RxFrame) (rest : List RxFrame) (h : FrameWaits s x rest k) :
   atTime t (dispatchKind k f) s = f x (afterHead t rest s) := by
  obtain ⟨h1, h2, h3⟩ := h
  unfold atTime dispatchKind
  simp only [h1, h2, h3, beq_self_eq_true, if_true, Bool.false_eq_true, if_false]
  rw [afterHead_eq t s x rest h2]

/-- An ASK that is waited for and has room is taken from the queue and acted on (R101, R175). -/
theorem ask_eq {s : State} {x : RxFrame} {rest : List RxFrame} {k : Byte} (h : AskWaits s x rest k) (t : Time) (p : Byte → Bool)
   (hp : p k = true) (f : RxFrame → State → State) : atTime t (takeAsk p f) s = f x (afterHead t rest s) := by
  obtain ⟨h1, h2, h3, h4, h5, h6⟩ := h
  unfold atTime takeAsk
  have hd : drivesSlots s.slc = true := by rcases h5 with h | h <;> simp [drivesSlots, h]
  have h6' : decide (s.slc.service.length < 4) = true := by simpa using h6
  simp only [h1, h2, h3, h4, hp, Bool.false_eq_true, if_false, beq_self_eq_true, serviceAccepts, serviceActs, h6',
      Bool.true_or, Bool.and_true, if_true, onlyIf, hd]
  rw [afterHead_eq t s x rest h2]

/-- A reply that can be sent joins the SERVICE queue (R88, R175). -/
theorem reply_with {s : State} (h : s.slc.line = .active ∨ s.slc.line = .configFault)
    (h6 : s.slc.service.length < 4) (n st k c) :
   reply n st k c s = withReply n st k c s := by
  unfold reply handOver
  have : sendsKind s.slc.line (kindOfBody (.reply st k c)) = true := by
    rcases h with h | h <;> rw [h] <;> rfl
  rw [if_pos this]
  simp only [enqueue, classOfBody, kindOfBody, classOfKind, h6, if_true, onlyIf, Bool.false_eq_true, if_false, withReply]

/-- Answering an ASK puts one REPLY on the SERVICE queue. -/
theorem answer_eq {s : State} {x : RxFrame} {rest : List RxFrame} {k : Byte} (h : AskWaits s x rest k) (A : State)
    (hl : A.slc.line = s.slc.line)
  (hs : A.slc.service = s.slc.service) (st c) : answer x st c A = withReply x.frame.node st k c A := by
  unfold answer
  rw [h.asked, reply_with]
  · rw [hl]; exact h.line
  · rw [hs]; exact h.room

/-- With consecutive indices a held record is found by its own (R169). -/
theorem recordAt_of (s : State) (h : RstInv s) (r) (hr : r ∈ s.rst.ring) : recordAt s r.index = some r := by
  unfold recordAt
  cases hf : s.rst.ring.find? (fun y => y.index == r.index) with
  | none => rw [List.find?_eq_none] at hf; exact absurd (by simp) (hf r hr)
  | some y =>
    have hy := List.mem_of_find?_eq_some hf
    have hi : y.index = r.index := by simpa using List.find?_some hf
    obtain ⟨i, hi1, rfl⟩ := List.getElem_of_mem hr
    obtain ⟨j, hj1, rfl⟩ := List.getElem_of_mem hy
    rw [h.indices i hi1, h.indices j hj1] at hi
    have hsz := h.size
    have : i = j := by
      have hh : (BitVec.ofNat 16 (s.rst.ring.length - j)) = BitVec.ofNat 16 (s.rst.ring.length - i) := by
        generalize BitVec.ofNat 16 (s.rst.ring.length - j) = a at *
        generalize BitVec.ofNat 16 (s.rst.ring.length - i) = b at *
        bv_omega
      have := congrArg BitVec.toNat hh
      simp only [BitVec.toNat_ofNat] at this
      omega
    subst this; rfl

/-- The read pointer is on a held record or on the next index (R171). -/
theorem recordAt_pointer (s : State) (h : RstInv s) (hp : s.rst.readPointer ≠ s.rst.nextIndex) :
    ∃ r ∈ s.rst.ring, r.index = s.rst.readPointer := by
  have h1 := h.pointer
  have hsz := h.size
  generalize hd : (s.rst.nextIndex - s.rst.readPointer).toNat = d at *
  have h0 : d ≠ 0 := by
    intro h0; apply hp; rw [h0] at hd; bv_omega
  refine ⟨s.rst.ring[s.rst.ring.length - d]'(by omega), List.getElem_mem _, ?_⟩
  rw [h.indices]
  have : s.rst.ring.length - (s.rst.ring.length - d) = d := by omega
  rw [this, ← hd]
  rw [BitVec.ofNat_toNat, BitVec.setWidth_eq]
  bv_omega

/-- No record of that index is held. -/
theorem recordAt_none (s : State) (i) : recordAt s i = none ↔ ¬ ∃ r ∈ s.rst.ring, r.index = i := by
  unfold recordAt
  rw [List.find?_eq_none]
  simp

end Sys2Proof.Machine
end

