-- ==== Sys2Proof/Laws/StepMoves.lean ====
section
/-! SUPPORT. The moves of Laws/Moves.lean carried through sessions, tracking, heads, recorder service and commands, up to
`Kept.exec` and `Kept.step`. -/

namespace Sys2Proof.Machine

open Sys2Proof

variable {P : State → Prop}

/-! ### Sessions -/

theorem Kept.addHalted (h : Kept P) (n : Nat) {s : State} (hs : P s) : P (onCurrent (addHalted n) s) :=
  h.onCurrent (Machine.addHalted n) (fun _ => ⟨rfl, rfl, rfl, rfl⟩) hs

theorem Kept.leaveHalted (h : Kept P) {s : State} (hs : P s) : P (leaveHalted s) := by
  unfold Machine.leaveHalted
  split
  · exact h.ses _ _ (fun ⟨a, b, c, d, e, f, _, i, j, k⟩ => ⟨a, b, c, d, e, f, fun h => by simp at h, i, j, k⟩) (.same rfl rfl)
      (h.addHalted _ hs)
  · exact hs

theorem Kept.haltTick (h : Kept P) {s : State} (hs : P s) : P (haltTick s) := by
  unfold Machine.haltTick
  split
  · exact hs
  · split
    · rename_i hh
      have hh : s.ses.state = .halted := by simp at hh; exact hh.1
      exact h.ses _ _ (fun ⟨a, b, c, d, e, f, _, i, j, k⟩ => ⟨a, b, c, d, e, f, fun _ => hh, i, j, k⟩) (.same rfl rfl)
        (h.addHalted _ hs)
    · exact hs

theorem Kept.enterHalted (h : Kept P) {s : State} (hr : s.ses.state = .running) (hs : P s) : P (enterHalted s) := by
  refine h.cancelDeadlines (h.ses _ s (fun hg => ?_) ⟨(fun e => by cases e), id⟩ hs)
  obtain ⟨a, b, c, d, e, f, g, i, j, k⟩ := hg
  constructor <;> simp_all

theorem leaveHalted_state (s : State) : (leaveHalted s).ses.state = s.ses.state := by
  unfold leaveHalted
  split <;> rfl

theorem leaveHalted_tick {s : State} (hg : SesGood (leaveHalted s).ses) : (leaveHalted s).ses.nextHaltTick = none := by
  by_cases hh : (s.ses.state == .halted) = true
  · unfold leaveHalted
    rw [if_pos hh]
  · have e : leaveHalted s = s := by
      unfold leaveHalted
      rw [if_neg hh]
    rw [e] at hg ⊢
    cases et : s.ses.nextHaltTick with
    | none => rfl
    | some _ => exact absurd (hg.tick (by simp [et])) (by simpa using hh)

theorem Kept.enterDraining (h : Kept P) {s : State} (hr : timersRun s = true) (hs : P s) : P (enterDraining s) := by
  unfold Machine.enterDraining
  refine h.drainTests (kept_onlyIf (h.testAll (h.ses _ _ (fun hg => ?_) ⟨(fun e => by cases e), id⟩ (h.leaveHalted hs)))
    fun hs => h.drainDeadlines hs)
  have hn : (Machine.leaveHalted s).ses.state ≠ .idle := by
    rw [leaveHalted_state]
    intro e
    simp [timersRun, e] at hr
  have ht := leaveHalted_tick hg
  obtain ⟨a, b, c, d, e, f, g, i, j, k⟩ := hg
  constructor <;> simp_all

theorem Kept.peerTest (h : Kept P) {s : State} (hs : P s) : P (peerTest s) := by
  unfold Machine.peerTest onlyIf
  split
  · rename_i hc
    exact h.enterDraining (by simp at hc; simp [hc]) hs
  · exact hs

theorem Kept.closeExpired (h : Kept P) {s : State} (hr : timersRun s = true) (hs : P s) : P (closeExpired s) := by
  have hn : s.ses.state = .running ∨ s.ses.state = .halted := by simpa [timersRun] using hr
  have h1 : P { s with ses := { s.ses with closeExpiry := none } } :=
    h.ses _ s (fun ⟨a, b, c, d, _, f, g, i, j, k⟩ => ⟨a, b, c, d, fun h => by simp at h, f, g, i, j, k⟩) (.same rfl rfl) hs
  unfold Machine.closeExpired
  simp only
  split
  · exact h.enterDraining hr h1
  · exact h.peerTest (h.ses _ { s with ses := { s.ses with closeExpiry := none } }
      (fun ⟨a, b, c, d, _, _, g, i, j, k⟩ => ⟨a, b, c, d, fun h => by simp at h, fun _ => hn, g, i, j, k⟩) (.same rfl rfl) h1)

theorem Kept.haltDue (h : Kept P) {s : State} (hs : P s) : P (haltDue s) := by
  unfold Machine.haltDue onlyIf
  split
  · rename_i hc
    exact h.enterHalted (by simp at hc; exact hc.1) hs
  · exact hs

theorem Kept.closeDue (h : Kept P) {s : State} (hs : P s) : P (closeDue s) := by
  unfold Machine.closeDue onlyIf
  split
  · rename_i hc
    exact h.closeExpired (by simp at hc; exact hc.1) hs
  · exact hs

theorem Kept.takeExpiries (h : Kept P) {s : State} (hs : P s) : P (takeExpiries s) := h.closeDue (h.haltDue hs)

theorem Kept.drainLimitDue (h : Kept P) {s : State} (hs : P s) : P (drainLimitDue s) :=
  kept_onlyIf hs fun hs => h.drainTests (h.forceAll hs)

theorem Kept.restartTimers (h : Kept P) {t : Time} {s : State} (hn : s.ses.state = .running ∨ s.ses.state = .halted)
    (ht : SesGood s.ses → s.ses.nextHaltTick = none) (hs : P s) : P (restartTimers t s) := by
  refine h.ses (Machine.restartTimers t s).ses s (fun hg => ?_) ⟨(fun e => by cases e), id⟩ hs
  have h1 : s.ses.state ≠ .idle := by rcases hn with e | e <;> simp [e]
  have h2 : s.ses.state ≠ .draining := by rcases hn with e | e <;> simp [e]
  have h3 := ht hg
  obtain ⟨a, b, c, d, e, f, g, i, j, k⟩ := hg
  obtain ⟨m, e1, e2, e3, e4, e5⟩ := b h1
  unfold Machine.restartTimers Machine.onCurrent
  constructor <;> simp_all

theorem Kept.crossingTaken (h : Kept P) {t : Time} {s : State} (hs : P s) : P (crossingTaken t s) := by
  unfold Machine.crossingTaken
  split
  · rename_i hr
    have hn : s.ses.state = .running ∨ s.ses.state = .halted := by simpa [timersRun] using hr
    exact h.takeExpiries (kept_onlyIf
      (h.restartTimers (by rw [leaveHalted_state]; exact hn) leaveHalted_tick (h.leaveHalted hs))
      fun hs => h.resumeDeadlines hs)
  · exact hs

theorem Kept.openSession (h : Kept P) {c : Crossing} {s : State} (hi : s.ses.state = .idle) (hs : P s) :
    P (openSession c s) :=
  h.handOver _ _ _ (h.beginSession hi hs)

theorem Kept.checkDirection (h : Kept P) {x : Crossing} {s : State} (hs : P s) : P (checkDirection x s) := by
  unfold Machine.checkDirection
  simp only
  split
  · exact hs
  · refine kept_onlyIf (h.ses _ s (fun hg => ?_) (.same rfl rfl) hs) fun hs => h.exit _ (h.latch _ _ hs)
    obtain ⟨a, b, c, d, e, f, g, i, j, k⟩ := hg
    refine ⟨fun hi => by simp [a hi], fun hi => ?_, c, d, e, f, g, i, j, k⟩
    obtain ⟨m, e1, e2, e3, e4, e5⟩ := b hi
    exact ⟨{ m with direction := observedDirection x.side }, by simp [e1], e2, rfl, e4, e5⟩

theorem Kept.openAfterDraining (h : Kept P) {c : Crossing} {x : Option HeldOpen} {s : State} (hi : s.ses.state = .idle)
    (hs : P s) : P (openAfterDraining c x s) := by
  unfold Machine.openAfterDraining
  split
  · exact h.openSession hi hs
  · exact kept_onlyIf (h.beginSession hi hs) fun hs => h.latch _ _ hs

theorem closeSession_idle (s : State) : (closeSession s).ses.state = .idle := by
  obtain ⟨_, _, _, e⟩ := closeSession_eq s
  rw [e]
  rfl

theorem Kept.interruptDraining (h : Kept P) {c : Crossing} {s : State} (hd : s.ses.state = .draining) (hs : P s) :
    P (interruptDraining c s) := by
  unfold Machine.interruptDraining
  refine h.openAfterDraining (closeSession_idle _) (h.cut _ hd rfl (h.ses _ s (fun hg => ?_) (.same rfl rfl) hs))
  obtain ⟨a, b, c, d, e, f, g, i, j, k⟩ := hg
  exact ⟨a, b, c, d, e, f, g, i, j, fun e => by simp at e⟩

theorem Kept.offerCrossing (h : Kept P) {c : Crossing} {s : State} (hs : P s) : P (offerCrossing c s).1 := by
  have h1 : P (Machine.crossingTaken s.now (if c.kind == .inward then Machine.checkDirection c s else s)) := by
    apply h.crossingTaken
    split
    · exact h.checkDirection hs
    · exact hs
  unfold Machine.offerCrossing
  split
  · rename_i hi
    split
    · exact h.openSession hi hs
    · exact hs
  · rename_i hd
    split
    · exact h.interruptDraining hd hs
    · exact hs
  · exact h1

theorem Kept.liveSetChanged (h : Kept P) {s : State} (hs : P s) : P (liveSetChanged s) :=
  h.peerTest (h.testAll (h.exit _ hs))

theorem Kept.replacePeer (h : Kept P) {n : Nat} {p : Peer} {s : State} (hs : P s) : P (replacePeer n p s) := by
  unfold Machine.replacePeer
  simp only
  split
  · exact h.peer _ _ s hs
  · exact h.liveSetChanged (kept_onlyIf (h.peer _ _ s hs) fun hs => h.recheckPeer hs)

theorem Kept.replaceOpening (h : Kept P) {n : Nat} {t : Time} {s : State} (hs : P s) : P (replaceOpening n t s) := by
  refine h.ses _ s (fun hg => ?_) (.same rfl rfl) hs
  obtain ⟨a, b, c, d, e, f, g, i, j, k⟩ := hg
  refine ⟨fun hi => by simp [a hi], fun hi => ?_, fun hi => ⟨rfl, (c hi).2⟩, d, e, f, g, i, j, k⟩
  obtain ⟨m, e1, e2, e3, e4, e5⟩ := b hi
  exact ⟨{ m with firstEdge := t }, by simp [e1], e2, e3, rfl, e5⟩

theorem Kept.replaceNumber (h : Kept P) {n : Word16} {s : State} (hs : P s) : P (replaceNumber n s) := by
  unfold Machine.replaceNumber
  refine h.refuseDeferred (h.fusNumbers _ _ _ (h.ses _ s (fun hg => ?_) (.same rfl rfl) hs))
  obtain ⟨a, b, c, d, e, f, g, i, j, k⟩ := hg
  refine ⟨fun hi => by simp [a hi], fun hi => ?_, c, d, e, f, g, i, j, k⟩
  obtain ⟨m, e1, e2, e3, e4, e5⟩ := b hi
  exact ⟨{ m with number := n }, by simp [e1], rfl, e3, e4, e5⟩

theorem Kept.competingDirection (h : Kept P) {x : Direction} {s : State} (hs : P s) : P (competingDirection x s) := by
  unfold Machine.competingDirection
  split
  · exact hs
  · split
    · exact h.latch _ _ hs
    · refine h.exit _ (h.ses _ s (fun hg => ?_) (.same rfl rfl) hs)
      obtain ⟨a, b, c, d, e, f, g, i, j, k⟩ := hg
      refine ⟨fun hi => by simp [a hi], fun hi => ?_, c, d, e, f, g, i, j, k⟩
      obtain ⟨m, e1, e2, e3, e4, e5⟩ := b hi
      exact ⟨{ m with direction := x }, by simp [e1], e2, rfl, e4, e5⟩

theorem Kept.takeOpen (h : Kept P) {n : Nat} {t : Time} {x : Word16} {d : Direction} {tf : Time} {s : State} (hs : P s) :
    P (takeOpen n t x d tf s) := by
  unfold Machine.takeOpen
  simp only
  split
  · rename_i hi
    split
    · exact hs
    · exact h.takeExpiries (h.beginSession (by simpa using hi) hs)
  · split
    · split
      · exact hs
      · split
        · exact kept_onlyIf hs fun hs => h.replaceOpening hs
        · exact h.competingDirection (h.replaceNumber (h.replaceOpening hs))
    · split
      · rename_i hd
        simp at hd
        exact h.ses _ s (fun ⟨a, b, c, d, e, f, g, i, j, _⟩ => ⟨a, b, c, d, e, f, g, i, j, fun _ => hd.1.1⟩) (.same rfl rfl) hs
      · exact hs

theorem Kept.openDispatched (h : Kept P) {x : RxFrame} {s : State} (hs : P s) : P (openDispatched x s) := by
  unfold Machine.openDispatched
  simp only
  split
  · exact h.takeOpen (h.meetNumber hs)
  · exact hs

theorem Kept.crossDispatched (h : Kept P) {x : RxFrame} {s : State} (hs : P s) : P (crossDispatched x s) := by
  unfold Machine.crossDispatched
  simp only
  split
  · exact h.crossHeard (h.crossingTaken (h.meetNumber hs))
  · exact hs

theorem Kept.takeShut (h : Kept P) {n : Nat} {x : ShutCounts} {s : State} (hs : P s) : P (takeShut n x s) := by
  unfold Machine.takeShut
  split
  · exact h.peerTest (h.onCurrent (recordShut n x) (fun _ => ⟨rfl, rfl, rfl, rfl⟩) hs)
  · split
    · exact h.ses _ s (fun ⟨a, b, c, d, e, f, g, i, j, k⟩ => ⟨a, b, c, d, e, f, g, i, j, k⟩) (.same rfl rfl) hs
    · exact hs

theorem Kept.shutDispatched (h : Kept P) {x : RxFrame} {s : State} (hs : P s) : P (shutDispatched x s) := by
  unfold Machine.shutDispatched
  simp only
  split
  · exact h.takeShut (h.meetNumber hs)
  · exact hs

theorem Kept.hailSession (h : Kept P) {p : List Byte} {s : State} (hs : P s) : P (hailSession p s) :=
  kept_onlyIf hs fun hs => h.meetNumber hs

theorem Kept.hailDispatched (h : Kept P) {x : RxFrame} {s : State} (hs : P s) : P (hailDispatched x s) := by
  unfold Machine.hailDispatched
  exact h.layout _ (h.replacePeer (h.replacePeer (h.hailSession (h.peer _ _ s hs))))

theorem Kept.silenceExpired (h : Kept P) {n : Nat} {s : State} (hs : P s) : P (silenceExpired n s) := by
  unfold Machine.silenceExpired
  simp only
  split
  · exact hs
  · exact h.layout _ (h.replacePeer hs)

theorem Kept.arrival (h : Kept P) {n : Nat} {a b : Time} {s : State} (hs : P s) : P (arrival n a b s) :=
  kept_onlyIf (h.replacePeer hs) fun hs => h.layout _ hs

theorem Kept.receiveFrame (h : Kept P) {t : Time} {f : LineFrame} {s : State} (hs : P s) : P (receiveFrame t f s) := by
  unfold Machine.receiveFrame
  split
  · split
    · exact h.ignore _ hs
    · exact h.admitted _ _ _ _ (kept_onlyIf hs fun hs => h.arrival hs)
  · exact hs

/-! ### Tracking -/

theorem Kept.checkDone (h : Kept P) {j : Nat} {s : State} (hs : P s) : P (checkDone j s) := by
  unfold Machine.checkDone
  split
  · exact hs
  · split
    · exact hs
    · exact h.handOver _ _ _ (h.takeOwn (h.changeRecord hs))

theorem Kept.settleSide (h : Kept P) {k : EventKind} {j : Nat} {x : Option Step} {s : State} (hs : P s) :
    P (settleSide k j x s) := h.checkDone (h.changeRecord hs)

theorem Kept.settleEvent (h : Kept P) {e : Event} {s : State} (hs : P s) : P (settleEvent e s) :=
  kept_onlyIf hs fun hs => h.settleSide hs

theorem Kept.settleLost (h : Kept P) {e : Event} {s : State} (hs : P s) : P (settleLost e s) :=
  kept_onlyIf hs fun hs => h.settleSide hs

theorem Kept.measureBefore (h : Kept P) {k : Nat} {s : State} (hs : P s) : P (measureBefore k s) := by
  unfold Machine.measureBefore
  split
  · exact hs
  · exact h.settleEvent (h.timeline _ s (.inr (by simp [setPlace])) hs)

theorem Kept.measureAfter (h : Kept P) {k : Nat} {s : State} (hs : P s) : P (measureAfter k s) := by
  unfold Machine.measureAfter
  split
  · exact hs
  · exact h.settleEvent (h.timeline _ s (.inr (by simp [setPlace])) hs)

theorem Kept.beforeDueAt (h : Kept P) {k : Nat} {s : State} (hs : P s) : P (beforeDueAt k s) := by
  unfold Machine.beforeDueAt
  split
  · exact hs
  · exact kept_onlyIf hs fun hs => h.measureBefore hs

theorem Kept.afterDueAt (h : Kept P) {k : Nat} {s : State} (hs : P s) : P (afterDueAt k s) := by
  unfold Machine.afterDueAt
  split
  · exact hs
  · exact kept_onlyIf hs fun hs => h.measureAfter hs

theorem remaining_length (t : Time) : ∀ xs : List Event, (remaining t xs).length ≤ xs.length
  | [] => Nat.le_refl _
  | [e] => by
    unfold remaining
    split <;> simp
  | e :: f :: rest => by
    unfold remaining
    have := remaining_length t (f :: rest)
    split <;> simp at this ⊢ <;> omega

theorem Kept.tidy (h : Kept P) {s : State} (hs : P s) : P (tidy s) := by
  unfold Machine.tidy
  exact h.records _ _ (h.timeline _ s (.inr (remaining_length _ _)) hs)

theorem Kept.measurePredecessor (h : Kept P) {k : Nat} {s : State} (hs : P s) : P (measurePredecessor k s) := by
  unfold Machine.measurePredecessor
  split
  · exact hs
  · exact h.afterDueAt hs

theorem Kept.option (f : Event → State → State) (hf : ∀ e s, P s → P (f e s)) (x : Option Event) {s : State} (hs : P s) :
    P ((x.map f).getD id s) := by
  cases x with
  | none => exact hs
  | some e => exact hf e s hs

theorem placeEvent_length (e : Event) : ∀ xs : List Event, (placeEvent e xs).length = xs.length + 1
  | [] => rfl
  | x :: rest => by
    unfold placeEvent
    split
    · rfl
    · simp [placeEvent_length e rest]

theorem overflow_length (xs : List Event) : (overflow xs).length = xs.length - 1 := by
  cases xs <;> simp [overflow]

theorem Kept.insertEvent (h : Kept P) {e : Event} {s : State} (hs : P s) : P (insertEvent e s) := by
  unfold Machine.insertEvent
  extract_lets k placed s1
  split
  · rename_i hl
    exact h.measurePredecessor (h.timeline _ s (.inl hl) hs)
  · refine Kept.option _ (fun _ _ hs => h.settleEvent hs) _ ?_
    have h2 : ∀ n, P (Machine.measurePredecessor n { s with atr := { s1 with timeline := overflow placed } }) :=
      fun _ => h.measurePredecessor
        (h.timeline _ s (.inr (by rw [overflow_length, placeEvent_length]; simp)) hs)
    show P (if (k == 0) = true then _ else _)
    split
    · exact h2 _
    · exact Kept.option _ (fun _ _ hs => h.settleLost hs) _ (h2 _)

theorem supersede_length (k : EventKind) (j : Nat) : ∀ (place : Option Nat) (xs : List Event),
    (supersede k j place xs).length = xs.length
  | _, [] => rfl
  | none, _ :: xs => by simp [supersede, supersede_length k j none xs]
  | some 0, _ :: xs => by simp [supersede, supersede_length k j none xs]
  | some (n + 1), _ :: xs => by simp [supersede, supersede_length k j (some n) xs]

theorem Kept.recordEvent (h : Kept P) {k : EventKind} {b : Bool} {j : Nat} {c : Crossing} {s : State} (hs : P s) :
    P (recordEvent k b j c s) := by
  unfold Machine.recordEvent
  split
  · exact hs
  · split
    · split
      · exact h.records _ s hs
      · exact h.changeRecord hs
    · exact h.changeRecord hs
    · exact h.changeRecord hs
    · exact h.changeRecord hs

theorem Kept.recordInserted (h : Kept P) {k : EventKind} {b : Bool} {j : Nat} {c : Crossing} {x : Option Nat} {s : State}
    (hs : P s) : P (recordInserted k b j c x s) :=
  kept_onlyIf (h.recordEvent (h.timeline _ s (.inr (Nat.le_of_eq (supersede_length _ _ _ _))) hs))
    fun hs => h.settleLost hs

theorem Kept.handFirstEntry (h : Kept P) {j : Nat} {c : Crossing} {s : State} (hs : P s) : P (handFirstEntry j c s) :=
  kept_onlyIf (h.firstEntry _ _ _ _ hs) fun hs => h.assemble hs

theorem Kept.reportEntry (h : Kept P) {b : Bool} {j : Nat} {c : Crossing} {s : State} (hs : P s) :
    P (reportEntry b j c s) := by
  unfold Machine.reportEntry
  split
  · exact hs
  · split
    · exact h.handFirstEntry (h.notifyEntry hs)
    · exact h.notifyEntry hs

theorem Kept.reportEvent (h : Kept P) {k : EventKind} {b : Bool} {j : Nat} {c : Crossing} {s : State} (hs : P s) :
    P (reportEvent k b j c s) := by
  unfold Machine.reportEvent
  split
  · exact h.reportEntry hs
  · exact hs
  · exact h.onCurrent (fun m => { m with reversals := countUp 65535 m.reversals }) (fun _ => ⟨rfl, rfl, rfl, rfl⟩) hs
  · exact h.onCurrent (fun m => { m with reversals := countUp 65535 m.reversals }) (fun _ => ⟨rfl, rfl, rfl, rfl⟩) hs

theorem Kept.acceptEvent (h : Kept P) {k : EventKind} {b : Bool} {a : Atr} {j : Nat} {c : Crossing} {s : State}
    (hs : P { s with atr := a }) : P (acceptEvent k b a j c s) := by
  unfold Machine.acceptEvent
  exact h.handOver _ _ _ (h.reportEvent (h.recordInserted (h.insertEvent hs)))

theorem Kept.mapCrossing (h : Kept P) {c : Crossing} {s : State} (hs : P s) : P (mapCrossing c s) := by
  unfold Machine.mapCrossing
  split
  · simp only
    split
    · exact h.onCurrent (fun m => { m with phantoms := countUp 65535 m.phantoms }) (fun _ => ⟨rfl, rfl, rfl, rfl⟩) hs
    · rename_i a j he
      exact h.acceptEvent (h.listMove _ s a j hs he)
  · exact hs

theorem Kept.deliverCrossing (h : Kept P) {c : Crossing} {s : State} (hs : P s) : P (deliverCrossing c s).1 :=
  h.mapCrossing (h.offerCrossing hs)

/-! ### Wheel heads -/

theorem Kept.setLastSpeed (h : Kept P) {e : PlatformEnd} {v : Nat} {s : State} (hs : P s) : P (setLastSpeed e v s) :=
  h.unit _ _ s ⟨rfl, rfl, .inl ⟨rfl, rfl⟩⟩ hs

theorem Kept.deliverPaired (h : Kept P) {c : Crossing} {s : State} (hs : P s) : P (deliverPaired c s) :=
  kept_onlyIf (h.deliverCrossing (h.setLastSpeed hs)) fun hs => h.setLastSpeed hs

theorem Kept.completePair (h : Kept P) {e : PlatformEnd} {x : Half} {t : Time} {s : State} (hs : P s) :
    P (completePair e x t s) := by
  unfold Machine.completePair
  extract_lets u c silent s1 s2
  have h2 : P s2 := kept_onlyIf (h.unit _ _ s ⟨rfl, rfl, .inr ⟨rfl, rfl⟩⟩ hs) fun hs => h.faultsGone _ _ hs
  split
  · exact h.setLastSpeed h2
  · exact h.deliverPaired h2

theorem Kept.startHalf (h : Kept P) {e : PlatformEnd} {n : HeadNo} {t : Time} {s : State} (hs : P s) :
    P (startHalf e n t s) := by
  unfold Machine.startHalf
  simp only
  split
  · exact h.deliverCrossing (h.unit _ _ s ⟨rfl, rfl, .inl ⟨rfl, rfl⟩⟩ hs)
  · exact h.unit _ _ s ⟨rfl, rfl, .inl ⟨rfl, rfl⟩⟩ hs

theorem Kept.pairEdge (h : Kept P) {e : PlatformEnd} {n : HeadNo} {t : Time} {s : State} (hs : P s) :
    P (pairEdge e n t s) := by
  unfold Machine.pairEdge
  split
  · exact h.startHalf hs
  · split
    · exact h.startHalf (h.discard _ _ _ hs)
    · exact h.completePair hs

theorem setLock_sameRun (n : HeadNo) (x : Option Time) (u : EndUnit) : u.sameRun (setLock n x u) := by
  cases n <;> exact ⟨rfl, rfl, .inl ⟨rfl, rfl⟩⟩

theorem Kept.headEdge (h : Kept P) {e : PlatformEnd} {n : HeadNo} {s : State} (hs : P s) : P (headEdge e n s) := by
  unfold Machine.headEdge
  simp only
  split
  · exact h.tidy (h.pairEdge (h.unit _ _ s (setLock_sameRun _ _ _) hs))
  · exact hs

theorem Kept.expireHalf (h : Kept P) {e : PlatformEnd} {s : State} (hs : P s) : P (expireHalf e s) := by
  unfold Machine.expireHalf
  split
  · exact hs
  · exact kept_onlyIf hs fun hs => h.discard _ _ _ hs

/-! ### Recorder service -/

theorem Kept.answer (h : Kept P) {x : RxFrame} {a : ReplyStatus} {c : Content} {s : State} (hs : P s) :
    P (answer x a c s) := h.reply hs

theorem Kept.acceptCons (h : Kept P) {x : RxFrame} {rest : List RxFrame} {s : State} (hs : P s)
    (hq : s.slc.receiveQueue = x :: rest) : P (acceptHead s) := h.accept s hs (by simp [hq])

theorem Kept.takeAsk (h : Kept P) {p : Byte → Bool} {f : RxFrame → State → State} (hf : ∀ x s, P s → P (f x s))
    {s : State} (hs : P s) : P (takeAsk p f s) := by
  unfold Machine.takeAsk
  split
  · exact hs
  · rename_i x rest hq
    split
    · exact kept_onlyIf (h.acceptCons hs hq) fun hs => hf _ _ hs
    · exact hs

theorem Kept.dispatchKind (h : Kept P) {k : FrameKind} {f : RxFrame → State → State} (hf : ∀ x s, P s → P (f x s))
    {s : State} (hs : P s) : P (dispatchKind k f s) := by
  unfold Machine.dispatchKind
  split
  · exact hs
  · rename_i x rest hq
    split
    · exact hf _ _ (h.acceptCons hs hq)
    · exact hs

theorem Kept.discardHead (h : Kept P) {s : State} (hs : P s) : P (discardHead s) := by
  unfold Machine.discardHead
  split
  · exact hs
  · rename_i x rest hq
    split
    · exact h.acceptCons hs hq
    · exact hs

theorem Kept.unlessFault (h : Kept P) {x : RxFrame} {f : State → State} (hf : ∀ s, P s → P (f s)) {s : State}
    (hs : P s) : P (unlessFault x f s) := by
  unfold Machine.unlessFault
  split
  · exact h.answer hs
  · exact hf s hs

theorem Kept.fetchNextAsk (h : Kept P) {x : RxFrame} {s : State} (hs : P s) : P (fetchNextAsk x s) := by
  unfold Machine.fetchNextAsk
  split
  · exact h.answer hs
  · split
    · exact h.answer hs
    · rename_i r hr
      exact h.answer (h.fetched s r hs hr)

theorem Kept.fetchAsk (h : Kept P) {x : RxFrame} {s : State} (hs : P s) : P (fetchAsk x s) := by
  unfold Machine.fetchAsk
  split <;> exact h.answer hs

theorem Kept.seekAsk (h : Kept P) {x : RxFrame} {s : State} (hs : P s) : P (seekAsk x s) := by
  unfold Machine.seekAsk
  simp only
  split
  · rename_i hi
    exact h.answer (h.sought _ s hs hi)
  · exact h.answer hs

theorem Kept.fetchWagonAsk (h : Kept P) {x : RxFrame} {s : State} (hs : P s) : P (fetchWagonAsk x s) := by
  unfold Machine.fetchWagonAsk
  simp only
  split
  · exact h.answer hs
  · split
    · exact h.answer hs
    · split
      · exact h.answer (h.deferred _ s hs)
      · exact h.answer hs

theorem Kept.summaryAsk (h : Kept P) {x : RxFrame} {s : State} (hs : P s) : P (summaryAsk x s) := by
  unfold Machine.summaryAsk
  simp only
  split
  · split <;> exact h.answer hs
  · split
    · split <;> exact h.answer hs
    · exact h.answer hs

theorem Kept.clearAsk (h : Kept P) {x : RxFrame} {s : State} (hs : P s) : P (clearAsk x s) := by
  unfold Machine.clearAsk
  exact h.answer (h.clear _ s hs)

theorem Kept.restartAsk (h : Kept P) {x : Straps} {s : State} (hs : P s) : P (restartAsk x s) := by
  unfold Machine.restartAsk
  split
  · exact hs
  · split
    · exact h.restart _ _ hs
    · exact hs

theorem Kept.hailTimerDue (h : Kept P) {s : State} (hs : P s) : P (hailTimerDue s) := by
  unfold Machine.hailTimerDue
  split
  · exact hs
  · exact kept_onlyIf hs fun hs => h.hailTimer _ _ (h.handOver _ _ s hs)

/-! ### Commands -/

theorem Kept.atTime (h : Kept P) {t : Time} {f : State → State} (hf : ∀ s, P s → P (f s)) {s : State} (hs : P s) :
    P (atTime t f s) := by
  unfold Machine.atTime
  split
  · exact hs
  · exact hf _ (h.now t s hs)

/-- Every command is a chain of elementary moves. -/
theorem Kept.exec (h : Kept P) {c : Instr} {s t : State} (hs : P s) (he : exec c s = .next t) : P t := by
  cases c <;> injection he with he <;> subst he
  case fullReset => exact h.fullReset s hs
  case resetRelease => exact h.release _ s hs
  case imageReadDone => exact h.atTime (fun _ hs => h.endLoading _ _ hs) hs
  case instant => exact h.atTime (fun _ hs => h.instant _ _ hs) hs
  case headEdge => exact h.atTime (fun _ hs => h.headEdge hs) hs
  case halfExpiry => exact h.atTime (fun _ hs => h.expireHalf hs) hs
  case beforeWindowDue => exact h.atTime (fun _ hs => h.tidy (h.beforeDueAt hs)) hs
  case afterWindowDue => exact h.atTime (fun _ hs => h.tidy (h.afterDueAt hs)) hs
  case timelineRemoval => exact h.atTime (fun _ hs => h.tidy hs) hs
  case frameStart => exact h.atTime (fun _ hs => h.start _ _ hs) hs
  case arbitrationLost => exact h.atTime (fun _ hs => h.lose _ hs) hs
  case attemptEnd => exact h.atTime (fun _ hs => h.attempt _ _ hs) hs
  case bulkBackoffEnd => exact h.atTime (fun _ hs => h.backoff _ hs) hs
  case probeTimerExpiry => exact h.atTime (fun _ hs => h.probe _ hs) hs
  case frameReceived => exact h.atTime (fun _ hs => h.receiveFrame hs) hs
  case hailDispatch => exact h.atTime (fun _ hs => h.dispatchKind (fun _ _ hs => h.hailDispatched hs) hs) hs
  case openDispatch => exact h.atTime (fun _ hs => h.dispatchKind (fun _ _ hs => h.openDispatched hs) hs) hs
  case crossDispatch => exact h.atTime (fun _ hs => h.dispatchKind (fun _ _ hs => h.crossDispatched hs) hs) hs
  case shutDispatch => exact h.atTime (fun _ hs => h.dispatchKind (fun _ _ hs => h.shutDispatched hs) hs) hs
  case stepDispatch => exact h.atTime (fun _ hs => h.dispatchKind (fun _ _ hs => h.takeStep hs) hs) hs
  case tallyReplyDispatch => exact h.atTime (fun _ hs => h.discardHead hs) hs
  case fetchNext =>
    exact h.atTime (fun _ hs => h.takeAsk (fun _ _ hs => h.unlessFault (fun _ hs => h.fetchNextAsk hs) hs) hs) hs
  case fetch =>
    exact h.atTime (fun _ hs => h.takeAsk (fun _ _ hs => h.unlessFault (fun _ hs => h.fetchAsk hs) hs) hs) hs
  case fetchWagon =>
    exact h.atTime (fun _ hs => h.takeAsk (fun _ _ hs => h.unlessFault (fun _ hs => h.fetchWagonAsk hs) hs) hs) hs
  case seek =>
    exact h.atTime (fun _ hs => h.takeAsk (fun _ _ hs => h.unlessFault (fun _ hs => h.seekAsk hs) hs) hs) hs
  case summary => exact h.atTime (fun _ hs => h.takeAsk (fun _ _ hs => h.summaryAsk hs) hs) hs
  case conditions => exact h.atTime (fun _ hs => h.takeAsk (fun _ _ hs => h.answer hs) hs) hs
  case clear => exact h.atTime (fun _ hs => h.takeAsk (fun _ _ hs => h.clearAsk hs) hs) hs
  case restart => exact h.atTime (fun _ hs => h.restartAsk hs) hs
  case askUnknown => exact h.atTime (fun _ hs => h.takeAsk (fun _ _ hs => h.answer hs) hs) hs
  case hailTimer => exact h.atTime (fun _ hs => h.hailTimerDue hs) hs
  case silenceExpiry => exact h.atTime (fun _ hs => h.silenceExpired hs) hs
  case haltExpiry => exact h.atTime (fun _ hs => h.haltDue hs) hs
  case haltedTimeTick => exact h.atTime (fun _ hs => h.haltTick hs) hs
  case closeExpiry => exact h.atTime (fun _ hs => h.closeDue hs) hs
  case drainLimit => exact h.atTime (fun _ hs => h.drainLimitDue hs) hs
  case deadlineReached => exact h.atTime (fun _ hs => h.deadlineDue hs) hs

/-- A property that every elementary move and a change of the queue keep is kept by every step. -/
theorem Kept.step (h : Kept P) (hq : ∀ q s, P s → P { s with pending := q }) {s t : State} (hs : P s)
    (he : step s = .next t) : P t := by
  unfold Machine.step at he
  split at he
  · injection he with he
    exact he ▸ hs
  · exact h.exec (hq _ s hs) he

end Sys2Proof.Machine
end

