-- ==== Sys2Proof/WellFormed.lean ====
section
/-! DEFINITION. Which commands the line and the memory can present: the checks a command's operands must pass. The
meanings do not rely on them; an ill-formed frame is a bad frame (R96). -/

namespace Sys2Proof

/-- A frame read from the line holds as many payload bytes as its length field counts, a length above 64 counting as 64
(R85). -/
def LineFrame.wellFormed (f : LineFrame) : Bool :=
  !f.whole || f.payload.length == min f.length.toNat 64

/-- The I2C read ends after the length and at most 512 further bytes (R192). -/
def ImageRead.wellFormed : ImageRead → Bool
  | .noAcknowledge => true
  | .bytes given => given.length ≤ 514

/-- The operand checks, command by command. -/
def Instr.wellFormed : Instr → Bool
  | .imageReadDone _ image => image.wellFormed
  | .beforeWindowDue _ k => k < 32
  | .afterWindowDue _ k => k < 32
  | .frameReceived _ _ frame => frame.wellFormed
  | .deadlineReached _ ordinal => ordinal != 0
  | .fullReset => true
  | .resetRelease _ => true
  | .instant _ _ _ _ _ => true
  | .headEdge _ _ _ => true
  | .halfExpiry _ _ => true
  | .timelineRemoval _ => true
  | .frameStart _ _ => true
  | .arbitrationLost _ => true
  | .attemptEnd _ _ => true
  | .bulkBackoffEnd _ => true
  | .probeTimerExpiry _ => true
  | .hailDispatch _ => true
  | .openDispatch _ => true
  | .crossDispatch _ => true
  | .shutDispatch _ => true
  | .stepDispatch _ => true
  | .tallyReplyDispatch _ => true
  | .fetchNext _ => true
  | .fetch _ => true
  | .fetchWagon _ => true
  | .seek _ => true
  | .summary _ => true
  | .conditions _ => true
  | .clear _ => true
  | .restart _ _ => true
  | .askUnknown _ => true
  | .hailTimer _ => true
  | .silenceExpiry _ _ => true
  | .haltExpiry _ => true
  | .haltedTimeTick _ => true
  | .closeExpiry _ => true
  | .drainLimit _ => true

end Sys2Proof
end

