-- ==== Sys2Proof/Tests/Slice0.lean ====
section
/-! SUPPORT. Tests of the model against the figures worked in spec/, and a state and operands that meet the hypotheses of
each statement. Expected values are the manual's, or worked by hand from its rules; each test names the place. -/

namespace Sys2Proof.Tests

open Sys2Proof Sys2Proof.Machine

/-! ### Helpers -/

/-- What `f` reads of the state that a command leaves. -/
def after {α : Type} (c : Instr) (s : State) (f : State → α) : Option α :=
  match exec c s with
  | .next t => some (f t)
  | .fault _ => none
  | .refused _ => none

/-- Station 3, READY, session IDLE, line ACTIVE. -/
def ready : State :=
  { State.reset with stc := { Stc.reset with inReset := false, station := .ready, number := 3 }, ptb := Ptb.reset 3 }

/-- A frame as the line shows it, its check in order. -/
def frame (k : FrameKind) (node : BitVec 4) (stamp : Time) (payload : List Byte) : LineFrame :=
  let bare : LineFrame :=
    { cls := classCode (classOfKind k), node := node, kind := kindCode k, seq := 7, stamp := stamp,
      target := if k == .ask then 3 else 15, length := BitVec.ofNat 7 payload.length, payload := payload, check := 0,
      whole := true }
  { bare with check := frameCheck bare }

/-- A frame as the receive queue holds it. -/
def waiting (k : FrameKind) (node : BitVec 4) (start : Time) (payload : List Byte) : RxFrame :=
  { start := start,
    frame := { cls := classCode (classOfKind k), node := node, kind := kindCode k, seq := 7, stamp := 0, target := 15,
               length := BitVec.ofNat 7 payload.length, payload := payload, check := 0, whole := true } }

/-- A state with one frame in the receive queue. -/
def with1 (x : RxFrame) (s : State) : State := { s with slc := { s.slc with receiveQueue := [x] } }

/-- The running session 213, UP, opened at 60,000,000 µs. -/
def summary213 : Summary :=
  { number := 213, direction := .up, firstEdge := 60000000, lastCrossing := 60000000, ownAxles := 0, wagons := 0,
    phantoms := 0, reversals := 0, haltedMs := 0, late := 0, mismatch := false, shuts := List.replicate 8 none }

def running : State :=
  { ready with
    ses := { Ses.reset with
      state := .running, number := 213, checked := true, opener := some 3, tf := some 60000000, tOpen := some 60000000,
      mark := some 213, tc := some 60000000, haltExpiry := some 65000001, closeExpiry := some 70000001,
      current := some summary213 },
    fus := { table := [], current := some 213, superseded := none } }

/-- A LIVE peer at a position, 3,000 mm long. -/
def livePeer (p : Nat) (offset : Time) : Peer :=
  { state := .live, firstHail := none, lastHeard := some 0, offset := some offset, p := some p, l := some 3000,
    patternSum := some 0, stationState := some 3 }

/-- Stations 2 and 4 LIVE at station 3 (8.7). -/
def threeStations : State :=
  { running with
    ptb := { Ptb.reset 3 with
      ownP := 12000, ownL := 3000, exitStation := 4,
      peers := ((List.replicate 8 Peer.reset).set 2 (livePeer 9000 2250400)).set 4 (livePeer 15000 4293967296) } }

/-! ### WellFormed: one ill-formed operand for each check -/

theorem test_wellFormed_image_too_long (b : List Byte) (h : b.length = 515) :
    (Instr.imageReadDone 0 (.bytes b)).wellFormed = false := by
  simp [Instr.wellFormed, ImageRead.wellFormed, h]

theorem test_wellFormed_before_window_place : (Instr.beforeWindowDue 0 32).wellFormed = false := by decide

theorem test_wellFormed_after_window_place : (Instr.afterWindowDue 0 32).wellFormed = false := by decide

theorem test_wellFormed_payload_short :
    (Instr.frameReceived 0 0 { frame .hail 2 0 [1] with length := 2 }).wellFormed = false := by decide

theorem test_wellFormed_ordinal_zero : (Instr.deadlineReached 0 0).wellFormed = false := by decide

theorem test_wellFormed_good :
    (Instr.frameReceived 0 0 (frame .hail 2 0 [1])).wellFormed && (Instr.beforeWindowDue 0 31).wellFormed
      && (Instr.deadlineReached 0 1).wellFormed = true := by decide

/-! ### The queue -/

/-- The table gives no row bits, so no word spells a command. -/
theorem test_decode_none : decodeTableWord 16 1 = none := by decide

theorem test_step_takes_front :
    (match step { ready with pending := [.fullReset, .hailTimer 0] } with
      | .next t => some (t.pending, t.stc.station)
      | .fault _ => none
      | .refused _ => none) = some ([Instr.hailTimer 0], StationState.loading) := by decide

/-! ### Start-up (11.4) -/

/-- 11.4: straps low, high, low and RATE high are station 2 at 1 Mbit/s; R192: the I2C pins are in use. -/
theorem test_resetRelease_straps :
    after (.resetRelease { stn2 := false, stn1 := true, stn0 := false, rate := true }) State.reset
      (fun t => (t.stc.number, t.stc.fastLine, t.stc.station, t.stc.inReset, t.stc.i2cReleased))
      = some (2, true, .loading, false, false) := by decide

theorem test_fullReset : after .fullReset running (fun t => (t.stc.inReset, t.ses.state, t.cnd.faultLow))
    = some (true, .idle, false) := by decide

/-- A good image of no patterns: P 9,000, L 3,000, default marks, all causes but SATURATE enabled. -/
def image : List Byte :=
  [0, 59, 0, 0, 0x23, 0x28, 0x0B, 0xB8, 0, 250, 0, 250, 255, 255, 255, 255]
    ++ [0, 128, 0, 0, 0, 128, 0, 0, 0, 128, 0, 0, 0, 128, 0, 0] ++ [0x30, 0xD4, 0x30, 0xD4, 0x30, 0xD4, 0x30, 0xD4]
    ++ [255, 255, 255, 255, 255, 255, 255, 255, 255, 255, 255, 255, 255, 255, 255, 255, 1, 0xFB, 0]

def imageSum : Nat := image.foldl (fun n b => n + b.toNat) 0

def goodImage : ImageRead := .bytes (image ++ [byteOf (imageSum / 256), byteOf imageSum])

def loading : State := { ready with stc := { ready.stc with station := .loading } }

/-- 11.4, R1, R113: image good at 41,200: SETTLING, first instant 625 µs and next HAIL 250,000 µs later. -/
theorem test_imageReadDone_good :
    after (.imageReadDone 41200 goodImage) loading
      (fun t => [t.stc.station == .settling, t.lfe.nextInstant == some 41825, t.ptb.hailTimer == some 291200,
        t.settings.zc1 == 0, t.settings.sc1 == 12500, t.settings.haltS == 5, t.cnd.enable == 507, !t.cnd.faultLow,
        t.stc.i2cReleased])
      = some [true, true, true, true, true, true, true, true, true] := by decide

/-- 11.4: a sum that does not match is CONFIG FAULT, FAULT# low. -/
theorem test_imageReadDone_bad :
    after (.imageReadDone 41200 (.bytes (image ++ [0, 0]))) loading
      (fun t => (t.stc.station, t.slc.line, t.cnd.faultLow, t.stc.imageSum.toNat))
      = some (.configFault, .configFault, true, imageSum) := by decide

/-! ### Load Front End (1.2, 1.3, 1.5) -/

/-- 1.2, worked calibration figures. -/
theorem test_channelLoad_figures :
    channelLoad 150000 12500 2350000 = { kg := 26226, saturated := false }
      ∧ channelLoad 0 8192 64 = { kg := 1, saturated := false }
      ∧ channelLoad 0 8192 (-64) = { kg := -1, saturated := false }
      ∧ channelLoad 0 65535 8000000 = { kg := 200000, saturated := true }
      ∧ channelLoad 8300000 65535 8388607 = { kg := 5538, saturated := true }
      ∧ channelLoad 8300000 65535 8388606 = { kg := 5538, saturated := false } := by decide

def loads (a b c d : Int) : InstantLoads :=
  { c0 := ⟨a, false⟩, c1 := ⟨b, false⟩, c2 := ⟨c, false⟩, c3 := ⟨d, false⟩ }

/-- Three instants of the worked sample in the group; a raw value of 128 × n is n kg at s_c 8,192. -/
def weighing : State :=
  { ready with
    settings := { Settings.reset with sc0 := 8192, sc1 := 8192, sc2 := 8192, sc3 := 8192 },
    lfe := { Lfe.reset with
      excitation := true, nextInstant := some 1002500,
      group := [loads 7810 7905 7720 7640, loads 7830 7890 7705 7660, loads 7795 7912 7731 7652] } }

/-- 1.3, worked platform sample. -/
theorem test_instant_sample :
    after (.instant 1002500 1001088 1011072 987648 978304) weighing (fun t => (t.lfe.history, t.lfe.nextInstant, t.cnd.latched))
      = some ([{ stamp := 1002500, total := 31082, left := 15532, saturated := false }], some 1003125, 0) := by decide

/-- 1.3: a channel at its upper extreme marks the sample and latches SATURATE. -/
theorem test_instant_saturated :
    after (.instant 1002500 1001088 1011072 987648 8388607) weighing
      (fun t => (t.lfe.history.map (·.saturated), t.cnd.latched)) = some ([true], 4) := by decide

/-- 1.5, blocks 3 and 7: a block 80 kg away moves Z by 50, one 650 below by 50 downward. -/
theorem test_zero_moves : moveZero 180 260 = 230 ∧ moveZero 230 250 = 250 ∧ moveZero 250 (-400) = 200 := by decide

/-! ### Wheel heads and axles (2.7, 3.6) -/

def heads : State := { ready with settings := { Settings.reset with dA := 250, dB := 250 } }

/-- 2.7, a paired inward crossing: speed 16,666 mm/s, edge time 2,021,001, head 2 locked until 2,014,000; an edge
of head 1 before its release at 2,008,000 is ignored. -/
theorem test_headEdge_pair :
    after (.headEdge 2006000 .a .inner)
        { heads with whu := { heads.whu with endA := { EndUnit.reset with
            lock1 := some 2008000, half := some { head := .outer, start := 2000000, delivered := false } } } }
      (fun t => (t.atr.timeline.map fun e => [e.edge.toNat, e.speed], t.whu.endA.lastSpeed, t.whu.endA.lock2, t.atr.list))
      = some ([[2021001, 16666]], some 16666, some 2014000, [1])
      ∧ after (.headEdge 2003000 .a .outer)
          { heads with whu := { heads.whu with endA := { EndUnit.reset with lock1 := some 2008000 } } }
        (fun t => t.whu.endA) = some { EndUnit.reset with lock1 := some 2008000 } := by decide

/-- 2.7, a slow outward crossing: the correction is clamped to 350,000 µs. -/
theorem test_crossing_outward :
    pairedCrossing { Settings.reset with dB := 250 } .b { head := .inner, start := 5000000, delivered := false } 5150000
      = { side := .b, kind := .outward, edge := 4650000, speed := 666, overspeed := false, creep := true } := by decide

/-- 2.7, a head failing: the expiry at 10,580,001 makes the run 1, 2. -/
theorem test_halfExpiry_run :
    after (.halfExpiry 10580001 .a)
        { heads with whu := { heads.whu with endA := { EndUnit.reset with
            half := some { head := .outer, start := 10180000, delivered := false }, runHead := some .outer, runCount := 1 } } }
      (fun t => (t.whu.endA.half, t.whu.endA.runHead, t.whu.endA.runCount, t.cnd.latched))
      = some (none, some .outer, 2, 0) := by decide

/-- 2.7: the fourth unpaired half faults HA2, and the edge is delivered at speed 0, 500,000 µs ahead. -/
theorem test_headEdge_fault :
    after (.headEdge 11720000 .a .outer)
        { heads with whu := { heads.whu with endA := { EndUnit.reset with
            half := some { head := .outer, start := 11360000, delivered := false }, runHead := some .outer, runCount := 3 } } }
      (fun t => (t.whu.endA.fault2, t.cnd.latched, t.atr.timeline.map fun e => [e.edge.toNat, e.speed],
        t.whu.endA.half.map (·.delivered)))
      = some (true, 8, [[12220000, 0]], some true) := by decide

/-- 3.6, a stop and a reversal: NE 3 and then RX 3, RE 1. -/
theorem test_axles_reversal :
    (do let (a, i) ← listOperation .reverseExit { Atr.reset with list := [2, 3], exitStack := [1], counter := 3 }
        let (b, j) ← listOperation .reEntry a
        pure (i, j, b.list, b.returnStack, b.exitStack, b.counter)) = some (3, 1, [1, 2], [3], [], 3) := by decide

/-! ### Step analysis (4.7) -/

def event (edge : Time) (k : EventKind) (j : Nat) (before after_ : Mark) : Event :=
  { edge := edge, kind := k, ordinal := j, speed := 16666, overspeed := false, creep := false, before := before,
    after := after_, latest := true }

def sample (stamp : Time) (total left : Int) : Sample := { stamp := stamp, total := total, left := left, saturated := false }

/-- Record 1 of 4.7 with its normal exit recorded. -/
def record1 : OwnRecord :=
  { ordinal := 1, revision := 1, firstTime := 41000000, firstSpeed := 16666,
    entry := { edge := 41000000, speed := 16666, overspeed := false, creep := false },
    exit := some { edge := 41180000, speed := 16666, overspeed := false, creep := false }, exitAfterEntry := true,
    entryStep := none, exitStep := none, entrySettled := false, exitSettled := false, overspeed := false, creep := false,
    reversal := false, implausible := false, done := false, estimate := none }

/-- NE 1 with its before-window measured; the plateau of axle 1 in the history. -/
def plateau : State :=
  { threeStations with
    lfe := { Lfe.reset with
      history := [sample 41027500 31450 15760, sample 41030000 30525 15760, sample 41032500 32375 15760,
                  sample 41035000 31450 15760] },
    atr := { Atr.reset with
      list := [1], counter := 1, records := [record1],
      timeline := [event 41000000 .normalEntry 1 (.evaluated ⟨120, 60, 640, 161⟩) .pending,
                   event 41108000 .normalEntry 2 .pending .pending] } }

/-- 4.7: the after-window of NE 1 spans 41,027,000 to 41,081,000 and is due 500,001 µs later; here its first sample is 500 µs
inside the span, so the span is expired (R9). -/
theorem test_afterWindow_expired :
    after (.afterWindowDue 41581001 0) plateau (fun t => t.atr.timeline.map (·.after)) = some [.invalid, .pending] := by decide

/-- 4.7, 41,581,001: after NE 1 measured 31,450, 15,760, 1,850; E 31,330, left 15,700, entry settled. -/
theorem test_afterWindow_step :
    after (.afterWindowDue 41581001 0)
        { plateau with lfe := { plateau.lfe with history := sample 41025000 0 0 :: plateau.lfe.history } }
      (fun t => t.atr.records.map fun r => (r.entryStep, r.entrySettled, r.done))
      = some [(some { total := 31330, left := 15700, spreadBefore := 640, spreadAfter := 1850 }, true, false)] := by decide

/-- 4.7: one microsecond earlier the before-window of NE 2 is not due; then it is measured over the same span. -/
theorem test_beforeWindow :
    let s := { plateau with lfe := { plateau.lfe with history := sample 41025000 0 0 :: plateau.lfe.history } }
    after (.beforeWindowDue 41608000 1) s (fun t => t.atr.timeline.map (·.before))
        = some [.evaluated ⟨120, 60, 640, 161⟩, .pending]
      ∧ after (.beforeWindowDue 41608001 1) s (fun t => t.atr.timeline.map (·.before))
        = some [.evaluated ⟨120, 60, 640, 161⟩, .evaluated ⟨31450, 15760, 1850, 4⟩] := by decide

/-- R49: an event goes when both its marks and its successor's before-mark are done. -/
theorem test_timelineRemoval :
    after (.timelineRemoval 41700000)
        { threeStations with atr := { Atr.reset with timeline :=
            [event 41000000 .normalEntry 1 .invalid .invalid, event 41108000 .normalEntry 2 .invalid .pending] } }
      (fun t => t.atr.timeline.map (·.ordinal)) = some [2] := by decide

/-- 4.7, axle 1: steps 31,330 / 15,700 and 31,410 / 15,740 give 31,370 kg, grade A, share 501. -/
theorem test_estimate :
    (fun e : Estimate => (e.w, e.grade, e.share, e.revision))
      (formEstimate Settings.reset
        { record1 with
          entryStep := some ⟨31330, 15700, 640, 1850⟩, exitStep := some ⟨31410, 15740, 2300, 1920⟩,
          entrySettled := true, exitSettled := true }) = (31370, .a, some 501, 1) := by decide

/-! ### The Span line (5.6, chapter 5) -/

def tx (b : Body) : TxFrame := { body := b, target := 15, seq := 41, failed := 0, held := 0 }

def stepBody : Body :=
  .step 213 { ordinal := 1, revision := 1, w := 31370, grade := .a, share := some 501, entrySpeed := 16666,
              entryTime := 41000000, flags := ⟨false, false, false, false⟩ }

def putOn (f : TxFrame) (s : State) : State := { s with slc := { s.slc with sending := some ⟨f, lineImage 3 0 f⟩ } }

/-- R89: URGENT goes before BULK, after 12 recessive bit times and not before. -/
theorem test_frameStart_precedence :
    let s := { running with slc := { running.slc with urgent := [tx (.shut 213 412 103)], bulk := [tx stepBody] } }
    after (.frameStart 5 11) s (fun t => t.slc.sending.map (·.frame.body)) = some none
      ∧ after (.frameStart 5 12) s (fun t => t.slc.sending.map (·.frame.body)) = some (some (.shut 213 412 103)) := by decide

/-- R87: a frame whose arbitration is lost stays at the head of its queue. -/
theorem test_arbitrationLost :
    after (.arbitrationLost 5) (putOn (tx stepBody) { running with slc := { running.slc with bulk := [tx stepBody] } })
      (fun t => (t.slc.sending, t.slc.bulk)) = some (none, [tx stepBody]) := by decide

/-- 5.6: a held attempt of a STEP that ends at 106,524 backs off to 126,524, held count 1. -/
theorem test_attemptEnd_held :
    after (.attemptEnd 106524 (.slots true true))
        (putOn (tx stepBody) { running with slc := { running.slc with bulk := [tx stepBody] } })
      (fun t => (t.slc.backoff, t.slc.bulk.map (·.held), t.slc.droppedRun)) = some (some 126524, [1], 0) := by decide

/-- R91, R93: a third failed attempt that is the eighth drop in a row makes the line state MUTED, LINE latched. -/
theorem test_attemptEnd_mutes :
    let f := { tx (.shut 213 1 1) with failed := 2 }
    after (.attemptEnd 5 (.slots false false)) (putOn f { running with slc := { running.slc with urgent := [f], droppedRun := 7 } })
      (fun t => (t.slc.line, t.slc.urgent, t.slc.probeTimer, t.cnd.latched)) = some (.muted, [], some 2000005, 2) := by decide

theorem test_bulkBackoffEnd :
    after (.bulkBackoffEnd 126524) { running with slc := { running.slc with backoff := some 126524 } }
      (fun t => t.slc.backoff) = some none := by decide

theorem test_probeTimerExpiry :
    after (.probeTimerExpiry 2000005)
        { running with slc := { running.slc with line := .muted, probeTimer := some 2000005 } }
      (fun t => (t.slc.probeTimer, t.slc.probeDue)) = some (none, true) := by decide

/-- R86's generator and start value, on the nine digits "123456789": the check value known for them, 29B1. -/
theorem test_crc : crcOf ([0x31, 0x32, 0x33, 0x34, 0x35, 0x36, 0x37, 0x38, 0x39].flatMap (bitsOf 8)) = 0x29B1 := by
  decide +kernel

/-- 6.2, worked offset figures, the last HAIL: measured 5,181,505 against 5,181,521 held moves the offset by −2. -/
theorem test_frameReceived_offset :
    after (.frameReceived 12931700 12931505 (frame .hail 4 7750000 (List.replicate 16 0)))
        { ready with ptb := { ready.ptb with
            peers := ready.ptb.peers.set 4 { Peer.reset with state := .joining, offset := some 5181521 } } }
      (fun t => (t.ptb.peers[4]?.map fun p => (p.state, p.offset), t.slc.receiveQueue.length, t.slc.ackDriven))
      = some (some (.joining, some 5181519), 1, true) := by decide +kernel

/-- R99, R102: a bit wrong anywhere makes a frame bad; it gets no ack and leaves no offset. -/
theorem test_frameReceived_bad :
    after (.frameReceived 12931700 12931505 { frame .hail 4 7750000 (List.replicate 16 0) with seq := 8 }) ready
      (fun t => (t.ptb.peers[4]?.map (·.offset), t.slc.receiveQueue.length, t.slc.ackDriven))
      = some (some none, 0, false) := by decide +kernel

/-! ### Peer table (chapter 6) -/

/-- P 15,000, L 3,000, ACTIVE, READY, IDLE, session 212, no top cause. -/
def hailBytes : List Byte := [0, 0, 0x3A, 0x98, 0x0B, 0xB8, 0, 3, 0, 0, 212, 0, 0, 0, 0, 0]

/-- R111: the first HAIL that qualifies makes an entry JOINING, one 250 ms later LIVE. -/
theorem test_hailDispatch_joins :
    let silent := { Peer.reset with state := .absent, lastHeard := some 1000000, offset := some 0 }
    let joining := { Peer.reset with state := .joining, lastHeard := some 1250000, offset := some 0, firstHail := some 1000000 }
    after (.hailDispatch 1000300)
        (with1 (waiting .hail 4 1000000 hailBytes) { ready with ptb := { ready.ptb with peers := ready.ptb.peers.set 4 silent } })
        (fun t => t.ptb.peers[4]?.map fun p => (p.state, p.firstHail)) = some (some (.joining, some 1000000))
      ∧ after (.hailDispatch 1250300)
        (with1 (waiting .hail 4 1250000 hailBytes) { ready with ptb := { ready.ptb with peers := ready.ptb.peers.set 4 joining } })
        (fun t => (t.ptb.peers[4]?.map fun p => (p.state, p.p), t.ptb.exitStation))
        = some (some (.live, some 15000), 4) := by decide

/-- R113: the own HAIL every 250,000 µs. -/
theorem test_hailTimer :
    after (.hailTimer 291200) { ready with ptb := { ready.ptb with hailTimer := some 291200 } }
      (fun t => (t.ptb.hailTimer, t.slc.timing.map (·.seq))) = some (some 541200, some 1) := by decide

/-- R112: silence expiry 1,000,001 µs after the last frame. -/
theorem test_silenceExpiry :
    let s := { threeStations with ses := Ses.reset }
    after (.silenceExpiry 1000000 4) s (fun t => t.ptb.peers[4]?.map (·.state)) = some (some .live)
      ∧ after (.silenceExpiry 1000001 4) s (fun t => (t.ptb.peers[4]?.map (·.state), t.ptb.exitStation))
        = some (some .silent, 3) := by decide

/-! ### Sessions (chapter 7) -/

/-- OPEN 213, UP, first edge 50,310,400. -/
def openBytes (number : Byte) : List Byte := [0, number, 0, 0x02, 0xFF, 0xAD, 0x00]

/-- 7.5, two openings: station 1 ignores OPEN 212 of its last session, and adopts OPEN 213 of station 2. -/
theorem test_openDispatch :
    let s := { ready with
      ptb := { ready.ptb with peers := ready.ptb.peers.set 2 (livePeer 9000 0) },
      ses := { Ses.reset with last := some { summary213 with number := 212 }, mark := some 212 } }
    after (.openDispatch 50400000) (with1 (waiting .opening 2 50399000 (openBytes 212)) s) (fun t => (t.ses.state, t.ses.mark))
        = some (.idle, some 212)
      ∧ after (.openDispatch 50400000) (with1 (waiting .opening 2 50399000 (openBytes 213)) s)
        (fun t => (t.ses.state, t.ses.number, t.ses.opener, t.ses.tf, t.ses.tOpen))
        = some (.running, 213, some 2, some 50310400, some 50399000) := by decide

def crossBytes (kind : Byte) : List Byte := [0, 213, 0, 1, kind, 1, 0, 0, 0, 0, 2, 88, 0]

def halted : State :=
  { threeStations with ses := { threeStations.ses with
      state := .halted, tc := some 60400000, haltExpiry := none, closeExpiry := some 70400001, nextHaltTick := some 65401001 } }

/-- 7.5, a stop: the CROSS at 67,900,000 ends a stay from 65,400,001: 2,499 ms; the timers run from it. -/
theorem test_crossDispatch_resumes :
    after (.crossDispatch 67900000) (with1 (waiting .cross 4 67900000 (crossBytes 0)) halted)
      (fun t => (t.ses.state, t.ses.haltExpiry, t.ses.closeExpiry, t.ses.current.map (·.haltedMs)))
      = some (.running, some 72900001, some 77900001, some 2499) := by decide

/-- 7.5: SHUT 412, 104 against 412, 103 in the last session sets count-mismatch. -/
theorem test_shutDispatch_mismatch :
    after (.shutDispatch 106300000)
        (with1 (waiting .shut 4 106300000 [0, 213, 1, 156, 0, 104])
          { ready with ses := { Ses.reset with last := some { summary213 with ownAxles := 412, wagons := 103 } } })
      (fun t => t.ses.last.map fun m => (m.mismatch, (m.shuts.getD 4 none).map (·.wagons)))
      = some (some (true, some 104)) := by decide

/-- 7.5: halt expiry 5 s and 1 µs after the last crossing. -/
theorem test_haltExpiry :
    after (.haltExpiry 65000001) running (fun t => (t.ses.state, t.ses.nextHaltTick)) = some (.halted, some 65001001) := by
  decide

theorem test_haltedTimeTick :
    after (.haltedTimeTick 65401001) halted (fun t => (t.ses.nextHaltTick, t.ses.current.map (·.haltedMs)))
      = some (some 65402001, some 1) := by decide

/-- 7.5: at the close expiry, 105,600,001, with a fused entry awaited: DRAINING, limit 135,600,002. -/
theorem test_closeExpiry_drains :
    let e : Entry :=
      { ordinal := 1, firstTime := none, firstSpeed := none, own := none, exitSpeed := none, rows := List.replicate 8 none,
        exits := List.replicate 8 none, deadline := none, deadlinePeer := none, forced := false, late := 0, fused := none }
    after (.closeExpiry 105600001)
        { threeStations with
          ses := { threeStations.ses with closeExpiry := some 105600001, tc := some 95600000 },
          fus := { threeStations.fus with table := [e] }, was := { Was.reset with highest := 1 } }
      (fun t => (t.ses.state, t.ses.drainLimit, t.ses.closeExpiry)) = some (.draining, some 135600002, none) := by decide

/-- R130, R132: with nothing left the session closes at once, and SHUT is sent. -/
theorem test_closeExpiry_closes :
    after (.closeExpiry 70000001) { running with atr := { Atr.reset with counter := 2 } }
      (fun t => (t.ses.state, t.slc.urgent.map (·.body), t.ses.last.map (·.ownAxles)))
      = some (.idle, [.shut 213 2 0], some 2) := by decide

/-! ### Fusion (8.7), with the pattern table of 9.7 -/

/-- Entry 1 of 8.7 before the row of station 2. -/
def entry1 : Entry :=
  { ordinal := 1, firstTime := some 41000000, firstSpeed := some 16666, own := none, exitSpeed := none,
    rows := List.replicate 8 none, exits := List.replicate 8 none, deadline := none, deadlinePeer := none, forced := false,
    late := 0, fused := none }

def entry2 : Entry := { entry1 with ordinal := 2, firstTime := some 41108000 }

/-- The patterns of 9.7. -/
def patterns97 : List Pattern :=
  [{ loco := false, axles := 4, spacings := [⟨1600, 2000⟩, ⟨7000, 11000⟩, ⟨1600, 2000⟩], gap := ⟨2000, 4500⟩, split := some 2,
     maxGross := 134000 },
   { loco := true, axles := 6, spacings := [⟨1800, 2200⟩, ⟨1800, 2200⟩, ⟨9000, 12000⟩, ⟨1800, 2200⟩, ⟨1800, 2200⟩],
     gap := ⟨2500, 5000⟩, split := none, maxGross := 140000 }]

def fusing : State :=
  { threeStations with
    settings := { Settings.reset with patterns := patterns97 },
    fus := { threeStations.fus with table := [entry1, entry2] }, was := { Was.reset with highest := 2 } }

/-- 31,520 kg A, share 499, 600, T_p 38,569,300. -/
def stepBytes : List Byte := [0, 213, 0, 1, 1, 0, 0x7B, 0x20, 0, 1, 0xF3, 2, 88, 0x02, 0x4C, 0x85, 0x54, 0]

/-- 8.7: station 2's row at 41,581,400 is aligned (deviation 293), speed 16,667; the entry stays OPEN. -/
theorem test_stepDispatch_row :
    after (.stepDispatch 41581400) (with1 (waiting .step 2 41581400 stepBytes) fusing)
      (fun t => t.fus.table.map fun e =>
        (e.rows.getD 2 none).map fun r =>
          [r.w == 31520, r.share == some 499, r.speed == 16667, r.alignment == .aligned, e.fused.isNone])
      = some [some [true, true, true, true, true], none] := by decide

/-- 8.7, second variant: T_p' 40,927,700 deviates by −107,707: misaligned, SLIP latched. -/
theorem test_stepDispatch_slip :
    after (.stepDispatch 41581400)
        (with1 (waiting .step 2 41581400 (stepBytes.take 13 ++ [0x02, 0x4E, 0x2B, 0x34, 0])) fusing)
      (fun t => (t.fus.table.map fun e => (e.rows.getD 2 none).map (·.alignment), t.cnd.latched))
      = some ([some .misaligned, none], 16) := by decide

def est1 : Estimate :=
  { ordinal := 1, revision := 1, w := 31370, grade := .a, share := some 501, entrySpeed := 16666, entryTime := 41000000,
    flags := ⟨false, false, false, false⟩ }

def row (w : Int) (g : Grade) (share speed : Nat) (a : Machine.Alignment) : PeerRow :=
  { w := w, grade := g, share := some share, speed := speed, peerTime := 0, revision := 1,
    flags := ⟨false, false, false, false⟩, alignment := a }

/-- Entry 1 with its own row and station 2's. -/
def twoRows (a : Machine.Alignment) : Entry :=
  { entry1 with own := some est1, rows := entry1.rows.set 2 (some (row 31520 .a 499 16667 a)) }

/-- 8.7: 31,407 kg, grade A, 501 per mille, 16,660 mm/s. -/
theorem test_fuse_three :
    (fun f : Fused => (f.f, f.grade, f.share, f.speed))
      (fuse { twoRows .aligned with rows := (twoRows .aligned).rows.set 4 (some (row 31100 .c 507 16611 .aligned)) })
      = (31407, .a, some 501, 16660) := by decide

/-- 8.7, the second variant: 31,316 kg, grade B, one misaligned. -/
theorem test_fuse_misaligned :
    (fun f : Fused => (f.f, f.grade, f.misaligned))
      (fuse { twoRows .misaligned with rows := (twoRows .misaligned).rows.set 4 (some (row 31100 .c 507 16611 .aligned)) })
      = (31316, .b, 1) := by decide

/-- 8.7, the first variant: forced at the deadline 42,381,500, LATE latched, 31,445 kg, grade A. -/
theorem test_deadlineReached :
    after (.deadlineReached 42381500 1)
        { fusing with fus := { fusing.fus with
            table := [{ twoRows .aligned with deadline := some 42381500, deadlinePeer := some 4 }, entry2] } }
      (fun t => (t.fus.table.map fun e => (e.forced, e.fused.map fun f => (f.f, f.grade)), t.cnd.latched))
      = some ([(true, some (31445, .a)), (false, none)], 128) := by decide

/-- 8.7: the deadline with an exit already heard from station 4 at 41,381,500 is 42,381,500; without, 43,941,008. -/
theorem test_own_deadline :
    let heard := entry1.exits.set 4 (some { revision := 1, received := 41381500 })
    let s (x : List (Option ExitHeard)) : State :=
      { fusing with
        now := 41761001,
        fus := { fusing.fus with table := [{ entry1 with own := some est1, exitSpeed := some 16666, exits := x }] } }
    ((setOwnDeadline 1 (s entry1.exits)).fus.table.map fun e => (e.deadline, e.deadlinePeer)) = [(some 43941008, some 4)]
      ∧ ((setOwnDeadline 1 (s heard)).fus.table.map fun e => (e.deadline, e.deadlinePeer)) = [(some 42381500, some 4)] := by
  decide

/-- R131, R132: the drain limit forces the entry left, stores it and closes the session. -/
theorem test_drainLimit :
    after (.drainLimit 135600002)
        { running with
          ses := { running.ses with
            state := .draining, drainLimit := some 135600002, haltExpiry := none, closeExpiry := none },
          fus := { running.fus with table := [twoRows .aligned] }, was := { Was.reset with highest := 1 } }
      (fun t => (t.ses.state, t.cnd.latched, t.rst.ring.map (·.gross), t.ses.last.map (·.wagons)))
      = some (.idle, 128, [31445], some 1) := by decide

/-! ### Records (9.7) and the recorder service (10.8) -/

def finalEntry97 (j : Nat) (w : Int) (g : Grade) (share : Nat) : Entry :=
  { entry1 with ordinal := j, fused := some ⟨w, g, some share, 12500, false, false, false, 0, 0⟩ }

def item (j : Nat) (t : Time) (spacing : Option Int) : SpacingItem :=
  { ordinal := j, time := t, speed := 12500, spacing := spacing }

/-- 9.7, the spacings of the locomotive: pattern 1 fails on s_2, pattern 2 matches with s_6. -/
theorem test_trial_loco :
    let s := { running with
      settings := { Settings.reset with patterns := patterns97 },
      was := { Was.reset with highest := 7, items :=
        [item 1 50000000 (some 2000), item 2 50160000 (some 2000), item 3 50320000 (some 10400), item 4 51152000 (some 2000),
         item 5 51312000 (some 2000), item 6 51472000 (some 3200), item 7 51728000 none] } }
    trial s 1 patterns97 = some { pattern := some 2, first := 1, count := 6 } := by decide

/-- 9.7, the second wagon: 126,010 kg, front bogie 616 per mille: longitudinal; share 612: lateral; grade B; 45.0 km/h. -/
theorem test_record_wagon :
    let s := { running with
      settings := { Settings.reset with patterns := patterns97 },
      rst := { Rst.reset with nextIndex := 3019 },
      was := { Was.reset with wagons := 2 },
      fus := { running.fus with table :=
        [finalEntry97 11 38900 .a 548, finalEntry97 12 38760 .a 612, finalEntry97 13 24100 .b 505,
         finalEntry97 14 24250 .a 497] } }
    (fun r : WagonRecord => (r.gross, r.grade, r.meanSpeed, [r.overload, r.longitudinal, r.lateral], r.wagon))
      (buildRecord s { pattern := some 1, first := 11, count := 4 })
      = (126010, .b, 450, [false, true, true], 3) := by decide

def record (index : Word16) (wagon : Nat) : WagonRecord :=
  { index := index, session := 214, wagon := wagon, kind := .wagon, pattern := some 1, first := 7, axles := [], gross := 125407,
    grade := .a, meanSpeed := 450, overload := false, lateral := false, longitudinal := false, overspeed := false,
    creep := false, reversal := false, forced := false, misaligned := 0, unchecked := 0 }

/-- Station 4 of 10.8 with two records, the pointer on the second, in session 214. -/
def station4 : State :=
  { running with
    ses := { running.ses with number := 214 },
    was := { Was.reset with wagons := 2 },
    rst := { ring := [record 3017 1, record 3018 2], nextIndex := 3019, readPointer := 3018, deferred := none },
    cnd := { latched := 72, present := 8, enable := 507, faultLow := true } }

def statuses (t : State) : List (ReplyStatus × Nat) :=
  t.slc.service.filterMap fun f =>
    match f.body with
    | .reply x _ _ => some (x, f.target.toNat)
    | _ => none

/-- 10.8, FETCH-WAGON 3 from 9 is DEFERRED; then FETCH-WAGON 1 from 10 is BUSY. -/
theorem test_fetchWagon :
    after (.fetchWagon 56000000) (with1 (waiting .ask 9 0 [3, 0, 214, 0, 3]) station4)
        (fun t => (statuses t, t.rst.deferred)) = some ([(.deferred, 9)], some ⟨9, 214, 3⟩)
      ∧ after (.fetchWagon 57000000)
        (with1 (waiting .ask 10 0 [3, 0, 214, 0, 1]) { station4 with rst := { station4.rst with deferred := some ⟨9, 214, 3⟩ } })
        (fun t => (statuses t, t.rst.deferred)) = some ([(.busy, 10)], some ⟨9, 214, 3⟩) := by decide

/-- 10.8: FETCH 3,017 is answered with its record; SEEK 2,891 is not held. -/
theorem test_fetch :
    after (.fetch 57400000) (with1 (waiting .ask 10 0 [2, 0x0B, 0xC9]) station4) (fun t => t.slc.service.map (·.body))
      = some [.reply .ok 2 (.record (record 3017 1))] := by decide

theorem test_seek :
    after (.seek 65100000) (with1 (waiting .ask 9 0 [4, 0x0B, 0xC9]) station4) (fun t => (statuses t, t.rst.readPointer))
        = some ([(.ok, 9)], 3017)
      ∧ after (.seek 65600000) (with1 (waiting .ask 9 0 [4, 0x0B, 0x4B]) station4) (fun t => (statuses t, t.rst.readPointer))
        = some ([(.range, 9)], 3018) := by decide

/-- 10.8: FETCH-NEXT takes the record at the pointer; at the next index it is EMPTY. -/
theorem test_fetchNext :
    after (.fetchNext 65200000) (with1 (waiting .ask 9 0 [1]) station4) (fun t => (statuses t, t.rst.readPointer))
        = some ([(.ok, 9)], 3019)
      ∧ after (.fetchNext 65500000)
        (with1 (waiting .ask 9 0 [1]) { station4 with rst := { station4.rst with readPointer := 3019 } })
        (fun t => (statuses t, t.rst.readPointer)) = some ([(.empty, 9)], 3019) := by decide

/-- R182: the current summary is open; there is no last one. -/
theorem test_summary :
    after (.summary 65200000) (with1 (waiting .ask 9 0 [5, 0]) station4) statuses = some [(.ok, 9)]
      ∧ after (.summary 65200000) (with1 (waiting .ask 9 0 [5, 1]) station4) statuses = some [(.empty, 9)]
      ∧ after (.summary 65200000) (with1 (waiting .ask 9 0 [5, 2]) station4) statuses = some [(.range, 9)] := by decide

/-- 10.8: latched 72, top cause 4 (HEAD). -/
theorem test_conditions :
    after (.conditions 66000000) (with1 (waiting .ask 10 0 [6]) station4) (fun t => t.slc.service.map (payloadOf ·.body))
      = some [[0, 6, 0, 72, 1, 0xFB, 4, 0, 0, 0, 0, 3, 0, 1]] := by decide

/-- 10.8: CLEAR 511 leaves HEAD, whose condition is present, and is answered with mask 8. -/
theorem test_clear :
    after (.clear 66100000) (with1 (waiting .ask 10 0 [7, 1, 0xFF]) station4)
      (fun t => (t.cnd.latched, t.cnd.faultLow, t.slc.service.map (·.body)))
      = some (8, true, [.reply .ok 7 (.mask 8)]) := by decide

/-- R175: an unknown asked kind is REFUSED. -/
theorem test_askUnknown :
    after (.askUnknown 5) (with1 (waiting .ask 9 0 [9]) station4) statuses = some [(.refused, 9)] := by decide

/-- 11.4: RESTART keeps the ring, the counter and the pointer; local time is 0 again; the number is the last session's. -/
theorem test_restart :
    after (.restart 66200000 { stn2 := true, stn1 := false, stn0 := false, rate := true })
        (with1 (waiting .ask 9 0 [8]) { station4 with ses := { Ses.reset with last := some { summary213 with number := 214 } } })
      (fun t => [t.stc.station == .loading, t.now == 0, t.rst.ring == station4.rst.ring, t.rst.readPointer == 3018,
        t.rst.nextIndex == 3019, t.ses.number == 214, t.ses.mark == some 214, t.cnd.latched == 0])
      = some [true, true, true, true, true, true, true, true] := by decide

theorem test_tallyReplyDispatch :
    after (.tallyReplyDispatch 5) (with1 (waiting .tally 2 0 []) station4) (fun t => t.slc.receiveQueue.length) = some 0 := by
  decide

/-! ### States and operands that meet the hypotheses of the statements, clause by clause -/

theorem witness_StepTakesTheFrontCommand : { ready with pending := [.fullReset] }.pending = .fullReset :: [] := rfl

theorem witness_IdleAndHeldStatesStay :
    ready.pending = [] ∧ State.reset.stc.inReset = true ∧ Instr.hailTimer 0 ≠ .fullReset
      ∧ ∀ x, Instr.hailTimer 0 ≠ .resetRelease x :=
  ⟨rfl, rfl, by decide, fun _ h => by cases h⟩

theorem witness_ResetAndReleaseStartAfresh : State.reset.stc.inReset = true := rfl

theorem witness_GoodImageStartsSettling :
    (∃ x p l m sum patternSum, readImage goodImage = .good x p l m sum patternSum) ∧ loading.stc.inReset = false
      ∧ loading.stc.station = .loading ∧ loading.slc.sending = none :=
  by
  refine ⟨?_, rfl, rfl, rfl⟩
  have h : (match readImage goodImage with | .good .. => true | _ => false) = true := by decide
  revert h
  cases readImage goodImage <;> simp

theorem witness_BadImageEntersConfigFault :
    (∃ sum, readImage (.bytes (image ++ [0, 0])) = .bad sum) ∧ readImage .noAcknowledge = .missing
      ∧ loading.stc.inReset = false ∧ loading.stc.station = .loading ∧ loading.slc.sending = none :=
  by
  refine ⟨?_, rfl, rfl, rfl, rfl⟩
  have h : (match readImage (.bytes (image ++ [0, 0])) with | .bad _ => true | _ => false) = true := by decide
  revert h
  cases readImage (.bytes (image ++ [0, 0])) <;> simp

/-- The image with both span bytes of channel 0 at values. -/
def spanned (a b : Byte) : List Byte := (image.set 32 a).set 33 b

/-- The image with its right sum. -/
def summed (b : List Byte) : List Byte := b ++ [byteOf ((byteSum b).toNat / 256), byteOf (byteSum b).toNat]

/-- Every limit of R192 met and just missed; the good image has the least length. A span of 65,534, and one of 65,535, whose
image is whole and sums right. -/
theorem witness_ImageIsCheckedBeforeUse :
    (at2 [0, 58] 0 < 59 ∧ 512 < at2 [2, 1] 0 ∧ 59 + 30 * at1 [0, 60] 58 < at2 [0, 60] 0
      ∧ image.length < at2 image 0 + 2)
      ∧ (at2 (image ++ [0, 0]) 0 = 59 ∧ (image ++ [0, 0]).length = 61
        ∧ wordAt (image ++ [0, 0]) 59 ≠ byteSum ((image ++ [0, 0]).take 59))
      ∧ (match readImage goodImage with | .good .. => true | _ => false) = true
      ∧ (match readImage (.bytes (summed (spanned 255 254))) with | .good .. => true | _ => false) = true
      ∧ (match readImage (.bytes (summed (spanned 255 255))) with | .bad x => x == byteSum (spanned 255 255) | _ => false)
          = true := by decide

def restarting : State := with1 (waiting .ask 9 0 [8]) station4

theorem witness_RestartKeepsRecordsAndLastSummary :
    restarting.stc.inReset = false ∧ restarting.slc.receiveQueue = waiting .ask 9 0 [8] :: []
      ∧ rxKind (waiting .ask 9 0 [8]) = some .ask ∧ askedKind (waiting .ask 9 0 [8]) = 8 ∧ restarting.ses.last = none
      ∧ { restarting with ses := { restarting.ses with last := some summary213 } }.ses.last = some summary213 := by
  exact ⟨rfl, rfl, by decide, by decide, rfl, rfl⟩

/-- Both clamps at their limits and one past them. -/
theorem witness_ChannelLoadIsRoundedAndClamped :
    IsRounded ((-1600032 - 0) * 32768) 1048576 (-50001) ∧ IsRounded ((-1600000 - 0) * 32768) 1048576 (-50000)
      ∧ IsRounded ((6400000 - 0) * 32768) 1048576 200000 ∧ IsRounded ((6400032 - 0) * 32768) 1048576 200001 := by
  unfold IsRounded; decide

theorem witness_InstantsFormSamples :
    weighing.stc.inReset = false ∧ weighing.stc.station = .ready ∧ weighing.lfe.nextInstant = some 1002500
      ∧ reached 1002500 1002500 = true ∧ weighing.lfe.group.length = 3
      ∧ { weighing with lfe := { weighing.lfe with group := weighing.lfe.group.take 2 } }.lfe.group.length < 3
      ∧ weighing.lfe.block.length < 799
      ∧ (let s : State := { weighing with
            ses := running.ses, lfe := { weighing.lfe with block := List.replicate 799 (sample 1000000 180 90) } }
         s.stc.station = .ready ∧ s.ses.state ≠ .idle ∧ s.lfe.group.length = 3 ∧ ¬ s.lfe.block.length < 799) := by
  refine ⟨rfl, rfl, rfl, by decide, rfl, by decide, by decide, rfl, by decide, rfl, ?_⟩
  rw [List.length_replicate]
  decide

/-- A station about to test its block of 800, settling or weighing nothing. -/
def blockFull (st : StationState) : State :=
  { weighing with
    stc := { weighing.stc with station := st },
    lfe := { weighing.lfe with block := List.replicate 799 (sample 1000000 180 90) } }

theorem witness_ZeroBlockIsTested (st : StationState) :
    (blockFull st).stc.inReset = false ∧ (blockFull .settling).stc.station = .settling
      ∧ ((blockFull .ready).stc.station = .ready ∧ (blockFull .ready).ses.state = .idle)
      ∧ (blockFull st).lfe.nextInstant = some 1002500 ∧ reached 1002500 1002500 = true
      ∧ (blockFull st).lfe.group.length = 3 ∧ (blockFull st).lfe.block.length = 799 :=
  ⟨rfl, rfl, ⟨rfl, rfl⟩, rfl, by decide, rfl, List.length_replicate⟩

/-- The pairing limit at the least head spacing, no delay, and both sides of the speed clamp. -/
theorem witness_CrossingFiguresFollowTheHeads :
    let x (h : Nat) : Settings := { Settings.reset with hA := h }
    let half (d : Time) : Half := { head := .outer, start := 2000000 - d, delivered := false }
    (50 ≤ headSpacing (x 50) .a ∧ headSpacing (x 250) .a ≤ 250 ∧ elapsed (half 400000).start 2000000 = 400000)
      ∧ elapsed (half 0).start 2000000 = 0
      ∧ 65535 < headSpacing (x 100) .a * 1000000 / elapsed (half 1525).start 2000000
      ∧ headSpacing (x 100) .a * 1000000 / elapsed (half 1526).start 2000000 ≤ 65535
      ∧ ((endUnit { ready with whu := { Whu.reset with endA := { EndUnit.reset with lastSpeed := some 16666 } } } .a).lastSpeed
          = some 16666)
      ∧ (endUnit { ready with whu := { Whu.reset with endA := { EndUnit.reset with lastSpeed := some 16666 } } } .b).lastSpeed
          = none
      ∧ (endUnit ready .a).lastSpeed = none ∧ (endUnit ready (otherEnd .a)).lastSpeed = none := by decide

def lockedUntil (release : Time) : State :=
  { ready with whu := { Whu.reset with endA := { EndUnit.reset with lock1 := some release } } }

/-- A station in READY with a HALF of the given head at end A, begun at 1,600,000; `delivered` one at a single-head end. -/
def halfA (h : HeadNo) (delivered : Bool) (s : State) : State :=
  { s with whu := { Whu.reset with endA := { EndUnit.reset with
      half := some { head := h, start := 1600000, delivered := delivered }, fault2 := delivered } } }

theorem halfA_latched (t : Time) (k h : HeadNo) (d : Bool) (s : State) (hr : s.stc.inReset = false)
    (hs : s.stc.station = .ready) : EdgeLatched t .a h (halfA k d s) :=
  ⟨hr, hs, fun _ hl => by cases h <;> cases hl⟩

/-- An edge at the release time is not locked out; one a microsecond before it is. The same head's edge; the other head's a
microsecond too late; one whose discarded HALF is the fourth in a run, which faults that edge's own head; the other head's that
completes a HALF delivered already. -/
theorem witness_HeadEdgeStartsAHalf :
    (lockedUntil 2008000).stc.station = .ready ∧ (∀ release, lockOf (endUnit (lockedUntil 2008000) .a) .outer = some release →
        earlier 2008000 release = false)
      ∧ (endUnit (lockedUntil 2008000) .a).half = none ∧ workingHead (endUnit (lockedUntil 2008000) .a) ≠ some .outer
      ∧ lockOf (endUnit (lockedUntil 2008000) .a) .outer = some 2008000 ∧ earlier 2007999 2008000 = true
      ∧ (blockFull .settling).stc.station ≠ .ready
      ∧ (∀ t h d, EdgeLatched t .a h (halfA .outer d ready)
        ∧ (endUnit (halfA .outer d ready) .a).half = some { head := .outer, start := 1600000, delivered := d })
      ∧ (let half : Half := { head := .outer, start := 1600000, delivered := false }
         let u := endUnit (halfA .outer false ready) .a
         Discards 2000000 half .outer ∧ Discards 2000001 half .inner ∧ ¬ Discards 2000000 half .inner
          ∧ workingHead (discardedEnd .outer u) = none ∧ (discardedEnd .outer u).runCount = 1
          ∧ workingHead (discardedEnd .outer { u with runHead := some .outer, runCount := 3 }) ≠ some .inner
          ∧ (discardedEnd .outer { u with runHead := some .outer, runCount := 3 }).fault2 = true
          ∧ (discardedEnd .outer { u with runHead := some .outer, runCount := 2 }).fault2 = false)
      ∧ elapsed 1600000 2000000 ≤ 400000
      ∧ (endUnit (halfA .outer true ready) .a).fault1 ≠ (endUnit (halfA .outer true ready) .a).fault2 :=
  ⟨rfl, fun _ h => by cases h; decide, rfl, by decide, rfl, by decide, by decide,
    fun _ _ _ => ⟨halfA_latched _ _ _ _ _ rfl rfl, rfl⟩,
    ⟨.inl rfl, .inr (by decide), by unfold Discards; decide, by decide, by decide, by decide, by decide, by decide⟩,
    by decide, by decide⟩

def halfOf (start : Time) (n : Nat) : State :=
  { ready with whu := { Whu.reset with endA := { EndUnit.reset with
      half := some { head := .outer, start := start, delivered := false }, runHead := some .outer, runCount := n } } }

theorem witness_ExpiredHalfIsCounted :
    (∀ n, (halfOf 10180000 n).stc.inReset = false
      ∧ (endUnit (halfOf 10180000 n) .a).half = some { head := .outer, start := 10180000, delivered := false })
      ∧ reached (10180000 + 400001) 10580001 = true ∧ min 4 ((endUnit (halfOf 0 2) .a).runCount + 1) ≠ 4
      ∧ min 4 ((endUnit (halfOf 0 3) .a).runCount + 1) = 4 ∧ (endUnit (halfOf 0 4) .a).runCount ≤ 4 :=
  ⟨fun _ => ⟨rfl, rfl⟩, by decide, by decide, by decide, by decide⟩

/-- The edge at 2,000,000 that completes a pair at end A delivers a crossing of the kind its first head gives. -/
theorem pair_delivers (k h : HeadNo) (s : State) (hk : k ≠ h) :
    ∃ c u l, Delivers 2000000 .a h (halfA k false s) c u l ∧ c.kind = (if k = .outer then .inward else .outward) :=
  ⟨_, _, _, .inl ⟨_, rfl, hk, (by decide : elapsed 1600000 2000000 ≤ 400000), rfl, rfl, rfl, rfl⟩, by cases k <;> rfl⟩

/-- End A with HA1 faulted: HA2 works alone. -/
def singleA (s : State) : State := { s with whu := { Whu.reset with endA := { EndUnit.reset with fault1 := true } } }

theorem single_delivers (s : State) (hr : s.stc.inReset = false) (hs : s.stc.station = .ready) :
    EdgeLatched 2000000 .a .inner (singleA s) ∧ ∃ c u l, Delivers 2000000 .a .inner (singleA s) c u l :=
  ⟨⟨hr, hs, fun _ h => by cases h⟩, _, _, _, .inr (.inl ⟨rfl, rfl, rfl, rfl, rfl⟩)⟩

/-- End A with a HALF of HA2 pending since 1,600,000, after `n` discarded ones; HA1 faulted already or not. -/
def runA (fault : Bool) (n : Nat) (s : State) : State :=
  { s with whu := { Whu.reset with endA := { EndUnit.reset with
      half := some { head := .inner, start := 1600000, delivered := false }, fault1 := fault, runHead := some .inner,
      runCount := n } } }

/-- HA2 again: at a single-head end with a HALF pending, and as the edge that completes the run of four by which HA1 is
faulted. -/
theorem run_delivers (fault : Bool) (n : Nat) (s : State) (hf : fault = true ∧ n ≤ 4 ∨ fault = false ∧ n = 3)
    (hr : s.stc.inReset = false) (hs : s.stc.station = .ready) :
    EdgeLatched 2000000 .a .inner (runA fault n s) ∧ workingHead (endUnit (runA true n s) .a) = some .inner
      ∧ workingHead (endUnit (runA false 3 s) .a) = none ∧ ∃ c u l, Delivers 2000000 .a .inner (runA fault n s) c u l :=
  ⟨⟨hr, hs, fun _ h => by cases h⟩, rfl, rfl, _, _, _, .inr (.inr ⟨_, rfl, .inl rfl,
    (by obtain ⟨rfl, h⟩ | ⟨rfl, rfl⟩ := hf
        · show workingHead (discardedEnd .inner (endUnit (runA true n ready) .a)) = some .inner
          have : n = 0 ∨ n = 1 ∨ n = 2 ∨ n = 3 ∨ n = 4 := by omega
          obtain rfl | rfl | rfl | rfl | rfl := this <;> decide
        · show workingHead (discardedEnd .inner (endUnit (runA false 3 ready) .a)) = some .inner
          decide), rfl, rfl, rfl⟩)⟩

/-- End A dead, a HALF of HA1 pending at it and one of HB1 at end B, both since 1,600,000. -/
def deadA (s : State) : State :=
  let half : Half := { head := .outer, start := 1600000, delivered := false }
  { s with whu := { Whu.reset with
      endA := { EndUnit.reset with half := some half, fault1 := true, fault2 := true },
      endB := { EndUnit.reset with half := some half } } }

/-- The dead end's own pair, which clears its faults, and the other end's. -/
theorem dead_delivers (s : State) (hr : s.stc.inReset = false) (hs : s.stc.station = .ready) :
    workingHead (endUnit (deadA s) .a) = none ∧ ∀ e, EdgeLatched 2000000 e .inner (deadA s)
      ∧ ∃ c u l, Delivers 2000000 e .inner (deadA s) c u l ∧ c.kind = .inward :=
  ⟨rfl, fun e => by
    cases e <;> exact ⟨⟨hr, hs, fun _ h => by cases h⟩, _, _, _, .inl ⟨_, rfl, by decide, by decide, rfl, rfl, rfl, rfl⟩, rfl⟩⟩

/-- The session 213 with the tracker as given, of checked direction UP or of unchecked direction DOWN. -/
def tracking (checked : Bool) (a : Atr) : State :=
  { running with
    ses := { running.ses with checked := checked, direction := if checked then .up else .down }, atr := a }

/-- DRAINING with one entry left; an OPEN may be held. -/
def draining (held : Option HeldOpen) : State :=
  { running with
    ses := { running.ses with
      state := .draining, drainLimit := some 135600002, haltExpiry := none, closeExpiry := none, held := held },
    fus := { running.fus with table := [twoRows .aligned] }, was := { Was.reset with highest := 1 } }

theorem draining_inv (held : Option HeldOpen) : AsmInv (draining held) where
  cursor := (by decide : 1 ≤ 1)
  patterns := fun _ h => by cases h
  table := (by decide : ∀ e ∈ [twoRows .aligned], 1 ≤ e.ordinal ∧ e.ordinal ≤ 1)
  items := fun _ h => by cases h
  group := fun _ h => by cases h
  session := {
    closed := fun h => by cases h
    opened := fun _ => ⟨summary213, rfl, rfl, rfl, rfl, rfl⟩
    opening := fun _ => ⟨rfl, rfl⟩
    halt := fun h => by cases h
    close := fun h => by cases h
    pending := fun h => by cases h
    tick := fun h => by cases h
    drain := ⟨fun _ => rfl, fun _ => rfl⟩
    matching := fun h => by cases h
    held := fun _ => rfl }
  idle := fun h => by cases h
  matched := fun h => by cases h

/-- The heads have no part in the assembly's invariant. -/
theorem draining_half (held : Option HeldOpen) (k : HeadNo) (d : Bool) : AsmInv (halfA k d (draining held)) :=
  { draining_inv held with }

/-- Entry 1 made by a peer's STEP, before this station's first entry of axle 1. -/
def untimed (a : Machine.Alignment) : Entry :=
  { entry1 with firstTime := none, firstSpeed := none, rows := entry1.rows.set 2 (some (row 31520 .a 499 16667 a)) }

/-- The session 213, UP, with these entries held and a pair half made at end A. -/
def entering (table : List Entry) : State :=
  halfA .outer false
    { tracking true Atr.reset with ptb := threeStations.ptb, fus := { running.fus with table := table } }

/-- A normal end's pairs, a single-head end's edges, a dead end's own pair and the other end's, in IDLE too; an outward
crossing in IDLE; each of the four events in RUNNING as a phantom and as a move, with the axle new and returned, its entry
held with a first time, without one, and with an unchecked row that proves misaligned; the direction checked and not; an event
whose after-window comes due a microsecond later; HALTED for 1,500 ms; and DRAINING, the list empty and not, with an estimate
still open, an OPEN held or not. -/
theorem witness_OwnInwardCrossingOpensASession :
    (ready.stc.inReset = false ∧ ready.stc.station = .ready ∧ ready.ses.state = .idle ∧ ready.slc.line = .active
      ∧ ready.slc.urgent.length < 7 ∧ (∀ r ∈ ready.atr.records, r.done = true) ∧ ready.fus.table = []
      ∧ ready.was = Was.reset ∧ (singleCrossing (singleA ready) .a .inner 2000000).kind = .inward
      ∧ (singleCrossing (runA true 0 ready) .a .inner 2000000).kind = .inward)
      ∧ (∀ s, s.stc.inReset = false → s.stc.station = .ready → workingHead (endUnit (deadA s) .a) = none
        ∧ ∀ e, EdgeLatched 2000000 e .inner (deadA s)
          ∧ ∃ c u l, Delivers 2000000 e .inner (deadA s) c u l ∧ c.kind = .inward)
      ∧ (∀ k h s, k ≠ h → s.stc.inReset = false → s.stc.station = .ready → EdgeLatched 2000000 .a h (halfA k false s)
        ∧ ∃ c u l, Delivers 2000000 .a h (halfA k false s) c u l ∧ c.kind = (if k = .outer then .inward else .outward))
      ∧ (∀ s, s.stc.inReset = false → s.stc.station = .ready →
        EdgeLatched 2000000 .a .inner (singleA s) ∧ ∃ c u l, Delivers 2000000 .a .inner (singleA s) c u l)
      ∧ (∀ fault n s, fault = true ∧ n ≤ 4 ∨ fault = false ∧ n = 3 → s.stc.inReset = false → s.stc.station = .ready →
        EdgeLatched 2000000 .a .inner (runA fault n s) ∧ workingHead (endUnit (runA true n s) .a) = some .inner
          ∧ workingHead (endUnit (runA false 3 s) .a) = none ∧ ∃ c u l, Delivers 2000000 .a .inner (runA fault n s) c u l)
      ∧ ready.ses.state = .idle
      ∧ (∀ b a, (tracking b a).stc.inReset = false ∧ (tracking b a).stc.station = .ready ∧ (tracking b a).ses.state = .running
        ∧ (tracking b a).slc.line = .active ∧ (tracking b a).slc.urgent.length < 8)
      ∧ (reached (2000000 + 5000001) 2000000 = false ∧ reached (2000000 + 10000001) 2000000 = false)
      ∧ ((tracking false Atr.reset).ses.checked = false ∧ Direction.up ≠ (tracking false Atr.reset).ses.direction)
      ∧ (let full := { Atr.reset with list := [1, 2, 3, 4, 5, 6, 7, 8] }
         IsPhantom .normalEntry full ∧ IsPhantom .reEntry full ∧ IsPhantom .normalEntry { Atr.reset with counter := 65535 }
          ∧ IsPhantom .normalExit Atr.reset ∧ IsPhantom .reverseExit Atr.reset)
      ∧ (let a := { Atr.reset with list := [2], returnStack := [3], exitStack := [1], counter := 3 }
         ListMove .normalEntry a { a with list := [2, 3], returnStack := [] } 3
          ∧ ListMove .normalExit a { a with list := [], exitStack := [2, 1] } 2
          ∧ ListMove .reverseExit a { a with list := [], returnStack := [2, 3] } 2
          ∧ ListMove .reEntry a { a with list := [1, 2], exitStack := [] } 1
          ∧ ListMove .reEntry Atr.reset { Atr.reset with list := [0] } 0
          ∧ ListMove .normalEntry { Atr.reset with counter := 65534 }
              { Atr.reset with list := [65535], counter := 65535 } 65535)
      ∧ (∀ x ∈ [event 1050000 .normalEntry 1 .pending .pending],
          reached ((afterWindow x.edge (some 2012000)).2 + 500001) 2000000 = false)
      ∧ ((findEntry { running with fus := { running.fus with table := [entry1] } } 1).isSome = true
        ∧ findEntry running 1 = none ∧ running.fus.table.length < 64 ∧ running.ses.closedForMatching = false
        ∧ running.was.cursor ≤ 1 ∧ 128 ≤ running.was.cursor + 127 ∧ running.was.items = [] ∧ running.atr.records = [])
      ∧ (findEntry (entering [entry1]) 1 = some entry1 ∧ entry1.firstTime.isSome = true
        ∧ ∀ a, findEntry (entering [untimed a]) 1 = some (untimed a) ∧ (untimed a).firstTime = none)
      ∧ (let c := pairedCrossing Settings.reset .a { head := .outer, start := 1600000, delivered := false } 2000000
         let timed (a : Machine.Alignment) : Entry := { untimed a with firstTime := some c.edge, firstSpeed := some c.speed }
         FoundMisaligned (entering [untimed .unchecked]) (timed .unchecked) 2
          ∧ ∀ m, m < 8 → ¬ FoundMisaligned (entering [untimed .aligned]) (timed .aligned) m)
      ∧ (∀ checked, let s := { threeStations with
            ses := { threeStations.ses with state := .halted, checked := checked, nextHaltTick := some 500001 },
            fus := { threeStations.fus with table := [entry1] } }
          s.stc.inReset = false ∧ s.stc.station = .ready ∧ s.ses.state = .halted ∧ LeavesAt 2000000 s 1500)
      ∧ (∀ held, let s := draining held
          s.stc.inReset = false ∧ s.stc.station = .ready ∧ s.ses.state = .draining ∧ IsPhantom .normalExit s.atr
            ∧ IsPhantom .reverseExit s.atr
            ∧ (let a := { Atr.reset with list := [1, 2] }
               ListMove .normalExit a { a with list := [2], exitStack := [1] } 1
                ∧ ListMove .reverseExit a { a with list := [1], returnStack := [2] } 2)
            ∧ s.atr.timeline = [] ∧ s.slc.line = .active ∧ s.slc.urgent.length < 8)
      ∧ ∀ held, let s := draining held
        s.stc.inReset = false ∧ s.stc.station = .ready ∧ s.ses.state = .draining ∧ s.ses.held = held
          ∧ (∀ k d, AsmInv (halfA k d s)) ∧ s.ses.current = some summary213 ∧ s.slc.line = .active ∧ s.slc.urgent.length < 6
          ∧ ∃ f ∈ s.fus.table, f.fused = none := by
  refine ⟨⟨rfl, rfl, rfl, rfl, by decide, (fun _ h => by cases h), rfl, rfl, by decide, by decide⟩, dead_delivers,
    fun k h s hk hr hs => ⟨halfA_latched _ _ _ _ _ hr hs, pair_delivers k h s hk⟩, single_delivers, run_delivers, rfl,
    fun _ _ => ⟨rfl, rfl, rfl, rfl, (by decide : 0 < 8)⟩, by decide, by decide, ?_, ?_, by decide, by decide,
    ⟨rfl, rfl, fun _ => ⟨rfl, rfl⟩⟩, ⟨⟨rfl, _, rfl, rfl, by decide⟩, ?_⟩,
    fun _ => ⟨rfl, rfl, rfl, .inr ⟨rfl, 500001, rfl, by decide, by decide⟩⟩,
    fun _ => ⟨rfl, rfl, rfl, rfl, rfl, ⟨⟨[2], rfl, rfl⟩, ⟨[1], rfl, rfl⟩⟩, rfl, rfl, (by decide : 0 < 8)⟩,
    fun held => ⟨rfl, rfl, rfl, rfl, fun k d => draining_half held k d, rfl, rfl, (by decide : 0 < 6), _, .head _, rfl⟩⟩
  · exact ⟨.inl (by decide), (by decide : 8 ≤ 8), .inr ⟨rfl, (by decide : 65535 ≤ 65535)⟩, rfl, rfl⟩
  · exact ⟨⟨by decide, .inl ⟨[], rfl, rfl⟩⟩, ⟨[], rfl, rfl⟩, ⟨[], rfl, rfl⟩, ⟨by decide, .inl ⟨[], rfl, rfl⟩⟩,
      ⟨by decide, .inr ⟨rfl, rfl, rfl⟩⟩, ⟨by decide, .inr ⟨rfl, by decide, rfl, rfl⟩⟩⟩
  · rintro m hm ⟨_, r, hr, hu, _⟩
    have : m = 0 ∨ m = 1 ∨ m = 2 ∨ m = 3 ∨ m = 4 ∨ m = 5 ∨ m = 6 ∨ m = 7 := by omega
    obtain rfl | rfl | rfl | rfl | rfl | rfl | rfl | rfl := this <;> cases hr
    cases hu

/-- A full list, and the four phantoms at their limits. -/
theorem witness_ReturningAxleKeepsItsOrdinal :
    let a : Atr := { Atr.reset with list := [1, 2, 3, 4, 5, 6, 7, 8], counter := 65535 }
    (a.list.length ≤ 8 ∧ (listOperation .reverseExit a).isSome = true ∧ (listOperation .normalExit a).isSome = true)
      ∧ listOperation .normalEntry a = none ∧ listOperation .reEntry a = none
      ∧ listOperation .normalEntry { a with list := a.list.tail } = none
      ∧ listOperation .normalExit Atr.reset = none ∧ listOperation .reverseExit Atr.reset = none := by decide

theorem witness_TimelineLetsGoWhatIsDone : ready.stc.inReset = false := rfl

def seen (before after_ : Mark) : State :=
  { plateau with atr := { plateau.atr with timeline := [event 41000000 .normalEntry 1 before after_] } }

/-- Each window at the microsecond it is due, first and second of its event. -/
theorem witness_DueWindowIsMeasured :
    (∀ b a, (seen b a).stc.inReset = false ∧ (seen b a).atr.timeline[0]? = some (event 41000000 .normalEntry 1 b a))
      ∧ reached (41000000 + 500001) 41500001 = true ∧ (afterWindow 41000000 none).2 = 41450000
      ∧ reached (41450000 + 500001) 41950001 = true
      ∧ (∀ b a, findRecord (seen b a) 1 = some record1) ∧ record1.exitSettled = false
      ∧ Mark.invalid ≠ .pending :=
  ⟨fun _ _ => ⟨rfl, rfl⟩, by decide, by decide, by decide, fun _ _ => rfl, rfl, by decide⟩

theorem witness_PlateauWindowsAgree : 500000 < 4294967296 ∧ 500000 ≤ 500000 := by decide

/-- A span that begins on the oldest stamp holds four samples, or three, or a saturated one; a microsecond earlier it is
expired. -/
theorem witness_WindowGivesMeansAndSpread :
    let h := plateau.lfe.history
    let within (from_ to_ : Time) := h.filter fun x => !earlier x.stamp from_ && !earlier to_ x.stamp
    earlier 41027499 41027500 = true ∧ earlier 41027500 41027500 = false ∧ (within 41027500 41035000).length = 4
      ∧ (within 41027500 41034999).length < 4 ∧ (∀ x ∈ within 41027500 41035000, x.saturated = false)
      ∧ ∃ x ∈ [({ sample 41027500 0 0 with saturated := true } : Sample)], x.saturated = true := by decide

theorem witness_EstimateIsGraded :
    let e : Step := ⟨31330, 15700, 640, 1850⟩
    { record1 with entryStep := some e, exitStep := some e }.entryStep = some e ∧ record1.entryStep = none
      ∧ record1.exitStep = none ∧ { record1 with overspeed := true }.overspeed = true
      ∧ (formEstimate Settings.reset { record1 with entryStep := some e }).share = some 501 := by decide

/-- Axle 1 of 4.7 with its entry settled and NX 1's after-window due; station 4 has sent no row. -/
def finishing : State :=
  { fusing with
    atr := { Atr.reset with
      records := [{ record1 with entrySettled := true }],
      timeline := [event 41180000 .normalExit 1 .invalid .pending, event 41288000 .normalExit 2 .pending .pending] } }

/-- The held group of axles 1 and 2 waits for axle 2. -/
theorem waitsFor2 (s : State) (p : Entry → Prop) (hg : s.was.group = some { pattern := none, first := 1, count := 2 })
    (hf : findEntry s 2 = some entry2) (hp : ¬ p entry2) : GroupWaits s p :=
  ⟨_, 2, entry2, hg, by decide, by decide, hf, rfl, hp⟩

/-- Entry 1 with its own row and both peers', station 4's of the given alignment. -/
def bothRows (a : Machine.Alignment) : Entry :=
  { twoRows .aligned with rows := (twoRows .aligned).rows.set 4 (some (row 31100 .c 507 16611 a)) }

/-- The same with axle 1's entry as given, in any open session, a group of two axles held. -/
def reporting (f : Entry) (st : SessionState) : State :=
  { finishing with
    ses := { finishing.ses with state := st }, fus := { finishing.fus with table := [f, entry2] },
    was := { finishing.was with group := some { pattern := none, first := 1, count := 2 } } }

/-- In RUNNING, HALTED and DRAINING, where station 4 has not reported axle 1 and where every peer has. -/
theorem witness_FinishedEstimateGoesToFusionAndLine :
    finishing.stc.inReset = false ∧ SessionState.running ≠ .idle ∧ finishing.slc.line = .active
      ∧ finishing.slc.bulk.length < 32
      ∧ finishing.atr.timeline[0]? = some (event 41180000 .normalExit 1 .invalid .pending) ∧ Mark.invalid ≠ .pending
      ∧ reached ((afterWindow 41180000 ((finishing.atr.timeline[0 + 1]?).map (·.edge))).2 + 500001) 41761001 = true
      ∧ findRecord finishing 1 = some { record1 with entrySettled := true } ∧ record1.done = false
      ∧ record1.exit.isSome = true ∧ record1.exitAfterEntry = true ∧ finishing.was.cursor ≤ 1
      ∧ ∀ st, (findEntry (reporting entry1 st) 1 = some entry1 ∧ entry1.fused = none ∧ ¬ Reported (reporting entry1 st) entry1)
        ∧ (let f := bothRows .aligned
           findEntry (reporting f st) 1 = some f ∧ f.fused = none ∧ Reported (reporting f st) f
            ∧ GroupWaits (reporting f st) (·.ordinal = 1)
            ∧ (reporting f st).fus.table.Pairwise (fun a b => a.ordinal < b.ordinal)) :=
  ⟨by decide, by decide, by decide, by decide, by decide, by decide, by decide, by decide, by decide, by decide, by decide,
    by decide, fun st => ⟨⟨rfl, rfl, fun h => by have := (allReported_iff _ _).mpr h; cases st <;> revert this <;> decide⟩,
      rfl, rfl, (allReported_iff _ _).mp (by cases st <;> decide), waitsFor2 _ _ rfl rfl (by decide), by
        show [bothRows .aligned, entry2].Pairwise _; decide⟩⟩

/-! Span line and peer table. -/

def urgentFrame : TxFrame := tx (.shut 213 412 103)

def lined (f : Slc → Slc) : State := { running with slc := f running.slc }

theorem witness_FrameStartSelectsByPrecedence :
    running.stc.inReset = false ∧ running.stc.station ≠ .loading ∧ running.slc.sending = none ∧ running.slc.line = .active
      ∧ (lined fun c => { c with urgent := [urgentFrame] }).slc.urgent = urgentFrame :: []
      ∧ (lined fun c => { c with timing := some urgentFrame }).slc.timing = some urgentFrame
      ∧ (lined fun c => { c with bulk := [tx stepBody] }).slc.bulk = tx stepBody :: []
      ∧ (lined fun c => { c with service := [tx stepBody] }).slc.service = tx stepBody :: []
      ∧ (lined fun c => { c with bulk := [tx stepBody], backoff := some 5 }).slc.backoff ≠ none
      ∧ (lined fun c => { c with line := .muted, probeDue := true, timing := some urgentFrame }).slc.probeDue = true
      ∧ (lined fun c => { c with line := .listen }).slc.line = .listen := by decide

theorem witness_LineEventsActWhenDue :
    (putOn urgentFrame running).slc.sending = some ⟨urgentFrame, lineImage 3 0 urgentFrame⟩
      ∧ running.slc.line ≠ .listen ∧ running.slc.sending = none
      ∧ ((lined fun c => { c with backoff := some 126524 }).slc.backoff = some 126524 ∧ reached 126524 126524 = true
        ∧ reached 126524 126523 = false)
      ∧ (lined fun c => { c with line := .muted, probeTimer := some 126524 }).slc.probeTimer = some 126524 :=
  ⟨rfl, by decide, rfl, by decide, rfl⟩

theorem witness_SuccessfulAttemptEmptiesItsPlace :
    (putOn urgentFrame running).stc.inReset = false ∧ (putOn urgentFrame running).slc.sending.isSome = true
      ∧ classOfBody urgentFrame.body ≠ .bulk ∧ running.slc.hailWaiting = none ∧ running.slc.line = .active
      ∧ (lined fun c => { c with line := .muted }).slc.line = .muted :=
  ⟨rfl, rfl, by decide, rfl, rfl, rfl⟩

theorem witness_HeldBulkAttemptBacksOff :
    let s := putOn (tx stepBody) (lined fun c => { c with bulk := [tx stepBody] })
    s.stc.inReset = false ∧ s.slc.sending = some ⟨tx stepBody, lineImage 3 0 (tx stepBody)⟩
      ∧ classOfBody (tx stepBody).body = .bulk ∧ s.slc.bulk = tx stepBody :: [] ∧ s.slc.hailWaiting = none :=
  ⟨rfl, rfl, rfl, rfl, rfl⟩

/-- The drop counts at both sides of their limits. -/
theorem witness_FailedAttemptIsRetriedThenDropped :
    (∀ n d, let f := { urgentFrame with failed := n }
      let s := putOn f (lined fun c => { c with urgent := [f], droppedRun := d })
      s.stc.inReset = false ∧ s.slc.sending = some ⟨f, lineImage 3 0 f⟩ ∧ queueOf (classOfBody f.body) s.slc = f :: []
        ∧ s.slc.hailWaiting = none ∧ s.slc.duplicateRun = 0 ∧ s.slc.line = .active ∧ s.slc.droppedRun = d)
      ∧ (∀ hold, AttemptResult.slots false false ≠ .slots true hold)
      ∧ (lined fun c => { c with line := .muted, timing := some urgentFrame }).slc.line = .muted
      ∧ (1 < 2 ∧ 2 ≤ 2 ∧ 6 < 7 ∧ 7 ≤ 7) :=
  ⟨fun _ _ => ⟨rfl, rfl, rfl, rfl, rfl, rfl, rfl⟩, fun h => by cases h <;> decide, rfl, by decide⟩

theorem witness_DuplicateRunListens :
    let s := putOn urgentFrame (lined fun c => { c with duplicateRun := 1 })
    s.stc.inReset = false ∧ s.slc.sending = some ⟨urgentFrame, lineImage 3 0 urgentFrame⟩ ∧ s.slc.duplicateRun = 1
      ∧ (FrameField.sequence = .sequence ∨ FrameField.sequence = .stamp) :=
  ⟨rfl, rfl, rfl, .inl rfl⟩

def shutFrame : LineFrame := frame .shut 4 7750000 [0, 213, 1, 156, 0, 104]

def hailFrame : LineFrame := frame .hail 4 7750000 hailBytes

/-- A station that knows station 4, with `n` frames in its receive queue. -/
def queued (n : Nat) (hold : Bool) : State :=
  { threeStations with slc := { threeStations.slc with
      receiveQueue := List.replicate n (waiting .hail 4 0 hailBytes), hold := hold } }

/-- Station 4's clock is 1,000,000 µs ahead; its frame keeps the entry LIVE. -/
theorem witness_ReceivedFrameIsTaken :
    (queued 23 false).stc.inReset = false ∧ (queued 23 false).stc.station ≠ .loading
      ∧ (queued 23 false).slc.sending = none ∧ goodFrame (queued 23 false).stc.number shutFrame = some .shut
      ∧ (hear shutFrame.stamp 6750000 (place (queued 23 false).ptb.peers shutFrame.node.toNat Peer.reset)).state
          = (place (queued 23 false).ptb.peers shutFrame.node.toNat Peer.reset).state
      ∧ place (queued 23 false).slc.lastSequence shutFrame.node.toNat none ≠ some shutFrame.seq
      ∧ (queued 31 true).slc.receiveQueue.length < 32 ∧ (queued 23 false).slc.hold = false := by decide +kernel

/-- Bad, for its own number, class, kind, target, node, length or end; repeated, for another station, past a full queue, and a TIMING frame under hold. -/
theorem witness_ReceivedFrameIsTurnedAway :
    goodFrame 3 { shutFrame with seq := 8 } = none ∧ goodFrame 3 shutFrame = some .shut ∧ goodFrame 4 shutFrame = none
      ∧ ([{ shutFrame with cls := 1 }, { shutFrame with kind := 9 }, { shutFrame with target := 14 },
          { shutFrame with node := 8 }, { shutFrame with length := 7, payload := [0, 213, 1, 156, 0, 104, 0] },
          { shutFrame with whole := false }].all
            fun f => goodFrame 3 { f with check := frameCheck f } == none) = true
      ∧ place ((queued 0 false).slc.lastSequence.set 4 (some 7)) shutFrame.node.toNat none = some shutFrame.seq
      ∧ (goodFrame 4 (frame .ask 9 0 [1]) = some .ask ∧ (frame .ask 9 0 [1]).target.toNat ≠ (4 : BitVec 3).toNat
        ∧ (frame .ask 9 0 [1]).target ≠ 15)
      ∧ 32 ≤ (queued 32 true).slc.receiveQueue.length
      ∧ (goodFrame 3 hailFrame = some .hail ∧ (queued 31 true).slc.receiveQueue.length < 32 ∧ (queued 31 true).slc.hold = true)
      ∧ (hear hailFrame.stamp 6750000 (place (queued 0 false).ptb.peers 4 Peer.reset)).state = .live := by decide +kernel

/-- A record of six axles with every field at an end of its range. -/
def fullRecord : WagonRecord :=
  { index := 65535, session := 65535, wagon := 65535, kind := .unmatched, pattern := some 255, first := 65535,
    axles := List.replicate 6 { w := -8388608, grade := .n, share := some 65534, reversal := true }, gross := 8388607,
    grade := .n, meanSpeed := 65535, overload := true, lateral := true, longitudinal := true, overspeed := true, creep := true,
    reversal := true, forced := true, misaligned := 255, unchecked := 255 }

theorem fullRecord_fits : RecordFits fullRecord :=
  ⟨by decide, by decide, by decide, by decide, by decide, by decide, by decide, by decide⟩

def fullSummary : Summary :=
  { summary213 with
    ownAxles := 65535, wagons := 65535, phantoms := 65535, reversals := 65535, haltedMs := 4294967295, late := 65535,
    shuts := List.replicate 8 (some ⟨213, 65535, 65535⟩) }

theorem fullSummary_fits : SummaryFits fullSummary where
  counts := by decide
  halted := by decide
  places := rfl
  shuts := by
    intro n x h
    unfold place fullSummary at h
    rw [List.getD_eq_getElem?_getD, List.getElem?_replicate] at h
    split at h <;> simp at h
    subst h
    decide

/-- Every field of a HAIL, a STEP, a TALLY and a REPLY at an end of its range. -/
theorem witness_StationFramesReadBack :
    ((2 : BitVec 3) ≠ 3 ∧ urgentFrame.target = 15) ∧ (4294967295 < 4294967296 ∧ 65535 < 65536)
      ∧ StationState.ready ≠ .loading ∧ (-8388608 : Int) ≤ -8388608 ∧ (8388607 : Int) ≤ 8388607
      ∧ (∀ x, some 1000 = some x → x ≤ 1000)
      ∧ RecordFits fullRecord ∧ 8 ≤ (8 : BitVec 4).toNat ∧ ContentFits 4 .none ∧ ContentFits 1 (.record fullRecord)
      ∧ ContentFits 2 (.record fullRecord) ∧ ContentFits 3 (.record fullRecord) ∧ ContentFits 5 (.summary true fullSummary)
      ∧ (∀ c, ContentFits 6 (.conditions c)) ∧ ContentFits 7 (.mask 511) ∧ ReplyStatus.busy ≠ .ok :=
  ⟨by decide, by decide, by decide, by decide, by decide, fun _ h => by cases h; decide, fullRecord_fits, by decide, rfl,
    ⟨.inl rfl, fullRecord_fits⟩, ⟨.inr (.inl rfl), fullRecord_fits⟩, ⟨.inr (.inr rfl), fullRecord_fits⟩,
    ⟨rfl, fullSummary_fits⟩, fun _ => rfl, rfl, by decide⟩

/-- A waiting HAIL of station 4, whose entry is as given. -/
theorem frameWaits (k : FrameKind) (node : BitVec 4) (start : Time) (payload : List Byte) (s : State)
    (h : s.stc.inReset = false) :
    FrameWaits (with1 (waiting k node start payload) s) (waiting k node start payload) [] k :=
  ⟨h, rfl, by cases k <;> rfl⟩

/-- Station 4's entry in the given state, the session in the given state with the close pending and the SHUTs of the given
stations recorded; every peer has reported axle 1 and none axle 2, for which the held group waits. -/
def reassessing (p : PeerState) (st : SessionState) (shut : List Nat) (a : Machine.Alignment) : State :=
  { fusing with
    ptb := { fusing.ptb with peers := fusing.ptb.peers.set 4 { livePeer 15000 4293967296 with state := p } },
    ses := { fusing.ses with
      state := st, nextHaltTick := if st = .halted then some 105401001 else none, closePending := true,
      current := some { summary213 with
        shuts := (List.range 8).map fun n => if shut.contains n then some ⟨213, 412, 103⟩ else none } },
    fus := { fusing.fus with table := [bothRows a, entry2] },
    was := { fusing.was with group := some { pattern := none, first := 1, count := 2 } } }

/-- What a reassessment of the live set asks, in every state of entry and session: one entry complete and one not; the peer
test met, in RUNNING and HALTED, and not; and a row found misaligned at a peer that has become LIVE, and not. -/
theorem reassessing_meets (p : PeerState) (st : SessionState) (shut : List Nat) (a : Machine.Alignment) :
    let s := reassessing p st shut a
    s.fus.table.Pairwise (fun a b => a.ordinal < b.ordinal) ∧ IsComplete s (bothRows a) ∧ ¬ IsComplete s entry2
      ∧ TestWaits s (IsComplete s) ∧ StaysDraining s ∧ ¬ PeersShut (reassessing p st [] a)
      ∧ (st = .running ∨ st = .halted → PeersShut (reassessing p st [2, 4] a))
      ∧ LeavesAt 106300000 (reassessing p .running shut a) 0 ∧ LeavesAt 106300000 (reassessing p .halted shut a) 899
      ∧ FoundMisaligned (reassessing .live st shut .unchecked) (bothRows .unchecked) 4
      ∧ ¬ FoundMisaligned (reassessing .live st shut .aligned) (bothRows .aligned) 4 := by
  intro s
  have h2 : ¬ Reported s entry2 := fun h => by
    have : (livePeers (reassessing p .idle [] .aligned)).all (rowComplete entry2) = true := (allReported_iff _ _).mpr h
    revert this; cases p <;> decide
  have hi : ¬ IsComplete s entry2 := fun h => h2 h.2
  have ho : s.fus.table.Pairwise (fun a b => a.ordinal < b.ordinal) := by
    show [bothRows a, entry2].Pairwise _; cases a <;> decide
  refine ⟨ho, ((complete_iff _ _).mp ?_).2, hi, fun _ => ⟨ho, waitsFor2 _ _ rfl rfl hi⟩,
    ⟨⟨entry2, .tail _ (.head _), rfl, h2⟩, fun _ => ⟨ho, waitsFor2 _ _ rfl rfl h2⟩⟩, fun h => ?_,
    fun h => (peerTest_iff _).mp ?_, .inl rfl, .inr ⟨rfl, 105401001, rfl, by decide, by decide⟩,
    ⟨rfl, _, rfl, rfl, ?_⟩, fun h => ?_⟩
  · show complete (reassessing p st [] a) (bothRows a) = true
    cases p <;> cases st <;> cases a <;> decide
  · have := (peerTest_iff _).mpr h
    revert this; cases p <;> cases st <;> cases a <;> decide
  · rcases h with rfl | rfl <;> cases p <;> cases a <;> decide
  · exact (alignmentOf_congr (s := reassessing .live .running [] .unchecked) (e := bothRows .unchecked)
      (f := bothRows .unchecked) rfl rfl rfl (fun _ _ => rfl) rfl _ _).trans (by decide)
  · obtain ⟨_, _, hr, hu, _⟩ := h
    cases hr; cases hu

/-- Each row of R111: a qualifying HAIL in JOINING 1,000,000 µs after the first, one µs more, and in LIVE; one that does not
qualify (station state SETTLING). -/
theorem witness_HailMovesItsEntry :
    (∀ p st,
        let s := with1 (waiting .hail 4 1250000 hailBytes) { threeStations with
          ptb := { threeStations.ptb with peers := threeStations.ptb.peers.set 4 p },
          ses := { threeStations.ses with state := st } }
        FrameWaits s (waiting .hail 4 1250000 hailBytes) [] .hail ∧ s.ptb.peers.length = 8
          ∧ place s.ptb.peers 4 Peer.reset = p ∧ s.fus.table.Pairwise (fun a b => a.ordinal < b.ordinal))
      ∧ ((4 : Nat) < 8 ∧ 4 ≠ ready.stc.number.toNat ∧ reached (1250000 + 1000001 : Time) 1250000 = false)
      ∧ (at1 hailBytes 6 = 0 ∧ at1 hailBytes 7 = 3 ∧ at1 hailBytes 8 ≤ 3 ∧ at1 hailBytes 11 ≠ 2)
      ∧ at1 (hailBytes.set 7 2) 7 ≠ 3
      ∧ elapsed 250000 (waiting .hail 4 1250000 hailBytes).start ≤ 1000000
      ∧ ¬ elapsed 249999 (waiting .hail 4 1250000 hailBytes).start ≤ 1000000 :=
  ⟨fun _ _ => ⟨frameWaits _ _ _ _ _ rfl, rfl, rfl, .nil⟩, by decide, by decide, by decide, by decide, by decide⟩

theorem witness_OffsetAndMarkFollowWhatIsHeard :
    Peer.reset.offset = none ∧ (livePeer 9000 5000).offset = some 5000
      ∧ ((10000 - 0 - 5000 : Time).toInt).natAbs ≤ 5000 ∧ 5000 < ((10001 - 0 - 5000 : Time).toInt).natAbs
      ∧ Peer.reset.state = .absent ∧ (livePeer 9000 5000).state ≠ .absent := by decide

/-- In every session state: a frame that jumps past 5,000 µs from a LIVE peer, and one from an entry that is not LIVE. -/
theorem witness_EveryGoodFrameIsReported (st : SessionState) :
    let s := { threeStations with ses := { threeStations.ses with state := st } }
    s.stc.inReset = false ∧ s.stc.station ≠ .loading ∧ s.slc.sending = none ∧ goodFrame s.stc.number shutFrame = some .shut
      ∧ shutFrame.node.toNat < 8 ∧ s.ptb.peers.length = 8 ∧ (place s.ptb.peers 4 Peer.reset).state = .live
      ∧ (hear shutFrame.stamp 0 (place s.ptb.peers 4 Peer.reset)).state ≠ .live
      ∧ (hear shutFrame.stamp 6750000 (place s.ptb.peers 4 Peer.reset)).state = .live
      ∧ (hear shutFrame.stamp 0 Peer.reset).state = Peer.reset.state := by cases st <;> decide +kernel

/-- In every session state: at the expiry of a LIVE entry, of a JOINING one, and a microsecond before it. -/
theorem witness_SilentPeerLeavesTheLiveSet (st : SessionState) :
    let s := { threeStations with ses := { threeStations.ses with state := st } }
    s.stc.inReset = false ∧ s.ptb.peers.length = 8 ∧ (4 : BitVec 3) ≠ s.stc.number
      ∧ (place s.ptb.peers 4 Peer.reset).state = .live ∧ (place s.ptb.peers 4 Peer.reset).lastHeard = some 0
      ∧ (place (s.ptb.peers.set 4 { livePeer 15000 0 with state := .joining }) 4 Peer.reset).state = .joining
      ∧ reached ((0 : Time) + 1000001) 1000001 = true ∧ reached ((0 : Time) + 1000001) 1000000 = false
      ∧ (place s.ptb.peers 5 Peer.reset).state = .absent := by cases st <;> decide

theorem witness_OwnHailIsHandedOverEveryPeriod :
    let s := { ready with ptb := { ready.ptb with hailTimer := some 291200 } }
    s.stc.inReset = false ∧ s.ptb.hailTimer = some 291200 ∧ reached 291200 291199 = false ∧ reached 291200 291200 = true
      ∧ s.slc.line ≠ .listen ∧ s.slc.sending = none
      ∧ ∃ x h, (putOn (tx (.hail ⟨0, 0, .active, .ready, .idle, 0, none, 0, 0⟩)) s).slc.sending = some x
          ∧ x.frame.body = .hail h :=
  ⟨rfl, rfl, by decide, by decide, by decide, rfl, _, _, rfl, rfl⟩

/-- Station 4 overlaps station 3 by 1 mm, then touches it. -/
theorem witness_ExitStationAndLayoutFollowTheEntries :
    let at_ (p : Nat) : State :=
      { threeStations with ptb := { threeStations.ptb with peers := threeStations.ptb.peers.set 4 (livePeer p 0) } }
    ((place (at_ 14999).ptb.peers 4 Peer.reset).state = .live ∧ 14999 < (at_ 14999).ptb.ownP + (at_ 14999).ptb.ownL
      ∧ (at_ 14999).ptb.ownP < 14999 + 3000 ∧ (at_ 14999).stc.station ≠ .configFault ∧ (at_ 14999).ptb.layout = false)
      ∧ ¬ 15000 < (at_ 15000).ptb.ownP + (at_ 15000).ptb.ownL
      ∧ { at_ 15000 with ptb := { (at_ 15000).ptb with layout := true } }.ptb.layout = true
      ∧ threeStations.ses.direction = .up := by decide

/-! Sessions. -/

def opening (node : BitVec 4) (number : Byte) (start : Time) : RxFrame := waiting .opening node start (openBytes number)

theorem witness_OpenIsAdoptedInIdle :
    let s := with1 (opening 2 213 50399000) ready
    let known := with1 (opening 2 213 50399000) { ready with ses := { Ses.reset with last := some summary213 } }
    FrameWaits s (opening 2 213 50399000) [] .opening ∧ s.stc.station = .ready ∧ s.ses.state = .idle
      ∧ (∀ m, s.ses.last = some m → m.number ≠ 213) ∧ (∀ r ∈ s.atr.records, r.done = true)
      ∧ reached (50399000 + 5000001) 50400000 = false ∧ reached (50399000 + 10000001) 50400000 = false
      ∧ (FrameWaits known (opening 2 213 50399000) [] .opening ∧ known.ses.last = some summary213
        ∧ summary213.number = wordAt (opening 2 213 50399000).frame.payload 0) :=
  ⟨frameWaits _ _ _ _ _ rfl, rfl, rfl, (fun _ h => by cases h), (fun _ h => by cases h), by decide, by decide,
    frameWaits _ _ _ _ _ rfl, rfl, by decide⟩

/-- An open session 213 of opener 3, first edge `tf`, opened at 50,310,000, that hears OPEN `number` of station 2. -/
def competing (st : SessionState) (tf : Time) (number : Byte) (start : Time) : State :=
  with1 (opening 2 number start)
    { threeStations with
      ses := { running.ses with state := st, tf := some tf, tOpen := some 50310000, current := some summary213 } }

/-- Equal first edges are settled by the lower node, a first edge 1 µs later wins, one 1 µs earlier loses; the 2 s end at
52,310,000; an OPEN of the held number; a request deferred, with room for its reply; numbers 1 … 32,767 later, and 65,535. -/
theorem witness_CompetingOpenIsSettledByFirstEdge :
    (∀ st tf number start, FrameWaits (competing st tf number start) (opening 2 number start) [] .opening
      ∧ (competing st tf number start).stc.station = .ready ∧ (competing st tf number start).ses.tOpen = some 50310000
      ∧ (competing st tf number start).ses.tf = some tf ∧ (competing st tf number start).ses.opener = some 3
      ∧ (competing st tf number start).ses.state = st ∧ (competing st tf number start).rst.deferred = none)
      ∧ (wordAt (openBytes 214) 0 ≠ running.ses.number ∧ wordAt (openBytes 213) 0 = running.ses.number)
      ∧ (let s := { competing .running 60000000 214 50399000 with rst := { Rst.reset with deferred := some ⟨9, 213, 3⟩ } }
         s.rst.deferred.isSome = true ∧ s.slc.line = .active ∧ s.slc.service.length < 4)
      ∧ earlier (50310000 + 2000000) 52310000 = false ∧ earlier (50310000 + 2000000) 52310001 = true
      ∧ (let first := timeAt (openBytes 214) 3 + (place threeStations.ptb.peers 2 Peer.reset).offset.getD 0
         earlier first (first + 1) = true ∧ earlier first (first - 1) = false ∧ first - 1 ≠ first ∧ 2 < 3)
      ∧ (1 ≤ (wordAt (openBytes 214) 0 - 213).toNat ∧ (32980 - 213 : Word16).toNat ≤ 32767
        ∧ 32767 < (32981 - 213 : Word16).toNat)
      ∧ 32767 < (wordAt (openBytes 212) 0 - 213).toNat :=
  ⟨fun _ _ _ _ => ⟨frameWaits _ _ _ _ _ rfl, rfl, rfl, rfl, rfl, rfl, rfl⟩, by decide, by decide, by decide, by decide,
    by decide, by decide, by decide⟩

/-- From HALTED after 2,499 ms, from RUNNING, in IDLE with no last-crossing time and with one, and in DRAINING; a CROSS that
is no normal exit, and a normal exit of ordinal 0 and of a number neither current nor superseded. -/
theorem witness_HeardCrossRestartsTheTimers :
    let x (p : List Byte) := waiting .cross 4 67900000 p
    (∀ p s, s.stc.inReset = false → FrameWaits (with1 (x p) s) (x p) [] .cross)
      ∧ (crossBytes 0).getD 4 0 ≠ 1 ∧ ((crossBytes 1).getD 4 0 = 1 ∧ at2 ((crossBytes 1).set 3 0) 2 = 0)
      ∧ (threeStations.fus.current ≠ some (wordAt ((crossBytes 1).set 1 214) 0)
        ∧ threeStations.fus.superseded ≠ some (wordAt ((crossBytes 1).set 1 214) 0))
      ∧ reached (67900000 + 5000001) 67900000 = false ∧ reached (67900000 + 10000001) 67900000 = false
      ∧ (∀ y, (with1 y halted).stc.station = .ready ∧ (with1 y halted).ses.state = .halted
        ∧ (with1 y halted).ses.tc = some 60400000 ∧ LeavesAt 67900000 (with1 y halted) 2499)
      ∧ (∀ y, (with1 y running).ses.state = .running ∧ ∀ ms, LeavesAt 67900000 (with1 y running) ms)
      ∧ (∀ y, (with1 y ready).stc.station = .ready ∧ (with1 y ready).ses.state = .idle ∧ (with1 y ready).ses.tc = none)
      ∧ { ready with ses := { Ses.reset with tc := some 60000000 } }.ses.state = .idle
      ∧ (draining none).stc.station = .ready ∧ (draining none).ses.state = .draining :=
  ⟨fun _ _ h => frameWaits _ _ _ _ _ h, by decide, by decide, by decide, by decide, by decide,
    fun _ => ⟨rfl, rfl, rfl, .inr ⟨rfl, 65401001, rfl, by decide, by decide⟩⟩, fun _ => ⟨rfl, fun _ => .inl rfl⟩,
    fun _ => ⟨rfl, rfl, rfl⟩, rfl, rfl, rfl⟩

def shut4 : RxFrame := waiting .shut 4 106300000 [0, 213, 1, 156, 0, 104]

/-- Station 4's SHUT with no close pending; with the close pending and station 2's SHUT recorded, or not, which it completes or
does not, from RUNNING and from HALTED; for the last session; and for no session. What is then recorded is a state of
`reassessing`. -/
theorem witness_ShutIsRecordedInItsSummary :
    (FrameWaits (with1 shut4 running) shut4 [] .shut ∧ running.ses.state ≠ .idle
      ∧ (∃ m, running.ses.current = some m ∧ m.number = 213) ∧ ¬ PeersShut running)
      ∧ (∀ st shut, st = .running ∨ st = .halted →
        (let s := with1 shut4 (reassessing .live st shut .aligned)
         FrameWaits s shut4 [] .shut ∧ s.stc.station = .ready ∧ s.ses.state ≠ .idle
          ∧ (∃ m, s.ses.current = some m ∧ m.number = 213)
          ∧ LeavesAt 106300000 s (if st = .halted then 899 else 0) ∧ StaysDraining s))
      ∧ (∀ st, (reassessing .live st [2] .aligned).ses.current.map (fun m => m.shuts.set 4 (some ⟨213, 412, 103⟩))
          = (reassessing .live st [2, 4] .aligned).ses.current.map (·.shuts)
        ∧ ¬ PeersShut (reassessing .live st [4] .aligned))
      ∧ (FrameWaits (with1 shut4 { ready with ses := { Ses.reset with last := some summary213 } }) shut4 [] .shut
        ∧ ready.ses.state = .idle ∧ summary213.number = wordAt shut4.frame.payload 0)
      ∧ (FrameWaits (with1 shut4 ready) shut4 [] .shut ∧ ready.ses.last = none) := by
  refine ⟨⟨frameWaits _ _ _ _ _ rfl, by decide, ⟨_, rfl, rfl⟩, fun h => nomatch h.1⟩, fun st shut h => ?_,
    fun st => ⟨by cases st <;> decide, fun h => ?_⟩,
    ⟨frameWaits _ _ _ _ _ rfl, rfl, by decide⟩, frameWaits _ _ _ _ _ rfl, rfl⟩
  · obtain ⟨_, _, _, _, hd, _, _, h1, h2, _⟩ := reassessing_meets .live st shut .aligned
    rcases h with rfl | rfl
    · exact ⟨frameWaits _ _ _ _ _ rfl, rfl, (fun h => nomatch h), ⟨_, rfl, rfl⟩, h1, hd⟩
    · exact ⟨frameWaits _ _ _ _ _ rfl, rfl, (fun h => nomatch h), ⟨_, rfl, rfl⟩, h2, hd⟩
  · have := (peerTest_iff _).mpr h
    revert this; cases st <;> decide

theorem witness_HaltedTimeIsCounted :
    running.stc.inReset = false ∧ running.ses.state = .running ∧ running.ses.haltExpiry = some 65000001
      ∧ reached 65000001 65000001 = true ∧ reached 65000001 65000000 = false ∧ halted.ses.state = .halted
      ∧ halted.ses.nextHaltTick = some 65401001 ∧ reached 65401001 65401001 = true ∧ reached 65401001 65401000 = false := by
  decide

/-- An axle on the platform, every LIVE peer's SHUT recorded or none, and none on it, from RUNNING and HALTED; `reassessing` as
the close pending makes it. And the same closing at once from RUNNING and, with 5,000 ms of the stay to count, from HALTED. -/
theorem witness_CloseExpiryPendsOrClosesTheSession :
    (running.stc.inReset = false ∧ running.ses.state = .running ∧ running.ses.closeExpiry = some 70000001
      ∧ reached 70000001 70000000 = false ∧ reached 70000001 70000001 = true)
      ∧ (halted.ses.state = .halted ∧ halted.ses.closeExpiry = some 70400001 ∧ reached 70400001 70400001 = true)
      ∧ ((∀ ms, LeavesAt 70000001 running ms) ∧ LeavesAt 70400001 halted 5000)
      ∧ (∀ st shut, st = .running ∨ st = .halted →
        let s := reassessing .live st shut .aligned
        s.stc.inReset = false ∧ s.ses.closeExpiry = some 70000001 ∧ reached 70000001 106300000 = true ∧ s.atr.list = []
          ∧ plateau.atr.list ≠ [] ∧ LeavesAt 106300000 s (if st = .halted then 899 else 0) ∧ StaysDraining s
          ∧ PeersShut (reassessing .live st [2, 4] .aligned) ∧ ¬ PeersShut (reassessing .live st [] .aligned))
      ∧ ∀ s ∈ [running, halted], s.atr.list = [] ∧ s.fus.table = [] ∧ s.was.group = none
        ∧ s.was.highest < s.was.cursor ∧ s.ses.held = none ∧ s.ses.current = some summary213
        ∧ s.ses.closedForMatching = false ∧ (∀ r ∈ s.atr.records, r.done = true) ∧ s.rst.deferred = none
        ∧ s.slc.line = .active ∧ s.slc.urgent.length < 8 := by
  refine ⟨by decide, by decide, ⟨fun _ => .inl rfl, .inr ⟨rfl, 65401001, rfl, by decide, by decide⟩⟩, fun st shut h => ?_,
    by decide⟩
  obtain ⟨_, _, _, _, hd, hn, hp, h1, h2, _⟩ := reassessing_meets .live st shut .aligned
  have hp := hp h
  rcases h with rfl | rfl
  · exact ⟨rfl, rfl, by decide, rfl, by decide, h1, hd, hp, hn⟩
  · exact ⟨rfl, rfl, by decide, rfl, by decide, h2, hd, hp, hn⟩

/-! Fusion. -/

def stepFrom (node : BitVec 4) (payload : List Byte) : RxFrame := waiting .step node 41581400 payload

/-- Axle 1's entry as given beside axle 2's, for which the held group waits; stations 2 and 4 LIVE. -/
def stepping (e : Entry) (st : SessionState) : State :=
  let s := reassessing .live st [] .aligned
  { s with fus := { s.fus with table := [e, entry2] } }

/-- Entry 1 with its own row and station 4's, as it lacks station 2's. -/
def lacking2 : Entry := { bothRows .aligned with rows := (bothRows .aligned).rows.set 2 none }

/-- Station 2's row completes the entry that lacks it alone, and not one that lacks station 4's too. -/
theorem stepping_meets (st : SessionState) (r : PeerRow) :
    IsComplete (stepping lacking2 st) { lacking2 with rows := lacking2.rows.set 2 (some r) }
      ∧ ¬ IsComplete (stepping entry1 st) { entry1 with rows := entry1.rows.set 2 (some r) }
      ∧ ¬ IsComplete (stepping entry1 st) { entry1 with rows := entry1.rows.set 4 (some r) } := by
  have hl : livePeers (stepping lacking2 st) = [2, 4] := by cases st <;> decide
  refine ⟨⟨.inl ⟨rfl, fun _ h => nomatch h⟩, fun n hn => ?_⟩, fun h => ?_, fun h => ?_⟩
  · rw [hl] at hn
    rcases hn with _ | ⟨_, hn⟩
    · exact ⟨r, rfl, fun _ h => nomatch h⟩
    · rcases hn with _ | ⟨_, hn⟩
      · exact ⟨_, rfl, fun _ h => nomatch h⟩
      · cases hn
  · obtain ⟨_, hr, _⟩ := h.2 4 (by show 4 ∈ livePeers (stepping lacking2 st); rw [hl]; decide)
    cases hr
  · obtain ⟨_, hr, _⟩ := h.2 2 (by show 2 ∈ livePeers (stepping lacking2 st); rw [hl]; decide)
    cases hr

/-- Each clause in turn: no ordinal, no revision, no grade; not known; late in the last session; below the cursor; closed for
matching; FINAL; an older revision; in every open session, a row that completes its entry and one that does not, from the
furthest peer beyond this station and from another; the rows of 8.7, aligned and not; an entry to make in an empty table. -/
theorem witness_StepBecomesRow :
    (∀ n p s, s.stc.inReset = false → FrameWaits (with1 (stepFrom n p) s) (stepFrom n p) [] .step)
      ∧ fusing.stc.inReset = false
      ∧ (fusing.stc.station = .ready ∧ fusing.fus.current = some 213 ∧ fusing.ses.state ≠ .idle)
      ∧ (at2 (stepBytes.set 3 0) 2 = 0 ∧ at1 (stepBytes.set 4 0) 4 = 0 ∧ 3 < at1 (stepBytes.set 8 4) 8)
      ∧ (ready.ses.state = .idle ∧ ready.ses.last = none ∧ summary213.number = wordAt stepBytes 0)
      ∧ (at2 stepBytes 2 = 1 ∧ at1 stepBytes 4 = 1 ∧ [Grade.a, .b, .c, .n][at1 stepBytes 8]? = some .a)
      ∧ (1 < ({ Was.reset with cursor := 2 } : Was).cursor ∧ fusing.was.cursor ≤ 1)
      ∧ (running.fus.table.find? (fun e => e.ordinal == 1) = none
        ∧ { running with ses := { running.ses with closedForMatching := true } }.ses.closedForMatching = true)
      ∧ (fuse entry1).grade = .n
      ∧ (place ({ entry1 with rows := entry1.rows.set 2 (some { row 0 .a 0 0 .aligned with revision := 2 }) }).rows 2 none).isSome
          = true
      ∧ (∀ e st, e = lacking2 ∨ e = entry1 →
        let s := stepping e st
        findEntry s 1 = some e ∧ e.fused = none ∧ place e.rows 2 none = none ∧ s.was.cursor ≤ 1
          ∧ s.fus.current = some 213 ∧ GroupWaits s (·.ordinal = 1)
          ∧ s.fus.table.Pairwise (fun a b => a.ordinal < b.ordinal) ∧ furthestPeer s = some 4 ∧ entry1.own = none
          ∧ positionOf s 3 + lengthOf s 3 < positionOf s 4 + lengthOf s 4)
      ∧ (alignmentOf fusing entry1 2 { row 0 .a 0 0 .unchecked with peerTime := 38569300 } = .aligned
        ∧ alignmentOf fusing entry1 2 (row 0 .a 0 0 .unchecked) = .misaligned)
      ∧ (threeStations.ses.closedForMatching = false ∧ threeStations.ses.state = .running ∧ threeStations.fus.table = []
        ∧ 2 ∈ livePeers threeStations ∧ 4 ∈ livePeers threeStations) := by
  refine ⟨fun _ _ _ h => frameWaits _ _ _ _ _ h, rfl, by decide, by decide, by decide, by decide, by decide, by decide,
    by decide, by decide, fun e st h => ?_, by decide, by decide⟩
  rcases h with rfl | rfl
  · exact ⟨rfl, rfl, rfl, Nat.le_refl 1, rfl, waitsFor2 _ _ rfl rfl (by decide), by show [lacking2, entry2].Pairwise _; decide,
      by cases st <;> decide, rfl, by cases st <;> decide⟩
  · exact ⟨rfl, rfl, rfl, Nat.le_refl 1, rfl, waitsFor2 _ _ rfl rfl (by decide), by show [entry1, entry2].Pairwise _; decide,
      by cases st <;> decide, rfl, by cases st <;> decide⟩

theorem witness_RowIsCheckedAgainstTheLag :
    entry1.firstTime = some 41000000 ∧ entry1.firstSpeed = some 16666 ∧ 0 < 16666 ∧ 2 ≠ fusing.stc.number.toNat
      ∧ (place fusing.ptb.peers 2 Peer.reset).state = .live ∧ entry1.fused = none
      ∧ ({ entry1 with firstSpeed := some 0 } : Entry).firstSpeed = some 0
      ∧ (place fusing.ptb.peers 5 Peer.reset).state ≠ .live := by decide

def exit4 (p : List Byte) : RxFrame := waiting .cross 4 67900000 p

/-- Axle 1's entry under a deadline of station 4's. -/
def owed : Entry := { entry1 with deadline := some 73941008, deadlinePeer := some 4 }

/-- `halted` with these entries, the session in the given state. -/
def exiting (table : List Entry) (st : SessionState) : State :=
  { halted with ses := { halted.ses with state := st }, fus := { halted.fus with table := table } }

/-- Station 4's normal exit of axle 1, its deadline peer, in every session state, HALTED left after 2,499 ms; no entry held; the
held exit of equal and of higher revision. -/
theorem witness_HeardExitShortensTheDeadline :
    (∀ table st, let s := with1 (exit4 (crossBytes 1)) (exiting table st)
        FrameWaits s (exit4 (crossBytes 1)) [] .cross ∧ s.stc.station = .ready ∧ s.ses.state = st
          ∧ s.fus.current = some 213 ∧ (st = .halted → LeavesAt 67900000 s 2499))
      ∧ reached (67900000 + 5000001) 67900000 = false ∧ reached (67900000 + 10000001) 67900000 = false
      ∧ (crossBytes 1).getD 4 0 = 1 ∧ at2 (crossBytes 1) 2 ≠ 0
      ∧ (findEntry (exiting [owed] .idle) 1 = some owed ∧ owed.fused = none
        ∧ (∀ h, place owed.exits 4 none = some h → h.revision ≤ 1) ∧ 4 < owed.exits.length ∧ owed.deadlinePeer = some 4
        ∧ entry1.deadlinePeer ≠ some 4)
      ∧ (∀ st exits, ¬ IsComplete (exiting [owed] st) { owed with exits := exits })
      ∧ (findEntry (exiting [] .idle) 1 = none
        ∧ place (owed.exits.set 4 (some ⟨2, 67900000⟩)) 4 none = some ⟨2, 67900000⟩) := by
  refine ⟨fun _ _ => ⟨frameWaits _ _ _ _ _ rfl, rfl, rfl, rfl, fun h => .inr ⟨h, 65401001, rfl, by decide, by decide⟩⟩,
    by decide, by decide, by decide, by decide, ⟨rfl, rfl, (fun _ h => nomatch h), by decide, rfl, by decide⟩,
    fun st _ h => ?_, rfl, rfl⟩
  obtain ⟨_, hr, _⟩ := h.2 2 (by cases st <;> decide)
  cases hr

/-- Entry 1 at its deadline; a held group that waits for entry 2 too. -/
def overdue : State :=
  { fusing with
    fus := { fusing.fus with table := [{ twoRows .aligned with deadline := some 42381500, deadlinePeer := some 4 }, entry2] },
    was := { fusing.was with group := some { pattern := none, first := 1, count := 2 } } }

theorem witness_DeadlineForcesTheEntry :
    overdue.stc.inReset = false
      ∧ findEntry overdue 1 = some { twoRows .aligned with deadline := some 42381500, deadlinePeer := some 4 }
      ∧ (twoRows .aligned).fused = none ∧ reached 42381500 42381500 = true ∧ reached 42381500 42381499 = false
      ∧ overdue.fus.table.Pairwise (fun a b => a.ordinal < b.ordinal) ∧ overdue.ses.state ≠ .draining
      ∧ overdue.was.group = some { pattern := none, first := 1, count := 2 } ∧ 1 ≤ 2 ∧ 2 < 1 + 2 ∧ 2 ≠ 1
      ∧ findEntry overdue 2 = some entry2 ∧ entry2.fused = none ∧ findEntry overdue 3 = none := by decide

theorem witness_DrainLimitClosesTheSession :
    let h : HeldOpen := { number := 214, direction := .up, firstEdge := 130000000, sender := 2, received := 130000000 }
    (∀ held, (draining held).stc.inReset = false ∧ AsmInv (draining held) ∧ (draining held).ses.state = .draining
      ∧ (draining held).ses.drainLimit = some 135600002)
      ∧ reached 135600002 135600001 = false ∧ reached 135600002 135600002 = true
      ∧ (∃ e ∈ (draining none).fus.table, e.fused = none) ∧ (draining none).ses.held = none
      ∧ (draining (some h)).ses.held = some h :=
  ⟨fun held => ⟨rfl, draining_inv held, rfl, rfl⟩, by decide, by decide, by decide, rfl, rfl⟩

/-- No estimate, estimates without a share, no speed at all; each grade of the fused weight. -/
theorem witness_FusedWeightLiesWithin :
    (fuse entry1).grade = .n ∧ (fuse { entry1 with own := some { est1 with grade := .n } }).share = none
      ∧ (fuse (twoRows .aligned)).grade = .a ∧ (fuse (twoRows .misaligned)).grade = .b
      ∧ (fuse { entry1 with own := some { est1 with grade := .c } }).grade = .c := by decide

/-! Records and the recorder service. -/

/-- A Wagon Assembler under the patterns of 9.7, its items with these spacings from axle 1 on, H at `highest`. -/
def assembling (spacings : List (Option Int)) (highest : Nat) (closed : Bool) : State :=
  { running with
    settings := { Settings.reset with patterns := patterns97 },
    ses := { running.ses with closedForMatching := closed },
    was := { Was.reset with
      items := spacings.zipIdx.map fun x => item (x.2 + 1) 50000000 x.1, highest := highest } }

theorem chosen_first (s : State) (p : Pattern) (rest : List Pattern) (h : s.settings.patterns = p :: rest)
    (hit : testPattern s p = .hit) : GroupChosen s { pattern := some 1, first := s.was.cursor, count := p.axles } :=
  .inl ⟨0, p, by rw [h]; rfl, fun _ _ hi _ => absurd hi (Nat.not_lt_zero _), (testPattern_hits s p).mp hit, rfl⟩

theorem waits_first (s : State) (p : Pattern) (rest : List Pattern) (h : s.settings.patterns = p :: rest)
    (wait : testPattern s p = .wait) : TrialWaits s :=
  ⟨0, p, by rw [h]; rfl, fun _ _ hi _ => absurd hi (Nat.not_lt_zero _),
    fun f => (nomatch wait.symm.trans ((testPattern_fails s p).mpr f)),
    fun f => nomatch wait.symm.trans ((testPattern_hits s p).mpr f)⟩

theorem chosen_none (s : State) (h : ∀ q ∈ s.settings.patterns, testPattern s q = .fail) :
    GroupChosen s { pattern := none, first := s.was.cursor, count := 1 } :=
  .inr ⟨fun q hq => (testPattern_fails s q).mp (h q hq), rfl⟩

/-- Spacings: an ordinal with no neighbour, below the cursor, 127 and 128 past it, held, between two neighbours. Passes: nothing
at the cursor; a pattern that waits, one that matches with both ends of a range inside, one that matches at the train's end with
its gap waived, and none; a group that lacks an axle, one that is FINAL and one whose axle is missing. -/
theorem witness_RecordGathersItsAxles :
    (1 < ({ Was.reset with cursor := 2 } : Was).cursor ∧ 128 ≤ running.was.cursor + 127 ∧ running.was.cursor + 127 < 129
      ∧ running.was.items = []
      ∧ (let s := { running with was := { Was.reset with items := [item 1 50000000 none, item 3 50320000 none] } }
         (s.was.items.find? fun x => x.ordinal == 1) = some (item 1 50000000 none)
          ∧ (s.was.items.find? fun x => x.ordinal == 2) = none
          ∧ (s.was.items.find? fun x => x.ordinal == 2 + 1) = some (item 3 50320000 none)
          ∧ (s.was.items.find? fun x => x.ordinal == 2 - 1) = some (item 1 50000000 none)
          ∧ (item 1 50000000 (some 2000)).spacing = some 2000))
      ∧ (∀ x h c, (∀ p ∈ (assembling x h c).settings.patterns, 1 ≤ p.axles) ∧ (assembling x h c).was.group = none)
      ∧ ¬ TrialOpen (assembling [] 0 false)
      ∧ TrialOpen (assembling [some 1600, some 11000, some 2000] 4 false)
      ∧ TrialWaits (assembling [some 1600, some 11000, some 2000] 4 false)
      ∧ GroupChosen (assembling [some 1600, some 11000, some 2000, some 4500] 5 false)
          { pattern := some 1, first := 1, count := 4 }
      ∧ GroupChosen (assembling [some 1600, some 11000, some 2000] 4 true) { pattern := some 1, first := 1, count := 4 }
      ∧ GroupChosen (assembling [some 1599] 2 false) { pattern := none, first := 1, count := 1 }
      ∧ (let s := { fusing with fus := { fusing.fus with table := [finalEntry97 1 38900 .a 548] } }
         let g : Group := { pattern := none, first := 1, count := 1 }
         g.first = s.was.cursor ∧ 1 ≤ g.count ∧ GroupReady s g ∧ ¬ GroupReady fusing g
          ∧ GroupReady (assembling [] 1 true) g ∧ IsMissing (assembling [] 1 true) 1)
      ∧ (let s := { fusing with fus := { fusing.fus with table := [finalEntry97 11 38900 .a 548] } }
         ((List.range 1).map (11 + ·)).filterMap (fun j => (s.fus.table.find? fun e => e.ordinal == j).bind (·.fused)) ≠ []
          ∧ ((List.range 1).map (12 + ·)).filterMap (fun j => (s.fus.table.find? fun e => e.ordinal == j).bind (·.fused)) = []
          ∧ (some 1 : Option Nat).bind (fun k => s.settings.patterns[k - 1]?) = patterns97[0]?
          ∧ (some 3 : Option Nat).bind (fun k => s.settings.patterns[k - 1]?) = none) := by
  refine ⟨by decide, fun _ _ _ => ⟨(by decide : ∀ p ∈ patterns97, 1 ≤ p.axles), rfl⟩, ?_, ?_, ?_, ?_, ?_, ?_, ?_,
    by decide⟩
  · rw [← cursorReachable_iff]; decide
  · rw [← cursorReachable_iff]; decide
  · exact waits_first _ _ _ rfl (by decide)
  · have h := chosen_first (assembling [some 1600, some 11000, some 2000, some 4500] 5 false) _ _ rfl (by decide)
    exact h
  · have h := chosen_first (assembling [some 1600, some 11000, some 2000] 4 true) _ _ rfl (by decide)
    exact h
  · exact chosen_none _ (by decide)
  · simp only [← groupReady_iff, ← missing_iff]; decide

theorem witness_StoredRecordJoinsTheRing :
    station4.slc.line = .active ∧ station4.slc.bulk.length < 32 ∧ station4.slc.service.length < 4 := by decide

theorem askWaits (node : BitVec 4) (payload : List Byte) (s : State) (k : Byte) (h : s.stc.inReset = false)
    (hk : payload.getD 0 0 = k) (hl : s.slc.line = .active ∨ s.slc.line = .configFault) (hr : s.slc.service.length < 4) :
    AskWaits (with1 (waiting .ask node 0 payload) s) (waiting .ask node 0 payload) [] k :=
  ⟨h, rfl, rfl, hk, hl, hr⟩

theorem station4_inv (pointer : Word16) (h : (3019 - pointer).toNat ≤ 2) :
    RstInv { station4 with rst := { station4.rst with readPointer := pointer } } where
  size := (by decide : 2 ≤ 128)
  indices := by
    intro i hi
    have : i = 0 ∨ i = 1 := by
      have : i < 2 := hi
      omega
    rcases this with rfl | rfl
    · exact (by decide : (3017 : Word16) = 3019 - BitVec.ofNat 16 2)
    · exact (by decide : (3018 : Word16) = 3019 - BitVec.ofNat 16 1)
  pointer := h

/-- The pointer at the next index, and on the oldest held record; an index held, one not, and the next one. -/
theorem witness_FetchAndSeekReadTheRing :
    (∀ pointer k p, p.getD 0 0 = k → (3019 - pointer).toNat ≤ 2 →
        let s := with1 (waiting .ask 9 0 p) { station4 with rst := { station4.rst with readPointer := pointer } }
        AskWaits s (waiting .ask 9 0 p) [] k ∧ s.stc.station ≠ .configFault ∧ RstInv s)
      ∧ (3019 - 3019 : Word16).toNat ≤ 2 ∧ (3019 - 3017 : Word16).toNat ≤ 2 ∧ (3017 : Word16) ≠ station4.rst.nextIndex
      ∧ (∃ r ∈ station4.rst.ring, r.index = wordAt [2, 0x0B, 0xC9] 1)
      ∧ (¬ ∃ r ∈ station4.rst.ring, r.index = wordAt [2, 0x0B, 0xC8] 1)
      ∧ wordAt [4, 0x0B, 0xCB] 1 = station4.rst.nextIndex ∧ wordAt [4, 0x0B, 0xCC] 1 ≠ station4.rst.nextIndex :=
  ⟨fun pointer _ _ hp h => ⟨askWaits _ _ _ _ rfl hp (.inl rfl) (by decide : 0 < 4),
      (by decide : StationState.ready ≠ .configFault),
      ⟨(station4_inv pointer h).size, (station4_inv pointer h).indices, (station4_inv pointer h).pointer⟩⟩,
    by decide, by decide, by decide, by decide, by decide, by decide, by decide⟩

theorem witness_FetchWagonFindsOrWaits :
    (∀ p, p.getD 0 0 = 3 → AskWaits (with1 (waiting .ask 9 0 p) station4) (waiting .ask 9 0 p) [] 3)
      ∧ station4.stc.station ≠ .configFault ∧ station4.rst.deferred = none
      ∧ ({ station4.rst with deferred := some ⟨9, 214, 3⟩ } : Rst).deferred.isSome = true
      ∧ (station4.rst.ring = [record 3017 1] ++ record 3018 2 :: [] ∧ (record 3018 2).session = 214
        ∧ (record 3018 2).wagon = 2)
      ∧ ((∀ r ∈ station4.rst.ring, ¬ (r.session = 214 ∧ r.wagon = 3)) ∧ station4.ses.state ≠ .idle
        ∧ station4.ses.number = 214 ∧ station4.was.wagons < 3)
      ∧ (∀ r ∈ station4.rst.ring, ¬ (r.session = 213 ∧ r.wagon = 3)) ∧ station4.ses.number ≠ 213 :=
  ⟨fun _ h => askWaits _ _ _ _ rfl h (.inl rfl) (by decide), by decide, rfl, rfl, by decide, by decide, by decide,
    by decide⟩

theorem witness_SummaryAndConditionsAreReported :
    (∀ p k s, p.getD 0 0 = k → s.stc.inReset = false → s.slc.line = .active → s.slc.service = [] →
        AskWaits (with1 (waiting .ask 9 0 p) s) (waiting .ask 9 0 p) [] k)
      ∧ (at1 [5, 0] 1 = 0 ∧ running.ses.state ≠ .idle ∧ running.ses.state ≠ .halted ∧ running.ses.current = some summary213)
      ∧ (halted.ses.state = .halted ∧ halted.ses.nextHaltTick = some 65401001 ∧ reached (65401001 - 1000) 65400001 = true)
      ∧ ready.ses.state = .idle ∧ at1 [5, 1] 1 = 1 ∧ { Ses.reset with last := some summary213 }.last = some summary213
      ∧ ready.ses.last = none ∧ 1 < at1 [5, 2] 1 :=
  ⟨fun _ _ _ hk h hl hs => askWaits _ _ _ _ h hk (.inl hl) (by rw [hs]; decide), by decide, by decide, by decide, by decide,
    rfl, rfl, by decide⟩

theorem witness_ClearKeepsPresentCauses :
    AskWaits (with1 (waiting .ask 10 0 [7, 1, 0xFF]) station4) (waiting .ask 10 0 [7, 1, 0xFF]) [] 7 ∧ 8 < 9 :=
  ⟨askWaits _ _ _ _ rfl rfl (.inl rfl) (by decide), by decide⟩

/-- Asked kinds on both sides of 1 … 8; CONFIG FAULT; a full SERVICE queue; LISTEN and MUTED; a TALLY. -/
theorem witness_OtherAsksAreRefusedOrWait :
    let fault := { station4 with
      stc := { station4.stc with station := .configFault }, slc := { station4.slc with line := .configFault } }
    (AskWaits (with1 (waiting .ask 9 0 [0]) station4) (waiting .ask 9 0 [0]) [] 0 ∧ ¬ (1 ≤ (0 : Byte).toNat)
      ∧ ¬ (9 : Byte).toNat ≤ 8)
      ∧ (AskWaits (with1 (waiting .ask 9 0 [1]) fault) (waiting .ask 9 0 [1]) [] 1 ∧ fault.stc.station = .configFault
        ∧ askedKind (waiting .ask 9 0 [1]) = 1)
      ∧ (∀ s, s.stc.inReset = false →
          FrameWaits (with1 (waiting .ask 9 0 [1]) s) (waiting .ask 9 0 [1]) [] .ask
            ∧ FrameWaits (with1 (waiting .tally 9 0 [1]) s) (waiting .tally 9 0 [1]) [] .tally)
      ∧ (lined fun c => { c with service := List.replicate 4 (tx stepBody) }).slc.service.length = 4
      ∧ (lined fun c => { c with line := .listen }).slc.line = .listen
      ∧ (lined fun c => { c with line := .muted }).slc.line = .muted :=
  ⟨⟨askWaits _ _ _ _ rfl rfl (.inl rfl) (by decide), by decide, by decide⟩,
    ⟨askWaits _ _ _ _ rfl rfl (.inr rfl) (by decide), rfl, by decide⟩,
    fun _ h => ⟨frameWaits _ _ _ _ _ h, frameWaits _ _ _ _ _ h⟩, rfl, rfl, rfl⟩

/-! The step relation is met by any command; each invariant by the state held in reset. -/

theorem witness_EveryStepKeepsLineAndCauses : step State.reset = .next State.reset ∧ StcInv State.reset := ⟨rfl, ⟨rfl⟩⟩

theorem witness_EveryStepKeepsLoadAndAxles :
    step { ready with pending := [.hailTimer 5] } = .next { ready with now := 5 } := rfl

theorem witness_EveryStepKeepsTrainAndRing :
    (match step { draining none with pending := [.drainLimit 135600002] } with
      | .next t => some t.ses.state
      | .fault _ => none
      | .refused _ => none) = some .idle ∧ AsmInv (draining none) :=
  ⟨by decide, draining_inv none⟩

end Sys2Proof.Tests
end

section
/-! Channel loads (01, R2 to R4): what the clamp and the saturation mark do. -/

namespace Sys2Proof.Machine

open Sys2Proof

/-! ### The clamp -/

theorem clampInt_of_lt {least most x : Int} (h : x < least) : clampInt least most x = least := if_pos h

theorem clampInt_of_gt {least most x : Int} (hr : least ≤ most) (h : most < x) : clampInt least most x = most := by
  rw [clampInt, if_neg (by omega), if_pos h]

theorem clampInt_of_mem {least most x : Int} (hl : least ≤ x) (hm : x ≤ most) : clampInt least most x = x := by
  rw [clampInt, if_neg (by omega), if_neg (by omega)]

/-- The clamp changes a value exactly when it lies outside the range; the two ends are inside. -/
theorem clampInt_ne_iff {least most x : Int} (hr : least ≤ most) :
    clampInt least most x ≠ x ↔ x < least ∨ most < x := by
  constructor
  · intro hne
    by_contra hin
    exact hne (clampInt_of_mem (by omega) (by omega))
  · rintro (hlow | hhigh)
    · rw [clampInt_of_lt hlow]; omega
    · rw [clampInt_of_gt hr hhigh]; omega

/-! ### The load of a channel -/

theorem rawExtreme_iff (r : BitVec 24) : rawExtreme r = true ↔ r.toInt = -8388608 ∨ r.toInt = 8388607 := by
  simp [rawExtreme]

/-- R4: the load is the rounded quotient of R3 after the clamp. -/
theorem channelLoad_kg (zc : Int) (sc : Nat) (r : BitVec 24) :
    (channelLoad zc sc r).kg = clampInt (-50000) 200000 (roundDiv ((r.toInt - zc) * sc) 1048576) := rfl

/-- R2, R4: the two causes of the saturation mark. -/
theorem channelLoad_saturated_iff (zc : Int) (sc : Nat) (r : BitVec 24) :
    (channelLoad zc sc r).saturated = true ↔
      rawExtreme r = true ∨ (channelLoad zc sc r).kg ≠ roundDiv ((r.toInt - zc) * sc) 1048576 := by
  simp [channelLoad]

end Sys2Proof.Machine

open Sys2Proof Sys2Proof.Machine

/-- Settles O9: the rounded quotient is the witness; below, above and inside the range the clamp gives the load, and it
changes the quotient exactly outside the range. -/
theorem channelLoadIsRoundedAndClamped : Obligations.ChannelLoadIsRoundedAndClamped := by
  intro zc sc r
  refine ⟨roundDiv ((r.toInt - zc) * sc) 1048576, roundDiv_isRounded _ _ (by decide), ?low, ?high, ?inside, ?mark⟩
  case low => exact clampInt_of_lt
  case high => exact clampInt_of_gt (by decide)
  case inside => exact clampInt_of_mem
  case mark =>
    rw [channelLoad_saturated_iff, channelLoad_kg, rawExtreme_iff, clampInt_ne_iff (by decide), or_assoc]

end

section
/-! Window bounds (04, R60 to R63): where the two windows of a plateau of `i` µs begin and end. -/

namespace Sys2Proof.Machine

open Sys2Proof

/-! ### Times on the clock of 2^32 µs -/

theorem elapsed_addUs (a : Time) {us : Nat} (h : us < 4294967296) : elapsed a (addUs a us) = us := by
  rw [elapsed, addUs, add_sub_cancel_left, BitVec.toNat_ofNat, Nat.mod_eq_of_lt h]

theorem addUs_sub (a : Time) {i us : Nat} (hus : us < 4294967296) (h : us ≤ i) :
    addUs a (i - us) = addUs a i - BitVec.ofNat 32 us := by
  rw [addUs, addUs, ← BitVec.ofNat_sub_ofNat_of_le i us hus h, add_sub_assoc]

/-! ### The guard -/

theorem guardOf_of_ge {i : Nat} (h : 200000 ≤ i) : guardOf i = 50000 := by
  rw [guardOf]; omega

theorem guardOf_le (i : Nat) : guardOf i ≤ 50000 := Nat.min_le_right _ _

theorem guardOf_le_interval (i : Nat) : guardOf i ≤ i := by
  rw [guardOf]; omega

/-- Up to 500 ms the cap of 400 ms does not bind: what the two guards leave is no longer. -/
theorem sub_guardOf_le {i : Nat} (h : i ≤ 500000) : i - guardOf i ≤ guardOf i + 400000 := by
  rw [guardOf]; omega

/-! ### The windows of a plateau -/

section
variable (ta : Time) {i : Nat} (hi : i < 4294967296)
include hi

/-- R60: the bounds of the after-window, from the interval. -/
theorem afterWindow_addUs : afterWindow ta (some (addUs ta i)) =
    (addUs ta (guardOf i), addUs ta (min (i - guardOf i) (guardOf i + 400000))) := by
  rw [afterWindow, elapsed_addUs ta hi]

/-- R61: the bounds of the before-window, from the interval. -/
theorem beforeWindow_addUs : beforeWindow (some ta) (addUs ta i) =
    (addUs ta (max (guardOf i) (i - guardOf i - 400000)), addUs ta (i - guardOf i)) := by
  rw [beforeWindow, elapsed_addUs ta hi]

theorem afterWindow_of_short (h : i ≤ 500000) : afterWindow ta (some (addUs ta i)) =
    (addUs ta (guardOf i), addUs ta i - BitVec.ofNat 32 (guardOf i)) := by
  have hguard : guardOf i < 4294967296 := (guardOf_le i).trans_lt (by decide)
  rw [afterWindow_addUs ta hi, min_eq_left (sub_guardOf_le h), addUs_sub ta hguard (guardOf_le_interval i)]

/-- R61: both windows lie between the two guards when neither is capped. -/
theorem beforeWindow_eq_afterWindow_of_short (h : i ≤ 500000) :
    beforeWindow (some ta) (addUs ta i) = afterWindow ta (some (addUs ta i)) := by
  have hcap := sub_guardOf_le h
  rw [beforeWindow_addUs ta hi, afterWindow_addUs ta hi, min_eq_left hcap, max_eq_left (by omega)]

/-- R60, R63: with a successor 500 ms away or further the window is that of an event without one. -/
theorem afterWindow_of_long (h : 500000 ≤ i) : afterWindow ta (some (addUs ta i)) = afterWindow ta none := by
  rw [afterWindow_addUs ta hi, guardOf_of_ge (by omega), min_eq_right (by omega), afterWindow]

/-- R61, R62: with a predecessor 500 ms away or further the window is that of an event without one. -/
theorem beforeWindow_of_long (h : 500000 ≤ i) :
    beforeWindow (some ta) (addUs ta i) = beforeWindow none (addUs ta i) := by
  rw [beforeWindow_addUs ta hi, guardOf_of_ge (by omega), max_eq_right (by omega), Nat.sub_sub,
    addUs_sub ta (by decide) (by omega), addUs_sub ta (by decide) (by omega), beforeWindow]

end

end Sys2Proof.Machine

open Sys2Proof Sys2Proof.Machine

/-- Settles O19: up to 500 ms neither window is capped at 400 ms; from there on each is its window without a neighbour. -/
theorem plateauWindowsAgree : Obligations.PlateauWindowsAgree := by
  intro ta i hi
  constructor
  case left =>
    intro hshort
    exact ⟨afterWindow_of_short ta hi hshort, beforeWindow_eq_afterWindow_of_short ta hi hshort⟩
  case right =>
    intro hlong
    have hafter := afterWindow_of_long ta hi hlong
    have hbefore := beforeWindow_of_long ta hi hlong
    exact ⟨hafter, hbefore, hafter.symm, hbefore.symm⟩

end

section
/-! Axles become records (09, R157 to R167): the spacing list after an ordinal is handed over, the ends of a pass and the two
ways it goes on, and the checks of a record. -/

namespace Sys2Proof.Machine

open Sys2Proof

/-! ### The spacing list -/

theorem findItem_ordinal {s : State} {i : Nat} {x : SpacingItem} (h : findItem s i = some x) : x.ordinal = i := by
  simpa using List.find?_some h

/-- The spacing list with an item added at its end. -/
def addItem (x : SpacingItem) (s : State) : State := { s with was := { s.was with items := s.was.items ++ [x] } }

theorem findItem_addItem_other {x : SpacingItem} {i : Nat} (h : i ≠ x.ordinal) (s : State) :
    findItem (addItem x s) i = findItem s i := by
  have hx : (x.ordinal == i) = false := by simpa using h.symm
  simp [findItem, addItem, List.find?_append, hx]

theorem findItem_addItem_self {x : SpacingItem} {s : State} (h : findItem s x.ordinal = none) :
    findItem (addItem x s) x.ordinal = some x := by
  have hs : s.was.items.find? (fun z => z.ordinal == x.ordinal) = none := h
  simp [findItem, addItem, List.find?_append, hs]

theorem formSpacing_frame (j : Nat) (s : State) :
    formSpacing j s = { s with was := { s.was with items := (formSpacing j s).was.items } } := by
  unfold formSpacing
  split
  · split <;> rfl
  · rfl

theorem formSpacing_of_no_successor {j : Nat} {s : State} (h : findItem s (j + 1) = none) : formSpacing j s = s := by
  unfold formSpacing
  rw [h]
  cases findItem s j <;> rfl

theorem formSpacing_of_formed {j : Nat} {s : State} {x : SpacingItem} {d : Int} (hx : findItem s j = some x)
    (hd : x.spacing = some d) : formSpacing j s = s := by
  unfold formSpacing
  rw [hx]
  cases findItem s (j + 1) with
  | none => rfl
  | some y => exact if_pos (by rw [hd]; rfl)

theorem formSpacing_of_absent {j : Nat} {s : State} (h : findItem s j = none) : formSpacing j s = s := by
  unfold formSpacing
  rw [h]

/-- An item with the spacing of ordinal `j` written into it when it is that ordinal's. -/
def withSpacing (j : Nat) (d : Int) (z : SpacingItem) : SpacingItem :=
  if z.ordinal == j then { z with spacing := some d } else z

theorem withSpacing_ordinal (j : Nat) (d : Int) (z : SpacingItem) : (withSpacing j d z).ordinal = z.ordinal := by
  unfold withSpacing
  split <;> rfl

/-- R158: a spacing not yet formed is written into the items of its ordinal. -/
theorem formSpacing_of_unformed {j : Nat} {s : State} {x y : SpacingItem} (hx : findItem s j = some x)
    (hy : findItem s (j + 1) = some y) (hn : x.spacing = none) :
    formSpacing j s =
      { s with was := { s.was with items := s.was.items.map (withSpacing j (spacingBetween x y)) } } := by
  unfold formSpacing
  rw [hx, hy]
  exact if_neg (by rw [hn]; decide)

theorem findItem_map_withSpacing (s : State) (j i : Nat) (d : Int) :
    findItem { s with was := { s.was with items := s.was.items.map (withSpacing j d) } } i
      = (findItem s i).map (withSpacing j d) := by
  have hp : (fun z : SpacingItem => z.ordinal == i) ∘ withSpacing j d = fun z => z.ordinal == i := by
    funext z
    rw [Function.comp, withSpacing_ordinal]
  rw [findItem, List.find?_map, hp, findItem]

theorem findItem_formSpacing_self {j : Nat} {s : State} {x y : SpacingItem} (hx : findItem s j = some x)
    (hy : findItem s (j + 1) = some y) (hn : x.spacing = none) :
    findItem (formSpacing j s) j = some { x with spacing := some (spacingBetween x y) } := by
  rw [formSpacing_of_unformed hx hy hn, findItem_map_withSpacing, hx, Option.map_some, withSpacing,
    if_pos (by simpa using findItem_ordinal hx)]

theorem findItem_formSpacing_other {j i : Nat} (h : i ≠ j) (s : State) :
    findItem (formSpacing j s) i = findItem s i := by
  cases hx : findItem s j with
  | none => rw [formSpacing_of_absent hx]
  | some x =>
    cases hy : findItem s (j + 1) with
    | none => rw [formSpacing_of_no_successor hy]
    | some y =>
      cases hn : x.spacing with
      | some d => rw [formSpacing_of_formed hx hn]
      | none =>
        rw [formSpacing_of_unformed hx hy hn, findItem_map_withSpacing]
        cases hz : findItem s i with
        | none => rfl
        | some z =>
          have hzj : z.ordinal ≠ j := findItem_ordinal hz ▸ h
          rw [Option.map_some, withSpacing, if_neg (by simpa using hzj)]

theorem spacingBetween_isRounded (x y : SpacingItem) :
    IsRounded ((y.time - x.time).toInt * (x.speed + y.speed : Nat)) 2000000 (spacingBetween x y) :=
  roundDiv_isRounded _ _ (by decide)

/-! ### An ordinal handed over (R157, R158) -/

theorem itemAllowed_iff (s : State) (j : Nat) :
    itemAllowed s j = true ↔ s.was.cursor ≤ j ∧ j ≤ s.was.cursor + 127 ∧ findItem s j = none := by
  simp [itemAllowed, and_assoc]

/-- R157: an ordinal's item as it joins the list, its spacing not yet formed. -/
def newItem (j : Nat) (time : Time) (v : Nat) : SpacingItem := { ordinal := j, time := time, speed := v, spacing := none }

/-- R157: H and the list after a hand-over, before any spacing is formed. -/
def itemJoined (j : Nat) (time : Time) (v : Nat) (s : State) : State := addItem (newItem j time v) (raiseHighest j s)

theorem findItem_itemJoined_self {j : Nat} {s : State} (h : itemAllowed s j = true) (time : Time) (v : Nat) :
    findItem (itemJoined j time v s) j = some (newItem j time v) := by
  obtain ⟨_, _, hnew⟩ := (itemAllowed_iff s j).mp h
  exact findItem_addItem_self (x := newItem j time v) hnew

theorem findItem_itemJoined_other {i j : Nat} (h : i ≠ j) (time : Time) (v : Nat) (s : State) :
    findItem (itemJoined j time v s) i = findItem s i :=
  findItem_addItem_other (x := newItem j time v) h (raiseHighest j s)

theorem takeFirstEntry_of_refused {j : Nat} {s : State} (h : ¬ itemAllowed s j = true) (time : Time) (v : Nat) :
    takeFirstEntry j time v s = raiseHighest j s := if_neg h

theorem takeFirstEntry_of_allowed {j : Nat} {s : State} (h : itemAllowed s j = true) (time : Time) (v : Nat) :
    takeFirstEntry j time v s = formSpacing j (formSpacing (j - 1) (itemJoined j time v s)) := if_pos h

theorem takeFirstEntry_frame (j : Nat) (time : Time) (v : Nat) (s : State) :
    takeFirstEntry j time v s = { s with
      was := { s.was with highest := max s.was.highest j, items := (takeFirstEntry j time v s).was.items } } := by
  by_cases h : itemAllowed s j = true
  · rw [takeFirstEntry_of_allowed h, formSpacing_frame j, formSpacing_frame (j - 1)]
    rfl
  · rw [takeFirstEntry_of_refused h]
    rfl

section
variable {j : Nat} {s : State} (hj : 1 ≤ j) (h : itemAllowed s j = true) (time : Time) (v : Nat)
include hj h

theorem findItem_takeFirstEntry_elsewhere {i : Nat} (hi : i ≠ j) (hi' : i + 1 ≠ j) :
    findItem (takeFirstEntry j time v s) i = findItem s i := by
  rw [takeFirstEntry_of_allowed h, findItem_formSpacing_other hi, findItem_formSpacing_other (by omega),
    findItem_itemJoined_other hi]

/-- Forming the predecessor's spacing leaves the new item and its successor. -/
theorem findItem_pred_formed :
    findItem (formSpacing (j - 1) (itemJoined j time v s)) j = some (newItem j time v)
      ∧ findItem (formSpacing (j - 1) (itemJoined j time v s)) (j + 1) = findItem s (j + 1) := by
  rw [findItem_formSpacing_other (by omega), findItem_formSpacing_other (by omega)]
  exact ⟨findItem_itemJoined_self h time v, findItem_itemJoined_other (Nat.succ_ne_self j) time v s⟩

theorem findItem_takeFirstEntry_last (hy : findItem s (j + 1) = none) :
    findItem (takeFirstEntry j time v s) j = some (newItem j time v) := by
  obtain ⟨hself, hnext⟩ := findItem_pred_formed hj h time v
  rw [takeFirstEntry_of_allowed h, formSpacing_of_no_successor (hnext.trans hy), hself]

theorem findItem_takeFirstEntry_followed {y : SpacingItem} (hy : findItem s (j + 1) = some y) :
    findItem (takeFirstEntry j time v s) j
      = some { newItem j time v with spacing := some (spacingBetween (newItem j time v) y) } := by
  obtain ⟨hself, hnext⟩ := findItem_pred_formed hj h time v
  rw [takeFirstEntry_of_allowed h, findItem_formSpacing_self hself (hnext.trans hy) rfl]

/-- Forming the new item's spacing leaves the predecessor, which has come through the joining unchanged. -/
theorem findItem_takeFirstEntry_pred :
    findItem (itemJoined j time v s) (j - 1) = findItem s (j - 1)
      ∧ findItem (takeFirstEntry j time v s) (j - 1)
        = findItem (formSpacing (j - 1) (itemJoined j time v s)) (j - 1) := by
  rw [takeFirstEntry_of_allowed h, findItem_formSpacing_other (j := j) (by omega)]
  exact ⟨findItem_itemJoined_other (by omega) time v s, rfl⟩

theorem findItem_takeFirstEntry_no_pred (hx : findItem s (j - 1) = none) :
    findItem (takeFirstEntry j time v s) (j - 1) = none := by
  obtain ⟨hjoined, hpred⟩ := findItem_takeFirstEntry_pred hj h time v
  rw [hpred, formSpacing_of_absent (hjoined.trans hx), hjoined, hx]

theorem findItem_takeFirstEntry_formed_pred {x : SpacingItem} {d : Int} (hx : findItem s (j - 1) = some x)
    (hd : x.spacing = some d) : findItem (takeFirstEntry j time v s) (j - 1) = some x := by
  obtain ⟨hjoined, hpred⟩ := findItem_takeFirstEntry_pred hj h time v
  rw [hpred, formSpacing_of_formed (hjoined.trans hx) hd, hjoined, hx]

theorem findItem_takeFirstEntry_unformed_pred {x : SpacingItem} (hx : findItem s (j - 1) = some x)
    (hn : x.spacing = none) : findItem (takeFirstEntry j time v s) (j - 1)
      = some { x with spacing := some (spacingBetween x (newItem j time v)) } := by
  obtain ⟨hjoined, hpred⟩ := findItem_takeFirstEntry_pred hj h time v
  have hself : findItem (itemJoined j time v s) (j - 1 + 1) = some (newItem j time v) := by
    rw [Nat.sub_add_cancel hj, findItem_itemJoined_self h]
  rw [hpred, findItem_formSpacing_self (hjoined.trans hx) hself hn]

end

/-! ### How a pass ends and goes on (R160, R161, R164) -/

theorem pass_of_not_open {s : State} (hg : s.was.group = none) (h : ¬ TrialOpen s) : pass s = endPass false s := by
  unfold pass passLimit passLoop
  rw [hg]
  exact if_neg fun hr => h ((cursorReachable_iff s).mp hr)

theorem pass_of_open {s : State} (hg : s.was.group = none) (h : TrialOpen s) :
    (trial s 1 s.settings.patterns = none → pass s = endPass false s)
    ∧ ∀ g, trial s 1 s.settings.patterns = some g →
        pass s = passLoop (passLimit s - 1) false { s with was := { s.was with group := some g } } := by
  have hr := (cursorReachable_iff s).mpr h
  constructor
  · intro ht
    unfold pass passLimit passLoop
    simp only [hg, hr, ht, if_true]
  · intro g ht
    unfold pass passLimit
    rw [passLoop]
    simp only [hg, hr, ht, if_true]
    rfl

theorem pass_of_waiting {s : State} (hg : s.was.group = none) (h : TrialWaits s) : pass s = endPass false s := by
  by_cases ho : TrialOpen s
  · exact (pass_of_open hg ho).1 (trial_waits s _ 1 h)
  · exact pass_of_not_open hg ho

theorem trial_of_chosen {s : State} {g : Group} (h : GroupChosen s g) : trial s 1 s.settings.patterns = some g := by
  refine trial_chosen s g _ 1 ?_
  simpa only [GroupChosen, Nat.add_comm 1] using h

/-- R160: with a group chosen the pass goes on as one that starts with that group held. -/
theorem pass_of_chosen {s : State} {g : Group} (hp : ∀ p ∈ s.settings.patterns, 1 ≤ p.axles)
    (hg : s.was.group = none) (ho : TrialOpen s) (hc : GroupChosen s g) :
    pass s = pass { s with was := { s.was with group := some g } } := by
  have ht := trial_of_chosen hc
  rw [(pass_of_open hg ho).2 g ht]
  refine passLoop_pass _ ?grouped _ ?enough
  case grouped =>
    refine ⟨hp, ?_⟩
    rintro _ ⟨⟩
    exact trial_group s _ 1 g hp ht
  case enough =>
    have hle := ho.1
    simp only [repetitions, passLimit, Option.isSome_some, if_true]
    omega

theorem pass_of_unready {s : State} {g : Group} (hg : s.was.group = some g) (h : ¬ GroupReady s g) :
    pass s = endPass false s := by
  unfold pass passLimit passLoop
  rw [hg]
  exact if_neg fun hr => h ((groupReady_iff s g).mp hr)

/-- R161, R164: a ready group is stored and the pass goes on from there; that it has stored shows in room force alone. -/
theorem pass_of_ready {s : State} {g : Group} (hp : ∀ p ∈ s.settings.patterns, 1 ≤ p.axles)
    (hg : s.was.group = some g) (hf : g.first = s.was.cursor) (hr : GroupReady s g) :
    ∃ b, pass s = { pass (storeGroup g s) with was := { (pass (storeGroup g s)).was with roomForce := b } }
      ∧ ((storeGroup g s).was.roomForce = false → b = false) := by
  have hstep : pass s = passLoop (passLimit s - 1) true (storeGroup g s) := by
    unfold pass passLimit
    rw [passLoop]
    simp only [hg, (groupReady_iff s g).mpr hr, if_true]
    rfl
  have hrest : passLoop (passLimit s - 1) false (storeGroup g s) = pass (storeGroup g s) := by
    obtain ⟨a, b, d, w, rf, f, e⟩ := storeGroup_eq g s
    rw [e]
    refine passLoop_pass _ ?grouped _ ?enough
    case grouped => exact ⟨hp, fun _ hn => by cases hn⟩
    case enough =>
      simp only [repetitions, passLimit, Option.isSome_none, Bool.false_eq_true, if_false]
      omega
  rw [hstep, ← hrest]
  exact passLoop_stored _ _

theorem inGroup_eq (g : Group) (j : Nat) : inGroup g j = decide (g.first ≤ j ∧ j < g.first + g.count) :=
  (Bool.decide_and _ _).symm

/-- R150, R163, R164: the whole state after a group is left. -/
theorem leaveGroup_is (g : Group) (s : State) : leaveGroup g s =
    let gone := s.fus.table.filter fun e => inGroup g e.ordinal
    { s with
      was := { s.was with
        cursor := g.first + g.count, group := none, roomForce := s.was.roomForce && gone.isEmpty,
        items := s.was.items.filter fun x => !inGroup g x.ordinal },
      fus := { s.fus with table := s.fus.table.filter fun e => !inGroup g e.ordinal },
      ses := { s.ses with
        current := s.ses.current.map fun m => { m with late := min 65535 (m.late + (gone.map (·.late)).sum) } } } := by
  unfold leaveGroup releaseEntries
  simp only
  split
  · rename_i hgone
    simp only [hgone, Bool.and_true]
    rfl
  · rename_i hgone
    simp only [Bool.not_eq_true] at hgone
    simp only [hgone, Bool.and_false]
    rfl

theorem storeRecord_fus (r : WagonRecord) (s : State) : (storeRecord r s).fus = s.fus := by
  obtain ⟨_, _, _, e⟩ := storeRecord_eq r s
  rw [e]

theorem storeRecord_items (r : WagonRecord) (s : State) : (storeRecord r s).was.items = s.was.items := by
  obtain ⟨_, _, _, e⟩ := storeRecord_eq r s
  rw [e]

/-! ### The worst grade and the mean speed (R165) -/

theorem gradeRank_worse (g h : Grade) : gradeRank (worse g h) = max (gradeRank g) (gradeRank h) := by
  cases g <;> cases h <;> rfl

theorem worse_eq (g h : Grade) : worse g h = g ∨ worse g h = h := by
  unfold worse
  split
  · exact .inr rfl
  · exact .inl rfl

theorem gradeRank_le_worst : ∀ (axles : List AxleWeight) (g : Grade),
    gradeRank g ≤ gradeRank (axles.foldl (fun x a => worse x a.grade) g)
      ∧ ∀ a ∈ axles, gradeRank a.grade ≤ gradeRank (axles.foldl (fun x a => worse x a.grade) g) := by
  intro axles
  induction axles with
  | nil => exact fun g => ⟨le_rfl, fun a ha => nomatch ha⟩
  | cons a axles ih =>
    intro g
    obtain ⟨hstart, hrest⟩ := ih (worse g a.grade)
    rw [gradeRank_worse, max_le_iff] at hstart
    obtain ⟨hg, ha⟩ := hstart
    exact ⟨hg, List.forall_mem_cons.mpr ⟨ha, hrest⟩⟩

theorem worst_mem : ∀ (axles : List AxleWeight) (g : Grade),
    axles.foldl (fun x a => worse x a.grade) g = g
      ∨ ∃ a ∈ axles, a.grade = axles.foldl (fun x a => worse x a.grade) g := by
  intro axles
  induction axles with
  | nil => exact fun g => .inl rfl
  | cons a axles ih =>
    intro g
    rw [List.foldl_cons]
    rcases ih (worse g a.grade) with hsame | ⟨b, hb, hworst⟩
    · rw [hsame]
      exact (worse_eq g a.grade).imp id fun hw => ⟨a, List.mem_cons_self, hw.symm⟩
    · exact .inr ⟨b, List.mem_cons_of_mem a hb, hworst⟩

/-- R165: the mean speed in mm/s is rounded before it is put in 0.1 km/h. -/
theorem meanSpeedOf_isRounded {speeds : List Nat} (h : speeds ≠ []) :
    ∃ v : Nat, IsRounded (speeds.sum : Nat) speeds.length v ∧ IsRounded (v * 36) 1000 (meanSpeedOf speeds) := by
  refine ⟨roundNat speeds.sum speeds.length, roundNat_isRounded _ _ (List.length_pos_iff.mpr h), ?_⟩
  rw [meanSpeedOf, if_neg (by simpa using h)]
  exact roundNat_isRounded _ 1000 (by decide)

/-! ### The checks (R166, R167) -/

theorem overloadFault_iff (p : Option Pattern) (gross : Int) :
    overloadFault p gross = true ↔ ∃ q, p = some q ∧ q.loco = false ∧ q.maxGross < gross := by
  cases p with
  | none => simp [overloadFault]
  | some q => simp [overloadFault]

theorem lateralFault_iff (lo hi : Nat) (axles : List AxleWeight) : lateralFault lo hi axles = true ↔
    ∃ a ∈ axles, ∃ share, a.share = some share ∧ (share < lo ∨ hi < share) := by
  rw [lateralFault, List.any_eq_true]
  refine exists_congr fun a => and_congr_right fun _ => ?_
  cases a.share with
  | none => simp
  | some x => simp

theorem longitudinalFault_iff (limit split : Nat) (axles : List AxleWeight) (gross : Int) :
    longitudinalFault limit split axles gross = true ↔
      (∀ a ∈ axles, a.grade ≠ .n) ∧ 0 < gross ∧ ∃ front rear : Int,
        IsRounded (((axles.take split).map (·.w)).sum * 1000) gross.toNat front
        ∧ IsRounded (((axles.drop split).map (·.w)).sum * 1000) gross.toNat rear
        ∧ (limit : Int) < max front rear := by
  simp only [longitudinalFault, bogieShare, total_eq, Bool.and_eq_true, List.all_eq_true, bne_iff_ne, decide_eq_true_eq,
    and_assoc]
  refine and_congr_right fun _ => and_congr_right fun hpos => ?_
  have hd : 0 < gross.toNat := by omega
  constructor
  · exact fun hlimit => ⟨_, _, roundDiv_isRounded _ _ hd, roundDiv_isRounded _ _ hd, hlimit⟩
  · rintro ⟨front, rear, hfront, hrear, hlimit⟩
    rwa [rounded_unique hd (roundDiv_isRounded _ _ hd) hfront, rounded_unique hd (roundDiv_isRounded _ _ hd) hrear]

theorem wagonLongitudinal_iff (limit : Nat) (p : Option Pattern) (axles : List AxleWeight) (gross : Int) :
    wagonLongitudinal limit p axles gross = true ↔
      ∃ q, p = some q ∧ q.loco = false ∧ longitudinalFault limit (q.split.getD 0) axles gross = true := by
  cases p with
  | none => simp [wagonLongitudinal]
  | some q => simp [wagonLongitudinal]

/-! ### The fields of a record (R165) -/

theorem buildRecord_axles (s : State) (g : Group) :
    (buildRecord s g).axles = (groupOrdinals g).map fun j => axleOf (fusedOf s j) := List.map_map

theorem fusedOf_there (s : State) (g : Group) :
    ((groupOrdinals g).map (fusedOf s)).filterMap id = (groupOrdinals g).filterMap (fusedOf s) := List.filterMap_map

theorem buildRecord_forced_iff (s : State) (g : Group) : (buildRecord s g).forced = true ↔
    ∃ j ∈ groupOrdinals g, ∀ e, findEntry s j = some e → e.forced = true := by
  rw [buildRecord, List.any_eq_true]
  refine exists_congr fun j => and_congr_right fun _ => ?_
  cases findEntry s j with
  | none => simp
  | some e => simp

end Sys2Proof.Machine

open Sys2Proof Sys2Proof.Machine

/-- Settles O50. The spacing list is read item by item after the hand-over; a pass is unfolded once, and what is left of its
repetitions is a pass again; each field of the record is the list it is formed from. -/
theorem recordGathersItsAxles : Obligations.RecordGathersItsAxles := by
  refine ⟨?spacings, ?passes, ?record⟩
  case spacings =>
    intro s j time v hj item s'
    refine ⟨takeFirstEntry_frame j time v s, ?refused, ?allowed⟩
    case refused =>
      intro hout
      have hno : ¬ itemAllowed s j = true := by
        rw [itemAllowed_iff]
        rintro ⟨hlow, hhigh, hnone⟩
        have hheld : ¬ (item s j).isSome = true := by simp [show item s j = none from hnone]
        rcases hout with h | h | h
        · omega
        · omega
        · exact hheld h
      exact congrArg (·.was.items) (takeFirstEntry_of_refused hno time v)
    case allowed =>
      intro hlow hhigh hnone
      have h := (itemAllowed_iff s j).mpr ⟨hlow, hhigh, hnone⟩
      exact ⟨fun i hi hi' => findItem_takeFirstEntry_elsewhere hj h time v hi hi',
        findItem_takeFirstEntry_last hj h time v,
        fun y hy => ⟨_, findItem_takeFirstEntry_followed hj h time v hy, spacingBetween_isRounded (newItem j time v) y⟩,
        findItem_takeFirstEntry_no_pred hj h time v,
        fun x d hx hd => findItem_takeFirstEntry_formed_pred hj h time v hx hd,
        fun x hx hn => ⟨_, findItem_takeFirstEntry_unformed_pred hj h time v hx hn,
          spacingBetween_isRounded x (newItem j time v)⟩⟩
  case passes =>
    intro s hp stopped
    constructor
    · intro hg
      exact ⟨fun h => h.elim (pass_of_not_open hg) (pass_of_waiting hg), fun g ho hc => pass_of_chosen hp hg ho hc⟩
    · intro g hg hf _
      refine ⟨pass_of_unready hg, fun hr => ?_⟩
      intro stored gone next
      have hnext : storeGroup g s = next := by
        rw [storeGroup, leaveGroup_is]
        simp only [inGroup_eq, storeRecord_fus, storeRecord_items]
        rfl
      rw [← hnext]
      exact pass_of_ready hp hg hf hr
  case record =>
    intro s g ords entry fused there pattern rank r
    have hthere : ((groupOrdinals g).map (fusedOf s)).filterMap id = there := fusedOf_there s g
    have hrank : rank = gradeRank := by
      funext grade
      cases grade <;> rfl
    have hspeed : r.meanSpeed = meanSpeedOf (there.map (·.speed)) := by rw [← hthere]; rfl
    have hgross : r.gross = (r.axles.map (·.w)).sum := total_eq _
    refine ⟨⟨rfl, rfl, rfl, rfl, rfl⟩, ?axles, hgross, ?unmatched, ?kind, ?worst, ?attained, ?still, ?mean, ?overload,
      ?lateral, ?longitudinal, ?overspeed, ?creep, ?reversal, buildRecord_forced_iff s g, ?misaligned, ?unchecked⟩
    case axles => exact buildRecord_axles s g
    case unmatched => exact fun h => congrArg recordKindOf h
    case kind => exact fun p h => congrArg recordKindOf h
    case worst => rw [hrank]; exact (gradeRank_le_worst r.axles .a).2
    case attained => exact worst_mem r.axles .a
    case still =>
      intro hnone
      rw [hspeed, hnone]
      rfl
    case mean =>
      intro hsome
      obtain ⟨v, hmean, hfield⟩ := meanSpeedOf_isRounded (speeds := there.map (·.speed)) (by simpa using hsome)
      refine ⟨v, ?_, hspeed ▸ hfield⟩
      simpa [Function.comp_def] using hmean
    case overload => exact overloadFault_iff pattern r.gross
    case lateral => exact lateralFault_iff _ _ r.axles
    case longitudinal =>
      have h := wagonLongitudinal_iff s.settings.longLimit pattern r.axles r.gross
      simp only [longitudinalFault_iff] at h
      exact h
    case overspeed => rw [← hthere]; exact List.any_eq_true
    case creep => rw [← hthere]; exact List.any_eq_true
    case reversal => rw [← hthere]; exact List.any_eq_true
    case misaligned => rw [← hthere]; rfl
    case unchecked => rw [← hthere]; rfl

end

section
/-! The recorder service reads the store (10, R178 to R180): what the searches of the ring find, and what each fetch ask
answers, case by case. -/

namespace Sys2Proof.Machine

open Sys2Proof

/-! ### A fetch ask outside CONFIG FAULT (R175, R176) -/

section
variable {s : State} {x : RxFrame} {rest : List RxFrame}

theorem takeAsk_unlessFault_of_waits {k : Byte} (h : AskWaits s x rest k) (hf : s.stc.station ≠ .configFault)
    (t : Time) (p : Byte → Bool) (hp : p k = true) (f : RxFrame → State → State) :
    atTime t (takeAsk p fun x => unlessFault x (f x)) s = f x (afterHead t rest s) := by
  have hserves : ¬ ((afterHead t rest s).stc.station == .configFault) = true := by simpa [afterHead] using hf
  rw [ask_eq h t p hp]
  exact if_neg hserves

/-- `answer_eq` where the ask has changed the store, which no queue depends on. -/
theorem answer_afterHead {k : Byte} (h : AskWaits s x rest k) (t : Time) (store : Rst) (st : ReplyStatus) (c : Content) :
    answer x st c { afterHead t rest s with rst := store }
      = withReply x.frame.node st k c { afterHead t rest s with rst := store } :=
  answer_eq h { afterHead t rest s with rst := store } rfl rfl st c

theorem exec_fetchNext_of_waits (h : AskWaits s x rest 1) (hf : s.stc.station ≠ .configFault) (t : Time) :
    exec (.fetchNext t) s = .next (fetchNextAsk x (afterHead t rest s)) :=
  congrArg Host.Outcome.next (takeAsk_unlessFault_of_waits h hf t _ rfl fetchNextAsk)

theorem exec_fetch_of_waits (h : AskWaits s x rest 2) (hf : s.stc.station ≠ .configFault) (t : Time) :
    exec (.fetch t) s = .next (fetchAsk x (afterHead t rest s)) :=
  congrArg Host.Outcome.next (takeAsk_unlessFault_of_waits h hf t _ rfl fetchAsk)

theorem exec_fetchWagon_of_waits (h : AskWaits s x rest 3) (hf : s.stc.station ≠ .configFault) (t : Time) :
    exec (.fetchWagon t) s = .next (fetchWagonAsk x (afterHead t rest s)) :=
  congrArg Host.Outcome.next (takeAsk_unlessFault_of_waits h hf t _ rfl fetchWagonAsk)

theorem exec_seek_of_waits (h : AskWaits s x rest 4) (hf : s.stc.station ≠ .configFault) (t : Time) :
    exec (.seek t) s = .next (seekAsk x (afterHead t rest s)) :=
  congrArg Host.Outcome.next (takeAsk_unlessFault_of_waits h hf t _ rfl seekAsk)

end

/-! ### The searches of the ring (R171, R180) -/

theorem recordAt_isSome_iff (s : State) (i : Word16) :
    (recordAt s i).isSome = true ↔ ∃ r ∈ s.rst.ring, r.index = i := by
  rw [← not_iff_not, ← recordAt_none, Bool.not_eq_true, Option.isSome_eq_false_iff, Option.isNone_iff_eq_none]

/-- R180: the newest match is the one that no record stored after it matches. -/
theorem newestRecord_eq_some {s : State} {older newer : List WagonRecord} {r : WagonRecord} {session : Word16} {wagon : Nat}
    (hring : s.rst.ring = older ++ r :: newer) (hr : r.session = session ∧ r.wagon = wagon)
    (hnewer : ∀ y ∈ newer, ¬ (y.session = session ∧ y.wagon = wagon)) : newestRecord s session wagon = some r := by
  have hreverse : s.rst.ring.reverse = newer.reverse ++ r :: older.reverse := by simp [hring]
  rw [newestRecord, List.find?_eq_some_iff_append]
  refine ⟨by simpa using hr, newer.reverse, older.reverse, hreverse, fun y hy => ?_⟩
  simpa [← not_and_or] using hnewer y (List.mem_reverse.mp hy)

theorem newestRecord_eq_none {s : State} {session : Word16} {wagon : Nat}
    (h : ∀ r ∈ s.rst.ring, ¬ (r.session = session ∧ r.wagon = wagon)) : newestRecord s session wagon = none := by
  rw [newestRecord, List.find?_eq_none]
  intro r hr
  simpa using h r (List.mem_reverse.mp hr)

/-! ### FETCH-NEXT, FETCH and SEEK (R178, R179) -/

section
variable {s : State} {r : WagonRecord} (x : RxFrame)

theorem fetchNextAsk_of_end (h : s.rst.readPointer = s.rst.nextIndex) :
    fetchNextAsk x s = answer x .empty .none s := if_pos (beq_iff_eq.mpr h)

theorem fetchNextAsk_of_held (h : s.rst.readPointer ≠ s.rst.nextIndex) (hr : recordAt s s.rst.readPointer = some r) :
    fetchNextAsk x s
      = answer x .ok (.record r) { s with rst := { s.rst with readPointer := s.rst.readPointer + 1 } } := by
  rw [fetchNextAsk, if_neg (by simpa using h), hr]

theorem fetchAsk_of_held (hr : recordAt s (wordAt x.frame.payload 1) = some r) :
    fetchAsk x s = answer x .ok (.record r) s := by
  rw [fetchAsk, hr]

theorem fetchAsk_of_not_held (hr : recordAt s (wordAt x.frame.payload 1) = none) :
    fetchAsk x s = answer x .range .none s := by
  rw [fetchAsk, hr]

/-- The indices SEEK takes. -/
theorem seekTakes_iff (s : State) (i : Word16) : ((recordAt s i).isSome || i == s.rst.nextIndex) = true ↔
    (∃ r ∈ s.rst.ring, r.index = i) ∨ i = s.rst.nextIndex := by
  rw [Bool.or_eq_true, recordAt_isSome_iff, beq_iff_eq]

theorem seekAsk_of_taken
    (h : (∃ r ∈ s.rst.ring, r.index = wordAt x.frame.payload 1) ∨ wordAt x.frame.payload 1 = s.rst.nextIndex) :
    seekAsk x s = answer x .ok .none { s with rst := { s.rst with readPointer := wordAt x.frame.payload 1 } } :=
  if_pos ((seekTakes_iff s _).mpr h)

theorem seekAsk_of_outside (hheld : ¬ ∃ r ∈ s.rst.ring, r.index = wordAt x.frame.payload 1)
    (hnext : wordAt x.frame.payload 1 ≠ s.rst.nextIndex) : seekAsk x s = answer x .range .none s :=
  if_neg fun h => ((seekTakes_iff s _).mp h).elim hheld hnext

end

/-! ### FETCH-WAGON (R180) -/

/-- R180: the wagon is one of the open session that has not been stored yet. -/
def Awaited (s : State) (session : Word16) (wagon : Nat) : Prop :=
  s.ses.state ≠ .idle ∧ s.ses.number = session ∧ s.was.wagons < wagon

theorem awaited_iff (s : State) (session : Word16) (wagon : Nat) :
    (sessionOpen s && session == s.ses.number && s.was.wagons < wagon) = true ↔ Awaited s session wagon := by
  simp only [sessionOpen, Awaited, Bool.and_eq_true, bne_iff_ne, beq_iff_eq, decide_eq_true_eq, and_assoc,
    eq_comm (a := session)]

section
variable {s : State} (x : RxFrame)

theorem fetchWagonAsk_of_busy (h : s.rst.deferred.isSome = true) : fetchWagonAsk x s = answer x .busy .none s := if_pos h

variable (hfree : s.rst.deferred = none)
include hfree

theorem fetchWagonAsk_of_held {r : WagonRecord}
    (hr : newestRecord s (wordAt x.frame.payload 1) (at2 x.frame.payload 3) = some r) :
    fetchWagonAsk x s = answer x .ok (.record r) s := by
  simp [fetchWagonAsk, hfree, hr]

variable (hnone : newestRecord s (wordAt x.frame.payload 1) (at2 x.frame.payload 3) = none)
include hnone

theorem fetchWagonAsk_of_awaited (h : Awaited s (wordAt x.frame.payload 1) (at2 x.frame.payload 3)) :
    fetchWagonAsk x s = answer x .deferred .none
      { s with rst :=
          { s.rst with
            deferred :=
              some { node := x.frame.node, session := wordAt x.frame.payload 1, wagon := at2 x.frame.payload 3 } } } := by
  simp only [fetchWagonAsk, hfree, hnone, (awaited_iff ..).mpr h, Option.isSome_none, Bool.false_eq_true, if_false, if_true]

theorem fetchWagonAsk_of_not_awaited (h : ¬ Awaited s (wordAt x.frame.payload 1) (at2 x.frame.payload 3)) :
    fetchWagonAsk x s = answer x .range .none s := by
  simp only [fetchWagonAsk, hfree, hnone, awaited_iff, h, Option.isSome_none, Bool.false_eq_true, if_false]

end

end Sys2Proof.Machine

open Sys2Proof Sys2Proof.Machine

/-- Settles O52: consecutive indices make the record at an index the only one of that index, and put the read pointer on a
held record unless it is the next index; taking the ASK leaves the store as it was. -/
theorem fetchAndSeekReadTheRing : Obligations.FetchAndSeekReadTheRing := by
  intro t x rest k s node i s₀ held hw hf hinv
  refine ⟨?atEnd, ?next, ?found, ?missing, ?sought, ?outside⟩
  case atEnd =>
    rintro rfl hp
    rw [exec_fetchNext_of_waits hw hf, fetchNextAsk_of_end (s := s₀) x hp, answer_eq hw s₀ rfl rfl]
  case next =>
    rintro rfl hp
    obtain ⟨r, hr, hindex⟩ := recordAt_pointer s hinv hp
    have hfound : recordAt s₀ s.rst.readPointer = some r := hindex ▸ recordAt_of s hinv r hr
    refine ⟨r, hr, hindex, ?_⟩
    rw [exec_fetchNext_of_waits hw hf, fetchNextAsk_of_held (s := s₀) x hp hfound, answer_afterHead hw]
    rfl
  case found =>
    rintro rfl r hr hindex
    have hfound : recordAt s₀ i = some r := hindex ▸ recordAt_of s hinv r hr
    rw [exec_fetch_of_waits hw hf, fetchAsk_of_held (s := s₀) x hfound, answer_eq hw s₀ rfl rfl]
  case missing =>
    rintro rfl hno
    rw [exec_fetch_of_waits hw hf, fetchAsk_of_not_held (s := s₀) x ((recordAt_none s₀ i).mpr hno),
      answer_eq hw s₀ rfl rfl]
  case sought =>
    rintro rfl h
    rw [exec_seek_of_waits hw hf, seekAsk_of_taken (s := s₀) x h, answer_afterHead hw]
    rfl
  case outside =>
    rintro rfl hno hnext
    rw [exec_seek_of_waits hw hf, seekAsk_of_outside (s := s₀) x hno hnext, answer_eq hw s₀ rfl rfl]

/-- Settles O53: the ring is searched from its newest record, and only while no request is held. -/
theorem fetchWagonFindsOrWaits : Obligations.FetchWagonFindsOrWaits := by
  intro t x rest s node session wagon s₀ asked awaited hw hf
  rw [exec_fetchWagon_of_waits hw hf]
  refine ⟨?busy, fun hfree => ⟨?newest, ?deferred, ?range⟩⟩
  case busy =>
    intro hheld
    rw [fetchWagonAsk_of_busy (s := s₀) x hheld, answer_eq hw s₀ rfl rfl]
  case newest =>
    intro older r newer hring hr hnewer
    have hfound : newestRecord s₀ session wagon = some r := newestRecord_eq_some hring hr hnewer
    rw [fetchWagonAsk_of_held (s := s₀) x hfree hfound, answer_eq hw s₀ rfl rfl]
  case deferred =>
    intro hnone hawaited
    rw [fetchWagonAsk_of_awaited (s := s₀) x hfree (newestRecord_eq_none hnone) hawaited, answer_afterHead hw]
    rfl
  case range =>
    intro hnone hnot
    rw [fetchWagonAsk_of_not_awaited (s := s₀) x hfree (newestRecord_eq_none hnone) hnot, answer_eq hw s₀ rfl rfl]

end

section
/-! The moves of Laws/Moves.lean in groups, block by block: an invariant that does not look at the blocks of a group is kept
by the whole group, and one that is kept by every group is kept by every step. -/

namespace Sys2Proof.Machine

open Sys2Proof

variable {P : State → Prop}

/-! ### Line and causes -/

/-- The moves of the Span Line Controller and the Condition Unit. -/
structure LineMoves (P : State → Prop) : Prop where
  latch    : ∀ c s, P s → P (latch c s)
  clear    : ∀ m s, P s → P (clearCauses m s)
  handOver : ∀ b t s, P s → P (handOver b t s)
  start    : ∀ n s, P s → P (startFrame n s)
  lose     : ∀ s, P s → P (loseArbitration s)
  attempt  : ∀ r s, P s → P (endAttempt r s)
  backoff  : ∀ s, P s → P (endBackoff s)
  probe    : ∀ s, P s → P (expireProbeTimer s)
  ignore   : ∀ s, P s → P (ignoreFrame s)
  admitted : ∀ k t f s, P s → P (admitFrame k t f s)
  accept   : ∀ s, P s → s.slc.receiveQueue ≠ [] → P (acceptHead s)

theorem LineMoves.of_ignored (h : ∀ x c s, P s → P { s with slc := x, cnd := c }) : LineMoves P where
  latch _ s hs := h s.slc _ s hs
  clear _ s hs := h s.slc _ s hs
  handOver b t s hs := by
    obtain ⟨x, c, e⟩ := handOver_eq b t s
    exact e ▸ h x c s hs
  start n s hs := by
    obtain ⟨x, e⟩ := startFrame_eq n s
    exact e ▸ h _ s.cnd s hs
  lose s hs := by
    obtain ⟨x, e⟩ := loseArbitration_eq s
    exact e ▸ h x s.cnd s hs
  attempt r s hs := by
    obtain ⟨x, c, e⟩ := endAttempt_eq r s
    exact e ▸ h x c s hs
  backoff s hs := kept_onlyIf hs fun hs => h _ s.cnd s hs
  probe s hs := kept_onlyIf hs fun hs => h _ s.cnd s hs
  ignore s hs := h _ s.cnd s hs
  admitted k t f s hs := by
    obtain ⟨x, c, e⟩ := admitFrame_eq k t f s
    exact e ▸ h x c s hs
  accept s hs _ := h _ s.cnd s hs

/-! ### Wheel heads and peers -/

/-- The moves of the Wheel Head Unit. -/
structure HeadMoves (P : State → Prop) : Prop where
  unit       : ∀ e u s, (endUnit s e).sameRun u → P s → P (setEndUnit e u s)
  speeds     : ∀ s, P s → P (clearLastSpeeds s)
  discard    : ∀ e h s, P s → P (discardHalf e h s)
  faultsGone : ∀ e s, P s → P (clearFaults e s)

theorem HeadMoves.of_ignored (h : ∀ w c s, P s → P { s with whu := w, cnd := c }) : HeadMoves P where
  unit e u s _ hs := by
    obtain ⟨w, eq⟩ := setEndUnit_eq e u s
    exact eq ▸ h w s.cnd s hs
  speeds s hs := h _ s.cnd s hs
  discard e n s hs := by
    obtain ⟨w, c, eq⟩ := discardHalf_eq e n s
    exact eq ▸ h w c s hs
  faultsGone e s hs := by
    obtain ⟨w, c, eq⟩ := clearFaults_eq e s
    exact eq ▸ h w c s hs

/-- The moves of the Peer Table. -/
structure PeerMoves (P : State → Prop) : Prop where
  peer      : ∀ n p s, P s → P (setPeer n p s)
  exit      : ∀ s, P s → P (chooseExit s)
  layout    : ∀ s, P s → P (assessLayout s)
  hailTimer : ∀ x s, P s → P { s with ptb := { s.ptb with hailTimer := x } }

theorem PeerMoves.of_ignored (h : ∀ p c s, P s → P { s with ptb := p, cnd := c }) : PeerMoves P where
  peer _ _ s hs := h _ s.cnd s hs
  exit s hs := h _ s.cnd s hs
  layout s hs := by
    obtain ⟨b, c, e⟩ := assessLayout_eq s
    exact e ▸ h _ c s hs
  hailTimer _ s hs := h _ s.cnd s hs

/-! ### Load front end -/

/-- The moves of the Load Front End. -/
structure LoadMoves (P : State → Prop) : Prop where
  instant : ∀ x s, P s → P (instantDue x s)
  abandon : ∀ s, P s → P (abandonBlock s)

section
variable (hlfe : ∀ l s, P s → P { s with lfe := l }) (hlatch : ∀ c s, P s → P (latch c s))
  (hready : ∀ s, s.stc.station = .settling → P s → P { s with stc := { s.stc with station := .ready } })
include hlfe hlatch hready

/-- A block test changes the LFE, may make a settling station ready, and may latch ZERO (R11 to R15). -/
theorem testBlock_keeps {s : State} (hs : P s) : P (testBlock s) := by
  have hempty := hlfe { s.lfe with block := [] } s hs
  unfold testBlock
  simp only
  split
  case isTrue h =>
    refine kept_onlyIf hempty fun _ => ?_
    exact hready { s with lfe := { s.lfe with block := [], z := blockMean s.lfe.block, z0 := blockMean s.lfe.block } }
      (by simpa using h) (hlfe _ _ hs)
  case isFalse =>
    exact kept_onlyIf (kept_onlyIf hempty fun hs => hlfe _ _ hs) fun hs => hlatch _ _ hs

theorem gatherSample_keeps (x : Sample) {s : State} (hs : P s) : P (gatherSample x s) := by
  unfold gatherSample
  simp only
  split
  · exact kept_onlyIf (hlfe _ _ hs) fun hs => testBlock_keeps hlfe hlatch hready hs
  · exact hs

theorem formSample_keeps (stamp : Time) {s : State} (hs : P s) : P (formSample stamp s) :=
  gatherSample_keeps hlfe hlatch hready _ (kept_onlyIf (hlfe _ s hs) fun hs => hlatch _ _ hs)

theorem LoadMoves.of_ignored : LoadMoves P where
  instant x s hs := by
    unfold instantDue
    split
    · exact hs
    · refine kept_onlyIf hs fun hs => ?_
      exact kept_onlyIf (hlfe _ s hs) fun hs => formSample_keeps hlfe hlatch hready _ hs
  abandon s hs := by
    obtain ⟨b, e⟩ := abandonBlock_eq s
    exact e ▸ hlfe _ s hs

end

/-! ### Tracker, estimate table and store -/

/-- The moves of the Axle Tracker. -/
structure TrackMoves (P : State → Prop) : Prop where
  listMove : ∀ k s a j, P s → listOperation k s.atr = some (a, j) → P { s with atr := a }
  timeline : ∀ x s, x.length ≤ 32 ∨ x.length ≤ s.atr.timeline.length → P s →
               P { s with atr := { s.atr with timeline := x } }
  records  : ∀ x s, P s → P { s with atr := { s.atr with records := x } }
  freshAtr : ∀ s, P s → P { s with atr := Atr.reset }

theorem TrackMoves.of_ignored (h : ∀ a s, P s → P { s with atr := a }) : TrackMoves P where
  listMove _ s a _ hs _ := h a s hs
  timeline _ s _ hs := h _ s hs
  records _ s hs := h _ s hs
  freshAtr s hs := h _ s hs

/-- The moves of the estimate table. -/
structure TableMoves (P : State → Prop) : Prop where
  fusMap     : ∀ (f : Entry → Entry) s, (∀ e : Entry, e.sameKey (f e)) → P s →
                 P { s with fus := { s.fus with table := s.fus.table.map f } }
  fusFilter  : ∀ (p : Entry → Bool) s, P s → P { s with fus := { s.fus with table := s.fus.table.filter p } }
  fusNumbers : ∀ x y s, P s → P { s with fus := { s.fus with current := x, superseded := y } }
  fusCreate  : ∀ j x y d s, P s → s.fus.table.length < 64 → findEntry s j = none →
                 P { s with fus := { s.fus with table := insertEntry (newEntry j x y d) s.fus.table } }

theorem TableMoves.of_ignored (h : ∀ f s, P s → P { s with fus := f }) : TableMoves P where
  fusMap _ s _ hs := h _ s hs
  fusFilter _ s hs := h _ s hs
  fusNumbers _ _ s hs := h _ s hs
  fusCreate _ _ _ _ s hs _ _ := h _ s hs

/-- The moves of the Record Store. -/
structure StoreMoves (P : State → Prop) : Prop where
  join     : ∀ r s, P s → r.index = s.rst.nextIndex → P (joinRing r s)
  deferred : ∀ x s, P s → P { s with rst := { s.rst with deferred := x } }
  fetched  : ∀ s r, P s → recordAt s s.rst.readPointer = some r →
               P { s with rst := { s.rst with readPointer := s.rst.readPointer + 1 } }
  sought   : ∀ i s, P s → ((recordAt s i).isSome || i == s.rst.nextIndex) = true →
               P { s with rst := { s.rst with readPointer := i } }

theorem StoreMoves.of_ignored (hrst : ∀ r s, P s → P { s with rst := r }) (hlatch : ∀ c s, P s → P (latch c s)) :
    StoreMoves P where
  join r s hs _ := by
    have hcount := hrst { s.rst with nextIndex := s.rst.nextIndex + 1 } s hs
    have hold : P (overwriteOldest { s with rst := { s.rst with nextIndex := s.rst.nextIndex + 1 } }) := by
      unfold overwriteOldest
      split
      · exact hcount
      · split
        · exact hcount
        · split
          · exact hlatch _ _ (hrst _ s hs)
          · exact hrst _ s hs
    exact hrst _ _ hold
  deferred _ s hs := hrst _ s hs
  fetched s _ hs _ := hrst _ s hs
  sought _ s hs _ := hrst _ s hs

/-! ### Start-up -/

/-- The moves of the Start-up Control. -/
structure StartMoves (P : State → Prop) : Prop where
  fullReset  : ∀ s, P s → P (fullReset s)
  release    : ∀ x s, P s → P (release x s)
  restart    : ∀ x s, P s → P (restart x s)
  endLoading : ∀ x s, P s → P (endLoading x s)

/-- What holds at reset and at the begin of LOADING, whatever is kept in the store and the SES, is kept by the reset input
and by RESTART. -/
theorem StartMoves.of_reset (hq : ∀ q s, P s → P { s with pending := q })
    (hkept : ∀ r y s, P s → P { s with rst := r, ses := y }) (hreset : P State.reset)
    (hloading : ∀ x, P (beginLoading x State.reset)) (hend : ∀ x s, P s → P (Machine.endLoading x s)) : StartMoves P where
  fullReset s _ := hq s.pending _ hreset
  release x s hs := by
    unfold Machine.release
    split
    · exact hq s.pending _ (hloading x)
    · exact hs
  restart x s _ := hkept _ _ _ (hq s.pending _ (hloading x))
  endLoading := hend

/-- What looks at none of the blocks that the end of LOADING writes. -/
theorem endLoading_ignored (h : ∀ a b l x p c s, P s →
      P { s with settings := a, stc := b, lfe := l, slc := x, ptb := p, cnd := c }) (x : ImageRead) (s : State)
    (hs : P s) : P (endLoading x s) := by
  obtain ⟨a, b, c, d, e, p1, p2, p3, p4, q, eq⟩ := endLoading_eq x s
  rw [eq]
  exact h _ _ _ _ _ _ s hs

/-! ### All groups -/

/-- `P` is kept by every group, and by whatever becomes of the clock, the SES and the spacing list. -/
structure Grouped (P : State → Prop) : Prop where
  clock : ∀ t y w s, P s → P { s with now := t, ses := y, was := w }
  line  : LineMoves P
  heads : HeadMoves P
  peers : PeerMoves P
  load  : LoadMoves P
  track : TrackMoves P
  table : TableMoves P
  store : StoreMoves P
  start : StartMoves P

theorem Grouped.simple (h : Grouped P) : Simple P :=
  { h.line, h.heads, h.peers, h.load, h.track, h.table, h.store, h.start with
    now := fun t s hs => h.clock t s.ses s.was s hs
    ses := fun y s hs => h.clock s.now y s.was s hs
    was := fun w s hs => h.clock s.now s.ses w s hs }

/-- What every group keeps, every step keeps. -/
theorem Grouped.step (h : Grouped P) (hq : ∀ q s, P s → P { s with pending := q }) {s t : State}
    (he : step s = .next t) (hs : P s) : P t := h.simple.kept.step hq hs he

end Sys2Proof.Machine

end

section
/-! The invariants of the Load Front End, the Wheel Head Unit and the Axle Tracker, block by block. -/

namespace Sys2Proof.Machine

open Sys2Proof

/-! ### The hand-over of a frame leaves every block but the line's and the causes -/

section
variable (b : Body) (n : BitVec 4) (s : State)

@[simp] theorem handOver_pending : (handOver b n s).pending = s.pending := by obtain ⟨x, c, e⟩ := handOver_eq b n s; rw [e]
@[simp] theorem handOver_now : (handOver b n s).now = s.now := by obtain ⟨x, c, e⟩ := handOver_eq b n s; rw [e]
@[simp] theorem handOver_stc : (handOver b n s).stc = s.stc := by obtain ⟨x, c, e⟩ := handOver_eq b n s; rw [e]
@[simp] theorem handOver_settings : (handOver b n s).settings = s.settings := by
  obtain ⟨x, c, e⟩ := handOver_eq b n s; rw [e]
@[simp] theorem handOver_lfe : (handOver b n s).lfe = s.lfe := by obtain ⟨x, c, e⟩ := handOver_eq b n s; rw [e]
@[simp] theorem handOver_whu : (handOver b n s).whu = s.whu := by obtain ⟨x, c, e⟩ := handOver_eq b n s; rw [e]
@[simp] theorem handOver_atr : (handOver b n s).atr = s.atr := by obtain ⟨x, c, e⟩ := handOver_eq b n s; rw [e]
@[simp] theorem handOver_ptb : (handOver b n s).ptb = s.ptb := by obtain ⟨x, c, e⟩ := handOver_eq b n s; rw [e]
@[simp] theorem handOver_ses : (handOver b n s).ses = s.ses := by obtain ⟨x, c, e⟩ := handOver_eq b n s; rw [e]
@[simp] theorem handOver_fus : (handOver b n s).fus = s.fus := by obtain ⟨x, c, e⟩ := handOver_eq b n s; rw [e]
@[simp] theorem handOver_was : (handOver b n s).was = s.was := by obtain ⟨x, c, e⟩ := handOver_eq b n s; rw [e]
@[simp] theorem handOver_rst : (handOver b n s).rst = s.rst := by obtain ⟨x, c, e⟩ := handOver_eq b n s; rw [e]

end

@[simp] theorem handHail_lfe (s : State) : (handHail s).lfe = s.lfe := handOver_lfe ..
@[simp] theorem handHail_stc (s : State) : (handHail s).stc = s.stc := handOver_stc ..
@[simp] theorem handHail_ptb (s : State) : (handHail s).ptb = s.ptb := handOver_ptb ..
@[simp] theorem handHail_settings (s : State) : (handHail s).settings = s.settings := handOver_settings ..

/-! ### Samples and zero (R1, R5, R6, R8, R11, R12, R14) -/

theorem LfeInv.congr {s t : State} (h : LfeInv s) (hlfe : t.lfe = s.lfe) (hstc : t.stc.station = s.stc.station) :
    LfeInv t := by
  have hconv : converting t = converting s := by simp [converting, hstc]
  obtain ⟨hgroup, hhistory, hblock, heven, hnext, hranges, hzero, hidle⟩ := h
  rw [← hlfe] at hgroup hhistory hblock heven hnext hranges hzero hidle
  exact ⟨hgroup, hhistory, hblock, heven, hnext, hranges, hzero, hconv ▸ hidle⟩

theorem lfeInv_reset : LfeInv State.reset := by
  constructor <;> simp [State.reset, Lfe.reset, evenlySpaced]

theorem clampInt_bounds {least most : Int} (h : least ≤ most) (x : Int) :
    least ≤ clampInt least most x ∧ clampInt least most x ≤ most := by
  unfold clampInt
  split
  · omega
  · split <;> omega

/-- Evenly spaced samples stay so when one joins 2,500 µs after the last. -/
theorem evenlySpaced_append (x : Sample) : ∀ {h : List Sample}, evenlySpaced h →
    (∀ y, h.getLast? = some y → x.stamp = addUs y.stamp 2500) → evenlySpaced (h ++ [x])
  | [], _, _ => trivial
  | [y], _, hx => ⟨hx y rfl, trivial⟩
  | y :: z :: rest, ⟨hy, hrest⟩, hx => ⟨hy, evenlySpaced_append (h := z :: rest) x hrest fun w hw => hx w (by simpa using hw)⟩

theorem evenlySpaced_tail {h : List Sample} (he : evenlySpaced h) : evenlySpaced h.tail := by
  match h, he with
  | [], _ => trivial
  | [_], _ => trivial
  | _ :: _ :: _, he => exact he.2

theorem joinHistory_length {h : List Sample} (hl : h.length ≤ 1024) (x : Sample) : (joinHistory h x).length ≤ 1024 := by
  unfold joinHistory
  split <;> simp <;> omega

theorem joinHistory_getLast (h : List Sample) (x : Sample) : (joinHistory h x).getLast? = some x := by
  simp [joinHistory]

theorem joinHistory_mem {h : List Sample} {x y : Sample} (hy : y ∈ joinHistory h x) : y ∈ h ∨ y = x := by
  rw [joinHistory, List.mem_append, List.mem_singleton] at hy
  refine hy.imp (fun hy => ?_) id
  split at hy
  · exact hy
  · exact List.mem_of_mem_tail hy

theorem joinHistory_even {h : List Sample} (he : evenlySpaced h) {x : Sample}
    (hx : ∀ y, h.getLast? = some y → x.stamp = addUs y.stamp 2500) : evenlySpaced (joinHistory h x) := by
  unfold joinHistory
  split
  · exact evenlySpaced_append x he hx
  · refine evenlySpaced_append x (evenlySpaced_tail he) fun y hy => hx y ?_
    cases h with
    | nil => cases hy
    | cons z rest =>
      cases rest with
      | nil => cases hy
      | cons w rest => simpa using hy

theorem addUs_addUs (a : Time) (m n : Nat) : addUs (addUs a m) n = addUs a (m + n) := by
  simp [addUs, BitVec.add_assoc, BitVec.ofNat_add]

/-- R12, R14: what a block test makes of the zero. -/
theorem LfeInv.tested {s : State} (h : LfeInv { s with lfe := { s.lfe with block := [] } }) (hc : converting s = true) :
    LfeInv (testBlock s) := by
  have hz : ∀ z z0 : Int, -20000 ≤ z → z ≤ 20000 → -20000 ≤ z0 → z0 ≤ 20000 → ∀ st : StationState,
      (st = .settling ∨ st = .ready) →
      LfeInv { s with lfe := { s.lfe with block := [], z := z, z0 := z0 }, stc := { s.stc with station := st } } := by
    intro z z0 h1 h2 h3 h4 st hst
    obtain ⟨hgroup, hhistory, hblock, heven, hnext, hranges, hzero, hidle⟩ := h
    refine ⟨hgroup, hhistory, hblock, heven, hnext, hranges, ⟨h1, h2, h3, h4⟩, fun hno => ?_⟩
    rcases hst with rfl | rfl <;> cases hno
  obtain ⟨hz1, hz2, hz3, hz4⟩ := h.zero
  have hstation : s.stc.station = .settling ∨ s.stc.station = .ready := by simpa [converting] using hc
  unfold testBlock
  simp only
  split
  case isTrue =>
    unfold onlyIf
    split
    case isTrue hpass =>
      simp only [blockPasses, Bool.not_true, Bool.false_or, Bool.and_eq_true, decide_eq_true_eq] at hpass
      obtain ⟨_, hlow, hhigh⟩ := hpass
      exact hz _ _ hlow hhigh hlow hhigh .ready (.inr rfl)
    case isFalse => exact h
  case isFalse =>
    have hmoved : LfeInv (onlyIf (blockPasses false s.lfe.block)
        (fun s' => { s' with lfe := { s'.lfe with z := moveZero s'.lfe.z (blockMean s.lfe.block) } })
        { s with lfe := { s.lfe with block := [] } }) := by
      unfold onlyIf
      split
      · obtain ⟨hlow, hhigh⟩ := clampInt_bounds (least := -20000) (most := 20000) (by decide)
          (s.lfe.z + clampInt (-50) 50 (blockMean s.lfe.block - s.lfe.z))
        exact (hz _ s.lfe.z0 hlow hhigh hz3 hz4 s.stc.station hstation).congr rfl rfl
      · exact h
    exact kept_onlyIf hmoved fun hs => hs.congr rfl rfl

theorem LfeInv.gathered {s : State} (h : LfeInv s) (hc : converting s = true) (x : Sample) :
    LfeInv (gatherSample x s) := by
  obtain ⟨hgroup, hhistory, hblock, heven, hnext, hranges, hzero, hidle⟩ := h
  have hemptied : LfeInv { s with lfe := { s.lfe with block := [] } } :=
    ⟨hgroup, hhistory, Nat.zero_le _, heven, hnext, hranges, hzero, fun hno => Bool.noConfusion (hc.symm.trans hno)⟩
  unfold gatherSample onlyIf
  simp only
  split
  · split
    · exact LfeInv.tested (s := { s with lfe := { s.lfe with block := s.lfe.block ++ [x] } }) hemptied hc
    · rename_i hshort
      simp only [decide_eq_true_eq] at hshort
      exact ⟨hgroup, hhistory, by simp only; omega, heven, hnext, hranges, hzero,
        fun hno => Bool.noConfusion (hc.symm.trans hno)⟩
  · exact ⟨hgroup, hhistory, hblock, heven, hnext, hranges, hzero, hidle⟩

/-- R1 to R8: an instant that is due joins its group, or forms a sample 2,500 µs after the last. -/
theorem LfeInv.instant {s : State} (h : LfeInv s) (loads : InstantLoads) : LfeInv (instantDue loads s) := by
  have hsame := h
  obtain ⟨hgroup, hhistory, hblock, heven, hnext, hranges, hzero, hidle⟩ := h
  unfold instantDue
  split
  · exact hsame
  rename_i due hdue
  unfold onlyIf
  split
  swap
  · exact hsame
  rename_i hgo
  have hc : converting s = true := by simp only [Bool.and_eq_true] at hgo; exact hgo.1
  unfold takeInstant onlyIf
  simp only
  split
  case isFalse hshort =>
    simp only [List.length_append, List.length_singleton, decide_eq_true_eq] at hshort
    refine ⟨by simp only [List.length_append, List.length_singleton]; omega, hhistory, hblock, heven, ?_, hranges, hzero,
      fun hno => Bool.noConfusion (hc.symm.trans hno)⟩
    intro x d hx hd
    simp only [Option.some.injEq] at hd
    subst hd
    have hsum : 625 * (s.lfe.group.length + 1) + 625 = 625 * (s.lfe.group.length + 1 + 1) := by omega
    rw [hnext x due hx hdue, addUs_addUs, List.length_append, List.length_singleton, hsum]
  case isTrue hfull =>
    have hthree : s.lfe.group.length = 3 := by
      simp only [List.length_append, List.length_singleton, decide_eq_true_eq] at hfull; omega
    unfold formSample
    refine LfeInv.gathered (kept_onlyIf ?_ fun hs => hs.congr rfl rfl) (by unfold onlyIf; split <;> exact hc) _
    refine ⟨Nat.zero_le _, joinHistory_length hhistory _, hblock, joinHistory_even heven ?_, ?_, ?_, hzero,
      fun hno => Bool.noConfusion (hc.symm.trans hno)⟩
    · intro y hy
      rw [show (platformSample due (s.lfe.group ++ [loads])).stamp = due from rfl, hnext y due hy hdue, hthree]
    · intro x d hx hd
      simp only [joinHistory_getLast, Option.some.injEq] at hx hd
      subst hd
      simp [← hx, platformSample]
    · intro y hy
      rcases joinHistory_mem hy with hy | rfl
      · exact hranges y hy
      · obtain ⟨h1, h2⟩ := clampInt_bounds (least := -200000) (most := 800000) (by decide)
          (roundDiv (total ((s.lfe.group ++ [loads]).map instantSum)) 4)
        obtain ⟨h3, h4⟩ := clampInt_bounds (least := -100000) (most := 400000) (by decide)
          (roundDiv (total ((s.lfe.group ++ [loads]).map instantLeft)) 4)
        exact ⟨h1, h2, h3, h4⟩

/-- At the end of LOADING nothing has been sampled, so the first instant may fall at any time. -/
theorem LfeInv.loaded {s t : State} (h : LfeInv s) (hs : s.stc.station = .loading) {b : Bool} {d : Option Time}
    (hlfe : t.lfe = { s.lfe with excitation := b, nextInstant := d }) : LfeInv t := by
  obtain ⟨hg, hh, hb⟩ := h.idle (by simp [converting, hs])
  have hz := h.zero
  constructor <;> simp [hlfe, hg, hh, hb, hz, evenlySpaced]

theorem LfeInv.endLoading {s : State} (h : LfeInv s) (x : ImageRead) : LfeInv (endLoading x s) := by
  unfold Machine.endLoading
  split
  case isFalse => exact h
  case isTrue hs =>
    have hs : s.stc.station = .loading := by simpa using hs
    split
    · exact h.loaded hs (b := s.lfe.excitation) (d := s.lfe.nextInstant) (by simp [enterConfigFault])
    · exact h.loaded hs (b := s.lfe.excitation) (d := s.lfe.nextInstant) (by simp [enterConfigFault])
    · exact h.loaded hs (b := true) (d := some (addUs s.now 625)) (by simp [enterSettling])

theorem LfeInv.grouped : Grouped LfeInv where
  clock _ _ _ _ hs := hs.congr rfl rfl
  line := .of_ignored fun _ _ _ hs => hs.congr rfl rfl
  heads := .of_ignored fun _ _ _ hs => hs.congr rfl rfl
  peers := .of_ignored fun _ _ _ hs => hs.congr rfl rfl
  load :=
    { instant := fun x _ hs => hs.instant x
      abandon := fun s hs => by
        obtain ⟨hgroup, hhistory, hblock, heven, hnext, hranges, hzero, hidle⟩ := hs
        unfold abandonBlock
        split
        · exact ⟨hgroup, hhistory, Nat.zero_le _, heven, hnext, hranges, hzero, fun hno =>
            ⟨(hidle hno).1, (hidle hno).2.1, rfl⟩⟩
        · exact ⟨hgroup, hhistory, hblock, heven, hnext, hranges, hzero, hidle⟩ }
  track := .of_ignored fun _ _ hs => hs.congr rfl rfl
  table := .of_ignored fun _ _ hs => hs.congr rfl rfl
  store := .of_ignored (fun _ _ hs => hs.congr rfl rfl) fun _ _ hs => hs.congr rfl rfl
  start := .of_reset (fun _ _ hs => hs.congr rfl rfl) (fun _ _ _ hs => hs.congr rfl rfl) lfeInv_reset
    (fun _ => lfeInv_reset.congr rfl rfl) fun x _ hs => hs.endLoading x

/-! ### Unpaired runs (R31) -/

theorem WhuInv.congr {s t : State} (h : WhuInv s) (hwhu : t.whu = s.whu) : WhuInv t := by
  obtain ⟨ha, hb⟩ := h
  exact ⟨hwhu ▸ ha, hwhu ▸ hb⟩

theorem whuInv_iff (s : State) : WhuInv s ↔ ∀ e, runGood (endUnit s e) := by
  constructor
  · rintro ⟨ha, hb⟩ (_ | _)
    · exact ha
    · exact hb
  · exact fun h => ⟨h .a, h .b⟩

theorem WhuInv.setEndUnit {s : State} (h : WhuInv s) {e : PlatformEnd} {u : EndUnit} (hu : runGood u) :
    WhuInv (setEndUnit e u s) := by
  obtain ⟨ha, hb⟩ := h
  cases e
  · exact ⟨hu, hb⟩
  · exact ⟨ha, hu⟩

theorem EndUnit.sameRun.good {u v : EndUnit} (h : u.sameRun v) (hu : runGood u) : runGood v := by
  obtain ⟨_, _, ⟨hhead, hcount⟩ | ⟨hhead, hcount⟩⟩ := h
  · rw [runGood, hhead, hcount]
    exact hu
  · rw [runGood, hhead, hcount]
    decide

/-- R31: a discarded half leaves a run of one to four. -/
theorem discardedEnd_good {u : EndUnit} (hu : runGood u) (g : HeadNo) : runGood (discardedEnd g u) := by
  obtain ⟨hmost, _⟩ := hu
  simp only [runGood, discardedEnd, reduceCtorEq, false_iff]
  split
  · split <;> omega
  · omega

theorem WhuInv.discard {s : State} (h : WhuInv s) (e : PlatformEnd) (g : HeadNo) : WhuInv (discardHalf e g s) := by
  rw [discardHalf_does]
  have hcauses : WhuInv { s with cnd := causesAfterDiscard g (endUnit s e) s.cnd } := h.congr rfl
  exact hcauses.setEndUnit (discardedEnd_good ((whuInv_iff s).mp h e) g)

theorem WhuInv.clearFaults {s : State} (h : WhuInv s) (e : PlatformEnd) : WhuInv (clearFaults e s) := by
  have hset : WhuInv (Machine.setEndUnit e { endUnit s e with fault1 := false, fault2 := false } s) :=
    h.setEndUnit ((whuInv_iff s).mp h e)
  unfold Machine.clearFaults
  simp only
  split
  · exact hset
  · exact hset.congr rfl

theorem whuInv_reset : WhuInv State.reset := by
  constructor <;> exact ⟨by decide, by decide⟩

theorem WhuInv.grouped : Grouped WhuInv where
  clock _ _ _ _ hs := hs.congr rfl
  line := .of_ignored fun _ _ _ hs => hs.congr rfl
  heads :=
    { unit := fun e _ s hu hs => hs.setEndUnit (hu.good ((whuInv_iff s).mp hs e))
      speeds := fun _ hs => ⟨hs.endA, hs.endB⟩
      discard := fun e g _ hs => hs.discard e g
      faultsGone := fun e _ hs => hs.clearFaults e }
  peers := .of_ignored fun _ _ _ hs => hs.congr rfl
  load := .of_ignored (fun _ _ hs => hs.congr rfl) (fun _ _ hs => hs.congr rfl) fun _ _ hs => hs.congr rfl
  track := .of_ignored fun _ _ hs => hs.congr rfl
  table := .of_ignored fun _ _ hs => hs.congr rfl
  store := .of_ignored (fun _ _ hs => hs.congr rfl) fun _ _ hs => hs.congr rfl
  start := .of_reset (fun _ _ hs => hs.congr rfl) (fun _ _ _ hs => hs.congr rfl) whuInv_reset
    (fun _ => whuInv_reset.congr rfl) (endLoading_ignored fun _ _ _ _ _ _ _ hs => hs.congr rfl)

/-! ### The order of the axles (R42 to R48, R50) -/

theorem AtrInv.congr {s t : State} (h : AtrInv s) (hatr : t.atr = s.atr) : AtrInv t := by
  obtain ⟨hlist, hreturn, hexit, htimeline, hcounter, hordered, hcounted⟩ := h
  rw [← hatr] at hlist hreturn hexit htimeline hcounter hordered hcounted
  exact ⟨hlist, hreturn, hexit, htimeline, hcounter, hordered, hcounted⟩

/-- The sizes and the order are kept by a tracker whose train is part of the old one, the counter no lower. -/
theorem AtrInv.of_sublist {s t : State} (h : AtrInv s) (hlist : t.atr.list.length ≤ 8)
    (hreturn : t.atr.returnStack.length ≤ 32) (hexit : t.atr.exitStack.length ≤ 32)
    (htimeline : t.atr.timeline = s.atr.timeline) (hcounter : t.atr.counter = s.atr.counter)
    (hsub : (trainOrder t.atr).Sublist (trainOrder s.atr)) : AtrInv t :=
  ⟨hlist, hreturn, hexit, htimeline ▸ h.timeline, hcounter ▸ h.counter, h.ordered.sublist hsub,
    fun j hj => hcounter ▸ h.counted j (hsub.subset hj)⟩

theorem pushStack_length (j : Nat) (stack : List Nat) : (pushStack j stack).length ≤ 32 := by
  simp [pushStack]

theorem pushStack_sublist (j : Nat) (stack : List Nat) : (pushStack j stack).Sublist (j :: stack) :=
  List.take_sublist _ _

/-- The train with an axle moved between list and stacks, no axle passing another. -/
theorem trainOrder_sublist {a b : Atr}
    (h : (b.exitStack.reverse ++ b.list ++ b.returnStack).Sublist (a.exitStack.reverse ++ a.list ++ a.returnStack)) :
    (trainOrder b).Sublist (trainOrder a) := h.filter _

theorem AtrInv.listMove {s : State} (h : AtrInv s) {k : EventKind} {a : Atr} {j : Nat}
    (he : listOperation k s.atr = some (a, j)) : AtrInv { s with atr := a } := by
  have hlist := h.listSize
  have hreturn := h.returnSize
  have hexit := h.exitSize
  cases k <;> simp only [listOperation] at he
  case normalEntry =>
    split at he
    · cases he
    · split at he
      · rename_i hroom i rest hstack
        cases he
        rw [hstack, List.length_cons] at hreturn
        refine h.of_sublist (by simp only [List.length_append, List.length_singleton]; omega) (by simp only; omega) hexit rfl
          rfl (trainOrder_sublist ?_)
        simp [hstack]
      · rename_i hroom hstack
        split at he
        · cases he
        · cases he
          have htrain : trainOrder { s.atr with list := s.atr.list ++ [s.atr.counter + 1], counter := s.atr.counter + 1 }
              = trainOrder s.atr ++ [s.atr.counter + 1] := by
            simp [trainOrder, hstack]
          refine ⟨by simp only [List.length_append, List.length_singleton]; omega, hreturn, hexit, h.timeline,
            by simp only; omega, ?_, ?_⟩
          · rw [htrain, List.pairwise_append]
            refine ⟨h.ordered, List.pairwise_singleton _ _, fun i hi n hn => ?_⟩
            have := h.counted i hi
            rw [List.mem_singleton] at hn
            omega
          · intro i hi
            rw [htrain, List.mem_append, List.mem_singleton] at hi
            rcases hi with hi | rfl
            · exact (h.counted i hi).trans (Nat.le_succ _)
            · exact Nat.le_refl _
  case normalExit =>
    split at he
    · cases he
    · rename_i i rest hfirst
      cases he
      rw [hfirst, List.length_cons] at hlist
      refine h.of_sublist (by simp only; omega) hreturn (pushStack_length _ _) rfl rfl (trainOrder_sublist ?_)
      have hpush := (pushStack_sublist j s.atr.exitStack).reverse
      simpa [hfirst] using hpush.append_right (rest ++ s.atr.returnStack)
  case reverseExit =>
    split at he
    · cases he
    · rename_i i hlast
      cases he
      refine h.of_sublist (by simp only [List.length_dropLast]; omega) (pushStack_length _ _) hexit rfl rfl
        (trainOrder_sublist ?_)
      obtain ⟨front, hfront⟩ := List.getLast?_eq_some_iff.mp hlast
      have hpush := pushStack_sublist j s.atr.returnStack
      simpa [hfront] using hpush.append_left (s.atr.exitStack.reverse ++ front)
  case reEntry =>
    split at he
    · cases he
    · split at he
      · rename_i hroom i rest hstack
        cases he
        rw [hstack, List.length_cons] at hexit
        refine h.of_sublist (by simp only [List.length_cons]; omega) hreturn (by simp only; omega) rfl rfl
          (trainOrder_sublist ?_)
        simp [hstack]
      · rename_i hroom hstack
        cases he
        refine h.of_sublist (by simp only [List.length_cons]; omega) hreturn hexit rfl rfl ?_
        simp [trainOrder, hstack]

theorem atrInv_reset : AtrInv State.reset := by
  constructor <;> simp [State.reset, Atr.reset, trainOrder]

theorem AtrInv.grouped : Grouped AtrInv where
  clock _ _ _ _ hs := hs.congr rfl
  line := .of_ignored fun _ _ _ hs => hs.congr rfl
  heads := .of_ignored fun _ _ _ hs => hs.congr rfl
  peers := .of_ignored fun _ _ _ hs => hs.congr rfl
  load := .of_ignored (fun _ _ hs => hs.congr rfl) (fun _ _ hs => hs.congr rfl) fun _ _ hs => hs.congr rfl
  track :=
    { listMove := fun _ _ _ _ hs he => hs.listMove he
      timeline := fun _ _ hl hs =>
        ⟨hs.listSize, hs.returnSize, hs.exitSize, hl.elim id hs.timeline.trans', hs.counter, hs.ordered, hs.counted⟩
      records := fun _ _ hs =>
        ⟨hs.listSize, hs.returnSize, hs.exitSize, hs.timeline, hs.counter, hs.ordered, hs.counted⟩
      freshAtr := fun _ _ => atrInv_reset.congr rfl }
  table := .of_ignored fun _ _ hs => hs.congr rfl
  store := .of_ignored (fun _ _ hs => hs.congr rfl) fun _ _ hs => hs.congr rfl
  start := .of_reset (fun _ _ hs => hs.congr rfl) (fun _ _ _ hs => hs.congr rfl) atrInv_reset
    (fun _ => atrInv_reset.congr rfl) (endLoading_ignored fun _ _ _ _ _ _ _ hs => hs.congr rfl)

end Sys2Proof.Machine

open Sys2Proof Sys2Proof.Machine

/-- Settles O58: the three invariants are kept by each group of moves, which are looked at one by one where they touch the
invariant's own block. -/
theorem everyStepKeepsLoadAndAxles : Obligations.EveryStepKeepsLoadAndAxles := by
  intro s t he
  exact ⟨LfeInv.grouped.step (fun _ _ hs => hs.congr rfl rfl) he, WhuInv.grouped.step (fun _ _ hs => hs.congr rfl) he,
    AtrInv.grouped.step (fun _ _ hs => hs.congr rfl) he⟩

end

section
/-! The invariant of the Span Line Controller. -/

namespace Sys2Proof.Machine

open Sys2Proof

/-! ### The transmit queues (R88, R93, R94) -/

/-- The part of the invariant that speaks of the transmit queues. -/
structure QueuesGood (c : Slc) : Prop where
  urgent    : c.urgent.length ≤ 8
  bulk      : c.bulk.length ≤ 32
  service   : c.service.length ≤ 4
  listening : c.line = .listen → c.urgent = [] ∧ c.timing = none ∧ c.bulk = [] ∧ c.service = []
  muted     : c.line = .muted → c.urgent = [] ∧ c.bulk = [] ∧ c.service = []

/-- Two controllers with the same receive side. -/
structure Slc.sameReceive (c d : Slc) : Prop where
  queue : d.receiveQueue = c.receiveQueue
  hold  : d.hold = c.hold
  nodes : d.lastSequence = c.lastSequence

theorem SlcInv.queues {s : State} (h : SlcInv s) : QueuesGood s.slc :=
  ⟨h.urgent, h.bulk, h.service, h.listening, h.muted⟩

/-- A change to the transmit side alone. -/
theorem SlcInv.sent {s : State} (h : SlcInv s) {t : State} (hq : QueuesGood t.slc) (hr : s.slc.sameReceive t.slc) :
    SlcInv t := by
  obtain ⟨hqueue, hhold, hnodes⟩ := hr
  refine ⟨hq.urgent, hq.bulk, hq.service, ?_, ?_, ?_, ?_, hq.listening, hq.muted⟩
  · rw [hqueue]; exact h.receive
  · rw [hqueue, hhold]; exact h.holdOn
  · rw [hqueue, hhold]; exact h.holdOff
  · rw [hnodes]; exact h.nodes

theorem SlcInv.setSlc {s : State} (h : SlcInv s) {c : Slc} {k : Cnd} (hq : QueuesGood c) (hr : s.slc.sameReceive c) :
    SlcInv { s with slc := c, cnd := k } := h.sent hq hr

theorem SlcInv.congr {s : State} (h : SlcInv s) {t : State} (hslc : t.slc = s.slc) : SlcInv t :=
  h.sent (hslc ▸ h.queues) (hslc ▸ ⟨rfl, rfl, rfl⟩)

/-- What the transmit queues are does not depend on the remaining fields. -/
theorem QueuesGood.congr {c : Slc} (h : QueuesGood c) {d : Slc} (hurgent : d.urgent = c.urgent) (htiming : d.timing = c.timing)
    (hbulk : d.bulk = c.bulk) (hservice : d.service = c.service) (hline : d.line = c.line) : QueuesGood d := by
  obtain ⟨h1, h2, h3, h4, h5⟩ := h
  constructor
  · rw [hurgent]; exact h1
  · rw [hbulk]; exact h2
  · rw [hservice]; exact h3
  · rw [hurgent, htiming, hbulk, hservice, hline]; exact h4
  · rw [hurgent, hbulk, hservice, hline]; exact h5

/-- R88: a frame that the line state lets in does not overfill its queue, and MUTED lets in no frame but a HAIL. -/
theorem QueuesGood.enqueue {c : Slc} (h : QueuesGood c) {f : TxFrame} (hs : sendsKind c.line (kindOfBody f.body) = true) :
    QueuesGood (enqueue c f).1 := by
  have hlisten : c.line ≠ .listen := fun e => by simp [e, sendsKind] at hs
  have hmuted : classOfBody f.body ≠ .timing → c.line ≠ .muted := by
    intro hc e
    refine hc ?_
    rw [e] at hs
    rw [classOfBody, show kindOfBody f.body = .hail by simpa [sendsKind] using hs]
    rfl
  obtain ⟨hurgent, hbulk, hservice, _, hm⟩ := h
  unfold Machine.enqueue
  split
  case h_1 hc =>
    have hm' := hmuted (by simp [hc])
    split
    · exact ⟨by simp; omega, hbulk, hservice, fun e => absurd e hlisten, fun e => absurd e hm'⟩
    · exact ⟨hurgent, hbulk, hservice, fun e => absurd e hlisten, fun e => absurd e hm'⟩
  case h_2 =>
    split <;> exact ⟨hurgent, hbulk, hservice, fun e => absurd e hlisten, hm⟩
  case h_3 hc =>
    have hm' := hmuted (by simp [hc])
    split
    · exact ⟨hurgent, by simp; omega, hservice, fun e => absurd e hlisten, fun e => absurd e hm'⟩
    · exact ⟨hurgent, hbulk, hservice, fun e => absurd e hlisten, fun e => absurd e hm'⟩
  case h_4 hc =>
    have hm' := hmuted (by simp [hc])
    split
    · exact ⟨hurgent, hbulk, by simp; omega, fun e => absurd e hlisten, fun e => absurd e hm'⟩
    · exact ⟨hurgent, hbulk, hservice, fun e => absurd e hlisten, fun e => absurd e hm'⟩

theorem enqueue_sameReceive (c : Slc) (f : TxFrame) : c.sameReceive (enqueue c f).1 := by
  unfold enqueue
  split <;> split <;> exact ⟨rfl, rfl, rfl⟩

theorem SlcInv.handOver {s : State} (h : SlcInv s) (b : Body) (n : BitVec 4) : SlcInv (handOver b n s) := by
  unfold Machine.handOver
  split
  case isTrue hs =>
    have hqueues := (h.queues.congr (d := { s.slc with sequence := s.slc.sequence + 1 }) rfl rfl rfl rfl rfl).enqueue
      (f := { body := b, target := n, seq := s.slc.sequence + 1, failed := 0, held := 0 }) hs
    obtain ⟨hqueue, hhold, hnodes⟩ := enqueue_sameReceive { s.slc with sequence := s.slc.sequence + 1 }
      { body := b, target := n, seq := s.slc.sequence + 1, failed := 0, held := 0 }
    exact kept_onlyIf (h.sent hqueues ⟨hqueue, hhold, hnodes⟩) fun hs => hs.congr rfl
  case isFalse => exact h

/-! ### Attempts (R90 to R94) -/

theorem QueuesGood.dropHead {c : Slc} (h : QueuesGood c) (k : FrameClass) : QueuesGood (dropHead k c) := by
  obtain ⟨hurgent, hbulk, hservice, hl, hm⟩ := h
  cases k <;>
    exact ⟨by simp [Machine.dropHead]; omega, by simp [Machine.dropHead]; omega, by simp [Machine.dropHead]; omega,
      fun e => by obtain ⟨h1, h2, h3, h4⟩ := hl e; simp [Machine.dropHead, h1, h2, h3, h4],
      fun e => by obtain ⟨h1, h3, h4⟩ := hm e; simp [Machine.dropHead, h1, h3, h4]⟩

theorem QueuesGood.onHead {c : Slc} (h : QueuesGood c) (k : FrameClass) (f : TxFrame → TxFrame) :
    QueuesGood (onHead k f c) := by
  obtain ⟨hurgent, hbulk, hservice, hl, hm⟩ := h
  cases k <;>
    exact ⟨by simp [Machine.onHead]; omega, by simp [Machine.onHead]; omega, by simp [Machine.onHead]; omega,
      fun e => by obtain ⟨h1, h2, h3, h4⟩ := hl e; simp [Machine.onHead, h1, h2, h3, h4],
      fun e => by obtain ⟨h1, h3, h4⟩ := hm e; simp [Machine.onHead, h1, h3, h4]⟩

theorem dropHead_sameReceive (k : FrameClass) (c : Slc) : c.sameReceive (dropHead k c) := by
  cases k <;> exact ⟨rfl, rfl, rfl⟩

theorem onHead_sameReceive (k : FrameClass) (f : TxFrame → TxFrame) (c : Slc) : c.sameReceive (onHead k f c) := by
  cases k <;> exact ⟨rfl, rfl, rfl⟩

theorem QueuesGood.placeWaitingHail {c : Slc} (h : QueuesGood c) : QueuesGood (placeWaitingHail c) := by
  unfold Machine.placeWaitingHail
  split
  · exact h
  · refine ⟨h.urgent, h.bulk, h.service, fun e => ?_, h.muted⟩
    obtain ⟨h1, _, h3, h4⟩ := h.listening e
    exact ⟨h1, if_pos (by simpa using e), h3, h4⟩

theorem placeWaitingHail_sameReceive (c : Slc) : c.sameReceive (placeWaitingHail c) := by
  unfold placeWaitingHail
  split <;> exact ⟨rfl, rfl, rfl⟩

theorem SlcInv.loseArbitration {s : State} (h : SlcInv s) : SlcInv (loseArbitration s) := by
  unfold Machine.loseArbitration
  split
  · exact h
  · obtain ⟨hqueue, hhold, hnodes⟩ := placeWaitingHail_sameReceive { s.slc with sending := none }
    have hidle : QueuesGood { s.slc with sending := none } := h.queues.congr rfl rfl rfl rfl rfl
    exact h.setSlc hidle.placeWaitingHail ⟨hqueue, hhold, hnodes⟩

theorem SlcInv.enterMuted {s : State} (h : SlcInv s) : SlcInv (enterMuted s) :=
  h.sent ⟨Nat.zero_le _, Nat.zero_le _, Nat.zero_le _, fun e => (nomatch e), fun _ => ⟨rfl, rfl, rfl⟩⟩ ⟨rfl, rfl, rfl⟩

theorem SlcInv.enterListen {s : State} (h : SlcInv s) : SlcInv (enterListen s) :=
  h.sent ⟨Nat.zero_le _, Nat.zero_le _, Nat.zero_le _, fun _ => ⟨rfl, rfl, rfl, rfl⟩, fun e => nomatch e⟩ ⟨rfl, rfl, rfl⟩

theorem SlcInv.attemptSuccess {s : State} (h : SlcInv s) (k : FrameClass) : SlcInv (attemptSuccess k s) := by
  have hcounted : QueuesGood { s.slc with droppedRun := 0, duplicateRun := 0 } := h.queues.congr rfl rfl rfl rfl rfl
  have hqueues := hcounted.dropHead k
  obtain ⟨hqueue, hhold, hnodes⟩ := dropHead_sameReceive k { s.slc with droppedRun := 0, duplicateRun := 0 }
  unfold Machine.attemptSuccess
  simp only
  split
  · refine h.sent ⟨hqueues.urgent, hqueues.bulk, hqueues.service, ?_, ?_⟩ ⟨hqueue, hhold, hnodes⟩ <;>
      · intro e
        simp only [reportAbsent_slc] at e
        split at e <;> cases e
  · exact h.sent hqueues ⟨hqueue, hhold, hnodes⟩

theorem SlcInv.attemptHeld {s : State} (h : SlcInv s) (f : TxFrame) : SlcInv (attemptHeld f s) := by
  have hqueues : QueuesGood { s.slc with droppedRun := 0, duplicateRun := 0, backoff := some (addUs s.now 20000) } :=
    h.queues.congr rfl rfl rfl rfl rfl
  unfold Machine.attemptHeld
  simp only
  split
  · obtain ⟨hqueue, hhold, hnodes⟩ := onHead_sameReceive .bulk (fun x => { x with held := f.held + 1 })
      { s.slc with droppedRun := 0, duplicateRun := 0, backoff := some (addUs s.now 20000) }
    exact h.setSlc (hqueues.onHead _ _) ⟨hqueue, hhold, hnodes⟩
  · obtain ⟨hqueue, hhold, hnodes⟩ := dropHead_sameReceive .bulk
      { s.slc with droppedRun := 0, duplicateRun := 0, backoff := some (addUs s.now 20000) }
    exact h.setSlc (hqueues.dropHead _) ⟨hqueue, hhold, hnodes⟩

theorem SlcInv.attemptFailed {s : State} (h : SlcInv s) (k : FrameClass) (f : TxFrame) : SlcInv (attemptFailed k f s) := by
  unfold Machine.attemptFailed
  split
  case isTrue hmuted =>
    have hline : s.slc.line = .muted := by simpa using hmuted
    exact h.sent ⟨h.urgent, h.bulk, h.service, fun e => (nomatch hline.symm.trans e), h.muted⟩ ⟨rfl, rfl, rfl⟩
  case isFalse =>
    split
    · exact h.sent (h.queues.onHead _ _) (onHead_sameReceive _ _ _)
    · obtain ⟨hqueue, hhold, hnodes⟩ := dropHead_sameReceive k { s.slc with droppedRun := s.slc.droppedRun + 1 }
      have hcounted : QueuesGood { s.slc with droppedRun := s.slc.droppedRun + 1 } := h.queues.congr rfl rfl rfl rfl rfl
      exact kept_onlyIf (h.setSlc (hcounted.dropHead k) ⟨hqueue, hhold, hnodes⟩) fun hs => hs.enterMuted

theorem SlcInv.countBreakOff {s : State} (h : SlcInv s) (r : AttemptResult) : SlcInv (countBreakOff r s) := by
  unfold Machine.countBreakOff
  split <;> exact h.sent (h.queues.congr rfl rfl rfl rfl rfl) ⟨rfl, rfl, rfl⟩

theorem SlcInv.attemptOutcome {s : State} (h : SlcInv s) (r : AttemptResult) (f : TxFrame) :
    SlcInv (attemptOutcome r f s) := by
  unfold Machine.attemptOutcome
  simp only
  split
  · split
    · exact h.attemptHeld f
    · exact h.attemptSuccess _
  · exact kept_onlyIf ((h.countBreakOff r).attemptFailed _ f) fun hs => hs.enterListen

theorem SlcInv.endAttempt {s : State} (h : SlcInv s) (r : AttemptResult) : SlcInv (endAttempt r s) := by
  unfold Machine.endAttempt
  split
  · exact h
  · rename_i x _
    have hidle : SlcInv { s with slc := { s.slc with sending := none } } :=
      h.sent (h.queues.congr rfl rfl rfl rfl rfl) ⟨rfl, rfl, rfl⟩
    have hout := hidle.attemptOutcome r x.frame
    exact hout.sent hout.queues.placeWaitingHail (placeWaitingHail_sameReceive _)

/-! ### The receive queue (R99 to R101) -/

/-- R100: the receive queue replaced, with its hold. -/
theorem SlcInv.received {s : State} (h : SlcInv s) {q : List RxFrame} (hq : q.length ≤ 32) {a b : Bool} {n : List (Option Byte)}
    (hn : n.length = 16) :
    SlcInv { s with slc := { setReceiveQueue q s.slc with lastSequence := n, ackDriven := a, holdDriven := b } } := by
  have hon := h.holdOn
  have hoff := h.holdOff
  refine ⟨h.urgent, h.bulk, h.service, hq, ?_, ?_, hn, h.listening, h.muted⟩
  all_goals
    intro hlength
    simp only [setReceiveQueue, holdAfter] at hlength ⊢
    cases hhold : s.slc.hold <;> simp only [hhold, Bool.false_eq_true, imp_false, reduceCtorEq] at hon hoff <;>
      split <;> simp <;> omega

theorem SlcInv.acceptHead {s : State} (h : SlcInv s) : SlcInv (acceptHead s) := by
  have hr := h.receive
  exact h.received (q := s.slc.receiveQueue.tail) (a := s.slc.ackDriven) (b := s.slc.holdDriven)
    (by rw [List.length_tail]; omega) h.nodes

theorem SlcInv.driveSlots {s : State} (h : SlcInv s) (a : Bool) : SlcInv (driveSlots a s) :=
  h.sent (h.queues.congr rfl rfl rfl rfl rfl) ⟨rfl, rfl, rfl⟩

theorem SlcInv.admitFrame {s : State} (h : SlcInv s) (k : FrameKind) (t : Time) (f : LineFrame) :
    SlcInv (admitFrame k t f s) := by
  have hnodes : (setPlace s.slc.lastSequence f.node.toNat (some f.seq)).length = 16 := by
    rw [setPlace, List.length_set]; exact h.nodes
  unfold Machine.admitFrame
  split
  case isTrue => exact h.driveSlots true
  case isFalse =>
    split
    case isTrue =>
      refine SlcInv.driveSlots ?_ true
      exact ⟨h.urgent, h.bulk, h.service, h.receive, h.holdOn, h.holdOff, hnodes, h.listening, h.muted⟩
    case isFalse =>
      split
      case isTrue =>
        have hlatched : SlcInv (latch .overrun s) := h.congr rfl
        exact hlatched.driveSlots false
      case isFalse hroom =>
        split
        case isTrue => exact h.driveSlots false
        case isFalse =>
          have hlength : (s.slc.receiveQueue ++ [{ start := t, frame := f : RxFrame }]).length ≤ 32 := by
            rw [List.length_append, List.length_singleton]; omega
          exact h.received hlength hnodes

/-! ### The whole invariant -/

theorem slcInv_reset : SlcInv State.reset := by
  constructor <;> simp [State.reset, Slc.reset]

theorem SlcInv.endLoading {s : State} (h : SlcInv s) (x : ImageRead) : SlcInv (endLoading x s) := by
  have hline : ∀ l : LineState, l ≠ .listen → l ≠ .muted → QueuesGood { s.slc with line := l } := fun l hl hm =>
    ⟨h.urgent, h.bulk, h.service, fun e => absurd e hl, fun e => absurd e hm⟩
  have hfault : ∀ n, SlcInv (enterConfigFault n s) := by
    intro n
    unfold enterConfigFault handHail
    refine SlcInv.handOver ?_ _ _
    exact h.sent (hline .configFault (by decide) (by decide)) ⟨rfl, rfl, rfl⟩
  unfold Machine.endLoading
  split
  case isFalse => exact h
  case isTrue =>
    split
    · exact hfault _
    · exact hfault _
    · unfold enterSettling handHail
      refine SlcInv.congr (SlcInv.handOver ?_ _ _) rfl
      exact h.sent (hline .active (by decide) (by decide)) ⟨rfl, rfl, rfl⟩

theorem SlcInv.grouped : Grouped SlcInv where
  clock _ _ _ _ hs := hs.congr rfl
  line :=
    { latch := fun _ _ hs => hs.congr rfl
      clear := fun _ _ hs => hs.congr rfl
      handOver := fun b n _ hs => hs.handOver b n
      start := fun n s hs => by
        unfold Machine.startFrame
        split
        · split
          · exact hs
          · exact hs.sent (hs.queues.congr rfl rfl rfl rfl rfl) ⟨rfl, rfl, rfl⟩
        · exact hs
      lose := fun _ hs => hs.loseArbitration
      attempt := fun r _ hs => hs.endAttempt r
      backoff := fun _ hs => kept_onlyIf hs fun hs => hs.sent (hs.queues.congr rfl rfl rfl rfl rfl) ⟨rfl, rfl, rfl⟩
      probe := fun _ hs => kept_onlyIf hs fun hs => hs.sent (hs.queues.congr rfl rfl rfl rfl rfl) ⟨rfl, rfl, rfl⟩
      ignore := fun _ hs => hs.sent (hs.queues.congr rfl rfl rfl rfl rfl) ⟨rfl, rfl, rfl⟩
      admitted := fun k t f _ hs => hs.admitFrame k t f
      accept := fun _ hs _ => hs.acceptHead }
  heads := .of_ignored fun _ _ _ hs => hs.congr rfl
  peers := .of_ignored fun _ _ _ hs => hs.congr rfl
  load := .of_ignored (fun _ _ hs => hs.congr rfl) (fun _ _ hs => hs.congr rfl) fun _ _ hs => hs.congr rfl
  track := .of_ignored fun _ _ hs => hs.congr rfl
  table := .of_ignored fun _ _ hs => hs.congr rfl
  store := .of_ignored (fun _ _ hs => hs.congr rfl) fun _ _ hs => hs.congr rfl
  start := .of_reset (fun _ _ hs => hs.congr rfl) (fun _ _ _ hs => hs.congr rfl) slcInv_reset
    (fun _ => slcInv_reset.congr rfl) fun x _ hs => hs.endLoading x

end Sys2Proof.Machine

end

section
/-! The invariants of the Condition Unit, the Peer Table and the Start-up Control. -/

namespace Sys2Proof.Machine

open Sys2Proof

/-! ### Masks as sets of causes (R184) -/

theorem priority_eq_iff (c d : Cause) : priority c - 1 = priority d - 1 ↔ c = d := by
  cases c <;> cases d <;> decide

theorem priority_lt (c : Cause) : priority c - 1 < 9 := by
  cases c <;> decide

theorem exists_priority (i : Nat) (h : i < 9) : ∃ c, priority c - 1 = i := by
  have hnine : i ∈ allCauses.map fun c => priority c - 1 := by
    rw [show (allCauses.map fun c => priority c - 1) = List.range 9 from rfl, List.mem_range]
    exact h
  obtain ⟨c, _, hc⟩ := List.mem_map.mp hnine
  exact ⟨c, hc⟩

@[simp] theorem hasCause_or (m n : CauseMask) (c : Cause) : hasCause (m ||| n) c = (hasCause m c || hasCause n c) :=
  BitVec.getLsbD_or

@[simp] theorem hasCause_and (m n : CauseMask) (c : Cause) : hasCause (m &&& n) c = (hasCause m c && hasCause n c) :=
  BitVec.getLsbD_and

@[simp] theorem hasCause_not (m : CauseMask) (c : Cause) : hasCause (~~~ m) c = !hasCause m c := by
  simp [hasCause, priority_lt c]

@[simp] theorem hasCause_zero (c : Cause) : hasCause 0#9 c = false := by
  simp [hasCause]

@[simp] theorem hasCause_causeBit (c d : Cause) : hasCause (causeBit c) d = (c == d) := by
  rw [hasCause, causeBit, BitVec.getLsbD_twoPow, Bool.eq_iff_iff]
  simp [priority_lt c, priority_eq_iff]

@[simp] theorem hasCause_persistentMask (c : Cause) :
    hasCause persistentMask c = (c == .config || c == .line || c == .head || c == .layout) := by
  cases c <;> decide

/-- A mask lies within another when every cause it holds is in the other. -/
theorem mask_within_iff (m n : CauseMask) : m &&& ~~~ n = 0 ↔ ∀ c, hasCause m c = true → hasCause n c = true := by
  constructor
  · intro h c hm
    have hbit : hasCause (m &&& ~~~ n) c = false := h ▸ hasCause_zero c
    simpa [hm] using hbit
  · intro h
    refine BitVec.eq_of_getLsbD_eq fun i hi => ?_
    obtain ⟨c, rfl⟩ := exists_priority i hi
    show hasCause (m &&& ~~~ n) c = hasCause 0 c
    cases hm : hasCause m c
    · simp [hm]
    · simp [h c hm]

/-! ### Latched causes, present conditions and the pin (R185, R187) -/

/-- The part of the invariant that speaks of the Condition Unit alone. -/
structure CausesGood (k : Cnd) : Prop where
  pin        : k.faultLow = ((k.latched &&& k.enable) != 0)
  latched    : ∀ c, hasCause k.present c = true → hasCause k.latched c = true
  persistent : ∀ c, hasCause k.present c = true → hasCause persistentMask c = true

/-- The conditions reported present are those the blocks find. -/
structure CausesFollow (s : State) : Prop where
  config : hasCause s.cnd.present .config = (s.stc.station == .configFault)
  line   : hasCause s.cnd.present .line = (s.slc.line == .listen || s.slc.line == .muted)
  head   : hasCause s.cnd.present .head = anyFault s
  layout : hasCause s.cnd.present .layout = s.ptb.layout

/-- In LOADING the SLC is not on the line. -/
def QuietInLoading (s : State) : Prop := s.stc.station = .loading → s.slc.sending = none ∧ s.slc.line = .active

theorem cndInv_iff (s : State) : CndInv s ↔ CausesGood s.cnd ∧ CausesFollow s ∧ QuietInLoading s := by
  constructor
  · rintro ⟨hpin, hlatched, hpersistent, hconfig, hline, hhead, hlayout, hloading⟩
    exact ⟨⟨hpin, (mask_within_iff _ _).mp hlatched, (mask_within_iff _ _).mp hpersistent⟩,
      ⟨hconfig, hline, hhead, hlayout⟩, hloading⟩
  · rintro ⟨⟨hpin, hlatched, hpersistent⟩, ⟨hconfig, hline, hhead, hlayout⟩, hloading⟩
    exact ⟨hpin, (mask_within_iff _ _).mpr hlatched, (mask_within_iff _ _).mpr hpersistent, hconfig, hline, hhead, hlayout,
      hloading⟩

theorem CausesGood.latch {s : State} (h : CausesGood s.cnd) (c : Cause) : CausesGood (latch c s).cnd :=
  ⟨rfl, fun d hd => by simp [h.latched d hd], h.persistent⟩

theorem CausesGood.reportPresent {s : State} (h : CausesGood s.cnd) {c : Cause} (hc : hasCause persistentMask c = true) :
    CausesGood (reportPresent c s).cnd := by
  refine ⟨rfl, fun d hd => ?_, fun d hd => ?_⟩
  all_goals
    simp only [reportPresent_cnd_present, hasCause_or, hasCause_causeBit, Bool.or_eq_true, beq_iff_eq] at hd
  · rcases hd with hd | rfl
    · simp [h.latched d hd]
    · simp
  · rcases hd with hd | rfl
    · exact h.persistent d hd
    · exact hc

theorem CausesGood.reportAbsent {s : State} (h : CausesGood s.cnd) (c : Cause) : CausesGood (reportAbsent c s).cnd := by
  refine ⟨h.pin, fun d hd => ?_, fun d hd => ?_⟩
  all_goals
    simp only [reportAbsent_cnd_present, hasCause_and, Bool.and_eq_true] at hd
  · exact h.latched d hd.1
  · exact h.persistent d hd.1

theorem CausesGood.clear {s : State} (h : CausesGood s.cnd) (m : CauseMask) : CausesGood (clearCauses m s).cnd := by
  refine ⟨rfl, fun d hd => ?_, h.persistent⟩
  simp only [clearCauses_cnd_present] at hd
  simp [hd, h.latched d hd]

theorem CausesGood.setEnable {s : State} (h : CausesGood s.cnd) (m : CauseMask) : CausesGood (setEnable m s).cnd :=
  ⟨rfl, h.latched, h.persistent⟩

/-- What is reported present of the other causes does not change with one. -/
theorem present_reportPresent (c d : Cause) (s : State) :
    hasCause (reportPresent c s).cnd.present d = (hasCause s.cnd.present d || c == d) := by simp

theorem present_reportAbsent (c d : Cause) (s : State) :
    hasCause (reportAbsent c s).cnd.present d = (hasCause s.cnd.present d && c != d) := by simp [bne]

/-! ### The whole invariant -/

/-- What the invariant reads of the blocks other than the Condition Unit. -/
structure SameSources (s t : State) : Prop where
  station : t.stc.station = s.stc.station
  line    : t.slc.line = s.slc.line
  sending : t.slc.sending = s.slc.sending
  heads   : anyFault t = anyFault s
  layout  : t.ptb.layout = s.ptb.layout

theorem CausesFollow.congr {s : State} (h : CausesFollow s) {t : State} (hp : t.cnd.present = s.cnd.present)
    (hs : SameSources s t) : CausesFollow t := by
  obtain ⟨hconfig, hline, hhead, hlayout⟩ := h
  refine ⟨?_, ?_, ?_, ?_⟩ <;> rw [hp]
  · rw [hs.station, hconfig]
  · rw [hs.line, hline]
  · rw [hs.heads, hhead]
  · rw [hs.layout, hlayout]

theorem CndInv.good {s : State} (h : CndInv s) : CausesGood s.cnd := ((cndInv_iff s).mp h).1

theorem CndInv.follow {s : State} (h : CndInv s) : CausesFollow s := ((cndInv_iff s).mp h).2.1

/-- A change that touches none of the sources and whose causes are still good. -/
theorem CndInv.kept {s : State} (h : CndInv s) {t : State} (hgood : CausesGood t.cnd) (hp : t.cnd.present = s.cnd.present)
    (hs : SameSources s t) : CndInv t := by
  refine (cndInv_iff t).mpr ⟨hgood, h.follow.congr hp hs, fun hl => ?_⟩
  rw [hs.sending, hs.line]
  exact h.loading (hs.station ▸ hl)

theorem CndInv.congr {s : State} (h : CndInv s) {t : State} (hcnd : t.cnd = s.cnd) (hs : SameSources s t) : CndInv t :=
  h.kept (hcnd ▸ h.good) (by rw [hcnd]) hs

theorem CndInv.latch {s : State} (h : CndInv s) (c : Cause) : CndInv (latch c s) :=
  h.kept (h.good.latch c) rfl ⟨rfl, rfl, rfl, rfl, rfl⟩

theorem CndInv.handOver {s : State} (h : CndInv s) (b : Body) (n : BitVec 4) : CndInv (handOver b n s) := by
  have hsource : ∀ c f, (enqueue c f).1.line = c.line ∧ (enqueue c f).1.sending = c.sending := by
    intro c f
    unfold enqueue
    split <;> split <;> exact ⟨rfl, rfl⟩
  unfold Machine.handOver
  split
  · obtain ⟨hline, hsending⟩ := hsource { s.slc with sequence := s.slc.sequence + 1 }
      { body := b, target := n, seq := s.slc.sequence + 1, failed := 0, held := 0 }
    exact kept_onlyIf (h.congr rfl ⟨rfl, hline, hsending, rfl, rfl⟩) fun hs => hs.latch .overrun
  · exact h

/-! ### Attempts (R90 to R94) -/

/-- Off LOADING, a change of the line state is right when LINE is present in LISTEN and MUTED only. -/
theorem CndInv.ofLine {s : State} (h : CndInv s) {t : State} (hon : s.stc.station ≠ .loading) (hgood : CausesGood t.cnd)
    (hother : ∀ d, d ≠ .line → hasCause t.cnd.present d = hasCause s.cnd.present d) (hstation : t.stc.station = s.stc.station)
    (hheads : anyFault t = anyFault s) (hlayout : t.ptb.layout = s.ptb.layout)
    (hline : hasCause t.cnd.present .line = (t.slc.line == .listen || t.slc.line == .muted)) : CndInv t := by
  obtain ⟨hc, _, hh, hl⟩ := h.follow
  refine (cndInv_iff t).mpr ⟨hgood, ⟨?_, hline, ?_, ?_⟩, fun e => absurd (hstation ▸ e) hon⟩
  · rw [hother _ (by decide), hc, hstation]
  · rw [hother _ (by decide), hh, hheads]
  · rw [hother _ (by decide), hl, hlayout]

theorem CndInv.slcOffLoading {s : State} (h : CndInv s) (hon : s.stc.station ≠ .loading) {c : Slc} (hc : c.line = s.slc.line) :
    CndInv { s with slc := c } := by
  refine h.ofLine hon h.good (fun _ _ => rfl) rfl rfl rfl ?_
  rw [show ({ s with slc := c } : State).slc.line = s.slc.line from hc]
  exact h.follow.line

theorem CndInv.enterLine {s : State} (h : CndInv s) (hon : s.stc.station ≠ .loading) {c : Slc}
    (hc : c.line = .listen ∨ c.line = .muted) : CndInv (reportPresent .line { s with slc := c }) := by
  refine h.ofLine hon (CausesGood.reportPresent (s := { s with slc := c }) h.good (by decide)) (fun d hd => ?_) rfl rfl rfl ?_
  · rw [present_reportPresent]
    simp [hd.symm]
  · rw [present_reportPresent]
    rcases hc with hc | hc <;> simp [hc]

theorem dropHead_line (k : FrameClass) (c : Slc) : (dropHead k c).line = c.line := by cases k <;> rfl

theorem onHead_line (k : FrameClass) (f : TxFrame → TxFrame) (c : Slc) : (onHead k f c).line = c.line := by cases k <;> rfl

theorem placeWaitingHail_line (c : Slc) : (placeWaitingHail c).line = c.line := by
  unfold placeWaitingHail
  split <;> rfl

/-- Off LOADING, and the invariant: what an attempt on the line starts from and keeps. -/
def OnLineGood (s : State) : Prop := s.stc.station ≠ .loading ∧ CndInv s

theorem OnLineGood.setSlc {s : State} (h : OnLineGood s) {c : Slc} (hc : c.line = s.slc.line) :
    OnLineGood { s with slc := c } := ⟨h.1, h.2.slcOffLoading h.1 hc⟩

theorem OnLineGood.attemptSuccess {s : State} (h : OnLineGood s) (k : FrameClass) : OnLineGood (attemptSuccess k s) := by
  obtain ⟨hon, hinv⟩ := h
  unfold Machine.attemptSuccess
  simp only
  split
  · refine ⟨hon, hinv.ofLine hon (CausesGood.reportAbsent hinv.good .line) (fun d hd => ?_) rfl rfl rfl ?_⟩
    · rw [present_reportAbsent]
      simp [bne, hd.symm]
    · rw [present_reportAbsent]
      simp only [reportAbsent_slc]
      split <;> simp
  · exact ⟨hon, hinv.slcOffLoading hon (dropHead_line _ _)⟩

theorem OnLineGood.attemptFailed {s : State} (h : OnLineGood s) (k : FrameClass) (f : TxFrame) :
    OnLineGood (attemptFailed k f s) := by
  unfold Machine.attemptFailed
  split
  · exact h.setSlc rfl
  · split
    · exact h.setSlc (onHead_line _ _ _)
    · refine kept_onlyIf (h.setSlc (dropHead_line _ _)) fun hs => ⟨hs.1, hs.2.enterLine hs.1 (.inr rfl)⟩

theorem OnLineGood.attemptOutcome {s : State} (h : OnLineGood s) (r : AttemptResult) (f : TxFrame) :
    OnLineGood (attemptOutcome r f s) := by
  have hcounted : OnLineGood (countBreakOff r s) := by
    unfold countBreakOff
    split <;> exact h.setSlc rfl
  unfold Machine.attemptOutcome
  simp only
  split
  · split
    · unfold attemptHeld
      simp only
      split
      · exact h.setSlc (onHead_line _ _ _)
      · exact h.setSlc (dropHead_line _ _)
    · exact h.attemptSuccess _
  · exact kept_onlyIf (hcounted.attemptFailed _ f) fun hs => ⟨hs.1, hs.2.enterLine hs.1 (.inl rfl)⟩

/-- A station in LOADING sends nothing, so no attempt ends there. -/
theorem CndInv.endAttempt {s : State} (h : CndInv s) (r : AttemptResult) : CndInv (endAttempt r s) := by
  unfold Machine.endAttempt
  split
  · exact h
  · rename_i x hsending
    have hon : s.stc.station ≠ .loading := fun e => by
      have hnone := (h.loading e).1
      rw [hsending] at hnone
      cases hnone
    have hidle : OnLineGood { s with slc := { s.slc with sending := none } } := ⟨hon, h.slcOffLoading hon rfl⟩
    exact ((hidle.attemptOutcome r x.frame).setSlc (placeWaitingHail_line _)).2

theorem CndInv.loseArbitration {s : State} (h : CndInv s) : CndInv (loseArbitration s) := by
  unfold Machine.loseArbitration
  split
  · exact h
  · rename_i x hsending
    have hon : s.stc.station ≠ .loading := fun e => by
      have hnone := (h.loading e).1
      rw [hsending] at hnone
      cases hnone
    exact h.slcOffLoading hon (placeWaitingHail_line _)

theorem CndInv.startFrame {s : State} (h : CndInv s) (n : Nat) : CndInv (startFrame n s) := by
  unfold Machine.startFrame
  split
  · rename_i hgo
    split
    · exact h
    · have hon : s.stc.station ≠ .loading := by
        simp only [onLine, Bool.and_eq_true, bne_iff_ne] at hgo
        exact hgo.1.1
      exact h.slcOffLoading hon rfl
  · exact h

theorem CndInv.admitFrame {s : State} (h : CndInv s) (k : FrameKind) (t : Time) (f : LineFrame) :
    CndInv (admitFrame k t f s) := by
  unfold Machine.admitFrame
  split
  · exact h.congr rfl ⟨rfl, rfl, rfl, rfl, rfl⟩
  · split
    · exact h.congr rfl ⟨rfl, rfl, rfl, rfl, rfl⟩
    · split
      · exact (h.latch .overrun).congr rfl ⟨rfl, rfl, rfl, rfl, rfl⟩
      · split <;> exact h.congr rfl ⟨rfl, rfl, rfl, rfl, rfl⟩

/-! ### Head faults and layout (R32, R35, R116) -/

theorem anyFault_iff (s : State) :
    anyFault s = true ↔ ∃ e, (endUnit s e).fault1 = true ∨ (endUnit s e).fault2 = true := by
  constructor
  · intro h
    simp only [anyFault, Bool.or_eq_true] at h
    rcases h with ((h | h) | h) | h
    · exact ⟨.a, .inl h⟩
    · exact ⟨.a, .inr h⟩
    · exact ⟨.b, .inl h⟩
    · exact ⟨.b, .inr h⟩
  · rintro ⟨e | e, h | h⟩ <;> simp only [endUnit] at h <;> simp [anyFault, h]

theorem anyFault_congr {s t : State} (h : ∀ e, (endUnit t e).fault1 = (endUnit s e).fault1 ∧
    (endUnit t e).fault2 = (endUnit s e).fault2) : anyFault t = anyFault s := by
  rw [Bool.eq_iff_iff, anyFault_iff, anyFault_iff]
  refine exists_congr fun e => ?_
  rw [(h e).1, (h e).2]

theorem anyFault_setEndUnit_same {s : State} {e : PlatformEnd} {u : EndUnit} (h1 : u.fault1 = (endUnit s e).fault1)
    (h2 : u.fault2 = (endUnit s e).fault2) : anyFault (setEndUnit e u s) = anyFault s := by
  cases e <;> simp only [endUnit] at h1 h2 <;> simp [anyFault, setEndUnit, h1, h2]

theorem setEndUnit_sources {s : State} {e : PlatformEnd} {u : EndUnit} (h : anyFault (setEndUnit e u s) = anyFault s) :
    SameSources s (setEndUnit e u s) := by
  cases e <;> exact ⟨rfl, rfl, rfl, h, rfl⟩

/-- A change of the head faults of one end, HEAD reported accordingly. -/
theorem CndInv.ofHeads {s : State} (h : CndInv s) {e : PlatformEnd} {u : EndUnit} {k : Cnd} (hgood : CausesGood k)
    (hother : ∀ d, d ≠ .head → hasCause k.present d = hasCause s.cnd.present d)
    (hhead : hasCause k.present .head = anyFault (setEndUnit e u s)) :
    CndInv { setEndUnit e u s with cnd := k } := by
  obtain ⟨hc, hl, _, hy⟩ := h.follow
  have hloading := h.loading
  cases e <;>
  · refine (cndInv_iff _).mpr ⟨hgood, ⟨?_, ?_, hhead, ?_⟩, hloading⟩
    · exact (hother _ (by decide)).trans hc
    · exact (hother _ (by decide)).trans hl
    · exact (hother _ (by decide)).trans hy

/-- R31, R32: the fault that a run of four sets is the one that HEAD reports. -/
theorem CndInv.discardHalf {s : State} (h : CndInv s) (e : PlatformEnd) (g : HeadNo) : CndInv (discardHalf e g s) := by
  have hfault : ∀ u : EndUnit, (discardedEnd g u).runCount = 4 →
      (discardedEnd g u).fault1 = true ∨ (discardedEnd g u).fault2 = true := by
    intro u hrun
    cases g <;> simp_all [discardedEnd]
  have hsame : ∀ u : EndUnit, (discardedEnd g u).runCount ≠ 4 →
      (discardedEnd g u).fault1 = u.fault1 ∧ (discardedEnd g u).fault2 = u.fault2 := by
    intro u hrun
    cases g <;> simp_all [discardedEnd]
  unfold Machine.discardHalf
  rw [faultByRun_countUnpaired]
  simp only
  by_cases hrun : (discardedEnd g (endUnit s e)).runCount = 4
  · rw [hrun, beq_self_eq_true, onlyIf_true]
    have hcnd := h.ofHeads (e := e) (u := discardedEnd g (endUnit s e))
      (k := (reportPresent .head s).cnd) (h.good.reportPresent (by decide))
      (fun d hd => by rw [present_reportPresent]; simp [hd.symm])
      (by
        rw [present_reportPresent]
        have hany : anyFault (setEndUnit e (discardedEnd g (endUnit s e)) s) = true :=
          (anyFault_iff _).mpr ⟨e, by simpa using hfault _ hrun⟩
        simp [hany])
    cases e <;> exact hcnd
  · have hno : ((discardedEnd g (endUnit s e)).runCount == 4) = false := by simpa using hrun
    rw [hno, onlyIf_false]
    obtain ⟨h1, h2⟩ := hsame (endUnit s e) hrun
    exact h.congr (setEndUnit_cnd _ _ _) (setEndUnit_sources (anyFault_setEndUnit_same h1 h2))

/-- R35, R36: HEAD is no longer present when no fault remains. -/
theorem CndInv.clearFaults {s : State} (h : CndInv s) (e : PlatformEnd) : CndInv (clearFaults e s) := by
  have hany : anyFault (setEndUnit e { endUnit s e with fault1 := false, fault2 := false } s) = true → anyFault s = true := by
    simp only [anyFault_iff]
    rintro ⟨d, hd⟩
    cases d <;> cases e <;> simp [endUnit, setEndUnit] at hd
    · exact ⟨.a, hd⟩
    · exact ⟨.b, hd⟩
  unfold Machine.clearFaults
  simp only
  split
  · rename_i hleft
    exact h.congr (setEndUnit_cnd _ _ _) (setEndUnit_sources (hleft.trans (hany hleft).symm))
  · rename_i hleft
    have hcnd := h.ofHeads (e := e) (u := { endUnit s e with fault1 := false, fault2 := false })
      (k := (reportAbsent .head s).cnd) (h.good.reportAbsent .head)
      (fun d hd => by rw [present_reportAbsent]; simp [bne, hd.symm])
      (by rw [present_reportAbsent, Bool.eq_false_iff.mpr hleft]; simp)
    cases e <;> exact hcnd

/-- R116: LAYOUT is present while the condition is found. -/
theorem CndInv.assessLayout {s : State} (h : CndInv s) : CndInv (assessLayout s) := by
  obtain ⟨hc, hl, hh, hy⟩ := h.follow
  have hloading := h.loading
  have hset : ∀ k : Cnd, CausesGood k → (∀ d, d ≠ .layout → hasCause k.present d = hasCause s.cnd.present d) →
      hasCause k.present .layout = layoutFound s →
      CndInv { s with ptb := { s.ptb with layout := layoutFound s }, cnd := k } := by
    intro k hgood hother hlayout
    refine (cndInv_iff _).mpr ⟨hgood, ⟨?_, ?_, ?_, hlayout⟩, hloading⟩
    · exact (hother _ (by decide)).trans hc
    · exact (hother _ (by decide)).trans hl
    · exact (hother _ (by decide)).trans hh
  unfold Machine.assessLayout
  simp only
  split
  · rename_i hfound
    rw [Bool.and_eq_true] at hfound
    refine hset (reportPresent .layout s).cnd (h.good.reportPresent (by decide)) (fun d hd => ?_) ?_
    · rw [present_reportPresent]
      simp [hd.symm]
    · rw [present_reportPresent]
      simp [hfound.1]
  · rename_i hnew
    split
    · rename_i hgone
      rw [Bool.and_eq_true] at hgone
      refine hset (reportAbsent .layout s).cnd (h.good.reportAbsent .layout) (fun d hd => ?_) ?_
      · rw [present_reportAbsent]
        simp [bne, hd.symm]
      · rw [present_reportAbsent]
        simpa using hgone.1
    · rename_i hgone
      refine hset s.cnd h.good (fun _ _ => rfl) ?_
      rw [hy]
      cases hf : layoutFound s <;> cases hl : s.ptb.layout <;> simp_all

/-! ### Start-up -/

theorem cndInv_reset : CndInv State.reset := by
  refine (cndInv_iff _).mpr ⟨⟨rfl, fun c hc => ?_, fun c hc => ?_⟩, ⟨?_, ?_, ?_, ?_⟩, fun _ => ⟨rfl, rfl⟩⟩
  · exact hc
  · exact absurd hc (Bool.eq_false_iff.mp (hasCause_zero c))
  all_goals exact hasCause_zero _

/-- At the end of LOADING the line state becomes one in which LINE is not present, as it was before. -/
theorem CndInv.endLoading {s : State} (h : CndInv s) (x : ImageRead) : CndInv (endLoading x s) := by
  unfold Machine.endLoading
  split
  case isFalse => exact h
  case isTrue hs =>
    have hs : s.stc.station = .loading := by simpa using hs
    obtain ⟨hc, hl, hh, hy⟩ := h.follow
    rw [(h.loading hs).2] at hl
    rw [hs] at hc
    have hfault : ∀ n, CndInv (enterConfigFault n s) := by
      intro n
      unfold enterConfigFault handHail
      refine CndInv.handOver ?_ _ _
      refine (cndInv_iff _).mpr ⟨CausesGood.reportPresent (CausesGood.setEnable h.good _) (by decide), ⟨?_, ?_, ?_, ?_⟩,
        fun e => nomatch e⟩ <;> rw [present_reportPresent]
      · simp
      · exact (Bool.or_false _).trans hl
      · exact (Bool.or_false _).trans hh
      · exact (Bool.or_false _).trans hy
    split
    · exact hfault _
    · exact hfault _
    · unfold enterSettling handHail
      refine CndInv.kept (CndInv.handOver ?_ _ _) (CausesGood.setEnable (CndInv.good (CndInv.handOver ?_ _ _)) _) rfl
        ⟨rfl, rfl, rfl, rfl, rfl⟩
      all_goals
        exact (cndInv_iff _).mpr ⟨h.good, ⟨hc, hl, hh, hy⟩, fun e => nomatch e⟩

theorem CndInv.grouped : Grouped CndInv where
  clock _ _ _ _ hs := hs.congr rfl ⟨rfl, rfl, rfl, rfl, rfl⟩
  line :=
    { latch := fun c _ hs => hs.latch c
      clear := fun m _ hs => hs.kept (hs.good.clear m) rfl ⟨rfl, rfl, rfl, rfl, rfl⟩
      handOver := fun b n _ hs => hs.handOver b n
      start := fun n _ hs => hs.startFrame n
      lose := fun _ hs => hs.loseArbitration
      attempt := fun r _ hs => hs.endAttempt r
      backoff := fun _ hs => kept_onlyIf hs fun hs => hs.congr rfl ⟨rfl, rfl, rfl, rfl, rfl⟩
      probe := fun _ hs => kept_onlyIf hs fun hs => hs.congr rfl ⟨rfl, rfl, rfl, rfl, rfl⟩
      ignore := fun _ hs => hs.congr rfl ⟨rfl, rfl, rfl, rfl, rfl⟩
      admitted := fun k t f _ hs => hs.admitFrame k t f
      accept := fun _ hs _ => hs.congr rfl ⟨rfl, rfl, rfl, rfl, rfl⟩ }
  heads :=
    { unit := fun e u s hu hs => hs.congr (setEndUnit_cnd _ _ _) (setEndUnit_sources (anyFault_setEndUnit_same hu.1 hu.2.1))
      speeds := fun _ hs => hs.congr rfl ⟨rfl, rfl, rfl, rfl, rfl⟩
      discard := fun e g _ hs => hs.discardHalf e g
      faultsGone := fun e _ hs => hs.clearFaults e }
  peers :=
    { peer := fun _ _ _ hs => hs.congr rfl ⟨rfl, rfl, rfl, rfl, rfl⟩
      exit := fun _ hs => hs.congr rfl ⟨rfl, rfl, rfl, rfl, rfl⟩
      layout := fun _ hs => hs.assessLayout
      hailTimer := fun _ _ hs => hs.congr rfl ⟨rfl, rfl, rfl, rfl, rfl⟩ }
  load := .of_ignored (fun _ _ hs => hs.congr rfl ⟨rfl, rfl, rfl, rfl, rfl⟩) (fun c _ hs => hs.latch c) fun s h hs => by
    obtain ⟨hc, hl, hh, hy⟩ := hs.follow
    rw [h] at hc
    exact (cndInv_iff _).mpr ⟨hs.good, ⟨hc, hl, hh, hy⟩, fun e => nomatch e⟩
  track := .of_ignored fun _ _ hs => hs.congr rfl ⟨rfl, rfl, rfl, rfl, rfl⟩
  table := .of_ignored fun _ _ hs => hs.congr rfl ⟨rfl, rfl, rfl, rfl, rfl⟩
  store := .of_ignored (fun _ _ hs => hs.congr rfl ⟨rfl, rfl, rfl, rfl, rfl⟩) fun c _ hs => hs.latch c
  start := .of_reset (fun _ _ hs => hs.congr rfl ⟨rfl, rfl, rfl, rfl, rfl⟩)
    (fun _ _ _ hs => hs.congr rfl ⟨rfl, rfl, rfl, rfl, rfl⟩) cndInv_reset
    (fun _ => cndInv_reset.congr rfl ⟨rfl, rfl, rfl, rfl, rfl⟩) fun x _ hs => hs.endLoading x

/-! ### The Peer Table (R106, R115) -/

theorem PtbInv.congr {s : State} (h : PtbInv s) {t : State} (hpeers : t.ptb.peers = s.ptb.peers)
    (hexit : t.ptb.exitStation = s.ptb.exitStation) : PtbInv t :=
  ⟨hpeers ▸ h.places, hexit ▸ h.exit⟩

/-- R115: the furthest of a list is in it. -/
theorem furthest_mem {d : Direction} {s : State} : ∀ {xs : List Nat} {n : Nat}, furthest d s xs = some n → n ∈ xs
  | x :: xs, n, h => by
    have hfold : ∀ (ys : List Nat) (b : Nat),
        ys.foldl (fun best m => if furtherDown d s m best then m else best) b ∈ b :: ys := by
      intro ys
      induction ys with
      | nil => exact fun b => List.mem_singleton.mpr rfl
      | cons y ys ih =>
        intro b
        rw [List.foldl_cons]
        split
        · exact List.mem_cons_of_mem _ (ih y)
        · exact List.mem_cons.mpr ((List.mem_cons.mp (ih b)).imp id (List.mem_cons_of_mem _))
    simp only [furthest, Option.some.injEq] at h
    exact h ▸ hfold xs x

theorem ownNumber_lt (s : State) : ownNumber s < 8 := s.stc.number.isLt

theorem chooseExit_lt (s : State) : (chooseExit s).ptb.exitStation < 8 := by
  show (furthest s.ses.direction s (liveSet s)).getD (ownNumber s) < 8
  cases h : furthest s.ses.direction s (liveSet s) with
  | none => exact ownNumber_lt s
  | some n =>
    have hmem : n ∈ stationNumbers := (List.mem_filter.mp (furthest_mem h)).1
    simp only [stationNumbers, List.mem_cons, List.not_mem_nil, or_false] at hmem
    show n < 8
    omega

theorem ptbInv_reset : PtbInv State.reset := ⟨rfl, by decide⟩

theorem PtbInv.endLoading {s : State} (h : PtbInv s) (x : ImageRead) : PtbInv (endLoading x s) := by
  unfold Machine.endLoading
  split
  · split
    · exact h.congr (by simp [enterConfigFault]) (by simp [enterConfigFault])
    · exact h.congr (by simp [enterConfigFault]) (by simp [enterConfigFault])
    · exact h.congr (by simp [enterSettling]) (by simp [enterSettling])
  · exact h

theorem PtbInv.grouped : Grouped PtbInv where
  clock _ _ _ _ hs := hs.congr rfl rfl
  line := .of_ignored fun _ _ _ hs => hs.congr rfl rfl
  heads := .of_ignored fun _ _ _ hs => hs.congr rfl rfl
  peers :=
    { peer := fun _ _ _ hs => ⟨by simp [setPeer, setPlace, hs.places], hs.exit⟩
      exit := fun s hs => ⟨hs.places, chooseExit_lt s⟩
      layout := fun s hs => by
        obtain ⟨b, c, e⟩ := assessLayout_eq s
        exact e ▸ hs.congr rfl rfl
      hailTimer := fun _ _ hs => hs.congr rfl rfl }
  load := .of_ignored (fun _ _ hs => hs.congr rfl rfl) (fun _ _ hs => hs.congr rfl rfl) fun _ _ hs => hs.congr rfl rfl
  track := .of_ignored fun _ _ hs => hs.congr rfl rfl
  table := .of_ignored fun _ _ hs => hs.congr rfl rfl
  store := .of_ignored (fun _ _ hs => hs.congr rfl rfl) fun _ _ hs => hs.congr rfl rfl
  start := .of_reset (fun _ _ hs => hs.congr rfl rfl) (fun _ _ _ hs => hs.congr rfl rfl) ptbInv_reset
    (fun x => ⟨rfl, (strapNumber x).isLt⟩) fun x _ hs => hs.endLoading x

/-! ### The I2C pins (R192, R198) -/

theorem StcInv.congr {s : State} (h : StcInv s) {t : State} (hstc : t.stc = s.stc) : StcInv t :=
  ⟨hstc ▸ h.pins⟩

theorem stcInv_reset : StcInv State.reset := ⟨rfl⟩

theorem StcInv.endLoading {s : State} (h : StcInv s) (x : ImageRead) : StcInv (endLoading x s) := by
  unfold Machine.endLoading
  split
  · split
    · exact ⟨by simp [enterConfigFault]⟩
    · exact ⟨by simp [enterConfigFault]⟩
    · exact ⟨by simp [enterSettling]⟩
  · exact h

theorem StcInv.grouped : Grouped StcInv where
  clock _ _ _ _ hs := hs.congr rfl
  line := .of_ignored fun _ _ _ hs => hs.congr rfl
  heads := .of_ignored fun _ _ _ hs => hs.congr rfl
  peers := .of_ignored fun _ _ _ hs => hs.congr rfl
  load := .of_ignored (fun _ _ hs => hs.congr rfl) (fun _ _ hs => hs.congr rfl) fun s hset hs => by
    have hpins := hs.pins
    rw [hset] at hpins
    exact ⟨hpins⟩
  track := .of_ignored fun _ _ hs => hs.congr rfl
  table := .of_ignored fun _ _ hs => hs.congr rfl
  store := .of_ignored (fun _ _ hs => hs.congr rfl) fun _ _ hs => hs.congr rfl
  start := .of_reset (fun _ _ hs => hs.congr rfl) (fun _ _ _ hs => hs.congr rfl) stcInv_reset
    (fun _ => ⟨rfl⟩) fun x _ hs => hs.endLoading x

end Sys2Proof.Machine

open Sys2Proof Sys2Proof.Machine

/-- Settles O57: the four invariants are kept by each group of moves. -/
theorem everyStepKeepsLineAndCauses : Obligations.EveryStepKeepsLineAndCauses := by
  intro s t he
  exact ⟨SlcInv.grouped.step (fun _ _ hs => hs.congr rfl) he,
    CndInv.grouped.step (fun _ _ hs => hs.congr rfl ⟨rfl, rfl, rfl, rfl, rfl⟩) he,
    PtbInv.grouped.step (fun _ _ hs => hs.congr rfl rfl) he, StcInv.grouped.step (fun _ _ hs => hs.congr rfl) he⟩

end

section
/-! The invariants of the estimate table and of the record store. -/

namespace Sys2Proof.Machine

open Sys2Proof

/-! ### The estimate table (R139, R154) -/

theorem FusInv.congr {s : State} (h : FusInv s) {t : State} (hfus : t.fus.table = s.fus.table) : FusInv t := by
  obtain ⟨hsize, hrising, hplaces⟩ := h
  rw [← hfus] at hsize hrising hplaces
  exact ⟨hsize, hrising, hplaces⟩

theorem insertEntry_length (e : Entry) (xs : List Entry) : (insertEntry e xs).length = xs.length + 1 := by
  induction xs with
  | nil => rfl
  | cons x xs ih =>
    unfold insertEntry
    split
    · rfl
    · rw [List.length_cons, ih, List.length_cons]

theorem fusInv_reset : FusInv State.reset := by
  constructor <;> simp [State.reset, Fus.reset]

theorem FusInv.table : TableMoves FusInv where
  fusMap f s hf hs := by
    refine ⟨by rw [List.length_map]; exact hs.size, ?_, ?_⟩
    · rw [List.pairwise_map]
      refine hs.rising.imp fun {a b} hab => ?_
      rw [(hf a).1, (hf b).1]
      exact hab
    · intro e he
      obtain ⟨g, hg, rfl⟩ := List.mem_map.mp he
      obtain ⟨_, hrows, hexits⟩ := hf g
      obtain ⟨h1, h2⟩ := hs.places g hg
      exact ⟨hrows.trans h1, hexits.trans h2⟩
  fusFilter p s hs :=
    ⟨(List.length_filter_le p _).trans hs.size, hs.rising.filter p, fun e he => hs.places e (List.mem_of_mem_filter he)⟩
  fusNumbers _ _ _ hs := hs.congr rfl
  fusCreate j x y d s hs hroom hnone := by
    refine ⟨?_, ?_, ?_⟩
    · rw [insertEntry_length]
      omega
    · refine insertEntry_rising _ _ hs.rising fun e he heq => ?_
      have hne := (List.find?_eq_none.mp hnone) e he
      simp [heq, newEntry] at hne
    · intro e he
      rcases (mem_insertEntry _ _ _).mp he with rfl | he
      · exact ⟨rfl, rfl⟩
      · exact hs.places e he

theorem FusInv.grouped : Grouped FusInv where
  clock _ _ _ _ hs := hs.congr rfl
  line := .of_ignored fun _ _ _ hs => hs.congr rfl
  heads := .of_ignored fun _ _ _ hs => hs.congr rfl
  peers := .of_ignored fun _ _ _ hs => hs.congr rfl
  load := .of_ignored (fun _ _ hs => hs.congr rfl) (fun _ _ hs => hs.congr rfl) fun _ _ hs => hs.congr rfl
  track := .of_ignored fun _ _ hs => hs.congr rfl
  table := FusInv.table
  store := .of_ignored (fun _ _ hs => hs.congr rfl) fun _ _ hs => hs.congr rfl
  start := .of_reset (fun _ _ hs => hs.congr rfl) (fun _ _ _ hs => hs.congr rfl) fusInv_reset
    (fun _ => fusInv_reset.congr rfl) (endLoading_ignored fun _ _ _ _ _ _ _ hs => hs.congr rfl)

/-! ### The ring (R168, R169, R171) -/

theorem RstInv.congr {s : State} (h : RstInv s) {t : State} (hring : t.rst.ring = s.rst.ring)
    (hnext : t.rst.nextIndex = s.rst.nextIndex) (hpointer : t.rst.readPointer = s.rst.readPointer) : RstInv t := by
  obtain ⟨hsize, hindices, hp⟩ := h
  constructor
  · rw [hring]; exact hsize
  · rw [hnext]; simpa only [hring] using hindices
  · rw [hring, hnext, hpointer]; exact hp

theorem rstInv_reset : RstInv State.reset := by
  constructor <;> simp [State.reset, Rst.reset]

/-- A distance of up to 128 behind the counter grows by one when the counter rises. -/
theorem distance_succ (n p : Word16) {d : Nat} (hd : d ≤ 128) (h : (n - p).toNat ≤ d) : (n + 1 - p).toNat ≤ d + 1 := by
  bv_omega

theorem distance_back (n : Word16) : (n + 1 - (n - BitVec.ofNat 16 127)).toNat = 127 + 1 := by
  bv_omega

/-- R168: a record joins a ring with room. -/
theorem indices_append {xs : List WagonRecord} {n : Word16}
    (h : ∀ (i : Nat) (hi : i < xs.length), xs[i].index = n - BitVec.ofNat 16 (xs.length - i)) {r : WagonRecord}
    (hr : r.index = n) (i : Nat) (hi : i < (xs ++ [r]).length) :
    (xs ++ [r])[i].index = n + 1 - BitVec.ofNat 16 ((xs ++ [r]).length - i) := by
  rw [List.length_append, List.length_singleton] at hi ⊢
  by_cases hlast : i = xs.length
  · subst hlast
    rw [List.getElem_concat_length rfl, hr, Nat.add_sub_cancel_left]
    bv_omega
  · have hlt : i < xs.length := by omega
    rw [List.getElem_append_left hlt, h i hlt]
    bv_omega

/-- R169: the ring without its oldest record. -/
theorem indices_tail {x : WagonRecord} {xs : List WagonRecord} {n : Word16}
    (h : ∀ (i : Nat) (hi : i < (x :: xs).length), (x :: xs)[i].index = n - BitVec.ofNat 16 ((x :: xs).length - i))
    (i : Nat) (hi : i < xs.length) : xs[i].index = n - BitVec.ofNat 16 (xs.length - i) := by
  have hnext := h (i + 1) (by rw [List.length_cons]; omega)
  simp only [List.length_cons, Nat.add_sub_add_right] at hnext
  exact hnext

theorem RstInv.join {s : State} (h : RstInv s) {r : WagonRecord} (hr : r.index = s.rst.nextIndex) : RstInv (joinRing r s) := by
  obtain ⟨hsize, hindices, hpointer⟩ := h
  have hjoined : ∀ (xs : List WagonRecord) (p : Word16) (d : Option Deferred) (c : Cnd), xs.length ≤ 127 →
      (∀ (i : Nat) (hi : i < xs.length), xs[i].index = s.rst.nextIndex - BitVec.ofNat 16 (xs.length - i)) →
      (s.rst.nextIndex + 1 - p).toNat ≤ xs.length + 1 →
      RstInv { s with
        rst := { ring := xs ++ [r], nextIndex := s.rst.nextIndex + 1, readPointer := p, deferred := d }, cnd := c } := by
    intro xs p d c hl hi hp
    exact ⟨by rw [List.length_append, List.length_singleton]; omega, indices_append hi hr,
      by rw [List.length_append, List.length_singleton]; exact hp⟩
  unfold joinRing overwriteOldest
  cases hring : s.rst.ring with
  | nil =>
    rw [hring] at hpointer
    simp only [hring]
    exact hjoined [] _ _ s.cnd (by decide) (fun i hi => absurd hi (Nat.not_lt_zero _)) (distance_succ _ _ (by decide) hpointer)
  | cons oldest rest =>
    simp only [hring] at hsize hindices hpointer ⊢
    split
    case isTrue hroom =>
      exact hjoined (oldest :: rest) _ _ s.cnd (by omega) hindices (distance_succ _ _ hsize hpointer)
    case isFalse hfull =>
      rw [List.length_cons] at hsize hfull hpointer
      have hrest : rest.length = 127 := by omega
      have holdest : oldest.index = s.rst.nextIndex - BitVec.ofNat 16 128 := by
        have hzero := hindices 0 (by rw [List.length_cons]; omega)
        rwa [List.getElem_cons_zero, List.length_cons, hrest] at hzero
      have hlater := indices_tail hindices
      split
      case isTrue =>
        refine hjoined rest _ _ _ (by omega) hlater ?_
        have hhead : (rest.head?.map (·.index)).getD (s.rst.nextIndex + 1) = s.rst.nextIndex - BitVec.ofNat 16 127 := by
          cases rest with
          | nil => cases hrest
          | cons x xs =>
            have hzero := hlater 0 (by omega)
            simp only [hrest] at hzero
            exact hzero
        rw [hrest, hhead]
        exact (distance_back _).le
      case isFalse hother =>
        refine hjoined rest _ _ s.cnd (by omega) hlater ?_
        have hne : s.rst.readPointer ≠ oldest.index := by simpa using hother
        rw [holdest] at hne
        rw [hrest] at hpointer ⊢
        bv_omega

/-- The index of a held record is one of the last 128. -/
theorem RstInv.held {s : State} (h : RstInv s) {i : Word16} {r : WagonRecord} (hr : recordAt s i = some r) :
    ∃ d, 1 ≤ d ∧ d ≤ s.rst.ring.length ∧ i = s.rst.nextIndex - BitVec.ofNat 16 d := by
  have hi : r.index = i := by simpa using List.find?_some hr
  obtain ⟨k, hk, rfl⟩ := List.mem_iff_getElem.mp (List.mem_of_find?_eq_some hr)
  exact ⟨s.rst.ring.length - k, by omega, by omega, hi ▸ h.indices k hk⟩

theorem RstInv.store : StoreMoves RstInv where
  join _ _ hs hr := hs.join hr
  deferred _ _ hs := hs.congr rfl rfl rfl
  fetched s r hs hr := by
    obtain ⟨d, hpos, hd, hpointer⟩ := hs.held hr
    refine ⟨hs.size, hs.indices, ?_⟩
    have hsize := hs.size
    show (s.rst.nextIndex - (s.rst.readPointer + 1)).toNat ≤ s.rst.ring.length
    rw [hpointer]
    bv_omega
  sought i s hs hi := by
    refine ⟨hs.size, hs.indices, ?_⟩
    have hsize := hs.size
    show (s.rst.nextIndex - i).toNat ≤ s.rst.ring.length
    rw [Bool.or_eq_true, beq_iff_eq] at hi
    rcases hi with hi | rfl
    · obtain ⟨r, hr⟩ := Option.isSome_iff_exists.mp hi
      obtain ⟨d, _, hd, rfl⟩ := hs.held hr
      bv_omega
    · bv_omega

theorem RstInv.grouped : Grouped RstInv where
  clock _ _ _ _ hs := hs.congr rfl rfl rfl
  line := .of_ignored fun _ _ _ hs => hs.congr rfl rfl rfl
  heads := .of_ignored fun _ _ _ hs => hs.congr rfl rfl rfl
  peers := .of_ignored fun _ _ _ hs => hs.congr rfl rfl rfl
  load := .of_ignored (fun _ _ hs => hs.congr rfl rfl rfl) (fun _ _ hs => hs.congr rfl rfl rfl)
    fun _ _ hs => hs.congr rfl rfl rfl
  track := .of_ignored fun _ _ hs => hs.congr rfl rfl rfl
  table := .of_ignored fun _ _ hs => hs.congr rfl rfl rfl
  store := RstInv.store
  start :=
    { fullReset := fun _ _ => rstInv_reset.congr rfl rfl rfl
      release := fun x s hs => by
        unfold Machine.release
        split
        · exact rstInv_reset.congr rfl rfl rfl
        · exact hs
      restart := fun _ _ hs => hs.congr rfl rfl rfl
      endLoading := endLoading_ignored fun _ _ _ _ _ _ _ hs => hs.congr rfl rfl rfl }

end Sys2Proof.Machine

end

section
/-! The invariant of the Wagon Assembler, with the estimate table and the session. -/

namespace Sys2Proof.Machine

open Sys2Proof

variable {P Q : State → Prop}

/-! ### The moves that matter to it -/

/-- `P` is kept by the moves of the session, of the spacing list and of the table, and looks at no other block but the
settings. -/
structure AsmMoves (P : State → Prop) : Prop where
  ignored    : ∀ s, P s → ∀ t : State, t.settings = s.settings → t.ses = s.ses → t.fus.table = s.fus.table → t.was = s.was → P t
  ses        : ∀ x s, (SesGood s.ses → SesGood x) → s.ses.goesTo x → P s → P { s with ses := x }
  spacing    : ∀ j s, P s → P (formSpacing j s)
  highest    : ∀ j s, P s → P (raiseHighest j s)
  firstEntry : ∀ j t v s, P s → P (takeFirstEntry j t v s)
  roomForce  : ∀ b s, P s → P { s with was := { s.was with roomForce := b } }
  wagons     : ∀ n s, P s → P { s with was := { s.was with wagons := n } }
  trialled   : ∀ g s, s.was.group = none → cursorReachable s = true → trial s 1 s.settings.patterns = some g → P s →
                 P { s with was := { s.was with group := some g } }
  moveOn     : ∀ g s, s.was.group = some g → P s → P (leaveGroup g s)
  fusMap     : ∀ (f : Entry → Entry) s, (∀ e : Entry, e.sameKey (f e)) → P s →
                 P { s with fus := { s.fus with table := s.fus.table.map f } }
  create     : ∀ j x y s, mayCreate s j = true → s.fus.table.length < 64 → findEntry s j = none → P s →
                 P (createEntry j x y s)
  startUp    : StartMoves P

theorem AsmMoves.keptStore (h : AsmMoves P) : KeptStore P :=
  have hign : ∀ s, P s → ∀ t : State, t.settings = s.settings → t.ses = s.ses → t.fus.table = s.fus.table →
      t.was = s.was → P t := h.ignored
  have hline : LineMoves P := .of_ignored fun _ _ s hs => hign s hs _ rfl rfl rfl rfl
  have hheads : HeadMoves P := .of_ignored fun _ _ s hs => hign s hs _ rfl rfl rfl rfl
  have hpeers : PeerMoves P := .of_ignored fun _ _ s hs => hign s hs _ rfl rfl rfl rfl
  have hload : LoadMoves P := .of_ignored (fun _ s hs => hign s hs _ rfl rfl rfl rfl)
    (fun _ s hs => hign s hs _ rfl rfl rfl rfl) fun s _ hs => hign s hs _ rfl rfl rfl rfl
  have htrack : TrackMoves P := .of_ignored fun _ s hs => hign s hs _ rfl rfl rfl rfl
  have hstore : StoreMoves P := .of_ignored (fun _ s hs => hign s hs _ rfl rfl rfl rfl)
    fun _ s hs => hign s hs _ rfl rfl rfl rfl
  { h, hline, hheads, hpeers, hload, htrack, hstore, h.startUp with
    now := fun _ s hs => hign s hs _ rfl rfl rfl rfl
    fusNumbers := fun _ _ s hs => hign s hs _ rfl rfl rfl rfl }

theorem AsmMoves.and (hP : AsmMoves P) (hQ : AsmMoves Q) : AsmMoves (fun s => P s ∧ Q s) where
  ignored s hs t h1 h2 h3 h4 := ⟨hP.ignored s hs.1 t h1 h2 h3 h4, hQ.ignored s hs.2 t h1 h2 h3 h4⟩
  ses x s hg hto hs := ⟨hP.ses x s hg hto hs.1, hQ.ses x s hg hto hs.2⟩
  spacing j s hs := ⟨hP.spacing j s hs.1, hQ.spacing j s hs.2⟩
  highest j s hs := ⟨hP.highest j s hs.1, hQ.highest j s hs.2⟩
  firstEntry j t v s hs := ⟨hP.firstEntry j t v s hs.1, hQ.firstEntry j t v s hs.2⟩
  roomForce b s hs := ⟨hP.roomForce b s hs.1, hQ.roomForce b s hs.2⟩
  wagons n s hs := ⟨hP.wagons n s hs.1, hQ.wagons n s hs.2⟩
  trialled g s hn hr ht hs := ⟨hP.trialled g s hn hr ht hs.1, hQ.trialled g s hn hr ht hs.2⟩
  moveOn g s hg hs := ⟨hP.moveOn g s hg hs.1, hQ.moveOn g s hg hs.2⟩
  fusMap f s hf hs := ⟨hP.fusMap f s hf hs.1, hQ.fusMap f s hf hs.2⟩
  create j x y s hm hl hn hs := ⟨hP.create j x y s hm hl hn hs.1, hQ.create j x y s hm hl hn hs.2⟩
  startUp :=
    { fullReset := fun s hs => ⟨hP.startUp.fullReset s hs.1, hQ.startUp.fullReset s hs.2⟩
      release := fun x s hs => ⟨hP.startUp.release x s hs.1, hQ.startUp.release x s hs.2⟩
      restart := fun x s hs => ⟨hP.startUp.restart x s hs.1, hQ.startUp.restart x s hs.2⟩
      endLoading := fun x s hs => ⟨hP.startUp.endLoading x s hs.1, hQ.startUp.endLoading x s hs.2⟩ }

/-! ### The configured patterns (R193) -/

theorem patternAt_axles {p : List Byte} {x : Pattern} {n : Nat} (h : patternAt p = some (x, n)) : 1 ≤ x.axles := by
  unfold patternAt at h
  simp only [Option.ite_none_right_eq_some, Option.some.injEq, Prod.mk.injEq, Bool.and_eq_true, inRange,
    decide_eq_true_eq] at h
  obtain ⟨⟨⟨⟨⟨⟨⟨_, htwo, _⟩, _⟩, _⟩, _⟩, _⟩, _⟩, rfl, _⟩ := h
  show 1 ≤ at1 p 1
  omega

theorem patternsIn_axles : ∀ (n : Nat) (p : List Byte) (xs : List Pattern), patternsIn n p = some xs →
    ∀ x ∈ xs, 1 ≤ x.axles
  | 0, p, xs, h => by
    unfold patternsIn at h
    split at h
    · cases h
      exact fun x hx => absurd hx List.not_mem_nil
    · cases h
  | n + 1, p, xs, h => by
    unfold patternsIn at h
    split at h
    · cases h
    · rename_i y used hy
      obtain ⟨ys, hys, rfl⟩ := Option.map_eq_some_iff.mp h
      intro x hx
      rcases List.mem_cons.mp hx with rfl | hx
      · exact patternAt_axles hy
      · exact patternsIn_axles n _ ys hys x hx

theorem readImage_axles {i : ImageRead} {x : Settings} {p l : Nat} {m : CauseMask} {a b : Word16}
    (h : readImage i = .good x p l m a b) : ∀ q ∈ x.patterns, 1 ≤ q.axles := by
  unfold readImage at h
  split at h
  · cases h
  · simp only at h
    split at h
    · cases h
    · unfold imageChecks at h
      simp only at h
      split at h
      · cases h
      · split at h
        · cases h
        · rename_i ps hps
          split at h
          · cases h
            exact patternsIn_axles _ _ _ hps
          · cases h

/-! ### The session's fields -/

theorem sesGood_reset : SesGood Ses.reset := by
  constructor <;> simp [Ses.reset]

theorem sesGood_restart (m : Option Summary) : SesGood (restartSes m) := by
  cases m with
  | none => exact sesGood_reset
  | some m => constructor <;> simp [restartSes, Ses.reset]

/-! ### The core, move by move -/

theorem AsmCore.congr {s : State} (h : AsmCore s) {t : State} (hsettings : t.settings = s.settings) (hses : t.ses = s.ses)
    (hfus : t.fus.table = s.fus.table) (hwas : t.was = s.was) : AsmCore t := by
  obtain ⟨hcursor, hpatterns, htable, hitems, hgroup, hsession, hidle⟩ := h
  rw [← hsettings] at hpatterns
  rw [← hses] at hsession hidle
  rw [← hfus] at hidle
  rw [← hwas] at hcursor hitems hgroup
  exact ⟨hcursor, hpatterns, fun e he => hwas ▸ htable e (hfus ▸ he), hitems, hgroup, hsession, hidle⟩

/-- R157: the spacing list changes its spacings only. -/
theorem AsmCore.spacing {s : State} (h : AsmCore s) (j : Nat) : AsmCore (formSpacing j s) := by
  unfold formSpacing
  split
  · split
    · exact h
    · refine ⟨h.cursor, h.patterns, h.table, fun x hx => ?_, h.group, h.session, h.idle⟩
      obtain ⟨y, hy, rfl⟩ := List.mem_map.mp hx
      have hold := h.items y hy
      split <;> exact hold
  · exact h

theorem AsmCore.highest {s : State} (h : AsmCore s) (j : Nat) : AsmCore (raiseHighest j s) := by
  have hrise : s.was.highest ≤ max s.was.highest j := le_max_left _ _
  refine ⟨h.cursor, h.patterns, fun e he => ?_, fun x hx => ?_, fun g hg => ?_, h.session, h.idle⟩
  · exact ⟨(h.table e he).1, (h.table e he).2.trans hrise⟩
  · exact ⟨(h.items x hx).1, (h.items x hx).2.trans hrise⟩
  · obtain ⟨hfirst, hcount, hlast⟩ := h.group g hg
    exact ⟨hfirst, hcount, hlast.trans (Nat.succ_le_succ hrise)⟩

theorem AsmCore.firstEntry {s : State} (h : AsmCore s) (j : Nat) (t : Time) (v : Nat) : AsmCore (takeFirstEntry j t v s) := by
  have hraised := h.highest j
  unfold takeFirstEntry
  simp only
  split
  case isFalse => exact hraised
  case isTrue hallowed =>
    simp only [itemAllowed, Bool.and_eq_true, decide_eq_true_eq] at hallowed
    refine AsmCore.spacing (AsmCore.spacing ?_ _) _
    refine ⟨hraised.cursor, hraised.patterns, hraised.table, fun x hx => ?_, hraised.group, hraised.session, hraised.idle⟩
    rcases List.mem_append.mp hx with hx | hx
    · exact hraised.items x hx
    · rw [List.mem_singleton.mp hx]
      exact ⟨hallowed.1.1, le_max_right _ _⟩

/-- A pattern that matches does not reach beyond H: its gap is known, or the test of R162 has seen to it. -/
theorem PatternMatches.within {s : State} {p : Pattern} (h : AsmCore s) (hm : PatternMatches s p) :
    s.was.cursor + p.axles ≤ s.was.highest + 1 := by
  obtain ⟨hreach, hknown⟩ := hm
  by_cases hclosed : s.ses.closedForMatching = true
  · by_contra hbeyond
    exact hreach ⟨hclosed, by omega⟩
  · have hgap : (knownSpacing s (s.was.cursor + p.axles - 1), p.gap) ∈ checksOf s p := by
      simp [checksOf, hclosed]
    obtain ⟨d, hd, _⟩ := hknown _ hgap
    obtain ⟨x, hx, _⟩ := Option.bind_eq_some_iff.mp hd
    have hordinal : x.ordinal = s.was.cursor + p.axles - 1 := by simpa using List.find?_some hx
    have hbound := (h.items x (List.mem_of_find?_eq_some hx)).2
    omega

theorem trial_within {s : State} (h : AsmCore s) (hreach : s.was.cursor ≤ s.was.highest) {g : Group} :
    ∀ (ps : List Pattern) (k : Nat), trial s k ps = some g → g.first + g.count ≤ s.was.highest + 1
  | [], _, ht => by
    cases ht
    exact Nat.succ_le_succ hreach
  | p :: ps, k, ht => by
    unfold trial at ht
    split at ht
    case h_1 hhit =>
      cases ht
      exact ((testPattern_hits s p).mp hhit).within h
    case h_2 => cases ht
    case h_3 => exact trial_within h hreach ps (k + 1) ht

theorem AsmCore.trialled {s : State} (h : AsmCore s) {g : Group} (hr : cursorReachable s = true)
    (ht : trial s 1 s.settings.patterns = some g) : AsmCore { s with was := { s.was with group := some g } } := by
  have hreach : s.was.cursor ≤ s.was.highest := ((cursorReachable_iff s).mp hr).1
  refine ⟨h.cursor, h.patterns, h.table, h.items, fun k hk => ?_, h.session, h.idle⟩
  cases hk
  obtain ⟨hfirst, hcount⟩ := trial_group s _ _ _ h.patterns ht
  exact ⟨hfirst, hcount, trial_within h hreach _ _ ht⟩

/-- R164: what is left after a group lies beyond it. -/
theorem AsmCore.moveOn {s : State} (h : AsmCore s) {g : Group} (hg : s.was.group = some g) : AsmCore (leaveGroup g s) := by
  obtain ⟨hfirst, hcount, hlast⟩ := h.group g hg
  rw [leaveGroup_is]
  have hbeyond : ∀ j, s.was.cursor ≤ j → inGroup g j = false → g.first + g.count ≤ j := by
    intro j hj hout
    by_contra hlt
    simp [inGroup, hfirst, hj] at hout
    omega
  refine ⟨?_, h.patterns, fun e he => ?_, fun x hx => ?_, fun k hk => (nomatch hk),
    h.session.onSummary _ fun _ => ⟨rfl, rfl, rfl, rfl⟩, fun hi => ?_⟩
  · show 1 ≤ g.first + g.count
    omega
  · obtain ⟨hmem, hout⟩ := List.mem_filter.mp he
    obtain ⟨h1, h2⟩ := h.table e hmem
    exact ⟨hbeyond _ h1 (by simpa using hout), h2⟩
  · obtain ⟨hmem, hout⟩ := List.mem_filter.mp hx
    obtain ⟨h1, h2⟩ := h.items x hmem
    exact ⟨hbeyond _ h1 (by simpa using hout), h2⟩
  · show s.fus.table.filter _ = []
    rw [h.idle hi, List.filter_nil]

theorem AsmCore.fusMap {s : State} (h : AsmCore s) {f : Entry → Entry} (hf : ∀ e : Entry, e.sameKey (f e)) :
    AsmCore { s with fus := { s.fus with table := s.fus.table.map f } } := by
  refine ⟨h.cursor, h.patterns, fun e he => ?_, h.items, h.group, h.session, fun hi => ?_⟩
  · obtain ⟨g, hg, rfl⟩ := List.mem_map.mp he
    rw [(hf g).1]
    exact h.table g hg
  · show s.fus.table.map f = []
    rw [h.idle hi, List.map_nil]

/-- R140, R157: an entry is made at or beyond the cursor, and H rises to it. -/
theorem AsmCore.create {s : State} (h : AsmCore s) {j : Nat} {x : Option Time} {y : Option Nat} (hm : mayCreate s j = true) :
    AsmCore (createEntry j x y s) := by
  simp only [mayCreate, sessionOpen, Bool.and_eq_true, bne_iff_ne, decide_eq_true_eq] at hm
  obtain ⟨⟨hopen, _⟩, hcursor⟩ := hm
  have hraised := h.highest j
  refine ⟨h.cursor, h.patterns, fun e he => ?_, hraised.items, hraised.group, h.session, fun hi => absurd hi hopen⟩
  rcases (mem_insertEntry _ _ _).mp he with rfl | he
  · exact ⟨hcursor, le_max_right _ _⟩
  · exact hraised.table e he

theorem asmCore_empty {s : State} (hpatterns : ∀ p ∈ s.settings.patterns, 1 ≤ p.axles) (hfus : s.fus.table = [])
    (hwas : s.was = Was.reset) (hses : SesGood s.ses) : AsmCore s := by
  refine ⟨hwas ▸ le_rfl, hpatterns, fun e he => ?_, fun x hx => ?_, fun g hg => ?_, hses, fun _ => hfus⟩
  · rw [hfus] at he
    cases he
  · rw [hwas] at hx
    cases hx
  · rw [hwas] at hg
    cases hg

theorem AsmCore.endLoading {s : State} (h : AsmCore s) (x : ImageRead) : AsmCore (endLoading x s) := by
  unfold Machine.endLoading
  split
  case isFalse => exact h
  case isTrue =>
    split
    case h_1 => exact h.congr (by simp [enterConfigFault]) (by simp [enterConfigFault, handHail])
                  (by simp [enterConfigFault, handHail]) (by simp [enterConfigFault, handHail])
    case h_2 => exact h.congr (by simp [enterConfigFault]) (by simp [enterConfigFault, handHail])
                  (by simp [enterConfigFault, handHail]) (by simp [enterConfigFault, handHail])
    case h_3 y p l m a b hgood =>
      have hset := readImage_axles hgood
      refine AsmCore.congr (s := { s with settings := y }) ⟨h.cursor, hset, h.table, h.items, h.group, h.session, h.idle⟩ ?_ ?_
        ?_ ?_ <;> simp [enterSettling, handHail]

theorem AsmCore.moves : AsmMoves AsmCore where
  ignored _ hs _ h1 h2 h3 h4 := hs.congr h1 h2 h3 h4
  ses _ _ hg hto hs := ⟨hs.cursor, hs.patterns, hs.table, hs.items, hs.group, hg hs.session, fun hi => hs.idle (hto.1 hi)⟩
  spacing j _ hs := hs.spacing j
  highest j _ hs := hs.highest j
  firstEntry j t v _ hs := hs.firstEntry j t v
  roomForce _ _ hs := ⟨hs.cursor, hs.patterns, hs.table, hs.items, hs.group, hs.session, hs.idle⟩
  wagons _ _ hs := ⟨hs.cursor, hs.patterns, hs.table, hs.items, hs.group, hs.session, hs.idle⟩
  trialled _ _ _ hr ht hs := hs.trialled hr ht
  moveOn _ _ hg hs := hs.moveOn hg
  fusMap _ _ hf hs := hs.fusMap hf
  create _ _ _ _ hm _ _ hs := hs.create hm
  startUp :=
    { fullReset := fun s _ => asmCore_empty (fun _ hp => nomatch hp) rfl rfl sesGood_reset
      release := fun x s hs => by
        unfold Machine.release
        split
        · exact asmCore_empty (fun _ hp => nomatch hp) rfl rfl sesGood_reset
        · exact hs
      restart := fun x s _ => asmCore_empty (fun _ hp => nomatch hp) rfl rfl (sesGood_restart _)
      endLoading := fun x _ hs => hs.endLoading x }

/-! ### Closed for matching, no estimate is held (R130, R162) -/

/-- The last part of the invariant. -/
def Matched (s : State) : Prop := s.ses.closedForMatching = true → s.fus.table = []

theorem formSpacing_fus (j : Nat) (s : State) : (formSpacing j s).fus = s.fus ∧ (formSpacing j s).ses = s.ses := by
  unfold formSpacing
  split
  · split <;> exact ⟨rfl, rfl⟩
  · exact ⟨rfl, rfl⟩

theorem takeFirstEntry_fus (j : Nat) (t : Time) (v : Nat) (s : State) :
    (takeFirstEntry j t v s).fus = s.fus ∧ (takeFirstEntry j t v s).ses = s.ses := by
  unfold takeFirstEntry
  simp only
  split
  · rw [(formSpacing_fus _ _).1, (formSpacing_fus _ _).1, (formSpacing_fus _ _).2, (formSpacing_fus _ _).2]
    exact ⟨rfl, rfl⟩
  · exact ⟨rfl, rfl⟩

theorem Matched.congr {s : State} (h : Matched s) {t : State} (hses : t.ses = s.ses) (hfus : t.fus.table = s.fus.table) :
    Matched t := by
  unfold Matched
  rw [hses, hfus]
  exact h

theorem matched_open {s : State} (h : s.ses.closedForMatching = false) : Matched s := fun hc => nomatch h.symm.trans hc

theorem Matched.moves : AsmMoves Matched where
  ignored _ hs _ _ hses hfus _ := hs.congr hses hfus
  ses _ _ _ hto hs := fun hc => hs (hto.2 hc)
  spacing j s hs := hs.congr (formSpacing_fus j s).2 (by rw [(formSpacing_fus j s).1])
  highest _ _ hs := hs
  firstEntry j t v s hs := hs.congr (takeFirstEntry_fus j t v s).2 (by rw [(takeFirstEntry_fus j t v s).1])
  roomForce _ _ hs := hs
  wagons _ _ hs := hs
  trialled _ _ _ _ _ hs := hs
  moveOn g s _ hs := by
    rw [leaveGroup_is]
    intro hc
    show s.fus.table.filter _ = []
    rw [hs hc, List.filter_nil]
  fusMap f s _ hs := fun hc => by
    show s.fus.table.map f = []
    rw [hs hc, List.map_nil]
  create j x y s hm _ _ _ := by
    simp only [mayCreate, Bool.and_eq_true, Bool.not_eq_true'] at hm
    exact matched_open hm.1.2
  startUp :=
    { fullReset := fun _ _ => matched_open rfl
      release := fun x s hs => by
        unfold Machine.release
        split
        · exact matched_open rfl
        · exact hs
      restart := fun x s _ => by
        refine matched_open ?_
        show (restartSes s.ses.last).closedForMatching = false
        cases s.ses.last <;> rfl
      endLoading := fun x s hs => by
        obtain ⟨a, b, c, d, e, p1, p2, p3, p4, q, eq⟩ := endLoading_eq x s
        rw [eq]
        exact hs }

theorem asmInv_iff (s : State) : AsmInv s ↔ AsmCore s ∧ Matched s :=
  ⟨fun h => ⟨h.toAsmCore, h.matched⟩, fun h => { toAsmCore := h.1, matched := h.2 }⟩

theorem asmInv_moves : AsmMoves AsmInv := by
  rw [show AsmInv = fun s => AsmCore s ∧ Matched s from funext fun s => propext (asmInv_iff s)]
  exact AsmCore.moves.and Matched.moves

theorem asmCore_keptStore : KeptStore AsmCore := AsmCore.moves.keptStore

theorem asmInv_keptStore : KeptStore AsmInv := asmInv_moves.keptStore

/-! ### Closing for matching assembles the train to its end (R130, R162) -/

/-- Closed for matching, with every entry FINAL: what a pass starts from when it assembles the train to its end. -/
structure Ending (s : State) : Prop where
  core   : AsmCore s
  closed : s.ses.closedForMatching = true
  finals : ∀ e ∈ s.fus.table, e.fused.isSome = true

theorem Ending.groupReady {s : State} (h : Ending s) {g : Group} (hg : s.was.group = some g) : groupReady s g = true := by
  obtain ⟨hfirst, _, hlast⟩ := h.core.group g hg
  refine (groupReady_iff s g).mpr fun j h1 h2 => ?_
  cases hf : s.fus.table.find? fun e => e.ordinal == j with
  | none => exact .inl ⟨hf, by omega, .inl ⟨h.closed, by omega⟩⟩
  | some e => exact .inr ⟨e, rfl, h.finals e (List.mem_of_find?_eq_some hf)⟩

theorem Ending.reachable {s : State} (h : Ending s) (hle : s.was.cursor ≤ s.was.highest) : cursorReachable s = true := by
  refine (cursorReachable_iff s).mpr ⟨hle, ?_⟩
  by_cases hentry : ∃ e ∈ s.fus.table, e.ordinal = s.was.cursor
  · exact .inr (.inl hentry)
  · refine .inr (.inr ⟨List.find?_eq_none.mpr fun e he heq => hentry ⟨e, he, by simpa using heq⟩, le_rfl, .inl ⟨h.closed, hle⟩⟩)

/-- R162: closed for matching no test waits. -/
theorem testPattern_closed {s : State} (h : s.ses.closedForMatching = true) (p : Pattern) : testPattern s p ≠ .wait := by
  have hsettled : PatternFails s p ∨ PatternMatches s p := by
    by_cases hf : PatternFails s p
    · exact .inl hf
    · refine .inr ⟨fun hb => hf (.inl hb), fun c hc => ?_⟩
      cases hd : c.1 with
      | none => exact absurd (.inr ⟨c, hc, .inr ⟨hd, .inl h⟩⟩) hf
      | some d => exact ⟨d, rfl, fun hout => hf (.inr ⟨c, hc, .inl ⟨d, hd, hout⟩⟩)⟩
  rcases hsettled with hf | hm
  · rw [(testPattern_fails s p).mpr hf]
    decide
  · rw [(testPattern_hits s p).mpr hm]
    decide

theorem trial_closed {s : State} (h : s.ses.closedForMatching = true) : ∀ (ps : List Pattern) (k : Nat), trial s k ps ≠ none
  | [], _ => by simp [trial]
  | p :: ps, k => by
    unfold trial
    split
    case h_1 => exact Option.some_ne_none _
    case h_2 hw => exact absurd hw (testPattern_closed h p)
    case h_3 => exact trial_closed h ps (k + 1)

theorem Ending.stored {s : State} (h : Ending s) {g : Group} (hg : s.was.group = some g) : Ending (storeGroup g s) := by
  obtain ⟨a, b, d, w, rf, f, e⟩ := storeGroup_eq g s
  have hcore := asmCore_keptStore.storeGroup hg h.core
  rw [e] at hcore ⊢
  exact ⟨hcore, h.closed, fun x hx => h.finals x (List.mem_of_mem_filter hx)⟩

theorem Ending.trialled {s : State} (h : Ending s) {g : Group} (hr : cursorReachable s = true)
    (ht : trial s 1 s.settings.patterns = some g) : Ending { s with was := { s.was with group := some g } } :=
  ⟨h.core.trialled hr ht, h.closed, h.finals⟩

/-- R130, R162: the pass does not stop before the cursor has passed H. -/
theorem Ending.passLoop_empties : ∀ (n : Nat) (b : Bool) (s : State), Ending s → repetitions s ≤ n →
    (passLoop n b s).fus.table = []
  | 0, b, s, _, hn => by
    unfold repetitions at hn
    split at hn <;> omega
  | n + 1, b, s, h, hn => by
    unfold passLoop
    split
    case h_1 g hg =>
      obtain ⟨hfirst, hcount, _⟩ := h.core.group g hg
      rw [if_pos (h.groupReady hg)]
      refine Ending.passLoop_empties n true _ (h.stored hg) ?_
      obtain ⟨_, _, _, _, _, _, e⟩ := storeGroup_eq g s
      simp only [repetitions, hg, Option.isSome_some, if_true] at hn
      simp only [e, repetitions, Option.isSome_none, Bool.false_eq_true, if_false]
      omega
    case h_2 hg =>
      split
      case isTrue hr =>
        have hle : s.was.cursor ≤ s.was.highest := ((cursorReachable_iff s).mp hr).1
        split
        case h_1 ht => exact absurd ht (trial_closed h.closed _ _)
        case h_2 g ht =>
          refine Ending.passLoop_empties n b _ (h.trialled hr ht) ?_
          simp only [repetitions, hg, Option.isSome_none, Bool.false_eq_true, if_false] at hn
          simp only [repetitions, Option.isSome_some, if_true]
          omega
      case isFalse hr =>
        have hpast : s.was.highest < s.was.cursor := by
          by_contra hle
          exact hr (h.reachable (by omega))
        have hempty : s.fus.table = [] := by
          refine List.eq_nil_iff_forall_not_mem.mpr fun e he => ?_
          obtain ⟨h1, h2⟩ := h.core.table e he
          omega
        unfold endPass
        split <;> exact hempty

theorem Ending.pass_empties {s : State} (h : Ending s) : (pass s).fus.table = [] := by
  refine Ending.passLoop_empties _ _ s h ?_
  unfold repetitions passLimit
  split <;> omega

/-- R130, R162: closing for matching leaves no estimate when every entry is FINAL. -/
theorem closeMatching_empties {s : State} (h : AsmCore s) (hdraining : s.ses.state = .draining)
    (hfinal : ∀ e ∈ s.fus.table, e.fused.isSome = true) : (closeMatching s).fus.table = [] := by
  obtain ⟨hcursor, hpatterns, htable, hitems, hgroup, hsession, hidle⟩ := h
  obtain ⟨h1, h2, h3, h4, h5, h6, h7, h8, h9, h10⟩ := hsession
  exact Ending.pass_empties
    ⟨⟨hcursor, hpatterns, htable, hitems, hgroup, ⟨h1, h2, h3, h4, h5, h6, h7, h8, fun _ => hdraining, h10⟩, hidle⟩, rfl, hfinal⟩

theorem closeMatching_core {s : State} (h : AsmCore s) (hdraining : s.ses.state = .draining) : AsmCore (closeMatching s) := by
  refine asmCore_keptStore.pass ?_
  obtain ⟨hcursor, hpatterns, htable, hitems, hgroup, hsession, hidle⟩ := h
  obtain ⟨h1, h2, h3, h4, h5, h6, h7, h8, h9, h10⟩ := hsession
  exact ⟨hcursor, hpatterns, htable, hitems, hgroup, ⟨h1, h2, h3, h4, h5, h6, h7, h8, fun _ => hdraining, h10⟩, hidle⟩

/-! ### The ends of a session -/

/-- R132 items 1 to 4: with no estimate left the close begins afresh. -/
theorem closeSession_inv {s : State} (h : AsmCore s) (hempty : s.fus.table = []) (hheld : s.ses.held = none) :
    AsmInv (closeSession s) := by
  obtain ⟨a, b, w, e⟩ := closeSession_eq s
  rw [e]
  refine (asmInv_iff _).mpr ⟨asmCore_empty h.patterns hempty rfl ?_, fun _ => hempty⟩
  constructor <;> simp [fileSummary, hheld]

theorem adoptHeld_inv {s : State} (h : AsmCore s) (hempty : s.fus.table = []) : AsmInv (adoptHeld (closeSession s)) := by
  have hcleared : AsmInv (closeSession { s with ses := { s.ses with held := none } }) := by
    refine closeSession_inv ?_ hempty rfl
    obtain ⟨hcursor, hpatterns, htable, hitems, hgroup, hsession, hidle⟩ := h
    obtain ⟨h1, h2, h3, h4, h5, h6, h7, h8, h9, h10⟩ := hsession
    exact ⟨hcursor, hpatterns, htable, hitems, hgroup, ⟨h1, h2, h3, h4, h5, h6, h7, h8, h9, fun e => nomatch e⟩, hidle⟩
  obtain ⟨a, b, w, e⟩ := closeSession_eq s
  obtain ⟨a', b', w', e'⟩ := closeSession_eq { s with ses := { s.ses with held := none } }
  have hheld : (closeSession s).ses.held = s.ses.held := by rw [e]; rfl
  rw [e'] at hcleared
  unfold adoptHeld
  split
  case h_1 hnone =>
    rw [hheld] at hnone
    exact closeSession_inv h hempty hnone
  case h_2 o ho =>
    refine asmInv_keptStore.beginSession ?_ ?_
    · exact closeSession_idle s
    · refine asmInv_moves.ignored _ hcleared _ ?_ ?_ ?_ ?_ <;> simp [e, fileSummary]

theorem asmInv_keptPass : KeptPass AsmInv where
  toKeptStore := asmInv_keptStore
  matching s hd hf hs := by
    rw [allFinal, List.all_eq_true] at hf
    have hcore := hs.toAsmCore
    exact (asmInv_iff _).mpr ⟨closeMatching_core hcore hd, fun _ => closeMatching_empties hcore hd hf⟩
  finish _ hempty hs := adoptHeld_inv hs.toAsmCore hempty

/-! ### Forcing leaves no OPEN entry (R154) -/

theorem finalEntry_forced (j : Nat) (s : State) :
    (finalEntry j (markForced j s)).ses.state = s.ses.state ∧ (finalEntry j (markForced j s)).ses.held = s.ses.held := by
  unfold finalEntry
  exact ⟨(pass_frame _).1, (pass_frame _).2.1⟩

/-- What is OPEN after the entry of `j` has been forced was OPEN before, and is another ordinal's. -/
theorem finalEntry_open {j : Nat} {s : State} {e : Entry} (he : e ∈ (finalEntry j (markForced j s)).fus.table)
    (ho : e.fused = none) : e ∈ s.fus.table ∧ e.ordinal ≠ j := by
  unfold finalEntry at he
  have hmem := (pass_frame _).2.2.2 e he
  simp only [markForced, changeEntry, List.map_map] at hmem
  obtain ⟨g, hg, rfl⟩ := List.mem_map.mp hmem
  by_cases hj : g.ordinal = j
  · simp [hj] at ho
  · simp only [Function.comp, beq_iff_eq, hj, if_false]
    exact ⟨hg, hj⟩

theorem finalEntries_open : ∀ (js : List Nat) (s : State), (∀ e ∈ s.fus.table, e.fused = none → e.ordinal ∈ js) →
    ∀ e ∈ (js.foldl (fun s j => finalEntry j (markForced j s)) s).fus.table, e.fused.isSome = true
  | [], s, h, e, he => by
    cases hf : e.fused with
    | none => exact absurd (h e he hf) List.not_mem_nil
    | some _ => rfl
  | j :: js, s, h, e, he => by
    refine finalEntries_open js _ (fun g hg ho => ?_) e he
    obtain ⟨hmem, hne⟩ := finalEntry_open hg ho
    exact (List.mem_cons.mp (h g hmem ho)).resolve_left hne

theorem mem_openOrdinals {s : State} {e : Entry} (he : e ∈ s.fus.table) (ho : e.fused = none) :
    e.ordinal ∈ openOrdinals s :=
  List.mem_map.mpr ⟨e, List.mem_filter.mpr ⟨he, by simp [isFinal, ho]⟩, rfl⟩

theorem forceAll_finals (s : State) : ∀ e ∈ (forceAll s).fus.table, e.fused.isSome = true := by
  intro e he
  unfold forceAll at he
  split at he
  case h_1 hnone =>
    cases hf : e.fused with
    | none => exact absurd (hnone ▸ mem_openOrdinals he hf) List.not_mem_nil
    | some _ => rfl
  case h_2 => exact finalEntries_open _ _ (fun g hg ho => mem_openOrdinals hg ho) e he

theorem forceAll_frame (s : State) : (forceAll s).ses.state = s.ses.state ∧ (forceAll s).ses.held = s.ses.held := by
  have hfold : ∀ (js : List Nat) (t : State), t.ses.state = s.ses.state ∧ t.ses.held = s.ses.held →
      (js.foldl (fun s j => finalEntry j (markForced j s)) t).ses.state = s.ses.state ∧
      (js.foldl (fun s j => finalEntry j (markForced j s)) t).ses.held = s.ses.held := by
    intro js
    induction js with
    | nil => exact fun t ht => ht
    | cons j js ih =>
      intro t ht
      obtain ⟨h1, h2⟩ := finalEntry_forced j t
      exact ih _ ⟨h1.trans ht.1, h2.trans ht.2⟩
  unfold forceAll
  split
  · exact ⟨rfl, rfl⟩
  · exact hfold _ _ ⟨rfl, rfl⟩

theorem closeMatching_held (s : State) : (closeMatching s).ses.held = s.ses.held := (pass_frame _).2.1

/-- R131, R133: after the forcing the train is assembled to its end. -/
theorem forceAll_empties {s : State} (h : AsmInv s) (hdraining : s.ses.state = .draining) :
    AsmCore (closeMatching (forceAll s)) ∧ (closeMatching (forceAll s)).fus.table = [] := by
  have hforced : AsmCore (forceAll s) := (asmInv_keptPass.forceAll h).toAsmCore
  have hstate : (forceAll s).ses.state = .draining := (forceAll_frame s).1.trans hdraining
  exact ⟨closeMatching_core hforced hstate, closeMatching_empties hforced hstate (forceAll_finals s)⟩

theorem asmInv_kept : Kept AsmInv where
  toKeptPass := asmInv_keptPass
  cut s hd hheld hs := by
    obtain ⟨hcore, hempty⟩ := forceAll_empties hs hd
    refine closeSession_inv hcore hempty ?_
    rw [closeMatching_held, (forceAll_frame s).2, hheld]

theorem AsmInv.queue {s : State} (h : AsmInv s) (q : List Instr) : AsmInv { s with pending := q } :=
  asmInv_moves.ignored s h _ rfl rfl rfl rfl

theorem asmInv_reset : AsmInv State.reset :=
  (asmInv_iff _).mpr ⟨asmCore_empty (fun _ hp => nomatch hp) rfl rfl sesGood_reset, matched_open rfl⟩

end Sys2Proof.Machine

open Sys2Proof Sys2Proof.Machine

/-- Settles O59: the table and the ring by the groups of moves, the assembler by all of them: closing for matching
assembles the train to its end. -/
theorem everyStepKeepsTrainAndRing : Obligations.EveryStepKeepsTrainAndRing := by
  intro s t he
  exact ⟨FusInv.grouped.step (fun _ _ hs => hs.congr rfl) he, fun hs => asmInv_kept.step (fun q _ hs => hs.queue q) hs he,
    RstInv.grouped.step (fun _ _ hs => hs.congr rfl rfl rfl) he⟩

/-- Settles O60: at reset every list is empty, every field absent, every count at its first value. -/
theorem resetMeetsEveryInvariant : Obligations.ResetMeetsEveryInvariant :=
  ⟨slcInv_reset, cndInv_reset, ptbInv_reset, lfeInv_reset, whuInv_reset, atrInv_reset, fusInv_reset, asmInv_reset,
    rstInv_reset, stcInv_reset⟩

end

section
/-! The queue of commands, the Start-up Control, and the hand-over of a frame to its queue, class by class. -/

namespace Sys2Proof.Machine

open Sys2Proof

/-! ### The queue of commands -/

/-- No move touches the commands that wait. -/
theorem queue_grouped (q : List Instr) : Grouped fun s => s.pending = q where
  clock _ _ _ _ hs := hs
  line := .of_ignored fun _ _ _ hs => hs
  heads := .of_ignored fun _ _ _ hs => hs
  peers := .of_ignored fun _ _ _ hs => hs
  load := .of_ignored (fun _ _ hs => hs) (fun _ _ hs => hs) fun _ _ hs => hs
  track := .of_ignored fun _ _ hs => hs
  table := .of_ignored fun _ _ hs => hs
  store := .of_ignored (fun _ _ hs => hs) fun _ _ hs => hs
  start :=
    { fullReset := fun _ hs => hs
      release := fun x s hs => by
        unfold Machine.release
        split
        · exact hs
        · exact hs
      restart := fun _ _ hs => hs
      endLoading := endLoading_ignored fun _ _ _ _ _ _ _ hs => hs }

theorem exec_pending {c : Instr} {s t : State} (h : exec c s = .next t) : t.pending = s.pending :=
  (queue_grouped s.pending).simple.kept.exec rfl h

theorem exec_completes (c : Instr) (s : State) : ∃ t, exec c s = .next t := by
  cases c <;> exact ⟨_, rfl⟩

theorem exec_held {c : Instr} {s : State} (h : s.stc.inReset = true) (hreset : c ≠ .fullReset)
    (hrelease : ∀ x, c ≠ .resetRelease x) : exec c s = .next s := by
  cases c
  case fullReset => exact absurd rfl hreset
  case resetRelease x => exact absurd rfl (hrelease x)
  all_goals exact congrArg Host.Outcome.next (atTime_held _ _ s h)

/-! ### Hand-over, class by class (R88) -/

/-- A frame as handed over after `q` others. -/
def newFrame (b : Body) (n : BitVec 4) (q : Byte) : TxFrame := { body := b, target := n, seq := q + 1, failed := 0, held := 0 }

section
variable {b : Body} {n : BitVec 4} {s : State}

theorem handOver_urgent (hs : sendsKind s.slc.line (kindOfBody b) = true) (hc : classOfBody b = .urgent)
    (hroom : s.slc.urgent.length < 8) :
    handOver b n s = { s with slc := { s.slc with
      sequence := s.slc.sequence + 1, urgent := s.slc.urgent ++ [newFrame b n s.slc.sequence] } } := by
  simp [handOver, hs, enqueue, hc, hroom, onlyIf, newFrame]

theorem handOver_timing (hs : sendsKind s.slc.line (kindOfBody b) = true) (hc : classOfBody b = .timing)
    (hidle : sendingHail s.slc = false) :
    handOver b n s = { s with slc := { s.slc with
      sequence := s.slc.sequence + 1, timing := some (newFrame b n s.slc.sequence) } } := by
  have hq : ∀ q, sendingHail { s.slc with sequence := q } = false := fun _ => hidle
  simp [handOver, hs, enqueue, hc, hq, onlyIf, newFrame]

theorem handOver_waits (hs : sendsKind s.slc.line (kindOfBody b) = true) (hc : classOfBody b = .timing)
    (hbusy : sendingHail s.slc = true) :
    handOver b n s = { s with slc := { s.slc with
      sequence := s.slc.sequence + 1, hailWaiting := some (newFrame b n s.slc.sequence) } } := by
  have hq : ∀ q, sendingHail { s.slc with sequence := q } = true := fun _ => hbusy
  simp [handOver, hs, enqueue, hc, hq, onlyIf, newFrame]

theorem handOver_bulk (hs : sendsKind s.slc.line (kindOfBody b) = true) (hc : classOfBody b = .bulk)
    (hroom : s.slc.bulk.length < 32) :
    handOver b n s = { s with slc := { s.slc with
      sequence := s.slc.sequence + 1, bulk := s.slc.bulk ++ [newFrame b n s.slc.sequence] } } := by
  simp [handOver, hs, enqueue, hc, hroom, onlyIf, newFrame]

theorem handOver_refused (hs : sendsKind s.slc.line (kindOfBody b) = false) : handOver b n s = s := by
  simp [handOver, hs]

theorem sendingHail_none (h : s.slc.sending = none) : sendingHail s.slc = false := by
  simp [sendingHail, h]

end

/-! ### The straps (R191) -/

theorem strapNumber_toNat (x : Straps) : (strapNumber x).toNat
    = (if x.stn2 then 4 else 0) + (if x.stn1 then 2 else 0) + (if x.stn0 then 1 else 0) := by
  obtain ⟨a, b, c, _⟩ := x
  cases a <;> cases b <;> cases c <;> rfl

theorem place_replicate {α : Type} (k n : Nat) (x : α) : place (List.replicate k x) n x = x := by
  rw [place, List.getD_eq_getElem?_getD, List.getElem?_replicate]
  split <;> rfl

/-! ### The end of LOADING (R195, R196) -/

theorem topCause_config {s : State} (h : hasCause s.cnd.latched .config = true) : topCause s = some .config := by
  simp [topCause, allCauses, h]

/-- R196: the state after a missing or bad image with causes `k`, its first HAIL reporting `top`. -/
def faultedState (t : Time) (sum : Word16) (k : Cnd) (top : Option Cause) (s : State) : State :=
  let hail : HailBody :=
    { p := 0, l := 0, line := .configFault, station := .configFault, session := s.ses.state, number := s.ses.number,
      topCause := top, patternSum := 0, imageSum := sum }
  { s with
    now := t,
    stc := { s.stc with station := .configFault, imageSum := sum, i2cReleased := true },
    slc := { s.slc with
      line := .configFault, sequence := s.slc.sequence + 1, timing := some (newFrame (.hail hail) broadcast s.slc.sequence) },
    ptb := { s.ptb with ownP := 0, ownL := 0, ownPatternSum := 0, hailTimer := some (addUs t 250000) },
    cnd := k }

/-- R196: CONFIG latched and present with every cause enabled. -/
theorem configReported_cnd (s : State) : (reportPresent .config (setEnable allCausesMask s)).cnd
    = { latched := s.cnd.latched ||| 1, present := s.cnd.present ||| 1, enable := 511, faultLow := true } := by
  have hpin : ((s.cnd.latched ||| 1) &&& 511 : CauseMask) ≠ 0 := fun h => by
    have hbit := congrArg (hasCause · .config) h
    simp [hasCause, priority] at hbit
  show Cnd.mk _ _ _ (((s.cnd.latched ||| 1) &&& 511) != 0) = _
  rw [bne_iff_ne.mpr hpin]
  rfl

end Sys2Proof.Machine

open Sys2Proof Sys2Proof.Machine

/-- Settles O1: the match of `step` on the queue. -/
theorem stepTakesTheFrontCommand : Obligations.StepTakesTheFrontCommand := by
  intro c rest s h
  rw [step, h]

/-- Settles O2: every command but the two of the reset input goes through `atTime`. -/
theorem idleAndHeldStatesStay : Obligations.IdleAndHeldStatesStay := by
  refine ⟨fun s h => ?_, fun c s h => exec_held h⟩
  rw [step, h]

/-- Settles O3: every arm gives a next state, and the queue is kept as the other invariants are. -/
theorem everyCommandCompletesAndKeepsTheQueue : Obligations.EveryCommandCompletesAndKeepsTheQueue := by
  intro c s
  obtain ⟨t, ht⟩ := exec_completes c s
  exact ⟨t, ht, exec_pending ht⟩

/-- Settles O4: each field of the first state is what the block's table gives. -/
theorem resetAndReleaseStartAfresh : Obligations.ResetAndReleaseStartAfresh := by
  refine ⟨fun s => ⟨_, rfl, rfl, ?_⟩, fun x s h => ?_⟩
  · refine ⟨rfl, rfl, rfl, rfl, rfl, rfl, fun e => ?_, rfl, rfl, rfl, rfl, rfl, rfl, rfl, rfl, rfl, rfl, rfl, rfl,
      fun n => place_replicate 16 n none, fun n => place_replicate 8 n Peer.reset, rfl, rfl, rfl, rfl, rfl, rfl, rfl, rfl, rfl, rfl, rfl, rfl,
      rfl, rfl, rfl, rfl, rfl, rfl, rfl, rfl, rfl⟩
    cases e <;> rfl
  · refine ⟨beginLoading x (fullReset s), ?_, rfl, rfl, rfl, rfl, rfl, rfl, strapNumber_toNat x, rfl⟩
    show Host.Outcome.next (Machine.release x s) = _
    rw [Machine.release, if_pos h]

/-- Settles O5: with nothing being sent the first HAIL takes the TIMING slot. -/
theorem goodImageStartsSettling : Obligations.GoodImageStartsSettling := by
  intro t image x p l m sum patternSum s himage hreset hloading hidle
  refine congrArg Host.Outcome.next ((atTime_running _ _ s hreset).trans ?_)
  simp only [Machine.endLoading, hloading, beq_self_eq_true, if_true, himage, enterSettling, handHail]
  rw [handOver_timing rfl rfl ?_]
  · rfl
  · exact sendingHail_none hidle

/-- Settles O6: CONFIG is latched before the first HAIL is formed, which therefore reports it. -/
theorem badImageEntersConfigFault : Obligations.BadImageEntersConfigFault := by
  intro t image sum s himage hreset hloading hidle
  have hfault : Machine.endLoading image { s with now := t } = enterConfigFault sum { s with now := t } := by
    rw [Machine.endLoading, if_pos (by simp [hloading])]
    rcases himage with himage | ⟨himage, rfl⟩ <;> rw [himage]
  refine congrArg Host.Outcome.next ((atTime_running _ _ s hreset).trans (hfault.trans ?_))
  have htop : topCause (reportPresent .config (setEnable allCausesMask { s with now := t })) = some .config :=
    topCause_config (by simp)
  rw [enterConfigFault, handHail, handOver_timing rfl rfl ?_]
  · show faultedState t sum (reportPresent .config (setEnable allCausesMask { s with now := t })).cnd
      (topCause (reportPresent .config (setEnable allCausesMask { s with now := t }))) s = _
    rw [configReported_cnd, htop]
    rfl
  · exact sendingHail_none hidle

/-- Settles O8: RESTART at the head of the queue is carried out whatever the line state. -/
theorem restartKeepsRecordsAndLastSummary : Obligations.RestartKeepsRecordsAndLastSummary := by
  intro t straps x rest s hreset hqueue hkind hasked
  refine ⟨restart straps { s with now := t }, ?_, rfl, rfl, rfl, rfl, rfl, rfl, strapNumber_toNat straps, rfl, ?_, ?_, ?_⟩
  · refine congrArg Host.Outcome.next ((atTime_running _ _ s hreset).trans ?_)
    simp only [restartAsk, hqueue]
    rw [if_pos]
    rw [hkind, hasked]
    rfl
  · show (restartSes s.ses.last).last = s.ses.last
    cases s.ses.last <;> rfl
  · intro h
    show restartSes s.ses.last = _
    rw [h]
    rfl
  · intro m h
    show restartSes s.ses.last = _
    rw [h]
    rfl

end

section
/-! The configuration image (11.2): what its checks let through, field by field and pattern by pattern. -/

namespace Sys2Proof.Machine

open Sys2Proof

/-! ### A part of the image read as a list of its own -/

section
variable (b : List Byte) {n o : Nat}

theorem at1_window {i : Nat} (h : o + i < n) : at1 ((b.take n).drop o) i = at1 b (o + i) := by
  simp [at1, List.getD_eq_getElem?_getD, List.getElem?_drop, h]

theorem at2_window {i : Nat} (h : o + i + 1 < n) : at2 ((b.take n).drop o) i = at2 b (o + i) := by
  rw [at2, at2, at1_window b (by omega), at1_window b (by omega), Nat.add_assoc]

theorem at3_window {i : Nat} (h : o + i + 2 < n) : at3 ((b.take n).drop o) i = at3 b (o + i) := by
  rw [at3, at3, at2_window b (by omega), at1_window b (by omega), Nat.add_assoc]

theorem at4_window {i : Nat} (h : o + i + 3 < n) : at4 ((b.take n).drop o) i = at4 b (o + i) := by
  rw [at4, at4, at3_window b (by omega), at1_window b (by omega), Nat.add_assoc]

theorem rangeAt_window {i : Nat} (h : o + i + 3 < n) : rangeAt ((b.take n).drop o) i = rangeAt b (o + i) := by
  rw [rangeAt, rangeAt, at2_window b (by omega), at2_window b (by omega), Nat.add_assoc]

end

/-! ### Patterns (R193) -/

/-- 11.2: the values of a pattern lie in their ranges. -/
structure PatternGood (q : Pattern) : Prop where
  least    : 2 ≤ q.axles
  most     : q.axles ≤ 6
  spacings : q.spacings.length + 1 = q.axles
  ranges   : ∀ r ∈ q.gap :: q.spacings, 500 ≤ r.least ∧ r.least ≤ r.most ∧ r.most ≤ 30000
  gross    : 1000 ≤ q.maxGross ∧ q.maxGross ≤ 360000
  locoSplit : q.loco = true → q.split = none
  split    : q.loco = false → ∃ k, q.split = some k ∧ 1 ≤ k ∧ k + 1 ≤ q.axles

theorem rangeGood_iff (r : Range) : rangeGood r = true ↔ 500 ≤ r.least ∧ r.least ≤ r.most ∧ r.most ≤ 30000 := by
  simp only [rangeGood, inRange, Bool.and_eq_true, decide_eq_true_eq]
  omega

/-- What the bytes of a pattern say, read where the pattern stands. -/
structure PatternRead (p : List Byte) (q : Pattern) : Prop where
  kind     : at1 p 0 = if q.loco then 1 else 0
  axles    : at1 p 1 = q.axles
  spacings : ((List.range (q.axles - 1)).map fun i => rangeAt p (2 + 4 * i)) = q.spacings
  gap      : rangeAt p (4 * q.axles - 2) = q.gap
  split    : at1 p (4 * q.axles + 2) = q.split.getD 0
  gross    : (at3 p (4 * q.axles + 3) : Int) = q.maxGross

theorem patternAt_read (p : List Byte) (q : Pattern) (used : Nat) :
    patternAt p = some (q, used) ↔ PatternRead p q ∧ PatternGood q ∧ used = 4 * q.axles + 6 ∧ used ≤ p.length := by
  constructor
  · intro h
    simp only [patternAt, Option.ite_none_right_eq_some, Option.some.injEq, Prod.mk.injEq, Bool.and_eq_true, inRange,
      decide_eq_true_eq] at h
    obtain ⟨⟨⟨⟨⟨⟨⟨hkind, htwo, hsix⟩, hfits⟩, hspacings⟩, hgap⟩, hgross⟩, hsplit⟩, rfl, rfl⟩ := h
    have hread : ∀ r ∈ (List.range (at1 p 1 - 1)).map fun i => rangeAt p (2 + 4 * i), rangeGood r = true :=
      fun r hr => List.all_eq_true.mp hspacings r hr
    refine ⟨⟨?_, rfl, rfl, rfl, ?_, rfl⟩, ⟨htwo, hsix, ?_, ?_, ?_, ?_, ?_⟩, rfl, hfits⟩
    · rcases Nat.le_one_iff_eq_zero_or_eq_one.mp hkind with hk | hk <;> simp [hk]
    · by_cases hk : at1 p 0 = 1
      · simpa [hk] using hsplit
      · simp [hk]
    · rw [List.length_map, List.length_range]
      exact Nat.sub_add_cancel (Nat.one_le_of_lt htwo)
    · intro r hr
      rcases List.mem_cons.mp hr with rfl | hr
      · exact (rangeGood_iff _).mp hgap
      · exact (rangeGood_iff r).mp (hread r hr)
    · simp only
      exact_mod_cast hgross
    · intro hloco
      simp_all
    · intro hloco
      have hk : ¬ at1 p 0 = 1 := by simpa using hloco
      simp only [beq_iff_eq, hk, if_false, Bool.and_eq_true, decide_eq_true_eq] at hsplit ⊢
      exact ⟨_, rfl, hsplit.1, by omega⟩
  · rintro ⟨⟨hkind, haxles, hspacings, hgap, hsplit, hgross⟩, hgood, rfl, hfits⟩
    have hranges : ∀ r ∈ q.gap :: q.spacings, rangeGood r = true := fun r hr => (rangeGood_iff r).mpr (hgood.ranges r hr)
    have hmass : 1000 ≤ at3 p (4 * q.axles + 3) ∧ at3 p (4 * q.axles + 3) ≤ 360000 := by
      have hrange := hgood.gross
      rw [← hgross] at hrange
      exact_mod_cast hrange
    have htwo := hgood.least
    have hsix := hgood.most
    simp only [patternAt, haxles, hspacings, hgap, hsplit, hkind]
    obtain ⟨loco, axles, spacings, gap, split, maxGross⟩ := q
    simp only at *
    cases loco
    case true =>
      have hnone := hgood.locoSplit rfl
      simp only at hnone
      subst hnone
      simp [inRange, htwo, hsix, hfits, hmass, hgross, hranges gap List.mem_cons_self]
      exact fun r hr => hranges r (List.mem_cons_of_mem _ hr)
    case false =>
      obtain ⟨k, hk, hk1, hk2⟩ := hgood.split rfl
      simp only at hk hk2
      subst hk
      simp [inRange, htwo, hsix, hfits, hmass, hgross, hranges gap List.mem_cons_self, hk1]
      exact ⟨fun r hr => hranges r (List.mem_cons_of_mem _ hr), by omega⟩

/-- A pattern read from a part of the image stands at that part's offset. -/
theorem patternRead_iff (b : List Byte) {n o : Nat} {q : Pattern} (hgood : PatternGood q) (h : o + (4 * q.axles + 6) ≤ n) :
    PatternRead ((b.take n).drop o) q ↔ PatternLaid b o q := by
  have htwo := hgood.least
  have hlength := hgood.spacings
  have hgap : rangeAt ((b.take n).drop o) (4 * q.axles - 2) = rangeAt b (o + 4 * q.axles - 2) := by
    rw [rangeAt_window b (by omega), Nat.add_sub_assoc (by omega)]
  have hspacing : ∀ i, i < q.axles - 1 → rangeAt ((b.take n).drop o) (2 + 4 * i) = rangeAt b (o + 2 + 4 * i) := by
    intro i hi
    rw [rangeAt_window b (by omega), Nat.add_assoc]
  have hlist : ((List.range (q.axles - 1)).map fun i => rangeAt ((b.take n).drop o) (2 + 4 * i)) = q.spacings ↔
      ∀ (i : Nat) (r : Range), q.spacings[i]? = some r → at2 b (o + 2 + 4 * i) = r.least ∧ at2 b (o + 4 + 4 * i) = r.most := by
    constructor
    · intro he i r hr
      rw [← he, List.getElem?_map] at hr
      obtain ⟨j, hj, rfl⟩ := Option.map_eq_some_iff.mp hr
      obtain ⟨hlt, rfl⟩ := List.getElem?_eq_some_iff.mp hj
      rw [List.length_range] at hlt
      rw [List.getElem_range, hspacing i hlt, rangeAt]
      exact ⟨rfl, by rw [show o + 2 + 4 * i + 2 = o + 4 + 4 * i by omega]⟩
    · intro h
      refine List.ext_getElem (by rw [List.length_map, List.length_range]; omega) fun i h1 h2 => ?_
      obtain ⟨hl, hm⟩ := h i _ (List.getElem?_eq_getElem h2)
      rw [List.getElem_map, List.getElem_range, hspacing i (by omega), rangeAt, hl,
        show o + 2 + 4 * i + 2 = o + 4 + 4 * i by omega, hm]
  constructor
  · rintro ⟨hkind, haxles, hspacings, hg, hsplit, hgross⟩
    rw [at1_window b (by omega)] at hkind haxles hsplit
    rw [at3_window b (by omega)] at hgross
    rw [hgap, rangeAt, show o + 4 * q.axles - 2 + 2 = o + 4 * q.axles by omega] at hg
    exact ⟨hkind, haxles, hlist.mp hspacings, by rw [← hg]; exact ⟨rfl, rfl⟩, hsplit, hgross⟩
  · rintro ⟨hkind, haxles, hspacings, ⟨hg1, hg2⟩, hsplit, hgross⟩
    refine ⟨?_, ?_, hlist.mpr hspacings, ?_, ?_, ?_⟩
    · rw [at1_window b (by omega)]; exact hkind
    · rw [at1_window b (by omega)]; exact haxles
    · rw [hgap, rangeAt, show o + 4 * q.axles - 2 + 2 = o + 4 * q.axles by omega, hg1, hg2]
    · rw [at1_window b (by omega)]; exact hsplit
    · rw [at3_window b (by omega)]; exact hgross

theorem patternsLaid_le {b : List Byte} {n : Nat} : ∀ {o : Nat} {ps : List Pattern}, PatternsLaid b n o ps → o ≤ n
  | _, [], h => h.le
  | _, _ :: _, h => by
    have hrest := patternsLaid_le h.2
    omega

/-- R193: the patterns that fill the image after their count. -/
theorem patternsIn_iff (b : List Byte) {n : Nat} (hn : n ≤ b.length) : ∀ (count o : Nat) (ps : List Pattern), o ≤ n →
    (patternsIn count ((b.take n).drop o) = some ps ↔
      ps.length = count ∧ PatternsLaid b n o ps ∧ ∀ q ∈ ps, PatternGood q)
  | 0, o, ps, ho => by
    have hempty : ((b.take n).drop o).isEmpty = true ↔ o = n := by
      rw [List.isEmpty_iff, List.drop_eq_nil_iff, List.length_take]
      omega
    unfold patternsIn
    rw [Option.ite_none_right_eq_some, hempty, Option.some.injEq]
    constructor
    · rintro ⟨rfl, rfl⟩
      exact ⟨rfl, rfl, fun q hq => nomatch hq⟩
    · rintro ⟨hl, hlaid, _⟩
      obtain rfl := List.eq_nil_of_length_eq_zero hl
      exact ⟨hlaid, rfl⟩
  | count + 1, o, ps, ho => by
    have hlength : ((b.take n).drop o).length = n - o := by
      rw [List.length_drop, List.length_take]
      omega
    unfold patternsIn
    constructor
    · intro h
      split at h
      case h_1 => cases h
      case h_2 q used hq =>
        obtain ⟨hread, hgood, rfl, hfits⟩ := (patternAt_read _ _ _).mp hq
        rw [hlength] at hfits
        have hin : o + (4 * q.axles + 6) ≤ n := by omega
        obtain ⟨qs, hqs, rfl⟩ := Option.map_eq_some_iff.mp h
        rw [List.drop_drop] at hqs
        obtain ⟨hl, hlaid, hgoods⟩ := (patternsIn_iff b hn count _ qs hin).mp hqs
        exact ⟨by rw [List.length_cons, hl], ⟨(patternRead_iff b hgood hin).mp hread, hlaid⟩,
          List.forall_mem_cons.mpr ⟨hgood, hgoods⟩⟩
    · rintro ⟨hl, hlaid, hgoods⟩
      obtain _ | ⟨q, qs⟩ := ps
      · cases hl
      · obtain ⟨hq, hqs⟩ := hlaid
        obtain ⟨hgood, hgoods⟩ := List.forall_mem_cons.mp hgoods
        have hin : o + (4 * q.axles + 6) ≤ n := patternsLaid_le hqs
        have hread : patternAt ((b.take n).drop o) = some (q, 4 * q.axles + 6) :=
          (patternAt_read _ _ _).mpr ⟨(patternRead_iff b hgood hin).mpr hq, hgood, rfl, by rw [hlength]; omega⟩
        have hrest : patternsIn count ((b.take n).drop (o + (4 * q.axles + 6))) = some qs :=
          (patternsIn_iff b hn count _ qs hin).mpr ⟨Nat.succ.inj hl, hqs, hgoods⟩
        rw [hread]
        simp only [List.drop_drop, hrest, Option.map_some]

/-! ### The fixed fields (R193, R195) -/

theorem byteSum_toNat (b : List Byte) : (byteSum b).toNat = (b.map (·.toNat)).sum % 65536 := by
  have hfold : ∀ (xs : List Byte) (k : Nat), xs.foldl (fun n b => n + b.toNat) k = k + (xs.map (·.toNat)).sum := by
    intro xs
    induction xs with
    | nil => simp
    | cons x xs ih =>
      intro k
      rw [List.foldl_cons, ih, List.map_cons, List.sum_cons, Nat.add_assoc]
  rw [byteSum, hfold, Nat.zero_add, BitVec.toNat_ofNat]

theorem defaulted_eq (raw mark dflt : Nat) : defaulted raw mark dflt = orDefault raw mark dflt := by
  simp [defaulted, orDefault]

/-- The settings as the image's fixed fields give them, with the patterns read. -/
theorem settings_laid_iff (b : List Byte) (x : Settings) (m : CauseMask) (p l : Nat) :
    ImageLaid b x p l m ↔
      x = settingsOf b x.patterns ∧ p = at4 b 2 ∧ l = at2 b 6 ∧ m = BitVec.ofNat 9 (at2 b 56)
        ∧ x.patterns.length = at1 b 58 ∧ PatternsLaid b (at2 b 0) 59 x.patterns := by
  constructor
  · rintro ⟨hp, hl, ⟨ha, hb⟩, ⟨hha, hhb⟩, hzeros, hspans, ⟨h1, h2, h3⟩, ⟨h4, h5, h6⟩, ⟨h7, h8⟩, ⟨h9, h10, h11⟩, hmask,
      hcount, hlaid⟩
    refine ⟨?_, hp, hl, BitVec.eq_of_getLsbD_eq fun i hi => ?_, hcount, hlaid⟩
    · have hz0 : x.zc0 + 8388608 = at4 b 16 := hzeros 0 _ rfl
      have hz1 : x.zc1 + 8388608 = at4 b 20 := hzeros 1 _ rfl
      have hz2 : x.zc2 + 8388608 = at4 b 24 := hzeros 2 _ rfl
      have hz3 : x.zc3 + 8388608 = at4 b 28 := hzeros 3 _ rfl
      have hs0 : x.sc0 = at2 b 32 := hspans 0 _ rfl
      have hs1 : x.sc1 = at2 b 34 := hspans 1 _ rfl
      have hs2 : x.sc2 = at2 b 36 := hspans 2 _ rfl
      have hs3 : x.sc3 = at2 b 38 := hspans 3 _ rfl
      obtain ⟨dA, dB, hA, hB, zc0, zc1, zc2, zc3, sc0, sc1, sc2, sc3, lockoutMs, creepKmh, overspeedKmh, tol, spreadLimit,
        zeroLimit, haltS, closeS, latLo, latHi, longLimit, patterns⟩ := x
      simp only at *
      simp only [settingsOf, defaulted_eq, Settings.mk.injEq]
      refine ⟨ha, hb, hha, hhb, ?_, ?_, ?_, ?_, hs0, hs1, hs2, hs3, h1, h2, h3, h4, h5, h6, h7, h8, h9, h10, h11, trivial⟩ <;>
        omega
    · rw [hmask i hi, BitVec.getLsbD_ofNat]
      simp [hi]
  · rintro ⟨hx, hp, hl, hm, hcount, hlaid⟩
    rw [hx]
    refine ⟨hp, hl, ⟨rfl, rfl⟩, ⟨defaulted_eq _ _ _, defaulted_eq _ _ _⟩, ?_, ?_, ⟨defaulted_eq _ _ _, defaulted_eq _ _ _,
      defaulted_eq _ _ _⟩, ⟨defaulted_eq _ _ _, defaulted_eq _ _ _, defaulted_eq _ _ _⟩, ⟨defaulted_eq _ _ _,
      defaulted_eq _ _ _⟩, ⟨defaulted_eq _ _ _, defaulted_eq _ _ _, defaulted_eq _ _ _⟩, fun i hi => ?_, hcount, hlaid⟩
    · rintro (_ | _ | _ | _ | c) z hz <;> simp [settingsOf] at hz <;> rw [← hz] <;> simp
    · rintro (_ | _ | _ | _ | c) k hk <;> simp [settingsOf] at hk <;> exact hk.symm
    · rw [hm, BitVec.getLsbD_ofNat]
      simp [hi]

/-- The ranges of 11.2. -/
structure SettingsGood (x : Settings) (p l : Nat) : Prop where
  position  : p ≤ 4000000000
  length    : 1000 ≤ l ∧ l ≤ 12000
  innerA    : x.dA ≤ 300
  innerB    : x.dB ≤ 300
  headA     : 50 ≤ x.hA ∧ x.hA ≤ 250
  headB     : 50 ≤ x.hB ∧ x.hB ≤ 250
  zeros     : ∀ z ∈ [x.zc0, x.zc1, x.zc2, x.zc3], -8388608 ≤ z ∧ z ≤ 8388607
  spans     : ∀ k ∈ [x.sc0, x.sc1, x.sc2, x.sc3], 1 ≤ k ∧ k ≤ 65534
  lockout   : 2 ≤ x.lockoutMs ∧ x.lockoutMs ≤ 20
  creep     : 1 ≤ x.creepKmh ∧ x.creepKmh ≤ 10
  overspeed : 30 ≤ x.overspeedKmh ∧ x.overspeedKmh ≤ 130
  tol       : 5 ≤ x.tol ∧ x.tol ≤ 50
  spread    : 1000 ≤ x.spreadLimit ∧ x.spreadLimit ≤ 20000
  zero      : 500 ≤ x.zeroLimit ∧ x.zeroLimit ≤ 10000
  halt      : 2 ≤ x.haltS ∧ x.haltS ≤ 20
  close     : 5 ≤ x.closeS ∧ x.closeS ≤ 60
  order     : x.haltS ≤ x.closeS
  low       : x.latLo ≤ 500
  high      : 500 ≤ x.latHi ∧ x.latHi ≤ 1000
  long      : 500 ≤ x.longLimit ∧ x.longLimit ≤ 900

theorem settingsInRange_iff (b : List Byte) (ps : List Pattern) :
    settingsInRange b (settingsOf b ps) = true ↔
      SettingsGood (settingsOf b ps) (at4 b 2) (at2 b 6) ∧ at1 b 58 ≤ 12 := by
  have hzeros : (∀ z ∈ [(settingsOf b ps).zc0, (settingsOf b ps).zc1, (settingsOf b ps).zc2, (settingsOf b ps).zc3],
      -8388608 ≤ z ∧ z ≤ 8388607) ↔
      at4 b 16 ≤ 16777215 ∧ at4 b 20 ≤ 16777215 ∧ at4 b 24 ≤ 16777215 ∧ at4 b 28 ≤ 16777215 := by
    simp only [settingsOf, List.forall_mem_cons, List.not_mem_nil, false_implies, implies_true, and_true]
    omega
  have hspan : ∀ k : Nat, spanGood k = true ↔ 1 ≤ k ∧ k ≤ 65534 := by
    intro k
    simp only [spanGood, inRange, Bool.and_eq_true, decide_eq_true_eq, bne_iff_ne]
    omega
  have hspans : (∀ k ∈ [(settingsOf b ps).sc0, (settingsOf b ps).sc1, (settingsOf b ps).sc2, (settingsOf b ps).sc3],
      1 ≤ k ∧ k ≤ 65534) ↔ spanGood (settingsOf b ps).sc0 = true ∧ spanGood (settingsOf b ps).sc1 = true
        ∧ spanGood (settingsOf b ps).sc2 = true ∧ spanGood (settingsOf b ps).sc3 = true := by
    simp only [hspan, List.forall_mem_cons, List.not_mem_nil, false_implies, implies_true, and_true]
  simp only [settingsInRange, inRange, Bool.and_eq_true, decide_eq_true_eq]
  constructor
  · rintro ⟨⟨⟨⟨⟨⟨⟨⟨⟨⟨⟨⟨⟨⟨⟨⟨⟨⟨⟨⟨⟨⟨⟨⟨⟨⟨hp, hl⟩, hda⟩, hdb⟩, hha⟩, hhb⟩, z0⟩, z1⟩, z2⟩, z3⟩, s0⟩, s1⟩, s2⟩, s3⟩, h1⟩, h2⟩,
      h3⟩, h4⟩, h5⟩, h6⟩, h7⟩, h8⟩, h9⟩, h10⟩, h11⟩, h12⟩, hcount⟩
    exact ⟨⟨hp, hl, hda, hdb, hha, hhb, hzeros.mpr ⟨z0, z1, z2, z3⟩, hspans.mpr ⟨s0, s1, s2, s3⟩, h1, h2, h3, h4, h5, h6, h7,
      h8, h9, h10, h11, h12⟩, hcount⟩
  · rintro ⟨⟨hp, hl, hda, hdb, hha, hhb, hz, hs, h1, h2, h3, h4, h5, h6, h7, h8, h9, h10, h11, h12⟩, hcount⟩
    obtain ⟨z0, z1, z2, z3⟩ := hzeros.mp hz
    obtain ⟨s0, s1, s2, s3⟩ := hspans.mp hs
    exact ⟨⟨⟨⟨⟨⟨⟨⟨⟨⟨⟨⟨⟨⟨⟨⟨⟨⟨⟨⟨⟨⟨⟨⟨⟨⟨hp, hl⟩, hda⟩, hdb⟩, hha⟩, hhb⟩, z0⟩, z1⟩, z2⟩, z3⟩, s0⟩, s1⟩, s2⟩, s3⟩, h1⟩, h2⟩,
      h3⟩, h4⟩, h5⟩, h6⟩, h7⟩, h8⟩, h9⟩, h10⟩, h11⟩, h12⟩, hcount⟩

/-! ### The read as a whole (R192 to R194) -/

/-- R192: the length fits, and the memory has given that many bytes and the sum. -/
def WholeRead (given : List Byte) : Prop :=
  59 ≤ at2 given 0 ∧ at2 given 0 ≤ 512 ∧ at2 given 0 ≤ 59 + 30 * at1 given 58 ∧ at2 given 0 + 2 ≤ given.length

theorem readImage_missing {given : List Byte} (h : ¬ WholeRead given) : readImage (.bytes given) = .missing := by
  unfold readImage
  simp only
  rw [if_pos]
  simp only [lengthWrong, Bool.or_eq_true, decide_eq_true_eq]
  unfold WholeRead at h
  omega

/-- The checks of a complete read, on the bytes as given. -/
theorem readImage_whole {given : List Byte} (h : WholeRead given) :
    readImage (.bytes given) =
      let n := at2 given 0
      let sum := byteSum (given.take n)
      if wordAt given n ≠ sum then .bad sum
      else
        match patternsIn (at1 given 58) ((given.take n).drop 59) with
        | none => .bad sum
        | some ps =>
          if settingsInRange given (settingsOf given ps) then
            .good (settingsOf given ps) (at4 given 2) (at2 given 6) (BitVec.ofNat 9 (at2 given 56)) sum
              (byteSum ((given.take n).drop 58))
          else .bad sum := by
  obtain ⟨h1, h2, h3, h4⟩ := h
  have hbyte : ∀ i, i < at2 given 0 + 2 → at1 (given.take (at2 given 0 + 2)) i = at1 given i := by
    intro i hi
    have hwindow := at1_window given (o := 0) (i := i) (n := at2 given 0 + 2) (by omega)
    simpa using hwindow
  have hpair : ∀ i, i + 1 < at2 given 0 + 2 → at2 (given.take (at2 given 0 + 2)) i = at2 given i := by
    intro i hi
    have hwindow := at2_window given (o := 0) (i := i) (n := at2 given 0 + 2) (by omega)
    simpa using hwindow
  have hfour : ∀ i, i + 3 < at2 given 0 + 2 → at4 (given.take (at2 given 0 + 2)) i = at4 given i := by
    intro i hi
    have hwindow := at4_window given (o := 0) (i := i) (n := at2 given 0 + 2) (by omega)
    simpa using hwindow
  have htake : (given.take (at2 given 0 + 2)).take (at2 given 0) = given.take (at2 given 0) := by
    rw [List.take_take, Nat.min_eq_left (by omega)]
  have hsettings : ∀ ps, settingsOf (given.take (at2 given 0 + 2)) ps = settingsOf given ps := by
    intro ps
    simp (disch := omega) only [settingsOf, hbyte, hpair, hfour]
  have hrange : ∀ x, settingsInRange (given.take (at2 given 0 + 2)) x = settingsInRange given x := by
    intro x
    simp (disch := omega) only [settingsInRange, hbyte, hpair, hfour]
  have hword : wordAt (given.take (at2 given 0 + 2)) (at2 given 0) = wordAt given (at2 given 0) := by
    rw [wordAt, wordAt, hpair _ (by omega)]
  unfold readImage
  simp only
  rw [if_neg (by simp only [lengthWrong, Bool.or_eq_true, decide_eq_true_eq]; omega)]
  unfold imageChecks
  simp only [htake, hsettings, hrange, hword, hbyte 58 (by omega), hfour 2 (by omega), hpair 6 (by omega),
    hpair 56 (by omega), bne_iff_ne] <;> rfl

theorem readImage_good_iff (given : List Byte) (x : Settings) (p l : Nat) (m : CauseMask) (sum patternSum : Word16) :
    readImage (.bytes given) = .good x p l m sum patternSum ↔
      WholeRead given ∧ wordAt given (at2 given 0) = byteSum (given.take (at2 given 0))
      ∧ sum = byteSum (given.take (at2 given 0)) ∧ patternSum = byteSum ((given.take (at2 given 0)).drop 58)
      ∧ ImageLaid given x p l m ∧ SettingsGood x p l ∧ x.patterns.length ≤ 12 ∧ ∀ q ∈ x.patterns, PatternGood q := by
  by_cases hwhole : WholeRead given
  case neg =>
    rw [readImage_missing hwhole]
    exact ⟨fun h => (nomatch h), fun h => absurd h.1 hwhole⟩
  case pos =>
    have hlength : at2 given 0 ≤ given.length := by
      unfold WholeRead at hwhole
      omega
    have hpatterns := patternsIn_iff given hlength (at1 given 58) 59
    have h59 : 59 ≤ at2 given 0 := hwhole.1
    rw [readImage_whole hwhole]
    simp only
    constructor
    · intro h
      split at h
      case isTrue => cases h
      case isFalse hsum =>
        split at h
        case h_1 => cases h
        case h_2 ps hps =>
          split at h
          case isFalse => cases h
          case isTrue hin =>
            cases h
            obtain ⟨hcount, hlaid, hgoods⟩ := (hpatterns ps h59).mp hps
            obtain ⟨hgood, htwelve⟩ := (settingsInRange_iff given ps).mp hin
            refine ⟨hwhole, by simpa using hsum, rfl, rfl, ?_, hgood, ?_, hgoods⟩
            · exact (settings_laid_iff given _ _ _ _).mpr ⟨rfl, rfl, rfl, rfl, hcount, hlaid⟩
            · show ps.length ≤ 12
              omega
    · rintro ⟨_, hsum, rfl, rfl, himage, hgood, htwelve, hgoods⟩
      obtain ⟨hx, rfl, rfl, rfl, hcount, hlaid⟩ := (settings_laid_iff given x m p l).mp himage
      have hps := (hpatterns x.patterns h59).mpr ⟨hcount, hlaid, hgoods⟩
      rw [if_neg (not_not.mpr hsum), hps]
      simp only
      have hin : settingsInRange given (settingsOf given x.patterns) = true :=
        (settingsInRange_iff given x.patterns).mpr ⟨hx ▸ hgood, by omega⟩
      rw [if_pos hin, ← hx]

end Sys2Proof.Machine

open Sys2Proof Sys2Proof.Machine

/-- Settles O7: the patterns are read one after the other up to the end of the image, the fixed fields at their offsets. -/
theorem imageIsCheckedBeforeUse : Obligations.ImageIsCheckedBeforeUse := by
  refine ⟨rfl, byteSum_toNat, fun given => ⟨fun h => readImage_missing h, fun h hsum => ?_, fun h => ?_, ?_⟩⟩
  · rw [readImage_whole h]
    exact if_pos hsum
  · rw [readImage_whole h]
    simp only
    split
    case isTrue => exact .inl rfl
    case isFalse =>
      split
      case h_1 => exact .inl rfl
      case h_2 =>
        split
        case isTrue => exact .inr ⟨_, _, _, _, _, rfl⟩
        case isFalse => exact .inl rfl
  · intro x p l m sum patternSum
    rw [readImage_good_iff]
    constructor
    · rintro ⟨hwhole, hword, hsum, htable, hlaid, ⟨h1, h2, h3, h4, h5, h6, h7, h8, h9, h10, h11, h12, h13, h14, h15, h16, h17,
        h18, h19, h20⟩, htwelve, hgoods⟩
      refine ⟨hwhole, hword, hsum, htable, hlaid, h1, h2, h3, h4, h5, h6, h7, h8, h9, h10, h11, h12, h13, h14, h15, h16, h17,
        h18, h19, h20, htwelve, fun q hq => ?_⟩
      obtain ⟨g1, g2, g3, g4, g5, g6, g7⟩ := hgoods q hq
      exact ⟨g1, g2, g3, g4, g5.1, g5.2, g6, g7⟩
    · rintro ⟨hwhole, hword, hsum, htable, hlaid, h1, h2, h3, h4, h5, h6, h7, h8, h9, h10, h11, h12, h13, h14, h15, h16, h17,
        h18, h19, h20, htwelve, hgoods⟩
      refine ⟨hwhole, hword, hsum, htable, hlaid, ⟨h1, h2, h3, h4, h5, h6, h7, h8, h9, h10, h11, h12, h13, h14, h15, h16, h17,
        h18, h19, h20⟩, htwelve, fun q hq => ?_⟩
      obtain ⟨g1, g2, g3, g4, g5, g6, g7, g8⟩ := hgoods q hq
      exact ⟨g1, g2, g3, g4, ⟨g5, g6⟩, g7, g8⟩

end

section
/-! Samples, zero blocks and measured windows (01, 4.3): sums, spreads and clamps as the statements speak of them. -/

namespace Sys2Proof.Machine

open Sys2Proof

/-! ### Clamps and spreads -/

theorem clampInt_eq {least most : Int} (h : least ≤ most) (x : Int) : clampInt least most x = max least (min most x) := by
  unfold clampInt
  split
  · omega
  · split <;> omega

theorem foldl_max_le_iff (c : Int) : ∀ (xs : List Int) (a : Int), xs.foldl max a ≤ c ↔ ∀ x ∈ a :: xs, x ≤ c
  | [], a => by simp
  | y :: ys, a => by
    rw [List.foldl_cons, foldl_max_le_iff c ys]
    simp only [List.forall_mem_cons, max_le_iff, and_assoc]

theorem le_foldl_min_iff (c : Int) : ∀ (xs : List Int) (a : Int), c ≤ xs.foldl min a ↔ ∀ x ∈ a :: xs, c ≤ x
  | [], a => by simp
  | y :: ys, a => by
    rw [List.foldl_cons, le_foldl_min_iff c ys]
    simp only [List.forall_mem_cons, le_min_iff, and_assoc]

/-- A spread is the largest difference of two of the numbers. -/
theorem spreadOf_le_iff {c : Int} (hc : 0 ≤ c) (xs : List Int) : spreadOf xs ≤ c ↔ ∀ x ∈ xs, ∀ y ∈ xs, x - y ≤ c := by
  cases xs with
  | nil => simpa [spreadOf] using hc
  | cons a xs =>
    have hmin : ∀ b, xs.foldl max a - xs.foldl min a ≤ b ↔ ∀ x ∈ a :: xs, x ≤ b + xs.foldl min a := by
      intro b
      rw [← foldl_max_le_iff]
      omega
    show xs.foldl max a - xs.foldl min a ≤ c ↔ _
    rw [hmin]
    refine forall₂_congr fun x _ => ?_
    have hmax := le_foldl_min_iff (x - c) xs a
    constructor
    · intro h y hy
      have := hmax.mp (by omega) y hy
      omega
    · intro h
      have := hmax.mpr fun y hy => by have := h y hy; omega
      omega

/-! ### A formed sample (R5 to R8) -/

/-- R5 to R8: what the fourth instant leaves of the group, the history and the causes. -/
def withSample (x : Sample) (next : Time) (s : State) : State :=
  onlyIf x.saturated (latch .saturate)
    { s with lfe := { s.lfe with group := [], nextInstant := some next, history := joinHistory s.lfe.history x } }

theorem onlyIf_latch_saturate (b : Bool) (s : State) : onlyIf b (latch .saturate) s =
    { s with cnd := if b then
        { s.cnd with
          latched := s.cnd.latched ||| 4, faultLow := ((s.cnd.latched ||| 4) &&& s.cnd.enable) != 0 }
      else s.cnd } := by
  cases b <;> rfl

theorem converting_of {s : State} (h : s.stc.station = .settling ∨ s.stc.station = .ready) : converting s = true := by
  rcases h with h | h <;> simp [converting, h]

section
variable {s : State} {d : Time} (loads : InstantLoads)

theorem instantDue_joins (hc : s.stc.station = .settling ∨ s.stc.station = .ready) (hd : s.lfe.nextInstant = some d)
    (hdue : reached d s.now = true) (hgroup : s.lfe.group.length < 3) :
    instantDue loads s = { s with lfe := { s.lfe with group := s.lfe.group ++ [loads], nextInstant := some (addUs d 625) } } := by
  have hshort : ¬ 4 ≤ s.lfe.group.length + 1 := by omega
  simp [instantDue, hd, converting_of hc, hdue, takeInstant, onlyIf, hshort]

theorem instantDue_forms (hc : s.stc.station = .settling ∨ s.stc.station = .ready) (hd : s.lfe.nextInstant = some d)
    (hdue : reached d s.now = true) (hgroup : s.lfe.group.length = 3) :
    instantDue loads s = gatherSample (platformSample d (s.lfe.group ++ [loads]))
      (withSample (platformSample d (s.lfe.group ++ [loads])) (addUs d 625) s) := by
  simp [instantDue, hd, converting_of hc, hdue, takeInstant, onlyIf, hgroup, formSample, withSample]

end

/-- R5 to R7: total and left part are rounded quarters, clamped; one saturated channel saturates the sample. -/
theorem platformSample_is (d : Time) (four : List InstantLoads) : ∃ sum left : Int,
    IsRounded (four.map fun i => i.c0.kg + i.c1.kg + i.c2.kg + i.c3.kg).sum 4 sum
    ∧ (platformSample d four).total = max (-200000) (min 800000 sum)
    ∧ IsRounded (four.map fun i => i.c0.kg + i.c2.kg).sum 4 left
    ∧ (platformSample d four).left = max (-100000) (min 400000 left)
    ∧ ((platformSample d four).saturated = true ↔ ∃ i ∈ four, i.c0.saturated = true ∨ i.c1.saturated = true
        ∨ i.c2.saturated = true ∨ i.c3.saturated = true) := by
  refine ⟨_, _, roundDiv_isRounded _ 4 (by decide), ?_, roundDiv_isRounded _ 4 (by decide), ?_, ?_⟩
  · rw [← total_eq, ← clampInt_eq (by decide)]
    rfl
  · rw [← total_eq, ← clampInt_eq (by decide)]
    rfl
  · simp [platformSample, instantSaturated, or_assoc]

/-! ### Zero blocks (R11 to R15) -/

/-- R11, R13: blocks are gathered while SETTLING, and while READY with no session. -/
theorem gathering_iff {s : State} (hc : s.stc.station = .settling ∨ s.stc.station = .ready) :
    gathering s = true ↔ ¬ (s.stc.station = .ready ∧ s.ses.state ≠ .idle) := by
  rcases hc with h | h <;> simp [gathering, h]

theorem gatherSample_idle {s : State} (h : gathering s = false) (x : Sample) : gatherSample x s = s := by
  simp [gatherSample, h]

theorem gatherSample_short {s : State} (h : gathering s = true) (x : Sample) (hl : s.lfe.block.length < 799) :
    gatherSample x s = { s with lfe := { s.lfe with block := s.lfe.block ++ [x] } } := by
  have hshort : ¬ 800 ≤ s.lfe.block.length + 1 := by omega
  simp [gatherSample, h, onlyIf, hshort]

theorem gatherSample_full {s : State} (h : gathering s = true) (x : Sample) (hl : s.lfe.block.length = 799) :
    gatherSample x s = testBlock { s with lfe := { s.lfe with block := s.lfe.block ++ [x] } } := by
  simp [gatherSample, h, onlyIf, hl]

/-- R11: no sample saturated, and the totals within 1,000 kg. -/
def Quiet (block : List Sample) : Prop :=
  (∀ y ∈ block, y.saturated = false) ∧ ∀ y ∈ block, ∀ y' ∈ block, y.total - y'.total ≤ 1000

theorem blockPasses_iff (settling : Bool) (block : List Sample) : blockPasses settling block = true ↔
    Quiet block ∧ (settling = true → -20000 ≤ blockMean block ∧ blockMean block ≤ 20000) := by
  have hspread : spreadOf (block.map (·.total)) ≤ 1000 ↔ ∀ y ∈ block, ∀ y' ∈ block, y.total - y'.total ≤ 1000 := by
    rw [spreadOf_le_iff (by decide)]
    simp only [List.forall_mem_map]
  have hclean : (!block.any (·.saturated)) = true ↔ ∀ y ∈ block, y.saturated = false := by
    rw [Bool.not_eq_true', List.any_eq_false]
    simp only [Bool.not_eq_true]
  rw [blockPasses, Bool.and_eq_true, Bool.and_eq_true, hclean, decide_eq_true_eq, hspread]
  cases settling <;> simp [Quiet]

theorem blockMean_isRounded (block : List Sample) : IsRounded ((block.map (·.total)).sum) 800 (blockMean block) := by
  rw [blockMean, ← total_eq]
  exact roundDiv_isRounded _ 800 (by decide)

/-- R11: every test empties the block and leaves group and history. -/
theorem testBlock_emptied (s : State) :
    (testBlock s).lfe.block = [] ∧ (testBlock s).lfe.group = s.lfe.group ∧ (testBlock s).lfe.history = s.lfe.history := by
  unfold testBlock checkZeroLimit onlyIf settle
  simp only
  split
  case isTrue => split <;> exact ⟨rfl, rfl, rfl⟩
  case isFalse => split <;> split <;> exact ⟨rfl, rfl, rfl⟩

theorem testBlock_settles {s : State} (h : s.stc.station = .settling) (hp : blockPasses true s.lfe.block = true) :
    (testBlock s).stc.station = .ready ∧ (testBlock s).lfe.z = blockMean s.lfe.block
      ∧ (testBlock s).lfe.z0 = blockMean s.lfe.block := by
  simp [testBlock, h, hp, onlyIf, settle]

theorem testBlock_unsettled {s : State} (h : s.stc.station = .settling) (hp : blockPasses true s.lfe.block = false) :
    (testBlock s).stc.station = .settling ∧ (testBlock s).lfe.z = s.lfe.z ∧ (testBlock s).lfe.z0 = s.lfe.z0 := by
  simp [testBlock, h, hp, onlyIf]

/-- R14, R15: in READY the block moves Z, or leaves it, and ZERO follows the distance of Z from Z0. -/
theorem testBlock_ready {s : State} (h : s.stc.station = .ready) :
    (testBlock s).stc.station = .ready ∧ (testBlock s).lfe.z0 = s.lfe.z0
      ∧ (testBlock s).lfe.z = (if blockPasses false s.lfe.block then moveZero s.lfe.z (blockMean s.lfe.block) else s.lfe.z)
      ∧ (hasCause (testBlock s).cnd.latched .zero = true ↔
          hasCause s.cnd.latched .zero = true ∨ s.settings.zeroLimit < ((testBlock s).lfe.z - s.lfe.z0).natAbs) := by
  have hno : (s.stc.station == .settling) = false := by simp [h]
  unfold testBlock checkZeroLimit
  simp only [hno, Bool.false_eq_true, if_false]
  cases hp : blockPasses false s.lfe.block
  all_goals
    simp only [onlyIf_true, onlyIf_false, if_true, Bool.false_eq_true, if_false]
    unfold onlyIf
    split
    case isTrue hz => simp_all
    case isFalse hz => simp_all

theorem moveZero_eq (z mean : Int) : moveZero z mean = max (-20000) (min 20000 (z + max (-50) (min 50 (mean - z)))) := by
  rw [moveZero, clampInt_eq (by decide), clampInt_eq (by decide)]

/-- R11 to R15: the test of the full block `block`, in the words of the statement; `s` is the state before the sample. -/
theorem testBlock_is {s f : State} {block : List Sample} (hblock : f.lfe.block = block)
    (hstation : f.stc.station = s.stc.station) (hz : f.lfe.z = s.lfe.z) (hz0 : f.lfe.z0 = s.lfe.z0)
    (hlimit : f.settings.zeroLimit = s.settings.zeroLimit)
    (hcause : hasCause f.cnd.latched .zero = hasCause s.cnd.latched .zero) :
    (s.stc.station = .settling →
      (Quiet block ∧ -20000 ≤ blockMean block ∧ blockMean block ≤ 20000 → (testBlock f).stc.station = .ready
        ∧ (testBlock f).lfe.z = blockMean block ∧ (testBlock f).lfe.z0 = blockMean block)
      ∧ (¬ (Quiet block ∧ -20000 ≤ blockMean block ∧ blockMean block ≤ 20000) → (testBlock f).stc.station = .settling
        ∧ (testBlock f).lfe.z = s.lfe.z ∧ (testBlock f).lfe.z0 = s.lfe.z0))
    ∧ (s.stc.station = .ready → (testBlock f).stc.station = .ready ∧ (testBlock f).lfe.z0 = s.lfe.z0
      ∧ (Quiet block → (testBlock f).lfe.z
          = max (-20000) (min 20000 (s.lfe.z + max (-50) (min 50 (blockMean block - s.lfe.z)))))
      ∧ (¬ Quiet block → (testBlock f).lfe.z = s.lfe.z)
      ∧ (hasCause (testBlock f).cnd.latched .zero = true ↔ hasCause s.cnd.latched .zero = true
          ∨ s.settings.zeroLimit < ((testBlock f).lfe.z - s.lfe.z0).natAbs)) := by
  subst hblock
  rw [← hstation, ← hz, ← hz0, ← hlimit, ← hcause]
  refine ⟨fun hs => ⟨fun ⟨hquiet, hmean⟩ => ?_, fun hnot => ?_⟩, fun hs => ?_⟩
  · exact testBlock_settles hs ((blockPasses_iff true _).mpr ⟨hquiet, fun _ => hmean⟩)
  · refine testBlock_unsettled hs (Bool.eq_false_iff.mpr fun hp => hnot ?_)
    obtain ⟨hquiet, hmean⟩ := (blockPasses_iff true _).mp hp
    exact ⟨hquiet, hmean rfl⟩
  · have hpasses : blockPasses false f.lfe.block = true ↔ Quiet f.lfe.block := by
      rw [blockPasses_iff]
      simp
    obtain ⟨hstay, hsame, hmoved, hzero⟩ := testBlock_ready hs
    refine ⟨hstay, hsame, fun hquiet => ?_, fun hnot => ?_, hzero⟩
    · rw [hmoved, if_pos (hpasses.mpr hquiet), moveZero_eq]
    · rw [hmoved, if_neg fun hp => hnot (hpasses.mp hp)]

end Sys2Proof.Machine

open Sys2Proof Sys2Proof.Machine

/-- Settles O10: fewer than four instants are a group; the fourth forms the sample of all four. -/
theorem instantsFormSamples : Obligations.InstantsFormSamples := by
  intro t d r0 r1 r2 r3 s hreset hstation hd hdue
  have hrun : ∀ x : State, instantDue (instantLoads s.settings r0 r1 r2 r3) { s with now := t } = x →
      exec (.instant t r0 r1 r2 r3) s = .next x := fun x hx =>
    congrArg Host.Outcome.next ((atTime_running _ _ s hreset).trans hx)
  refine ⟨fun hgroup => hrun _ (instantDue_joins _ hstation hd hdue hgroup), fun hgroup hblock => ?_⟩
  obtain ⟨sum, left, hsum, htotal, hleft, hpart, hsaturated⟩ :=
    platformSample_is d (s.lfe.group ++ [instantLoads s.settings r0 r1 r2 r3])
  refine ⟨platformSample d (s.lfe.group ++ [instantLoads s.settings r0 r1 r2 r3]), sum, left, rfl, hsum, htotal, hleft, hpart,
    hsaturated, hrun _ ?_⟩
  rw [instantDue_forms (s := { s with now := t }) _ hstation hd hdue hgroup, withSample, onlyIf_latch_saturate]
  by_cases hopen : s.stc.station = .ready ∧ s.ses.state ≠ .idle
  case pos =>
    rw [gatherSample_idle, if_pos hopen]
    · rfl
    · exact Bool.eq_false_iff.mpr fun h => (gathering_iff hstation).mp h hopen
  case neg =>
    rw [gatherSample_short, if_neg hopen]
    · rfl
    · exact (gathering_iff hstation).mpr hopen
    · exact hblock.resolve_left hopen

/-- Settles O11: the 800th sample fills the block, and the test goes by the station state. -/
theorem zeroBlockIsTested : Obligations.ZeroBlockIsTested := by
  intro t d r0 r1 r2 r3 s hreset hstation hd hdue hgroup hblock
  have hconv : s.stc.station = .settling ∨ s.stc.station = .ready := hstation.imp id And.left
  have hgather : ¬ (s.stc.station = .ready ∧ s.ses.state ≠ .idle) := by
    rintro ⟨hready, hopen⟩
    rcases hstation with h | ⟨_, h⟩
    · rw [h] at hready
      cases hready
    · exact hopen h
  have hexec : exec (.instant t r0 r1 r2 r3) s = .next _ := congrArg Host.Outcome.next ((atTime_running _ _ s hreset).trans
    (instantDue_forms (instantLoads s.settings r0 r1 r2 r3) (s := { s with now := t }) hconv hd hdue hgroup))
  simp only at hexec
  generalize platformSample d (s.lfe.group ++ [instantLoads s.settings r0 r1 r2 r3]) = x at hexec
  rw [withSample, onlyIf_latch_saturate, gatherSample_full] at hexec
  case h => exact (gathering_iff hconv).mpr hgather
  case hl => exact hblock
  obtain ⟨hempty, hgroups, hhistory⟩ := testBlock_emptied _
  refine ⟨_, x, _, hexec, ?_, hempty, hgroups, blockMean_isRounded _, testBlock_is rfl rfl rfl rfl rfl ?_⟩
  · rw [hhistory]
    exact joinHistory_getLast _ _
  · show hasCause (if x.saturated = true then _ else s.cnd).latched .zero = _
    split
    · exact (hasCause_or s.cnd.latched (causeBit .saturate) .zero).trans (by simp)
    · rfl

end

section
/-! The tracker's list and timeline, and the measuring of windows (03, 04). -/

namespace Sys2Proof.Machine

open Sys2Proof

/-! ### List and stacks (R42 to R47) -/

theorem pushStack_eq (j : Nat) (stack : List Nat) : pushStack j stack = j :: stack.take 31 := rfl

theorem reverseExit_some {a b : Atr} {j : Nat} (h : listOperation .reverseExit a = some (b, j)) :
    a.list.getLast? = some j ∧ b = { a with list := a.list.dropLast, returnStack := j :: a.returnStack.take 31 } := by
  simp only [listOperation] at h
  split at h
  · cases h
  · rename_i i hi
    cases h
    exact ⟨hi, rfl⟩

theorem normalExit_some {a b : Atr} {j : Nat} (h : listOperation .normalExit a = some (b, j)) :
    a.list.head? = some j ∧ b = { a with list := a.list.tail, exitStack := j :: a.exitStack.take 31 } := by
  simp only [listOperation] at h
  split at h
  · cases h
  · rename_i i rest hlist
    cases h
    rw [hlist]
    exact ⟨rfl, rfl⟩

/-- R42: an axle that has returned is taken up again. -/
theorem normalEntry_returned {a : Atr} {j : Nat} {rest : List Nat} (hroom : a.list.length < 8) (h : a.returnStack = j :: rest) :
    listOperation .normalEntry a = some ({ a with list := a.list ++ [j], returnStack := rest }, j) := by
  have hfull : ¬ 8 ≤ a.list.length := by omega
  simp [listOperation, hfull, h]

theorem reEntry_exited {a : Atr} {j : Nat} {rest : List Nat} (hroom : a.list.length < 8) (h : a.exitStack = j :: rest) :
    listOperation .reEntry a = some ({ a with list := j :: a.list, exitStack := rest }, j) := by
  have hfull : ¬ 8 ≤ a.list.length := by omega
  simp [listOperation, hfull, h]

theorem normalEntry_phantom (a : Atr) : listOperation .normalEntry a = none ↔
    8 ≤ a.list.length ∨ (a.returnStack = [] ∧ 65535 ≤ a.counter) := by
  by_cases hfull : 8 ≤ a.list.length
  · simp [listOperation, hfull]
  · cases hstack : a.returnStack <;> simp [listOperation, hfull, hstack]

theorem reEntry_phantom (a : Atr) : listOperation .reEntry a = none ↔ 8 ≤ a.list.length := by
  by_cases hfull : 8 ≤ a.list.length
  · simp [listOperation, hfull]
  · cases hstack : a.exitStack <;> simp [listOperation, hfull, hstack]

theorem normalExit_phantom (a : Atr) : listOperation .normalExit a = none ↔ a.list = [] := by
  cases hlist : a.list <;> simp [listOperation, hlist]

theorem reverseExit_phantom (a : Atr) : listOperation .reverseExit a = none ↔ a.list = [] := by
  rw [← List.getLast?_eq_none_iff]
  cases hlast : a.list.getLast? <;> simp [listOperation, hlast]

/-! ### Removal (R49, R53) -/

/-- R49: the event at a place of the timeline lets go at `t`. -/
def letsGo (t : Time) (tl : List Event) (i : Nat) : Bool :=
  match tl[i]?, tl[i + 1]? with
  | some e, some f => e.before != .pending && e.after != .pending && f.before != .pending
  | some e, none => e.before != .pending && e.after != .pending && reached (e.edge + 1000000) t
  | none, _ => false

theorem filterMap_range_succ {α : Type} (n : Nat) (f : Nat → Option α) :
    (List.range (n + 1)).filterMap f = (f 0).toList ++ (List.range n).filterMap fun i => f (i + 1) := by
  rw [List.range_succ_eq_map, List.filterMap_cons, List.filterMap_map]
  cases f 0 <;> rfl

theorem remaining_eq (t : Time) : ∀ tl : List Event,
    remaining t tl = (List.range tl.length).filterMap fun i => if letsGo t tl i then none else tl[i]?
  | [] => rfl
  | [e] => by
    rw [List.length_singleton, filterMap_range_succ]
    show (if bothDone e && reached (addUs e.edge 1000000) t then [] else [e])
      = (if bothDone e && reached (addUs e.edge 1000000) t then none else some e).toList ++ []
    split <;> rfl
  | e :: f :: rest => by
    rw [List.length_cons, filterMap_range_succ]
    show (if bothDone e && !isPending f.before then remaining t (f :: rest) else e :: remaining t (f :: rest))
      = (if bothDone e && !isPending f.before then none else some e).toList
        ++ (List.range (f :: rest).length).filterMap fun i => if letsGo t (f :: rest) i then none else (f :: rest)[i]?
    rw [← remaining_eq t (f :: rest)]
    split <;> rfl

/-! ### A measured window (R9, R67, R68) -/

theorem foldl_max_mem : ∀ (xs : List Int) (a : Int), xs.foldl max a ∈ a :: xs
  | [], a => List.mem_singleton.mpr rfl
  | y :: ys, a => by
    rw [List.foldl_cons]
    rcases List.mem_cons.mp (foldl_max_mem ys (max a y)) with h | h
    · rw [h]
      rcases max_choice a y with h | h <;> simp [h]
    · exact List.mem_cons_of_mem _ (List.mem_cons_of_mem _ h)

theorem foldl_min_mem : ∀ (xs : List Int) (a : Int), xs.foldl min a ∈ a :: xs
  | [], a => List.mem_singleton.mpr rfl
  | y :: ys, a => by
    rw [List.foldl_cons]
    rcases List.mem_cons.mp (foldl_min_mem ys (min a y)) with h | h
    · rw [h]
      rcases min_choice a y with h | h <;> simp [h]
    · exact List.mem_cons_of_mem _ (List.mem_cons_of_mem _ h)

/-- The spread is a difference of two of the numbers, and no difference is larger. -/
theorem spreadOf_is {xs : List Int} (h : xs ≠ []) :
    (∃ x ∈ xs, ∃ y ∈ xs, spreadOf xs = x - y) ∧ ∀ x ∈ xs, ∀ y ∈ xs, x - y ≤ spreadOf xs := by
  obtain ⟨a, xs, rfl⟩ := List.exists_cons_of_ne_nil h
  have hmax := (foldl_max_le_iff (xs.foldl max a) xs a).mp le_rfl
  have hmin := (le_foldl_min_iff (xs.foldl min a) xs a).mp le_rfl
  refine ⟨⟨_, foldl_max_mem xs a, _, foldl_min_mem xs a, rfl⟩, fun x hx y hy => ?_⟩
  exact sub_le_sub (hmax x hx) (hmin y hy)

/-- R9: the samples between two instants. -/
def samplesWithin (history : List Sample) (start finish : Time) : List Sample :=
  history.filter fun x => !earlier x.stamp start && !earlier finish x.stamp

theorem readHistory_expired {history : List Sample} {start : Time} (finish : Time)
    (h : ∀ oldest, history.head? = some oldest → earlier start oldest.stamp = true) :
    readHistory history start finish = none := by
  cases history with
  | nil => rfl
  | cons x xs => exact if_pos (h x rfl)

theorem readHistory_held {history : List Sample} {start : Time} (finish : Time)
    (h : ¬ ∀ oldest, history.head? = some oldest → earlier start oldest.stamp = true) :
    readHistory history start finish = some (samplesWithin history start finish) := by
  cases history with
  | nil => exact absurd (fun x hx => nomatch hx) h
  | cons x xs =>
    refine if_neg fun hx => h fun y hy => ?_
    cases hy
    exact hx

theorem windowResult_none {xs : List Sample} (h : xs.length < 4 ∨ ∃ x ∈ xs, x.saturated = true) : windowResult xs = none := by
  refine if_pos ?_
  rw [Bool.or_eq_true, List.any_eq_true, decide_eq_true_eq]
  exact h.symm

theorem windowResult_some {xs : List Sample} (hl : 4 ≤ xs.length) (hs : ∀ x ∈ xs, x.saturated = false) :
    ∃ r, windowResult xs = some r ∧ r.count = xs.length ∧ IsRounded (xs.map (·.total)).sum xs.length r.mean
      ∧ IsRounded (xs.map (·.left)).sum xs.length r.left ∧ r.spread = spreadOf (xs.map (·.total)) := by
  refine ⟨_, if_neg ?_, rfl, ?_, ?_, rfl⟩
  · rw [Bool.or_eq_true, List.any_eq_true, decide_eq_true_eq]
    rintro (⟨x, hx, hsat⟩ | hshort)
    · rw [hs x hx] at hsat
      cases hsat
    · omega
  · rw [← total_eq]
    exact roundDiv_isRounded _ _ (by omega)
  · rw [← total_eq]
    exact roundDiv_isRounded _ _ (by omega)

theorem measure_not_pending (history : List Sample) (span : Time × Time) : measure history span ≠ .pending := by
  unfold measure
  split <;> exact fun h => nomatch h

/-! ### Due windows (R64 to R71) -/

theorem findRecord_changeRecord {s : State} {j : Nat} {f : OwnRecord → OwnRecord} (hf : ∀ r, (f r).ordinal = r.ordinal) :
    findRecord (changeRecord j f s) j = (findRecord s j).map f := by
  unfold findRecord changeRecord
  simp only
  induction s.atr.records with
  | nil => rfl
  | cons r rs ih =>
    by_cases hr : r.ordinal = j
    · simp [hr, hf r]
    · have hfalse : (r.ordinal == j) = false := by simpa using hr
      simp only [List.map_cons, hfalse, Bool.false_eq_true, if_false, List.find?_cons]
      exact ih

theorem settleRecord_ordinal (kind : EventKind) (step : Option Step) (r : OwnRecord) :
    (settleRecord kind step r).ordinal = r.ordinal := by
  unfold settleRecord
  split <;> rfl

/-- R69: the event is its record's latest normal event. -/
def Offered (e : Event) : Prop := e.latest = true ∧ e.ordinal ≠ 0 ∧ (e.kind = .normalEntry ∨ e.kind = .normalExit)

theorem offered_iff (e : Event) : offered e = true ↔ Offered e := by
  simp [offered, Offered, and_assoc]

theorem bothDone_iff (e : Event) : bothDone e = true ↔ e.before ≠ .pending ∧ e.after ≠ .pending := by
  simp [bothDone, isPending]

theorem settleEvent_idle {e : Event} (h : ¬ Offered e ∨ e.before = .pending ∨ e.after = .pending) (s : State) :
    settleEvent e s = s := by
  unfold settleEvent
  have hno : (offered e && bothDone e) = false := by
    rw [Bool.eq_false_iff, Ne, Bool.and_eq_true, offered_iff, bothDone_iff]
    tauto
  rw [hno, onlyIf_false]

theorem settleEvent_due {e : Event} (ho : Offered e) (hb : e.before ≠ .pending) (ha : e.after ≠ .pending) (s : State) :
    settleEvent e s = settleSide e.kind e.ordinal (eventStep e) s := by
  unfold settleEvent
  have hyes : (offered e && bothDone e) = true := by
    rw [Bool.and_eq_true, offered_iff, bothDone_iff]
    exact ⟨ho, hb, ha⟩
  rw [hyes, onlyIf_true]

/-- R73: a record of which a side is still to be settled, or whose exit has not come, waits. -/
theorem settleSide_waits {s : State} {kind : EventKind} {j : Nat} {step : Option Step} {r : OwnRecord}
    (hr : findRecord s j = some r) (hwait : ¬ (r.exit.isSome = true ∧ r.exitAfterEntry = true
      ∧ (settleRecord kind step r).entrySettled = true ∧ (settleRecord kind step r).exitSettled = true)) :
    settleSide kind j step s = changeRecord j (settleRecord kind step) s := by
  have hfound : findRecord (changeRecord j (settleRecord kind step) s) j = some (settleRecord kind step r) := by
    rw [findRecord_changeRecord (settleRecord_ordinal kind step), hr, Option.map_some]
  have hexit : (settleRecord kind step r).exit = r.exit
      ∧ (settleRecord kind step r).exitAfterEntry = r.exitAfterEntry := by
    unfold settleRecord
    split <;> exact ⟨rfl, rfl⟩
  have hready : estimateReady (settleRecord kind step r) = false := by
    rw [Bool.eq_false_iff]
    simpa [estimateReady, hexit, and_assoc] using hwait
  unfold settleSide checkDone
  rw [hfound]
  exact if_pos (by rw [hready]; simp)

theorem beforeDueAt_due {s : State} {k : Nat} {e : Event} (he : s.atr.timeline[k]? = some e) (hp : e.before = .pending)
    (hd : reached (beforeDue e.edge) s.now = true) :
    beforeDueAt k s =
      settleEvent { e with before := measure s.lfe.history (beforeWindow (edgeBefore s.atr.timeline k) e.edge) }
        (setEvent k { e with before := measure s.lfe.history (beforeWindow (edgeBefore s.atr.timeline k) e.edge) } s) := by
  simp [beforeDueAt, measureBefore, eventAt, he, hp, hd, isPending, onlyIf]

theorem afterDueAt_due {s : State} {k : Nat} {e : Event} (he : s.atr.timeline[k]? = some e) (hp : e.after = .pending)
    (hd : reached (afterDue e.edge (edgeAfter s.atr.timeline k)) s.now = true) :
    afterDueAt k s =
      settleEvent { e with after := measure s.lfe.history (afterWindow e.edge (edgeAfter s.atr.timeline k)) }
        (setEvent k { e with after := measure s.lfe.history (afterWindow e.edge (edgeAfter s.atr.timeline k)) } s) := by
  simp [afterDueAt, measureAfter, eventAt, he, hp, hd, isPending, onlyIf]

end Sys2Proof.Machine

open Sys2Proof Sys2Proof.Machine

/-- Settles O16: what one operation pushes the other takes back. -/
theorem returningAxleKeepsItsOrdinal : Obligations.ReturningAxleKeepsItsOrdinal := by
  refine ⟨fun a b j hsize h => ?_, fun a b j hsize h => ?_, normalEntry_phantom, reEntry_phantom, normalExit_phantom,
    reverseExit_phantom⟩
  · obtain ⟨hlast, rfl⟩ := reverseExit_some h
    obtain ⟨front, hfront⟩ := List.getLast?_eq_some_iff.mp hlast
    refine ⟨hlast, rfl, _, normalEntry_returned ?_ rfl, ?_, rfl, rfl, rfl⟩
    · rw [hfront, List.length_append, List.length_singleton] at hsize
      simp only [hfront, List.dropLast_concat]
      omega
    · simp only [hfront, List.dropLast_concat]
  · obtain ⟨hhead, rfl⟩ := normalExit_some h
    obtain ⟨rest, hrest⟩ := List.head?_eq_some_iff.mp hhead
    refine ⟨hhead, rfl, _, reEntry_exited ?_ rfl, ?_, rfl, rfl, rfl⟩
    · rw [hrest, List.length_cons] at hsize
      simp only [hrest, List.tail_cons]
      omega
    · simp only [hrest, List.tail_cons]

/-- Settles O17: the recursion over the timeline is a test of each place and the next. -/
theorem timelineLetsGoWhatIsDone : Obligations.TimelineLetsGoWhatIsDone := by
  intro t s hreset
  refine congrArg Host.Outcome.next ((atTime_running _ _ s hreset).trans ?_)
  show tidy { s with now := t } = _
  unfold tidy
  simp only
  rw [remaining_eq]
  rfl

/-- Settles O20: an expired or unusable window gives no result; the spread is attained and largest. -/
theorem windowGivesMeansAndSpread : Obligations.WindowGivesMeansAndSpread := by
  intro history start finish
  constructor
  · intro h
    have hnone : (readHistory history start finish).bind windowResult = none := by
      by_cases hexpired : ∀ oldest, history.head? = some oldest → earlier start oldest.stamp = true
      · rw [readHistory_expired finish hexpired]
        rfl
      · rw [readHistory_held finish hexpired]
        exact windowResult_none (h.resolve_left hexpired)
    simp only [Machine.measure, hnone]
  · intro hheld hlength hclean
    obtain ⟨r, hr, hcount, hmean, hleft, hspread⟩ := windowResult_some hlength hclean
    have hsome : (readHistory history start finish).bind windowResult = some r := by
      rw [readHistory_held finish hheld]
      exact hr
    have hne : (samplesWithin history start finish).map (·.total) ≠ [] := by
      rw [Ne, List.map_eq_nil_iff]
      intro hnil
      rw [show history.filter _ = [] from hnil] at hlength
      exact absurd hlength (by decide)
    obtain ⟨⟨x, hx, y, hy, hxy⟩, hmost⟩ := spreadOf_is hne
    obtain ⟨high, hhigh, rfl⟩ := List.mem_map.mp hx
    obtain ⟨low, hlow, rfl⟩ := List.mem_map.mp hy
    refine ⟨r, by simp only [Machine.measure, hsome], hcount, hmean, hleft, ⟨high, hhigh, low, hlow, hspread.trans hxy⟩,
      fun x hx y hy => ?_⟩
    rw [hspread]
    exact hmost _ (List.mem_map_of_mem hx) _ (List.mem_map_of_mem hy)

/-- Settles O18: a measured mark is no longer pending, so the event settles exactly when its other mark is done too. -/
theorem dueWindowIsMeasured : Obligations.DueWindowIsMeasured := by
  intro t k e s hreset he offered marked less step side settled waiting before after
  have hstep : ∀ e' : Event, e'.kind = e.kind → eventStep e' = step e' := by
    intro e' hkind
    show eventStep e' = match e'.before, e'.after with
      | .evaluated b, .evaluated a => some (if e.kind = .normalExit then less b a b a else less a b b a)
      | _, _ => none
    unfold eventStep
    rw [hkind]
    cases e'.before <;> cases e'.after <;> simp only [beq_iff_eq] <;> rfl
  have hside : ∀ e' : Event, e'.kind = e.kind → settleRecord e'.kind (eventStep e') = side e' := by
    intro e' hkind
    funext r
    show _ = if e.kind = .normalExit then { r with exitStep := step e', exitSettled := true }
      else { r with entryStep := step e', entrySettled := true }
    unfold settleRecord
    rw [hstep e' hkind, hkind]
    simp only [beq_iff_eq]
  have hsettles : ∀ e' : Event, e'.kind = e.kind → e'.ordinal = e.ordinal → waiting e' →
      settleSide e'.kind e'.ordinal (eventStep e') (marked e') = settled e' := by
    rintro e' hkind hordinal ⟨r, hr, hwait⟩
    rw [← hside e' hkind] at hwait
    rw [← hordinal] at hr
    rw [settleSide_waits (s := marked e') hr hwait, hside e' hkind, hordinal]
    rfl
  have hpast : edgeBefore s.atr.timeline k = if k = 0 then none else (s.atr.timeline[k - 1]?).map (·.edge) := by
    unfold edgeBefore
    simp only [beq_iff_eq]
  have hsettled : ∀ e' : Event, e'.kind = e.kind → e'.ordinal = e.ordinal → e'.latest = e.latest → offered →
      e'.before ≠ .pending → e'.after ≠ .pending → waiting e' → settleEvent e' (marked e') = settled e' := by
    intro e' hkind hordinal hlatest hoffered hb ha hw
    refine (settleEvent_due ?_ hb ha _).trans (hsettles e' hkind hordinal hw)
    unfold Offered
    rw [hkind, hordinal, hlatest]
    exact hoffered
  have hbefore : e.before = .pending → reached (e.edge + 500001) t = true →
      exec (.beforeWindowDue t k) s = .next (tidy (settleEvent before (marked before))) := by
    intro hpending hdue
    refine congrArg Host.Outcome.next ((atTime_running _ _ s hreset).trans (congrArg tidy ?_))
    refine (beforeDueAt_due (s := { s with now := t }) he hpending hdue).trans ?_
    simp only [hpast]
    rfl
  have hafter : e.after = .pending → reached ((afterWindow e.edge ((s.atr.timeline[k + 1]?).map (·.edge))).2 + 500001) t = true →
      exec (.afterWindowDue t k) s = .next (tidy (settleEvent after (marked after))) := by
    intro hpending hdue
    refine congrArg Host.Outcome.next ((atTime_running _ _ s hreset).trans (congrArg tidy ?_))
    exact afterDueAt_due (s := { s with now := t }) he hpending hdue
  refine ⟨fun hpending hdue => ⟨fun h => ?_, fun ho ha hw => ?_⟩, fun hpending hdue => ⟨fun h => ?_, fun ho hb hw => ?_⟩⟩
  · rw [hbefore hpending hdue, settleEvent_idle (e := before) (h.imp_right .inr)]
  · rw [hbefore hpending hdue, hsettled before rfl rfl rfl ho (measure_not_pending _ _) ha hw]
  · rw [hafter hpending hdue, settleEvent_idle (e := after) (h.imp_right .inl)]
  · rw [hafter hpending hdue, hsettled after rfl rfl rfl ho hb (measure_not_pending _ _) hw]

end

section
/-! The Wheel Head Unit: figures of a crossing, HALF, pair and discard (02). -/

namespace Sys2Proof.Machine

open Sys2Proof

/-! ### Speed, flags and edge time (R24 to R28, R33, R34) -/

theorem limitMmPerS_isRounded (kmh : Nat) : IsRounded (kmh * 10000 : Nat) 36 (limitMmPerS kmh) :=
  roundNat_isRounded _ 36 (by decide)

theorem isCreep_iff (x : Settings) (v : Nat) : isCreep x v = true ↔ v < limitMmPerS x.creepKmh := by
  unfold isCreep
  exact decide_eq_true_iff

theorem isOverspeed_iff (x : Settings) (v : Nat) : isOverspeed x v = true ↔ limitMmPerS x.overspeedKmh < v := by
  unfold isOverspeed
  exact decide_eq_true_iff

theorem speedClamped_iff (h delta : Nat) : speedClamped h delta = true ↔ delta = 0 ∨ 65535 < h * 1000000 / delta := by
  unfold speedClamped rawSpeed
  rw [Bool.or_eq_true, beq_iff_eq, decide_eq_true_iff]

theorem crossingSpeed_clamped {h delta : Nat} (hc : speedClamped h delta = true) : crossingSpeed h delta = 65535 := if_pos hc

theorem crossingSpeed_raw {h delta : Nat} (hc : speedClamped h delta = false) : crossingSpeed h delta = h * 1000000 / delta :=
  if_neg (by rw [hc]; decide)

/-- R24: within the pairing limit and with heads at least 50 mm apart, no crossing is slower than 125 mm/s. -/
theorem crossingSpeed_least {h delta : Nat} (hh : 50 ≤ h) (hd : delta ≤ 400000) : 125 ≤ crossingSpeed h delta := by
  cases hc : speedClamped h delta with
  | true =>
    rw [crossingSpeed_clamped hc]
    decide
  | false =>
    have hdelta : delta ≠ 0 := fun h0 => by
      rw [Bool.eq_false_iff, Ne, speedClamped_iff] at hc
      exact hc (.inl h0)
    rw [crossingSpeed_raw hc, Nat.le_div_iff_mul_le (by omega)]
    omega

theorem expectedKind_inward (s : State) (e : PlatformEnd) : expectedKind s e = .inward ↔
    s.ses.state = .idle ∨ (s.ses.direction = .up ∧ e = .a) ∨ (s.ses.direction = .down ∧ e = .b) := by
  unfold expectedKind
  by_cases hidle : s.ses.state = .idle
  · simp [hidle]
  · cases s.ses.direction <;> cases e <;> simp [hidle, trailingEnd]

/-! ### Locks and faults of an end (R19, R31, R32) -/

theorem setEndUnit_twice (e : PlatformEnd) (u v : EndUnit) (s : State) : setEndUnit e u (setEndUnit e v s) = setEndUnit e u s := by
  cases e <;> rfl

theorem latched_of_unlocked {t : Time} {lock : Option Time} (h : ∀ release, lock = some release → earlier t release = false) :
    latched t lock = true := by
  cases lock with
  | none => rfl
  | some release =>
    show (!earlier t release) = true
    rw [h release rfl]
    rfl

theorem headEdge_locked {s : State} {e : PlatformEnd} {h : HeadNo} {release : Time} (hl : lockOf (endUnit s e) h = some release)
    (he : earlier s.now release = true) : headEdge e h s = s := by
  simp [headEdge, hl, latched, he]

theorem headEdge_not_ready {s : State} (e : PlatformEnd) (h : HeadNo) (hs : s.stc.station ≠ .ready) : headEdge e h s = s := by
  simp [headEdge, hs]

theorem headEdge_latched {t : Time} {e : PlatformEnd} {h : HeadNo} {s : State} (hl : EdgeLatched t e h s) :
    headEdge e h { s with now := t } = tidy (pairEdge e h t (setEndUnit e (lockedEnd t e h s) { s with now := t })) := by
  have hlatched : latched t (lockOf (endUnit { s with now := t } e) h) = true := by
    refine latched_of_unlocked ?_
    cases e <;> exact hl.unlocked
  unfold headEdge
  simp only [hl.ready, hlatched, beq_self_eq_true, Bool.and_self, if_true]
  cases e <;> rfl

theorem lockedEnd_half (t : Time) (e : PlatformEnd) (h : HeadNo) (s : State) : (lockedEnd t e h s).half = (endUnit s e).half := by
  unfold lockedEnd
  cases h <;> rfl

theorem lockedEnd_working (t : Time) (e : PlatformEnd) (h : HeadNo) (s : State) :
    workingHead (lockedEnd t e h s) = workingHead (endUnit s e) := workingHead_setLock _ _ _

theorem workingHead_isSome (u : EndUnit) : (workingHead u).isSome = true ↔ u.fault1 ≠ u.fault2 := by
  unfold workingHead
  cases u.fault1 <;> cases u.fault2 <;> simp

/-! ### Pairing (R20 to R23, R29, R35, R36) -/

theorem pairEdge_starts {e : PlatformEnd} {h : HeadNo} {t : Time} {s : State} (hh : (endUnit s e).half = none) :
    pairEdge e h t s = startHalf e h t s := by
  unfold pairEdge
  rw [hh]

theorem discards_iff (t : Time) (half : Half) (h : HeadNo) :
    (halfExpired half t || half.head == h) = true ↔ Discards t half h := by
  simp [halfExpired, Discards, or_comm]

theorem pairEdge_discards {e : PlatformEnd} {h : HeadNo} {t : Time} {s : State} {half : Half}
    (hh : (endUnit s e).half = some half) (hd : Discards t half h) :
    pairEdge e h t s = startHalf e h t (discardHalf e half.head s) := by
  unfold pairEdge
  rw [hh]
  exact if_pos ((discards_iff t half h).mpr hd)

theorem pairEdge_completes {e : PlatformEnd} {h : HeadNo} {t : Time} {s : State} {half : Half}
    (hh : (endUnit s e).half = some half) (hd : ¬ Discards t half h) : pairEdge e h t s = completePair e half t s := by
  unfold pairEdge
  rw [hh]
  exact if_neg fun hc => hd ((discards_iff t half h).mp hc)

/-- R20: an edge of a head that is not the working one only starts a HALF. -/
theorem startHalf_silent {e : PlatformEnd} {h : HeadNo} {s : State} (t : Time) (hw : workingHead (endUnit s e) ≠ some h) :
    startHalf e h t s = setEndUnit e { endUnit s e with half := some { head := h, start := t, delivered := false } } s := by
  have hfalse : (workingHead (endUnit s e) == some h) = false := by simpa using hw
  unfold startHalf
  simp only [hfalse, Bool.false_eq_true, if_false]

/-- R33, R34: an edge of the working head delivers a single-head crossing and marks its HALF. -/
theorem startHalf_delivers {e : PlatformEnd} {h : HeadNo} {s : State} (t : Time) (hw : workingHead (endUnit s e) = some h) :
    startHalf e h t s =
      (deliverCrossing
        (singleCrossing (setEndUnit e { endUnit s e with half := some { head := h, start := t, delivered := true } } s) e h t)
        (setEndUnit e { endUnit s e with half := some { head := h, start := t, delivered := true } } s)).1 := by
  unfold startHalf
  simp only [hw, beq_self_eq_true, if_true]

theorem causesAfterDiscard_lock (g h : HeadNo) (x : Option Time) (u : EndUnit) (k : Cnd) :
    causesAfterDiscard g (setLock h x u) k = causesAfterDiscard g u k := by
  unfold causesAfterDiscard
  rw [discardedEnd_lock]
  cases h <;> rfl

/-- R22, R23: what the discard of the HALF leaves where the edge has locked its head. -/
theorem discardHalf_locked (t : Time) (e : PlatformEnd) (g h : HeadNo) (s : State) :
    discardHalf e g (setEndUnit e (lockedEnd t e h s) { s with now := t }) =
      setEndUnit e (discardedEnd g (lockedEnd t e h s)) { s with now := t, cnd := causesAfterDiscard g (endUnit s e) s.cnd } := by
  rw [discardHalf_does, endUnit_setEndUnit, setEndUnit_cnd, lockedEnd, causesAfterDiscard_lock]
  cases e <;> rfl

theorem discardedEnd_working (g h : HeadNo) (x : Option Time) (u : EndUnit) :
    workingHead (discardedEnd g (setLock h x u)) = workingHead (discardedEnd g u) := by
  rw [discardedEnd_lock, workingHead_setLock]

theorem anyFault_cleared (e : PlatformEnd) (u : EndUnit) (s : State) :
    anyFault (setEndUnit e { u with fault1 := false, fault2 := false } s)
      = ((endUnit s (otherEnd e)).fault1 || (endUnit s (otherEnd e)).fault2) := by
  unfold anyFault setEndUnit endUnit otherEnd
  cases e <;> simp

/-- R35: the end's faults are cleared, and HEAD with them where the other end has none. -/
theorem clearFaults_end (e : PlatformEnd) (u : EndUnit) (s : State) :
    clearFaults e (setEndUnit e u s) =
      setEndUnit e { u with fault1 := false, fault2 := false }
        { s with
          cnd := if (endUnit s (otherEnd e)).fault1 || (endUnit s (otherEnd e)).fault2 then s.cnd
            else { s.cnd with present := s.cnd.present &&& ~~~ 8 } } := by
  unfold clearFaults
  simp only [endUnit_setEndUnit, setEndUnit_twice, anyFault_cleared]
  cases hother : (endUnit s (otherEnd e)).fault1 || (endUnit s (otherEnd e)).fault2 with
  | true => rfl
  | false => cases e <;> rfl

/-- R30: the last speed of an end that has just been set. -/
theorem setLastSpeed_end (e : PlatformEnd) (v : Nat) (u : EndUnit) (s : State) :
    setLastSpeed e v (setEndUnit e u s) = setEndUnit e { u with lastSpeed := some v } s := by
  unfold setLastSpeed
  rw [endUnit_setEndUnit, setEndUnit_twice]

/-- R21, R30, R31, R35, R36: what a completed pair leaves, its crossing still to be delivered. -/
theorem pair_cleared (t : Time) (e : PlatformEnd) (h : HeadNo) (v : Nat) (s : State) :
    setLastSpeed e v (onlyIf ((lockedEnd t e h s).fault1 || (lockedEnd t e h s).fault2) (clearFaults e)
      (setEndUnit e { lockedEnd t e h s with half := none, runHead := none, runCount := 0 }
        (setEndUnit e (lockedEnd t e h s) { s with now := t })))
      = setEndUnit e (pairedEnd t e h v s) { s with now := t, cnd := causesAfterPair e s } := by
  have hfault1 : (lockedEnd t e h s).fault1 = (endUnit s e).fault1 := by unfold lockedEnd; cases h <;> rfl
  have hfault2 : (lockedEnd t e h s).fault2 = (endUnit s e).fault2 := by unfold lockedEnd; cases h <;> rfl
  have hcauses : causesAfterPair e s =
      if (endUnit s e).fault1 || (endUnit s e).fault2 then
        if (endUnit s (otherEnd e)).fault1 || (endUnit s (otherEnd e)).fault2 then s.cnd
        else { s.cnd with present := s.cnd.present &&& ~~~ 8 }
      else s.cnd := by
    unfold causesAfterPair
    cases (endUnit s e).fault1 || (endUnit s e).fault2 <;>
      cases (endUnit s (otherEnd e)).fault1 || (endUnit s (otherEnd e)).fault2 <;> rfl
  rw [setEndUnit_twice, hcauses]
  cases hfaulty : (endUnit s e).fault1 || (endUnit s e).fault2 with
  | true =>
    rw [hfault1, hfault2, hfaulty, onlyIf_true, clearFaults_end, setLastSpeed_end]
    cases e <;> rfl
  | false =>
    obtain ⟨hf1, hf2⟩ := Bool.or_eq_false_iff.mp hfaulty
    have hsame : pairedEnd t e h v s =
        { lockedEnd t e h s with half := none, runHead := none, runCount := 0, lastSpeed := some v } := by
      rw [EndUnit.mk.injEq]
      exact ⟨rfl, rfl, rfl, rfl, rfl, (hfault1.trans hf1).symm, (hfault2.trans hf2).symm, rfl⟩
    rw [hfault1, hfault2, hfaulty, onlyIf_false, setLastSpeed_end, hsame]
    rfl

/-! ### Expiry of a HALF (R23, R31, R32) -/

theorem expireHalf_due {e : PlatformEnd} {s : State} {half : Half} (hh : (endUnit s e).half = some half)
    (hd : reached (half.start + 400001) s.now = true) : expireHalf e s = discardHalf e half.head s := by
  have hdue : reached (addUs half.start 400001) s.now = true := hd
  unfold expireHalf
  rw [hh]
  simp only [hdue, onlyIf_true]

theorem discardedEnd_count (g : HeadNo) {u : EndUnit} (hle : u.runCount ≤ 4) :
    (discardedEnd g u).runCount = if u.runHead = some g then min 4 (u.runCount + 1) else 1 := by
  show (if u.runHead = some g then (if u.runCount < 4 then u.runCount + 1 else u.runCount) else 1) = _
  split
  · split <;> omega
  · rfl

theorem discardedEnd_below {g : HeadNo} {u : EndUnit} (h : (discardedEnd g u).runCount ≠ 4) :
    discardedEnd g u = { u with half := none, runHead := some g, runCount := (discardedEnd g u).runCount } := by
  obtain ⟨l1, l2, hf, rh, rc, f1, f2, ls⟩ := u
  revert h
  unfold discardedEnd
  simp only
  generalize (if rh = some g then (if rc < 4 then rc + 1 else rc) else 1) = n
  intro h
  have hn : (n == 4) = false := by simpa using h
  simp only [hn, Bool.false_and, Bool.or_false, Bool.and_not_self, Bool.false_eq_true, if_false]

theorem discardedEnd_faults {g : HeadNo} {u : EndUnit} (h : (discardedEnd g u).runCount = 4) :
    faultOf (discardedEnd g u) (otherHead g) = true := by
  revert h
  unfold discardedEnd
  simp only
  intro h
  cases g <;> simp [faultOf, otherHead, h]

theorem discardedEnd_keeps (g : HeadNo) (u : EndUnit) : faultOf (discardedEnd g u) g = faultOf u g := by
  unfold discardedEnd
  cases g <;> simp [faultOf]

end Sys2Proof.Machine

open Sys2Proof Sys2Proof.Machine

/-- Settles O12: the clamp of the speed decides its flag, and the correction of an outward pair leaves its delay room. -/
theorem crossingFiguresFollowTheHeads : Obligations.CrossingFiguresFollowTheHeads := by
  constructor
  · intro x e half t delta h c hleast hmost hdelta
    have hspeed : c.speed = crossingSpeed h delta := rfl
    have hover : c.overspeed = (speedClamped h delta || isOverspeed x c.speed) := rfl
    have hunclamped : delta ≠ 0 → h * 1000000 / delta ≤ 65535 → speedClamped h delta = false := by
      intro h0 hle
      rw [Bool.eq_false_iff, Ne, speedClamped_iff]
      omega
    refine ⟨rfl, fun ho => ?_, fun hi => ?_, hspeed ▸ crossingSpeed_least hleast hdelta, fun hc => ?_, fun h0 hle => ?_,
      ⟨_, _, limitMmPerS_isRounded _, limitMmPerS_isRounded _, isCreep_iff _ _, fun h0 hle => ?_⟩,
      _, pairedCorrection (innerDistance x e) c.speed delta c.kind, roundNat_isRounded _ _ ?_, ?_, fun ho => ?_, fun hi => ?_⟩
    · show (if half.head == .outer then CrossingKind.inward else .outward) = _
      rw [ho]; rfl
    · show (if half.head == .outer then CrossingKind.inward else .outward) = _
      rw [hi]; rfl
    · have hclamped := (speedClamped_iff h delta).mpr hc
      rw [hover, hclamped, hspeed, crossingSpeed_clamped hclamped]
      exact ⟨rfl, rfl⟩
    · rw [hspeed, crossingSpeed_raw (hunclamped h0 hle)]
    · rw [hover, hunclamped h0 hle, Bool.false_or, isOverspeed_iff]
    · exact Nat.lt_of_lt_of_le (by decide) (hspeed ▸ crossingSpeed_least hleast hdelta : 125 ≤ c.speed)
    · unfold pairedCorrection
      cases c.kind <;> simp only <;> omega
    · have hkind : c.kind = .inward := if_pos (by rw [ho]; rfl)
      have hedge : c.edge = edgeTime c.kind (if half.head == .outer then t else half.start)
        (pairedCorrection (innerDistance x e) c.speed delta c.kind) := rfl
      rw [hedge, hkind, ho]
      exact ⟨Nat.min_comm _ _, rfl⟩
    · have hkind : c.kind = .outward := if_neg (by rw [hi]; decide)
      have hedge : c.edge = edgeTime c.kind (if half.head == .outer then t else half.start)
        (pairedCorrection (innerDistance x e) c.speed delta c.kind) := rfl
      rw [hedge, hkind, hi]
      refine ⟨?_, ?_, rfl⟩ <;> simp only [pairedCorrection] <;> omega
  · intro s e h t c d
    have hspeed : c.speed = borrowedSpeed s e := rfl
    have hdistance : innerDistance s.settings e + (if h == .outer then headSpacing s.settings e else 0) = d := by
      simp only [beq_iff_eq, d]
    have hedge : c.edge = edgeTime c.kind t (singleCorrection d c.speed) := hdistance ▸ rfl
    refine ⟨rfl, expectedKind_inward s e, fun v hv => ?_, fun hn v hv => ?_, fun hn hn' => ?_,
      ⟨_, _, limitMmPerS_isRounded _, limitMmPerS_isRounded _, isCreep_iff _ _, isOverspeed_iff _ _⟩,
      singleCorrection d c.speed, fun h0 => ?_, fun h0 => ⟨_, roundNat_isRounded _ _ (by omega), ?_⟩, fun hk => ?_, fun hk => ?_⟩
    · rw [hspeed, borrowedSpeed, hv]; rfl
    · rw [hspeed, borrowedSpeed, hn, hv]; rfl
    · rw [hspeed, borrowedSpeed, hn, hn']; rfl
    · exact if_pos (by rw [h0]; rfl)
    · exact (if_neg (by simpa using h0)).trans (Nat.min_comm _ _)
    · rw [hedge, hk]; rfl
    · rw [hedge, hk]; rfl

/-- Settles O13: each clause is one branch of pairing, on the end whose head the edge has locked. -/
theorem headEdgeStartsAHalf : Obligations.HeadEdgeStartsAHalf := by
  intro t e h s hreset
  refine ⟨fun hready hun hhalf hw => ?_, fun half hl hhalf hd hw => ?_, fun half hl hhalf hne hin hdel hsingle => ?_,
    fun release hl he => ?_, fun hs => ?_⟩
  all_goals refine congrArg Host.Outcome.next ((atTime_running _ _ s hreset).trans ?_)
  · have hl : EdgeLatched t e h s := ⟨hreset, hready, hun⟩
    refine (headEdge_latched hl).trans (congrArg tidy ?_)
    rw [pairEdge_starts (by rw [endUnit_setEndUnit, lockedEnd_half, hhalf]),
      startHalf_silent t (by rw [endUnit_setEndUnit, lockedEnd_working]; exact hw), setEndUnit_twice, endUnit_setEndUnit]
    rfl
  · refine (headEdge_latched hl).trans (congrArg tidy ?_)
    rw [pairEdge_discards (by rw [endUnit_setEndUnit, lockedEnd_half, hhalf]) hd, discardHalf_locked,
      startHalf_silent t (by rw [endUnit_setEndUnit, lockedEnd, discardedEnd_working]; exact hw), setEndUnit_twice,
      endUnit_setEndUnit]
  · refine (headEdge_latched hl).trans (congrArg tidy ?_)
    have hkeeps : ¬ Discards t half h := by
      rintro (hsame | hlate)
      · exact hne hsame
      · omega
    have hsilent : (half.delivered && (workingHead (lockedEnd t e h s)).isSome) = true := by
      rw [hdel, lockedEnd_working, (workingHead_isSome _).mpr hsingle]
      rfl
    rw [pairEdge_completes (by rw [endUnit_setEndUnit, lockedEnd_half, hhalf]) hkeeps]
    unfold completePair
    simp only [endUnit_setEndUnit, setEndUnit_settings, hsilent, if_true]
    exact pair_cleared t e h _ s
  · exact headEdge_locked (s := { s with now := t }) (by cases e <;> exact hl) he
  · exact headEdge_not_ready (s := { s with now := t }) e h hs

/-- Settles O14: the end after the discard, its count below four and at four. -/
theorem expiredHalfIsCounted : Obligations.ExpiredHalfIsCounted := by
  intro t e half s hreset hhalf hdue n
  have hexec : exec (.halfExpiry t e) s = .next (setEndUnit e (discardedEnd half.head (endUnit s e))
      { s with now := t, cnd := causesAfterDiscard half.head (endUnit s e) s.cnd }) := by
    refine congrArg Host.Outcome.next ((atTime_running _ _ s hreset).trans ?_)
    refine (expireHalf_due (s := { s with now := t }) (by cases e <;> exact hhalf) hdue).trans ?_
    rw [discardHalf_does]
    cases e <;> rfl
  have hcount : (endUnit s e).runCount ≤ 4 → (discardedEnd half.head (endUnit s e)).runCount = n :=
    fun hle => discardedEnd_count half.head hle
  rw [hexec]
  refine ⟨fun hn hle => ?_, fun hn hle => ⟨_, rfl, ?_, endUnit_setEndUnit_other _ _ _, ?_⟩⟩
  · rw [discardedEnd_below (by rw [hcount hle]; exact hn), causesAfterDiscard, if_neg (by rw [hcount hle]; exact hn), hcount hle]
  · cases e <;> rfl
  · have hfour := (hcount hle).trans hn
    rw [endUnit_setEndUnit, setEndUnit_cnd, causesAfterDiscard, if_pos hfour]
    exact ⟨rfl, rfl, hfour, discardedEnd_faults hfour, discardedEnd_keeps _ _, rfl, rfl⟩

end

section
/-! The own estimate: weight, grade and left share (04, 4.5). -/

namespace Sys2Proof.Machine

open Sys2Proof

theorem plausible_iff (w : Int) : plausible w = true ↔ 500 ≤ w ∧ w ≤ 60000 := by
  unfold plausible
  rw [Bool.and_eq_true, decide_eq_true_iff, decide_eq_true_iff]

/-- R75: one of the windows used is too wide. -/
def IsWide (x : Settings) (e g : Option Step) : Prop :=
  ∃ y ∈ e.toList ++ g.toList, (x.spreadLimit : Int) < y.spreadBefore ∨ (x.spreadLimit : Int) < y.spreadAfter

/-- An absent step has no spread above a limit. -/
theorem stepSpread_above (x : Settings) (e : Option Step) : (x.spreadLimit : Int) < stepSpread e ↔
    ∃ y ∈ e.toList, (x.spreadLimit : Int) < y.spreadBefore ∨ (x.spreadLimit : Int) < y.spreadAfter := by
  cases e with
  | none => simp [stepSpread]
  | some y => simp [stepSpread]

theorem largestSpread_above (x : Settings) (e g : Option Step) : (x.spreadLimit : Int) < largestSpread e g ↔ IsWide x e g := by
  unfold largestSpread IsWide
  rw [lt_max_iff, stepSpread_above, stepSpread_above]
  constructor
  · rintro (⟨y, hy, h⟩ | ⟨y, hy, h⟩)
    · exact ⟨y, List.mem_append_left _ hy, h⟩
    · exact ⟨y, List.mem_append_right _ hy, h⟩
  · rintro ⟨y, hy, h⟩
    exact (List.mem_append.mp hy).imp (fun hy => ⟨y, hy, h⟩) fun hy => ⟨y, hy, h⟩

/-- R74: the two steps agree. -/
def StepsAgree (x : Settings) (e g : Step) : Prop :=
  ((e.total - g.total).natAbs : Int) ≤ max 200 (roundDiv (estimateWeight (some e) (some g) * x.tol) 1000)

/-! ### The grade before the plausibility test (R74, R75) -/

theorem gradeForSpread_c (b : Bool) : gradeForSpread b .c = .c := by cases b <;> rfl
theorem gradeForSpread_n (b : Bool) : gradeForSpread b .n = .n := by cases b <;> rfl
theorem gradeForOverspeed_c (b : Bool) : gradeForOverspeed b .c = .c := by cases b <;> rfl
theorem gradeForOverspeed_n (b : Bool) : gradeForOverspeed b .n = .n := by cases b <;> rfl

/-- Two steps: the whole table, overspeed over all. -/
theorem gradeBefore_both {x : Settings} {r : OwnRecord} {e g : Step} (he : r.entryStep = some e) (hg : r.exitStep = some g) :
    (gradeBeforePlausible x r = .a ↔ r.overspeed = false ∧ StepsAgree x e g ∧ ¬ IsWide x (some e) (some g))
    ∧ (gradeBeforePlausible x r = .b ↔ r.overspeed = false
        ∧ ((StepsAgree x e g ∧ IsWide x (some e) (some g)) ∨ (¬ StepsAgree x e g ∧ ¬ IsWide x (some e) (some g))))
    ∧ (gradeBeforePlausible x r = .c ↔ r.overspeed = true ∨ (¬ StepsAgree x e g ∧ IsWide x (some e) (some g)))
    ∧ gradeBeforePlausible x r ≠ .n := by
  have hbase : StepsAgree x e g → baseGrade x.tol (some e) (some g) = .a := fun h => if_pos h
  have hbase' : ¬ StepsAgree x e g → baseGrade x.tol (some e) (some g) = .b := fun h => if_neg h
  unfold gradeBeforePlausible
  rw [he, hg]
  by_cases hwide : IsWide x (some e) (some g)
  · rw [decide_eq_true ((largestSpread_above x _ _).mpr hwide)]
    by_cases hagree : StepsAgree x e g
    · rw [hbase hagree]
      cases r.overspeed <;> simp [gradeForSpread, gradeForOverspeed, hwide, hagree]
    · rw [hbase' hagree]
      cases r.overspeed <;> simp [gradeForSpread, gradeForOverspeed, hwide, hagree]
  · rw [decide_eq_false (mt (largestSpread_above x _ _).mp hwide)]
    by_cases hagree : StepsAgree x e g
    · rw [hbase hagree]
      cases r.overspeed <;> simp [gradeForSpread, gradeForOverspeed, hwide, hagree]
    · rw [hbase' hagree]
      cases r.overspeed <;> simp [gradeForSpread, gradeForOverspeed, hwide, hagree]

theorem gradeBefore_single {x : Settings} {r : OwnRecord}
    (h : (r.entryStep ≠ none ∧ r.exitStep = none) ∨ (r.entryStep = none ∧ r.exitStep ≠ none)) :
    gradeBeforePlausible x r = .c := by
  have hbase : baseGrade x.tol r.entryStep r.exitStep = .c := by
    obtain ⟨he, hg⟩ | ⟨he, hg⟩ := h
    · obtain ⟨e, he⟩ := Option.ne_none_iff_exists'.mp he
      rw [he, hg]; rfl
    · obtain ⟨g, hg⟩ := Option.ne_none_iff_exists'.mp hg
      rw [he, hg]; rfl
  unfold gradeBeforePlausible
  rw [hbase, gradeForSpread_c, gradeForOverspeed_c]

theorem gradeBefore_none {x : Settings} {r : OwnRecord} (he : r.entryStep = none) (hg : r.exitStep = none) :
    gradeBeforePlausible x r = .n := by
  unfold gradeBeforePlausible
  rw [he, hg]
  exact (congrArg _ (gradeForSpread_n _)).trans (gradeForOverspeed_n _)

/-- R74: the record has two steps. -/
def HasBoth (r : OwnRecord) : Prop := ∃ e g, r.entryStep = some e ∧ r.exitStep = some g

/-- R74: the record has two steps, and they agree. -/
def HasAgreeing (x : Settings) (r : OwnRecord) : Prop :=
  ∃ e g, r.entryStep = some e ∧ r.exitStep = some g
    ∧ ((e.total - g.total).natAbs : Int) ≤ max 200 (roundDiv ((formEstimate x r).w * x.tol) 1000)

/-- R74: the record has one step. -/
def HasSingle (r : OwnRecord) : Prop := (r.entryStep ≠ none ∧ r.exitStep = none) ∨ (r.entryStep = none ∧ r.exitStep ≠ none)

theorem hasAgreeing_iff {r : OwnRecord} {e g : Step} (x : Settings) (he : r.entryStep = some e) (hg : r.exitStep = some g) :
    HasAgreeing x r ↔ StepsAgree x e g := by
  have hw : (formEstimate x r).w = estimateWeight (some e) (some g) := by rw [← he, ← hg]; rfl
  unfold HasAgreeing StepsAgree
  rw [hw, he, hg]
  constructor
  · rintro ⟨_, _, he', hg', h⟩
    cases he'
    cases hg'
    exact h
  · exact fun h => ⟨e, g, rfl, rfl, h⟩

/-- A record has both steps, one, or none. -/
theorem steps_cases (r : OwnRecord) :
    (∃ e g, r.entryStep = some e ∧ r.exitStep = some g) ∨ HasSingle r ∨ (r.entryStep = none ∧ r.exitStep = none) := by
  unfold HasSingle
  cases r.entryStep <;> cases r.exitStep <;> simp

theorem HasSingle.not_both {r : OwnRecord} (h : HasSingle r) : ¬ HasBoth r := by
  rintro ⟨e, g, he, hg⟩
  obtain ⟨_, hg'⟩ | ⟨he', _⟩ := h
  · rw [hg] at hg'; cases hg'
  · rw [he] at he'; cases he'

theorem HasAgreeing.both {x : Settings} {r : OwnRecord} (h : HasAgreeing x r) : HasBoth r := by
  obtain ⟨e, g, he, hg, _⟩ := h
  exact ⟨e, g, he, hg⟩

theorem gradeBefore_a_iff (x : Settings) (r : OwnRecord) : gradeBeforePlausible x r = .a ↔
    r.overspeed = false ∧ HasAgreeing x r ∧ ¬ IsWide x r.entryStep r.exitStep := by
  rcases steps_cases r with ⟨e, g, he, hg⟩ | hsingle | ⟨he, hg⟩
  · obtain ⟨ha, -, -, -⟩ := gradeBefore_both (x := x) he hg
    rw [ha, hasAgreeing_iff x he hg, he, hg]
  · rw [gradeBefore_single hsingle]
    exact iff_of_false (fun h => nomatch h) fun ⟨_, h, _⟩ => hsingle.not_both h.both
  · rw [gradeBefore_none he hg]
    refine iff_of_false (fun h => nomatch h) fun ⟨_, ⟨e, _, he', _⟩, _⟩ => ?_
    rw [he] at he'
    cases he'

theorem gradeBefore_b_iff (x : Settings) (r : OwnRecord) : gradeBeforePlausible x r = .b ↔
    r.overspeed = false ∧ HasBoth r ∧ ((HasAgreeing x r ∧ IsWide x r.entryStep r.exitStep)
      ∨ (¬ HasAgreeing x r ∧ ¬ IsWide x r.entryStep r.exitStep)) := by
  rcases steps_cases r with ⟨e, g, he, hg⟩ | hsingle | ⟨he, hg⟩
  · obtain ⟨-, hb, -, -⟩ := gradeBefore_both (x := x) he hg
    rw [hb, hasAgreeing_iff x he hg, he, hg]
    exact and_congr_right fun _ => (and_iff_right ⟨e, g, he, hg⟩).symm
  · rw [gradeBefore_single hsingle]
    exact iff_of_false (fun h => nomatch h) fun ⟨_, h, _⟩ => hsingle.not_both h
  · rw [gradeBefore_none he hg]
    refine iff_of_false (fun h => nomatch h) fun ⟨_, ⟨e, _, he', _⟩, _⟩ => ?_
    rw [he] at he'
    cases he'

theorem gradeBefore_c_iff (x : Settings) (r : OwnRecord) : gradeBeforePlausible x r = .c ↔
    HasSingle r ∨ (HasBoth r ∧ (r.overspeed = true ∨ (¬ HasAgreeing x r ∧ IsWide x r.entryStep r.exitStep))) := by
  rcases steps_cases r with ⟨e, g, he, hg⟩ | hsingle | ⟨he, hg⟩
  · obtain ⟨-, -, hc, -⟩ := gradeBefore_both (x := x) he hg
    have hboth : HasBoth r := ⟨e, g, he, hg⟩
    rw [hc, hasAgreeing_iff x he hg, he, hg]
    exact ⟨fun h => .inr ⟨hboth, h⟩, fun h => (h.resolve_left fun hs => hs.not_both hboth).2⟩
  · rw [gradeBefore_single hsingle]
    exact iff_of_true rfl (.inl hsingle)
  · rw [gradeBefore_none he hg]
    refine iff_of_false (fun h => nomatch h) ?_
    rintro (h | ⟨⟨e, _, he', _⟩, _⟩)
    · simp [HasSingle, he, hg] at h
    · rw [he] at he'
      cases he'

/-- R75: no window is too wide exactly when each of the four spreads is within the limit. -/
theorem not_isWide_iff (x : Settings) (e g : Step) : ¬ IsWide x (some e) (some g) ↔
    e.spreadBefore ≤ x.spreadLimit ∧ e.spreadAfter ≤ x.spreadLimit ∧ g.spreadBefore ≤ x.spreadLimit
      ∧ g.spreadAfter ≤ x.spreadLimit := by
  simp [IsWide, and_assoc]

/-! ### The grade (R76) -/

theorem formEstimate_grade (x : Settings) (r : OwnRecord) : (formEstimate x r).grade =
    if plausible (formEstimate x r).w = true then gradeBeforePlausible x r else .n := by
  show (if isImplausible x r then Grade.n else gradeBeforePlausible x r) = _
  have hw : (formEstimate x r).w = estimateWeight r.entryStep r.exitStep := rfl
  rw [hw]
  unfold isImplausible
  cases hp : plausible (estimateWeight r.entryStep r.exitStep) with
  | true => simp
  | false => cases hgrade : gradeBeforePlausible x r <;> simp

theorem grade_is_iff {x : Settings} {r : OwnRecord} {k : Grade} (hk : k ≠ .n) : (formEstimate x r).grade = k ↔
    (500 ≤ (formEstimate x r).w ∧ (formEstimate x r).w ≤ 60000) ∧ gradeBeforePlausible x r = k := by
  rw [formEstimate_grade, ← plausible_iff]
  split
  case isTrue hp => exact (and_iff_right hp).symm
  case isFalse hp => exact ⟨fun h => absurd h.symm hk, fun h => absurd h.1 hp⟩

theorem stepsWeight_none {r : OwnRecord} (x : Settings) (he : r.entryStep = none) (hg : r.exitStep = none) :
    (formEstimate x r).w = 0 := by
  show estimateWeight _ _ = 0
  rw [he, hg]
  rfl

/-- A record without a step is no axle load. -/
theorem gradeBefore_n_iff (x : Settings) (r : OwnRecord) :
    gradeBeforePlausible x r = .n ↔ r.entryStep = none ∧ r.exitStep = none := by
  constructor
  · intro h
    by_contra hsome
    cases he : r.entryStep with
    | none =>
      rw [gradeBefore_single (.inr ⟨he, fun hg => hsome ⟨he, hg⟩⟩)] at h
      cases h
    | some e =>
      cases hg : r.exitStep with
      | none =>
        rw [gradeBefore_single (.inl ⟨by simp [he], hg⟩)] at h
        cases h
      | some g =>
        obtain ⟨_, _, _, hn⟩ := gradeBefore_both (x := x) he hg
        exact hn h
  · rintro ⟨he, hg⟩
    exact gradeBefore_none he hg

theorem grade_n_iff (x : Settings) (r : OwnRecord) :
    (formEstimate x r).grade = .n ↔ (formEstimate x r).w < 500 ∨ 60000 < (formEstimate x r).w := by
  have hnone : gradeBeforePlausible x r = .n → (formEstimate x r).w < 500 := by
    rw [gradeBefore_n_iff]
    rintro ⟨he, hg⟩
    rw [stepsWeight_none x he hg]
    decide
  have hp := plausible_iff (formEstimate x r).w
  rw [formEstimate_grade]
  split
  case isTrue hin =>
    obtain ⟨hlow, hhigh⟩ := hp.mp hin
    refine ⟨fun h => absurd (hnone h) (by omega), fun h => ?_⟩
    omega
  case isFalse hout =>
    rw [hp] at hout
    exact iff_of_true rfl (by omega)

theorem implausible_iff (x : Settings) (r : OwnRecord) : (formEstimate x r).flags.implausible = true ↔
    (r.entryStep ≠ none ∨ r.exitStep ≠ none) ∧ ((formEstimate x r).w < 500 ∨ 60000 < (formEstimate x r).w) := by
  have hp := plausible_iff (formEstimate x r).w
  show (gradeBeforePlausible x r != .n && !plausible (formEstimate x r).w) = true ↔ _
  rw [Bool.and_eq_true, bne_iff_ne, Ne, gradeBefore_n_iff, Bool.not_eq_true', Bool.eq_false_iff, Ne, hp]
  constructor
  · rintro ⟨hsome, hout⟩
    exact ⟨not_and_or.mp hsome, by omega⟩
  · rintro ⟨hsome, hout⟩
    exact ⟨not_and_or.mpr hsome, by omega⟩

/-! ### The left share (R77) -/

theorem leftShare_none_iff (k : Grade) (e g : Option Step) : leftShare k e g = none ↔ k = .n ∨ stepTotals e g ≤ 0 := by
  unfold leftShare
  rw [ite_eq_left_iff, Bool.or_eq_true, beq_iff_eq, decide_eq_true_iff]
  simp only [reduceCtorEq, imp_false, not_not]

theorem leftShare_some {k : Grade} {e g : Option Step} {n : Nat} (h : leftShare k e g = some n) :
    n ≤ 1000 ∧ ∃ q : Int, IsRounded (stepLefts e g * 1000) (stepTotals e g).toNat q ∧ (n : Int) = max 0 (min 1000 q) := by
  have hne : ¬ (k = .n ∨ stepTotals e g ≤ 0) := by
    rw [← leftShare_none_iff, h]
    exact fun h => nomatch h
  obtain ⟨_, hpos⟩ := not_or.mp hne
  have hn : (clampInt 0 1000 (roundDiv (stepLefts e g * 1000) (stepTotals e g).toNat)).toNat = n := by
    unfold leftShare at h
    rw [if_neg (by simpa using hne)] at h
    exact Option.some.inj h
  rw [clampInt_eq (by decide)] at hn
  refine ⟨by omega, _, roundDiv_isRounded _ _ (by omega), by omega⟩

end Sys2Proof.Machine

open Sys2Proof Sys2Proof.Machine

/-- Settles O21: the grade is the one before the plausibility test, or `.n` for a weight that is no axle load. -/
theorem estimateIsGraded : Obligations.EstimateIsGraded := by
  intro x r est
  have hweight : est.w = estimateWeight r.entryStep r.exitStep := rfl
  refine ⟨fun e g he hg => ?_, fun e he hg => ?_, fun g he hg => ?_, fun he hg => ?_,
    ⟨roundDiv (est.w * x.tol) 1000, roundDiv_isRounded _ _ (by decide), ⟨?_, ?_⟩, ?_⟩, grade_n_iff x r, fun ho => ?_,
    implausible_iff x r, leftShare_none_iff _ _ _, fun n hn => leftShare_some hn⟩
  · rw [hweight, he, hg]
    exact roundDiv_isRounded _ 2 (by decide)
  · rw [hweight, he, hg]; rfl
  · rw [hweight, he, hg]; rfl
  · rw [hweight, he, hg]; rfl
  · exact (grade_is_iff (by decide)).trans (and_congr_right fun _ => gradeBefore_b_iff x r)
  · exact (grade_is_iff (by decide)).trans (and_congr_right fun _ => gradeBefore_c_iff x r)
  · rw [grade_is_iff (by decide), gradeBefore_a_iff]
    constructor
    · rintro ⟨⟨hlow, hhigh⟩, ho, ⟨e, g, he, hg, hagree⟩, hnarrow⟩
      rw [he, hg, not_isWide_iff] at hnarrow
      exact ⟨ho, hlow, hhigh, e, g, he, hg, hagree, hnarrow⟩
    · rintro ⟨ho, hlow, hhigh, e, g, he, hg, hagree, hnarrow⟩
      refine ⟨⟨hlow, hhigh⟩, ho, ⟨e, g, he, hg, hagree⟩, ?_⟩
      rw [he, hg, not_isWide_iff]
      exact hnarrow
  · cases hgrade : est.grade with
    | c => exact .inl rfl
    | n => exact .inr rfl
    | a =>
      obtain ⟨_, hslow, _⟩ := ((grade_is_iff (by decide)).trans (and_congr_right fun _ => gradeBefore_a_iff x r)).mp hgrade
      rw [ho] at hslow
      cases hslow
    | b =>
      obtain ⟨_, hslow, _⟩ := ((grade_is_iff (by decide)).trans (and_congr_right fun _ => gradeBefore_b_iff x r)).mp hgrade
      rw [ho] at hslow
      cases hslow

end

section
/-! Selection and attempts of the Span Line Controller (05). -/

namespace Sys2Proof.Machine

open Sys2Proof

/-! ### Selection (R89, R92, R93) -/

/-- R89: in a line state that sends, the first queue that is not empty gives its head. -/
theorem selectFrame_sends {c : Slc} (h : c.line = .active ∨ c.line = .configFault) : selectFrame c =
    (c.urgent ++ c.timing.toList ++ (if c.backoff = none then c.bulk else []) ++ c.service).head? := by
  have hbulk : (if c.backoff.isNone then c.bulk else []) = if c.backoff = none then c.bulk else [] := by
    simp only [Option.isNone_iff_eq_none]
  have hline : selectFrame c = match c.urgent with
      | f :: _ => some f
      | [] => match c.timing with
        | some f => some f
        | none => match (if c.backoff = none then c.bulk else []) with
          | f :: _ => some f
          | [] => c.service.head? := by
    unfold selectFrame
    rw [hbulk]
    rcases h with h | h <;> rw [h] <;> rfl
  rw [hline]
  cases c.urgent with
  | cons f rest => rfl
  | nil =>
    cases c.timing with
    | some f => rfl
    | none => cases (if c.backoff = none then c.bulk else []) <;> rfl

theorem selectFrame_muted {c : Slc} (h : c.line = .muted) : selectFrame c = if c.probeDue = true then c.timing else none := by
  unfold selectFrame
  rw [h]

theorem selectFrame_listen {c : Slc} (h : c.line = .listen) : selectFrame c = none := by
  unfold selectFrame
  rw [h]

theorem startFrame_busy {s : State} {idleBits : Nat} (h : idleBits < 12) : startFrame idleBits s = s := by
  unfold startFrame
  refine if_neg ?_
  rw [Bool.and_eq_true, decide_eq_true_iff]
  exact fun hi => absurd hi.2 (Nat.not_le.mpr h)

theorem startFrame_idle {s : State} {idleBits : Nat} (hs : s.stc.station ≠ .loading) (hn : s.slc.sending = none)
    (h : 12 ≤ idleBits) : startFrame idleBits s =
      match selectFrame s.slc with
      | none => s
      | some f => { s with slc := { s.slc with sending := some { frame := f, image := lineImage s.stc.number s.now f } } } := by
  unfold startFrame
  rw [hn]
  refine if_pos ?_
  rw [Bool.and_eq_true, Bool.and_eq_true, decide_eq_true_iff]
  exact ⟨⟨bne_iff_ne.mpr hs, rfl⟩, h⟩

theorem startFrame_sent {s : State} {idleBits : Nat} {f : TxFrame} (hs : s.stc.station ≠ .loading) (hn : s.slc.sending = none)
    (h : 12 ≤ idleBits) (hf : selectFrame s.slc = some f) : startFrame idleBits s =
      { s with slc := { s.slc with sending := some { frame := f, image := lineImage s.stc.number s.now f } } } := by
  rw [startFrame_idle hs hn h, hf]

theorem startFrame_still {s : State} {idleBits : Nat} (hs : s.stc.station ≠ .loading) (hn : s.slc.sending = none)
    (h : 12 ≤ idleBits) (hf : selectFrame s.slc = none) : startFrame idleBits s = s := by
  rw [startFrame_idle hs hn h, hf]

/-! ### Timers (R92, R93) -/

theorem timerDue_some {d now : Time} (h : reached d now = true) : timerDue (some d) now = true := h

theorem timerDue_not {timer : Option Time} {now : Time} (h : ∀ d, timer = some d → reached d now = false) :
    timerDue timer now = false := by
  cases timer with
  | none => rfl
  | some d => exact h d rfl

/-! ### The end of an attempt (R87, R88, R90) -/

theorem placeWaitingHail_none {c : Slc} (h : c.hailWaiting = none) : placeWaitingHail c = c := by
  unfold placeWaitingHail
  rw [h]

theorem placeWaitingHail_sends {c : Slc} (h : c.line ≠ .listen) : placeWaitingHail c =
    { c with timing := if c.hailWaiting = none then c.timing else c.hailWaiting, hailWaiting := none } := by
  unfold placeWaitingHail
  cases hw : c.hailWaiting with
  | none =>
    rw [if_pos rfl]
    exact congrArg (fun w => { c with hailWaiting := w }) hw
  | some f =>
    have hline : (c.line == .listen) = false := by simpa using h
    simp only [hline, Bool.false_eq_true, if_false, reduceCtorEq]

theorem placeWaitingHail_listen {c : Slc} (h : c.line = .listen) (ht : c.timing = none) :
    placeWaitingHail c = { c with hailWaiting := none } := by
  unfold placeWaitingHail
  cases hw : c.hailWaiting with
  | none =>
    exact congrArg (fun w => { c with hailWaiting := w }) hw
  | some f =>
    have hline : (c.line == .listen) = true := by simpa using h
    simp only [hline, if_true, ← ht]

theorem endAttempt_sent {s : State} {x : Sending} (r : AttemptResult) (h : s.slc.sending = some x) : endAttempt r s =
    { attemptOutcome r x.frame { s with slc := { s.slc with sending := none } } with
      slc := placeWaitingHail (attemptOutcome r x.frame { s with slc := { s.slc with sending := none } }).slc } := by
  unfold endAttempt
  rw [h]

theorem dropHead_eq (k : FrameClass) (c : Slc) : dropHead k c = withQueue k (queueOf k c).tail c := by
  cases k with
  | timing => unfold dropHead withQueue queueOf; cases c.timing <;> rfl
  | urgent | bulk | service => rfl

/-- R88, R90: the frame that was sent leaves its place, and a HAIL that waited takes the slot. -/
theorem placeWaitingHail_dropHead {k : FrameClass} {c : Slc} (hl : c.line ≠ .listen) (hw : k = .timing ∨ c.hailWaiting = none) :
    placeWaitingHail (dropHead k c) =
      if k = .timing then { c with timing := c.hailWaiting, hailWaiting := none }
      else withQueue k (queueOf k c).tail { c with hailWaiting := none } := by
  have hline : (dropHead k c).line ≠ .listen := by cases k <;> exact hl
  rw [placeWaitingHail_sends hline]
  by_cases hk : k = .timing
  · rw [if_pos hk, hk]
    show { c with timing := if c.hailWaiting = none then none else c.hailWaiting, hailWaiting := none } = _
    split
    case isTrue hnone => rw [hnone]
    case isFalse => rfl
  · have hnone := hw.resolve_left hk
    rw [if_neg hk]
    cases k with
    | timing => exact absurd rfl hk
    | urgent | bulk | service => simp [dropHead, withQueue, queueOf, hnone]

/-- R93: the same where the probe has ended MUTED. -/
theorem placeWaitingHail_probe {k : FrameClass} {c : Slc} {line : LineState} (hl : line ≠ .listen)
    (hw : k = .timing ∨ c.hailWaiting = none) :
    placeWaitingHail { dropHead k c with line := line, probeTimer := none, probeDue := false } =
      { (if k = .timing then { c with timing := c.hailWaiting, hailWaiting := none }
          else withQueue k (queueOf k c).tail { c with hailWaiting := none }) with
        line := line, probeTimer := none, probeDue := false } := by
  have hdrop : { dropHead k c with line := line, probeTimer := none, probeDue := false } =
      dropHead k { c with line := line, probeTimer := none, probeDue := false } := by cases k <;> rfl
  rw [hdrop, placeWaitingHail_dropHead (c := { c with line := line, probeTimer := none, probeDue := false }) hl hw]
  cases k <;> rfl

theorem onHead_eq {k : FrameClass} {c : Slc} {x : TxFrame} {rest : List TxFrame} (f : TxFrame → TxFrame)
    (h : queueOf k c = x :: rest) : onHead k f c = withQueue k (f x :: rest) c := by
  cases k with
  | timing =>
    have ht : c.timing = some x := by
      unfold queueOf at h
      cases hc : c.timing <;> simp [hc] at h
      exact congrArg some h.1
    unfold onHead withQueue
    rw [ht]
    rfl
  | urgent =>
    have hq : c.urgent = x :: rest := h
    unfold onHead withQueue
    rw [hq]
    rfl
  | bulk =>
    have hq : c.bulk = x :: rest := h
    unfold onHead withQueue
    rw [hq]
    rfl
  | service =>
    have hq : c.service = x :: rest := h
    unfold onHead withQueue
    rw [hq]
    rfl

/-! ### Outcomes (R90 to R94) -/

theorem attemptOutcome_success {hold : Bool} {f : TxFrame} (h : hold = true → classOfBody f.body ≠ .bulk) (s : State) :
    attemptOutcome (.slots true hold) f s = attemptSuccess (classOfBody f.body) s := by
  refine if_neg ?_
  rw [Bool.and_eq_true, beq_iff_eq]
  exact fun hc => h hc.1 hc.2

theorem attemptOutcome_held {f : TxFrame} (h : classOfBody f.body = .bulk) (s : State) :
    attemptOutcome (.slots true true) f s = attemptHeld f s := by
  refine if_pos ?_
  rw [Bool.and_eq_true, beq_iff_eq]
  exact ⟨rfl, h⟩

theorem attemptOutcome_failure {r : AttemptResult} (f : TxFrame) (h : ∀ hold, r ≠ .slots true hold) (s : State) :
    attemptOutcome r f s =
      onlyIf (2 ≤ (attemptFailed (classOfBody f.body) f (countBreakOff r s)).slc.duplicateRun) enterListen
        (attemptFailed (classOfBody f.body) f (countBreakOff r s)) := by
  unfold attemptOutcome
  split
  · exact absurd rfl (h _)
  · rfl

/-- R94: the attempt broke off in its sequence or stamp field. -/
def IsTwin (r : AttemptResult) : Prop := r = .mismatch .sequence ∨ r = .mismatch .stamp

theorem countBreakOff_twin {r : AttemptResult} (h : IsTwin r) (s : State) :
    countBreakOff r s = { s with slc := { s.slc with duplicateRun := s.slc.duplicateRun + 1 } } := by
  rcases h with rfl | rfl <;> rfl

theorem countBreakOff_other {r : AttemptResult} (h : ¬ IsTwin r) (s : State) :
    countBreakOff r s = { s with slc := { s.slc with duplicateRun := 0 } } := by
  unfold countBreakOff
  split
  · exact absurd (.inl rfl) h
  · exact absurd (.inr rfl) h
  · rfl

theorem attemptSuccess_sends {s : State} (k : FrameClass) (h : s.slc.line ≠ .muted) :
    attemptSuccess k s = { s with slc := dropHead k { s.slc with droppedRun := 0, duplicateRun := 0 } } := by
  refine if_neg ?_
  rw [beq_iff_eq]
  cases k <;> exact h

theorem attemptSuccess_probe {s : State} (k : FrameClass) (h : s.slc.line = .muted) :
    attemptSuccess k s =
      reportAbsent .line { s with
        slc := { dropHead k { s.slc with droppedRun := 0, duplicateRun := 0 } with
          line := if s.stc.station = .configFault then .configFault else .active, probeTimer := none, probeDue := false } } := by
  unfold attemptSuccess
  simp only [beq_iff_eq]
  refine if_pos ?_
  cases k <;> exact h

theorem attemptFailed_probe {s : State} (k : FrameClass) (f : TxFrame) (h : s.slc.line = .muted) :
    attemptFailed k f s =
      { s with slc := { s.slc with timing := none, probeTimer := some (s.now + 2000000), probeDue := false } } := by
  refine if_pos ?_
  rw [beq_iff_eq]
  exact h

theorem attemptFailed_retried {s : State} (k : FrameClass) {f : TxFrame} (h : s.slc.line ≠ .muted) (hf : f.failed < 2) :
    attemptFailed k f s = { s with slc := onHead k (fun x => { x with failed := f.failed + 1 }) s.slc } := by
  unfold attemptFailed
  rw [if_neg (by simpa using h), if_pos (by omega)]

theorem attemptFailed_dropped {s : State} (k : FrameClass) {f : TxFrame} (h : s.slc.line ≠ .muted) (hf : 2 ≤ f.failed) :
    attemptFailed k f s =
      onlyIf (8 ≤ (dropHead k { s.slc with droppedRun := s.slc.droppedRun + 1 }).droppedRun) enterMuted
        { s with slc := dropHead k { s.slc with droppedRun := s.slc.droppedRun + 1 } } := by
  unfold attemptFailed
  rw [if_neg (by simpa using h), if_neg (by omega)]

theorem attemptHeld_is {s : State} {f : TxFrame} {rest : List TxFrame} (h : s.slc.bulk = f :: rest) :
    attemptHeld f s = { s with
      slc := { s.slc with
        droppedRun := 0, duplicateRun := 0, backoff := some (s.now + 20000),
        bulk := if f.held < 3 then { f with held := f.held + 1 } :: rest else rest } } := by
  unfold attemptHeld
  by_cases hlast : f.held < 3
  · have hfour : f.held + 1 < 4 := by omega
    simp only [if_pos hlast, if_pos hfour, onHead, h, List.modifyHead_cons]
    rfl
  · have hfour : ¬ f.held + 1 < 4 := by omega
    simp only [if_neg hlast, if_neg hfour, dropHead, h, List.tail_cons]
    rfl

theorem queueOf_timing {c : Slc} {f : TxFrame} {rest : List TxFrame} (h : queueOf .timing c = f :: rest) : rest = [] := by
  unfold queueOf at h
  cases ht : c.timing <;> simp [ht] at h
  exact h.2

/-- The receive side and the sequence are not an attempt's. -/
structure Slc.sameRest (c d : Slc) : Prop where
  queue    : d.receiveQueue = c.receiveQueue
  hold     : d.hold = c.hold
  nodes    : d.lastSequence = c.lastSequence
  sequence : d.sequence = c.sequence
  sending  : d.sending = c.sending

/-- R91: what a failed attempt leaves to the entry to LISTEN. -/
theorem attemptFailed_side (k : FrameClass) (f : TxFrame) (s : State) :
    ∃ c d, attemptFailed k f s = { s with slc := c, cnd := d } ∧ c.duplicateRun = s.slc.duplicateRun
      ∧ s.slc.sameRest c ∧ d.latched ||| 2 = s.cnd.latched ||| 2 ∧ d.present ||| 2 = s.cnd.present ||| 2 := by
  have htwice : ∀ m : CauseMask, (m ||| 2) ||| 2 = m ||| 2 := fun m => by rw [BitVec.or_assoc]; rfl
  by_cases hm : s.slc.line = .muted
  · exact ⟨_, _, attemptFailed_probe k f hm, rfl, ⟨rfl, rfl, rfl, rfl, rfl⟩, rfl, rfl⟩
  · by_cases hf : f.failed < 2
    · refine ⟨_, _, attemptFailed_retried k hm hf, ?_, ?_, rfl, rfl⟩
      · cases k <;> rfl
      · cases k <;> exact ⟨rfl, rfl, rfl, rfl, rfl⟩
    · rw [attemptFailed_dropped k hm (by omega)]
      cases decide (8 ≤ (dropHead k { s.slc with droppedRun := s.slc.droppedRun + 1 }).droppedRun) with
      | true =>
        refine ⟨_, _, rfl, ?_, ?_, htwice _, htwice _⟩
        · cases k <;> rfl
        · cases k <;> exact ⟨rfl, rfl, rfl, rfl, rfl⟩
      | false =>
        refine ⟨_, _, rfl, ?_, ?_, rfl, rfl⟩
        · cases k <;> rfl
        · cases k <;> exact ⟨rfl, rfl, rfl, rfl, rfl⟩

end Sys2Proof.Machine

open Sys2Proof Sys2Proof.Machine

/-- Settles O23: the frame selected is the head of the queues written one after the other. -/
theorem frameStartSelectsByPrecedence : Obligations.FrameStartSelectsByPrecedence := by
  intro t idleBits s hreset hstation hsending sent still sends bulk
  have hrun : exec (.frameStart t idleBits) s = .next (startFrame idleBits still) :=
    congrArg Host.Outcome.next (atTime_running _ _ s hreset)
  have hqueues : sends → selectFrame still.slc = (s.slc.urgent ++ s.slc.timing.toList ++ bulk ++ s.slc.service).head? :=
    fun h => selectFrame_sends h
  rw [hrun]
  refine ⟨fun hbusy => congrArg _ (startFrame_busy hbusy), fun hidle => ?_⟩
  have hsent : ∀ f, selectFrame still.slc = some f → Host.Outcome.next (startFrame idleBits still) = (.next (sent f) : Result) :=
    fun f hf => congrArg _ (startFrame_sent hstation hsending hidle hf)
  have hstill : selectFrame still.slc = none → Host.Outcome.next (startFrame idleBits still) = (.next still : Result) :=
    fun hf => congrArg _ (startFrame_still hstation hsending hidle hf)
  refine ⟨fun f rest hs hu => hsent f ?_, fun f hs hu ht => hsent f ?_, fun f rest hs hu ht hb => hsent f ?_,
    fun f rest hs hu ht hb hv => hsent f ?_, fun hs hu ht hb hv => hstill ?_, fun f hm hp ht => hsent f ?_,
    fun hm hp => hstill ?_, fun hl => hstill (selectFrame_listen hl)⟩
  · rw [hqueues hs, hu]; rfl
  · rw [hqueues hs, hu, ht]; rfl
  · rw [hqueues hs, hu, ht, hb]; rfl
  · rw [hqueues hs, hu, ht, hb, hv]; rfl
  · rw [hqueues hs, hu, ht, hb, hv]; rfl
  · rw [selectFrame_muted hm]
    exact (if_pos hp).trans ht
  · rw [selectFrame_muted hm]
    rcases hp with hp | ht
    · exact if_neg fun hd => absurd (hp.symm.trans hd) (by decide)
    · split
      · exact ht
      · rfl

/-- Settles O24: each event has one branch that acts and one that does not. -/
theorem lineEventsActWhenDue : Obligations.LineEventsActWhenDue := by
  intro t s hreset
  refine ⟨fun x hx hl => ?_, fun hx => ?_, fun d hd hdue => ?_, fun hd => ?_, fun d hm hd hdue => ?_, fun h => ?_⟩
  all_goals refine congrArg Host.Outcome.next ((atTime_running _ _ s hreset).trans ?_)
  · unfold loseArbitration
    simp only [hx]
    rw [placeWaitingHail_sends (by exact hl)]
  · unfold loseArbitration
    simp only [hx]
  · unfold endBackoff
    simp only [hd, timerDue_some hdue, onlyIf_true]
  · unfold endBackoff
    simp only [timerDue_not hd, onlyIf_false]
  · unfold expireProbeTimer
    simp only [hm, hd, timerDue_some hdue, beq_self_eq_true, Bool.and_self, onlyIf_true]
  · unfold expireProbeTimer
    have hno : (s.slc.line == .muted && timerDue s.slc.probeTimer t) = false := by
      rcases h with h | h
      · rw [timerDue_not h, Bool.and_false]
      · rw [beq_eq_false_iff_ne.mpr h, Bool.false_and]
    simp only [hno, onlyIf_false]

/-- Settles O25: the waiting HAIL is placed last, so a HAIL's own attempt leaves it the slot. -/
theorem successfulAttemptEmptiesItsPlace : Obligations.SuccessfulAttemptEmptiesItsPlace := by
  intro t hold x s k hreset hx hhold hwait c after
  have hrun : exec (.attemptEnd t (.slots true hold)) s = .next (endAttempt (.slots true hold) { s with now := t }) :=
    congrArg Host.Outcome.next (atTime_running _ _ s hreset)
  rw [hrun, endAttempt_sent (s := { s with now := t }) _ hx, attemptOutcome_success hhold]
  refine ⟨fun hl => congrArg Host.Outcome.next ?_, fun hl => congrArg Host.Outcome.next ?_⟩
  · have hmuted : s.slc.line ≠ .muted := by rcases hl with h | h <;> rw [h] <;> decide
    have hlisten : s.slc.line ≠ .listen := by rcases hl with h | h <;> rw [h] <;> decide
    rw [attemptSuccess_sends _ (by exact hmuted)]
    exact congrArg (fun d : Slc => { s with now := t, slc := d })
      (placeWaitingHail_dropHead (c := { s.slc with sending := none, droppedRun := 0, duplicateRun := 0 }) hlisten hwait)
  · rw [attemptSuccess_probe _ (by exact hl)]
    have hback : (if s.stc.station = .configFault then LineState.configFault else .active) ≠ .listen := by
      split <;> decide
    exact congrArg (fun d : Slc =>
        { s with now := t, slc := d, cnd := { s.cnd with present := s.cnd.present &&& ~~~ 2 } })
      (placeWaitingHail_probe (c := { s.slc with sending := none, droppedRun := 0, duplicateRun := 0 }) hback hwait)

/-- Settles O26: the frame stays at the head with one held attempt more, or leaves as the fourth. -/
theorem heldBulkAttemptBacksOff : Obligations.HeldBulkAttemptBacksOff := by
  intro t x rest s hreset hx hbulk hqueue hwait
  refine congrArg Host.Outcome.next ((atTime_running _ _ s hreset).trans ?_)
  rw [endAttempt_sent (s := { s with now := t }) _ hx, attemptOutcome_held hbulk]
  rw [attemptHeld_is (by exact hqueue), placeWaitingHail_none (by exact hwait)]

/-- Settles O27: retry, drop, the drop that mutes, and the failed probe. -/
theorem failedAttemptIsRetriedThenDropped : Obligations.FailedAttemptIsRetriedThenDropped := by
  intro t r x rest s k twin hreset hx hr hwait hqueue htwin c
  have hcounted : countBreakOff r { s with now := t, slc := { s.slc with sending := none } } = { s with now := t, slc := c } := by
    by_cases h : twin
    · rw [countBreakOff_twin h]
      show { s with now := t, slc := { s.slc with sending := none, duplicateRun := s.slc.duplicateRun + 1 } } =
        { s with now := t, slc := { s.slc with sending := none, duplicateRun := if twin then 1 else 0 } }
      rw [htwin h, if_pos h]
    · rw [countBreakOff_other h]
      show _ = { s with now := t, slc := { s.slc with sending := none, duplicateRun := if twin then 1 else 0 } }
      rw [if_neg h]
  have hrun : c.duplicateRun < 2 := by
    show (if twin then 1 else 0) < 2
    split <;> decide
  have hends : ∀ d : State, attemptFailed k x.frame { s with now := t, slc := c } = d → d.slc.duplicateRun = c.duplicateRun →
      d.slc.hailWaiting = none → exec (.attemptEnd t r) s = .next d := by
    intro d hd hdup hnone
    refine congrArg Host.Outcome.next ((atTime_running _ _ s hreset).trans ?_)
    have hshort : ¬ 2 ≤ d.slc.duplicateRun := by omega
    rw [endAttempt_sent (s := { s with now := t }) _ hx, attemptOutcome_failure _ hr, hcounted, hd,
      decide_eq_false hshort, onlyIf_false, placeWaitingHail_none hnone]
  refine ⟨fun hl => ?_, fun hl hk => ?_⟩
  · have hsends : c.line ≠ .muted := by
      show s.slc.line ≠ .muted
      rcases hl with h | h <;> rw [h] <;> decide
    have hhead : queueOf k c = x.frame :: rest := by cases hk : k <;> rw [hk] at hqueue <;> exact hqueue
    have hnone : ∀ q, (withQueue k q c).hailWaiting = none := fun q => by cases k <;> exact hwait
    have hdrop : dropHead k { c with droppedRun := s.slc.droppedRun + 1 } =
        { withQueue k rest c with droppedRun := s.slc.droppedRun + 1 } := by
      have htail : rest = (queueOf k c).tail := by rw [hhead, List.tail_cons]
      rw [dropHead_eq, htail]
      cases k <;> rfl
    refine ⟨fun hf => ?_, fun hf hlow => ?_, fun hf hhigh => ?_⟩
    · refine hends _ ?_ (by cases k <;> rfl) (hnone _)
      rw [attemptFailed_retried (s := { s with now := t, slc := c }) k hsends hf, onHead_eq _ hhead]
    · refine hends _ ?_ (by cases k <;> rfl) (hnone _)
      rw [attemptFailed_dropped (s := { s with now := t, slc := c }) k hsends hf]
      simp only
      rw [show c.droppedRun = s.slc.droppedRun from rfl, hdrop, decide_eq_false (by show ¬ 8 ≤ s.slc.droppedRun + 1; omega),
        onlyIf_false]
    · refine hends _ ?_ rfl hwait
      rw [attemptFailed_dropped (s := { s with now := t, slc := c }) k hsends hf]
      simp only
      rw [show c.droppedRun = s.slc.droppedRun from rfl, hdrop, decide_eq_true (by show 8 ≤ s.slc.droppedRun + 1; omega),
        onlyIf_true]
      cases hk : k with
      | timing =>
        have hrest : rest = [] := by
          rw [hk] at hqueue
          exact queueOf_timing hqueue
        rw [hrest]
        rfl
      | urgent | bulk | service => rfl
  · refine hends _ ?_ rfl hwait
    exact (attemptFailed_probe k x.frame (by exact hl)).trans rfl

/-- Settles O28: entry to LISTEN empties what the failed attempt left. -/
theorem duplicateRunListens : Obligations.DuplicateRunListens := by
  intro t field x s hreset hx hfield hrun
  have htwin : IsTwin (.mismatch field) := by rcases hfield with rfl | rfl <;> simp [IsTwin]
  have hr : ∀ hold, AttemptResult.mismatch field ≠ .slots true hold := fun _ h => nomatch h
  let failing : State := { s with now := t, slc := { s.slc with sending := none, duplicateRun := s.slc.duplicateRun + 1 } }
  obtain ⟨y, k, hfailed, hdup, hkept, hlatched, hpresent⟩ := attemptFailed_side (classOfBody x.frame.body) x.frame failing
  obtain ⟨hqueue, hhold, hnodes, hsequence, hsending⟩ := hkept
  refine ⟨{ enterListen { failing with slc := y, cnd := k } with
      slc := { (enterListen { failing with slc := y, cnd := k }).slc with hailWaiting := none } },
    congrArg Host.Outcome.next ((atTime_running _ _ s hreset).trans ?_), ?_⟩
  · rw [endAttempt_sent (s := { s with now := t }) _ hx, attemptOutcome_failure _ hr, countBreakOff_twin htwin, hfailed,
      decide_eq_true (by show 2 ≤ y.duplicateRun; rw [hdup]; show 2 ≤ s.slc.duplicateRun + 1; omega), onlyIf_true,
      placeWaitingHail_listen (c := (enterListen { failing with slc := y, cnd := k }).slc) rfl rfl]
  · refine ⟨rfl, rfl, rfl, rfl, rfl, rfl, rfl, rfl, hsending, ?_, hqueue, hhold, hnodes, hsequence, hlatched, hpresent⟩
    show y.duplicateRun = 2
    rw [hdup]
    show s.slc.duplicateRun + 1 = 2
    rw [hrun]

end

section
/-! Checks on a received frame, its report and its admission (05, 06). -/

namespace Sys2Proof.Machine

open Sys2Proof

/-! ### Checks (R96) -/

theorem kindOfCode_iff (c : BitVec 4) (k : FrameKind) : kindOfCode c = some k ↔ c.toNat = (kindNumber k).1 := by
  cases k <;> revert c <;> decide

theorem classCode_iff (c : BitVec 2) (k : FrameKind) : c = classCode (classOfKind k) ↔ c.toNat = (kindNumber k).2 := by
  cases k <;> revert c <;> decide

theorem recordLength_iff (n : Nat) :
    recordLength n = true ↔ n = 26 ∨ n = 32 ∨ n = 38 ∨ n = 44 ∨ n = 50 ∨ n = 56 := by
  simp [recordLength, or_assoc]

theorem askLengthAllowed_cons (asked : Byte) (rest : List Byte) (n : Nat) : askLengthAllowed (asked :: rest) n = true ↔
    if asked = 1 ∨ asked = 6 ∨ asked = 8 then n = 1
    else if asked = 2 ∨ asked = 4 ∨ asked = 7 then n = 3
    else if asked = 3 then n = 5
    else if asked = 5 then n = 2
    else 1 ≤ n ∧ n ≤ 64 := by
  simp only [askLengthAllowed, askFetchNext, askConditions, askRestart, askFetch, askSeek, askClear, askFetchWagon, askSummary,
    Bool.or_eq_true, beq_iff_eq, or_assoc]
  split
  · exact beq_iff_eq
  · split
    · exact beq_iff_eq
    · split
      · exact beq_iff_eq
      · split
        · exact beq_iff_eq
        · rw [Bool.and_eq_true, decide_eq_true_iff, decide_eq_true_iff]

theorem replyLengthAllowed_iff (payload : List Byte) (n : Nat) : replyLengthAllowed payload n = true ↔
    if payload.getD 0 0 ≠ 0 then n = 2
    else if payload.getD 1 0 = 1 ∨ payload.getD 1 0 = 2 ∨ payload.getD 1 0 = 3 then
      ∃ m, (m = 26 ∨ m = 32 ∨ m = 38 ∨ m = 44 ∨ m = 50 ∨ m = 56) ∧ n = 2 + m
    else if payload.getD 1 0 = 5 then n = 62
    else if payload.getD 1 0 = 6 then n = 14
    else if payload.getD 1 0 = 7 then n = 4
    else n = 2 := by
  simp only [replyLengthAllowed, statusCode, askFetchNext, askConditions, askFetch, askClear, askFetchWagon, askSummary,
    Bool.or_eq_true, beq_iff_eq, bne_iff_ne, or_assoc]
  split
  · exact beq_iff_eq
  · split
    · rw [Bool.and_eq_true, decide_eq_true_iff, recordLength_iff]
      constructor
      · rintro ⟨h2, hm⟩
        exact ⟨n - 2, hm, by omega⟩
      · rintro ⟨m, hm, rfl⟩
        exact ⟨by omega, by rw [Nat.add_sub_cancel_left]; exact hm⟩
    · split
      · exact beq_iff_eq
      · split
        · exact beq_iff_eq
        · split <;> exact beq_iff_eq

theorem lengthAllowed_iff (k : FrameKind) (f : LineFrame) :
    lengthAllowed k f.payload f.length.toNat = true ↔ LengthFits k f := by
  cases k with
  | hail | opening | cross | shut | step => exact beq_iff_eq
  | tally => exact recordLength_iff _
  | reply => exact replyLengthAllowed_iff _ _
  | ask =>
    cases hp : f.payload with
    | nil =>
      refine iff_of_false (fun h => nomatch h) ?_
      rintro ⟨asked, ha, _⟩
      rw [hp] at ha
      cases ha
    | cons asked rest =>
      refine (askLengthAllowed_cons asked rest _).trans ⟨fun h => ⟨asked, by rw [hp]; rfl, h⟩, ?_⟩
      rintro ⟨asked', ha, h⟩
      rw [hp] at ha
      cases ha
      exact h

theorem nodeAllowed_iff (k : FrameKind) (node : BitVec 4) :
    nodeAllowed k node = true ↔ if k = .ask then 8 ≤ node.toNat else node.toNat < 8 := by
  cases k <;> exact decide_eq_true_iff

theorem targetAllowed_iff (k : FrameKind) (target : BitVec 4) : targetAllowed k target = true ↔
    if k = .ask then target.toNat < 8 else if k = .reply then 8 ≤ target.toNat else target.toNat = 15 := by
  have hbroadcast : (target == broadcast) = true ↔ target.toNat = 15 := by
    rw [beq_iff_eq, ← BitVec.toNat_inj]
    rfl
  cases k with
  | ask | reply => exact decide_eq_true_iff
  | hail | opening | cross | shut | step | tally => exact hbroadcast

theorem node_eq_own_iff (node : BitVec 4) (own : BitVec 3) : node = own.setWidth 4 ↔ node.toNat = own.toNat := by
  revert node own
  decide

theorem goodFrame_iff (own : BitVec 3) (f : LineFrame) (k : FrameKind) : goodFrame own f = some k ↔ PassesChecks own k f := by
  have hcheck : (f.whole && f.length.toNat ≤ 64 && f.check == frameCheck f && f.cls == classCode (classOfKind k)
      && lengthAllowed k f.payload f.length.toNat && nodeAllowed k f.node && targetAllowed k f.target
      && f.node != own.setWidth 4) = true ↔
      f.whole = true ∧ f.length.toNat ≤ 64 ∧ f.check = frameCheck f ∧ f.cls.toNat = (kindNumber k).2 ∧ LengthFits k f
        ∧ (if k = .ask then 8 ≤ f.node.toNat else f.node.toNat < 8)
        ∧ (if k = .ask then f.target.toNat < 8 else if k = .reply then 8 ≤ f.target.toNat else f.target.toNat = 15)
        ∧ f.node.toNat ≠ own.toNat := by
    simp only [Bool.and_eq_true, decide_eq_true_iff, beq_iff_eq, bne_iff_ne, lengthAllowed_iff, nodeAllowed_iff,
      targetAllowed_iff, classCode_iff, and_assoc, Ne, node_eq_own_iff]
  unfold goodFrame
  constructor
  · intro h
    split at h
    case h_1 => cases h
    case h_2 k' hk =>
      split at h
      case isFalse => cases h
      case isTrue hc =>
        cases h
        obtain ⟨hwhole, hmost, hsum, hcls, hlength, hnode, htarget, hforeign⟩ := hcheck.mp hc
        exact ⟨hwhole, hsum, hmost, (kindOfCode_iff _ _).mp hk, hcls, hlength, hnode, htarget, hforeign⟩
  · rintro ⟨hwhole, hsum, hmost, hkind, hcls, hlength, hnode, htarget, hforeign⟩
    rw [(kindOfCode_iff _ _).mpr hkind]
    exact if_pos (hcheck.mpr ⟨hwhole, hmost, hsum, hcls, hlength, hnode, htarget, hforeign⟩)

/-! ### The arrival report (R102, R107, R108) -/

/-- An entry replaced by one of the same state changes nothing but its row. -/
theorem replacePeer_same {n : Nat} {p : Peer} {s : State} (h : p.state = (peer s n).state) : replacePeer n p s = setPeer n p s := by
  have hstate : (peer (setPeer n p s) n).state = (peer s n).state := by
    by_cases hn : n < s.ptb.peers.length
    · have hself : peer (setPeer n p s) n = p := place_set_self _ _ _ _ hn
      rw [hself, h]
    · have hout : (setPeer n p s).ptb.peers = s.ptb.peers := List.set_eq_of_length_le (by omega)
      unfold peer
      rw [hout]
  have hlive : isLive (setPeer n p s) n = isLive s n := by
    unfold isLive
    rw [hstate]
    rfl
  unfold replacePeer
  simp only [hlive, beq_self_eq_true, if_true]

theorem arrival_same {n : Nat} {stamp start : Time} {s : State} (h : (hear stamp start (peer s n)).state = (peer s n).state) :
    arrival n stamp start s = setPeer n (hear stamp start (peer s n)) s := by
  unfold arrival
  simp only [h, bne_self_eq_false, onlyIf_false]
  exact replacePeer_same h

/-- The report of a frame that changes no entry's state, a recorder's frame among them. -/
theorem report_same {t start : Time} {f : LineFrame} {s : State} (h : f.node.toNat < 8 →
      (hear f.stamp start (place s.ptb.peers f.node.toNat Peer.reset)).state
        = (place s.ptb.peers f.node.toNat Peer.reset).state) :
    onlyIf (decide (f.node.toNat < 8)) (arrival f.node.toNat f.stamp start) { s with now := t } =
      { s with now := t, ptb := afterReport start f s } := by
  unfold afterReport
  by_cases hn : f.node.toNat < 8
  · rw [decide_eq_true hn, onlyIf_true, if_pos hn]
    exact arrival_same (s := { s with now := t }) (h hn)
  · rw [decide_eq_false hn, onlyIf_false, if_neg hn]

theorem receiveFrame_bad {start : Time} {f : LineFrame} {s : State} (hs : s.stc.station ≠ .loading) (hn : s.slc.sending = none)
    (hg : goodFrame s.stc.number f = none) : receiveFrame start f s = ignoreFrame s := by
  unfold receiveFrame
  rw [hg, hn, if_pos]
  rw [Bool.and_eq_true]
  exact ⟨bne_iff_ne.mpr hs, rfl⟩

theorem receiveFrame_good {start : Time} {f : LineFrame} {k : FrameKind} {s : State} (hs : s.stc.station ≠ .loading)
    (hn : s.slc.sending = none) (hg : goodFrame s.stc.number f = some k) :
    receiveFrame start f s =
      admitFrame k start f (onlyIf (decide (f.node.toNat < 8)) (arrival f.node.toNat f.stamp start) s) := by
  unfold receiveFrame
  rw [hg, hn, if_pos]
  rw [Bool.and_eq_true]
  exact ⟨bne_iff_ne.mpr hs, rfl⟩

/-! ### Admission (R97 to R100) -/

theorem forAnotherNode_iff (own : BitVec 3) (k : FrameKind) (f : LineFrame) : forAnotherNode own k f = true ↔
    (k = .ask ∨ k = .reply) ∧ f.target.toNat ≠ own.toNat ∧ f.target ≠ 15 := by
  simp only [forAnotherNode, Bool.and_eq_true, Bool.or_eq_true, beq_iff_eq, bne_iff_ne, Ne, node_eq_own_iff, and_assoc]
  rfl

theorem isUrgent_iff (k : FrameKind) : classOfKind k = .urgent ↔ k = .opening ∨ k = .cross ∨ k = .shut := by
  cases k <;> decide

section
variable {k : FrameKind} {start : Time} {f : LineFrame} {s : State}

theorem admitFrame_repeated (h : place s.slc.lastSequence f.node.toNat none = some f.seq) :
    admitFrame k start f s = driveSlots true s := by
  unfold admitFrame
  exact if_pos (beq_iff_eq.mpr h)

theorem admitFrame_elsewhere (h : place s.slc.lastSequence f.node.toNat none ≠ some f.seq)
    (he : forAnotherNode s.stc.number k f = true) :
    admitFrame k start f s = driveSlots true { s with slc := setLastSequence f s.slc } := by
  unfold admitFrame
  rw [if_neg (by rw [beq_iff_eq]; exact h), if_pos he]

theorem admitFrame_full (h : place s.slc.lastSequence f.node.toNat none ≠ some f.seq)
    (he : ¬ forAnotherNode s.stc.number k f = true) (hl : 32 ≤ s.slc.receiveQueue.length) :
    admitFrame k start f s = driveSlots false (latch .overrun s) := by
  unfold admitFrame
  rw [if_neg (by rw [beq_iff_eq]; exact h), if_neg he, if_pos hl]

theorem admitFrame_heldOff (h : place s.slc.lastSequence f.node.toNat none ≠ some f.seq)
    (he : ¬ forAnotherNode s.stc.number k f = true) (hl : s.slc.receiveQueue.length < 32) (hh : s.slc.hold = true)
    (hu : classOfKind k ≠ .urgent) : admitFrame k start f s = driveSlots false s := by
  have hoff : (s.slc.hold && classOfKind k != .urgent) = true := by
    rw [Bool.and_eq_true, bne_iff_ne]
    exact ⟨hh, hu⟩
  unfold admitFrame
  rw [if_neg (by rw [beq_iff_eq]; exact h), if_neg he, if_neg (by omega), if_pos hoff]

theorem admitFrame_taken (h : place s.slc.lastSequence f.node.toNat none ≠ some f.seq)
    (he : ¬ forAnotherNode s.stc.number k f = true) (hl : s.slc.receiveQueue.length < 32)
    (hh : s.slc.hold = false ∨ classOfKind k = .urgent) :
    admitFrame k start f s = driveSlots true { s with
      slc := { s.slc with
        receiveQueue := s.slc.receiveQueue ++ [{ start := start, frame := f }],
        hold := s.slc.hold || decide (23 ≤ s.slc.receiveQueue.length),
        lastSequence := s.slc.lastSequence.set f.node.toNat (some f.seq) } } := by
  have hon : ¬ (s.slc.hold && classOfKind k != .urgent) = true := by
    rw [Bool.and_eq_true, bne_iff_ne]
    rintro ⟨h1, h2⟩
    exact hh.elim (fun h => by rw [h] at h1; cases h1) h2
  have hhold : holdAfter s.slc.hold s.slc.receiveQueue.length (s.slc.receiveQueue ++ [(⟨start, f⟩ : RxFrame)]).length
      = (s.slc.hold || decide (23 ≤ s.slc.receiveQueue.length)) := by
    unfold holdAfter
    rw [List.length_append, List.length_singleton, if_pos (by omega)]
    exact congrArg _ (decide_eq_decide.mpr (by omega))
  unfold admitFrame
  rw [if_neg (by rw [beq_iff_eq]; exact h), if_neg he, if_neg (by omega), if_neg hon]
  unfold setReceiveQueue
  rw [hhold]
  rfl

end

end Sys2Proof.Machine

open Sys2Proof Sys2Proof.Machine

/-- Settles O29: the report changes no other block, and the frame passes the four tests of admission. -/
theorem receivedFrameIsTaken : Obligations.ReceivedFrameIsTaken := by
  intro t start f k s hreset hstation hsending hgood hreport hnew htarget hroom hfree drives hold
  have helsewhere : ¬ forAnotherNode s.stc.number k f = true := by
    rw [forAnotherNode_iff]
    rintro ⟨hk, hother, hnot⟩
    rcases htarget with ⟨h1, h2⟩ | h | h
    · exact hk.elim h1 h2
    · exact hother h
    · exact hnot h
  refine congrArg Host.Outcome.next ((atTime_running _ _ s hreset).trans ?_)
  rw [receiveFrame_good (s := { s with now := t }) hstation hsending hgood, report_same hreport,
    admitFrame_taken (s := { s with now := t, ptb := afterReport start f s }) hnew helsewhere hroom
      (hfree.imp_right (isUrgent_iff k).mpr)]
  unfold driveSlots
  rw [Bool.true_and]
  rfl

/-- Settles O30: the checks as a list of conditions, and the branches of admission that take nothing in. -/
theorem receivedFrameIsTurnedAway : Obligations.ReceivedFrameIsTurnedAway := by
  refine ⟨fun own f k => goodFrame_iff own f k, fun t start f s hreset hstation hsending => ⟨fun hbad => ?_, ?_⟩⟩
  · refine congrArg Host.Outcome.next ((atTime_running _ _ s hreset).trans ?_)
    exact receiveFrame_bad (s := { s with now := t }) hstation hsending hbad
  · intro k hgood hreport drives repeated elsewhere slots
    have hrun : exec (.frameReceived t start f) s =
        .next (admitFrame k start f { s with now := t, ptb := afterReport start f s }) := by
      refine congrArg Host.Outcome.next ((atTime_running _ _ s hreset).trans ?_)
      rw [receiveFrame_good (s := { s with now := t }) hstation hsending hgood, report_same hreport]
    have helsewhere : ¬ elsewhere → ¬ forAnotherNode s.stc.number k f = true :=
      mt (forAnotherNode_iff s.stc.number k f).mp
    rw [hrun]
    refine ⟨fun hr => congrArg _ ?_, fun hr he => congrArg _ ?_, fun hr he hl => congrArg _ ?_,
      fun hr he hl hh h1 h2 h3 => congrArg _ ?_⟩
    · exact admitFrame_repeated hr
    · exact admitFrame_elsewhere hr ((forAnotherNode_iff s.stc.number k f).mpr he)
    · exact admitFrame_full hr (helsewhere he) hl
    · refine admitFrame_heldOff hr (helsewhere he) hl hh ?_
      rw [Ne, isUrgent_iff]
      rintro (h | h | h)
      · exact h1 h
      · exact h2 h
      · exact h3 h

end

section
/-! What a station sends reads back: bytes, fields, records, summaries, conditions (05, 5.7). -/

namespace Sys2Proof.Machine

open Sys2Proof

/-! ### Reading at a place of a byte list -/

theorem byteOf_toNat (n : Nat) : (byteOf n).toNat = n % 256 := BitVec.toNat_ofNat n 8

section
variable {p : List Byte} {i : Nat} {rest : List Byte}

theorem getD_of_drop {b : Byte} (h : p.drop i = b :: rest) : p.getD i 0 = b := by
  rw [List.getD_eq_getElem?_getD, ← List.head?_drop, h]
  rfl

theorem drop_of_drop {head : List Byte} (h : p.drop i = head ++ rest) : p.drop (i + head.length) = rest := by
  rw [← List.drop_drop, h, List.drop_left]

theorem at1_of_drop {b : Byte} (h : p.drop i = b :: rest) : at1 p i = b.toNat := by
  rw [at1, getD_of_drop h]

theorem drop_tail {b : Byte} (h : p.drop i = b :: rest) : p.drop (i + 1) = rest := drop_of_drop (head := [b]) h

theorem at2_of_drop {n : Nat} (h : p.drop i = bytes2 n ++ rest) (hn : n < 65536) : at2 p i = n := by
  rw [at2, at1_of_drop h, at1_of_drop (drop_tail h), byteOf_toNat, byteOf_toNat]
  omega

theorem at3_of_drop {n : Nat} (h : p.drop i = bytes3 n ++ rest) (hn : n < 16777216) : at3 p i = n := by
  have htail : p.drop (i + 1) = bytes2 n ++ rest := drop_tail h
  rw [at3, at2, at1_of_drop h, at1_of_drop htail, at1_of_drop (i := i + 2) (drop_tail htail), byteOf_toNat, byteOf_toNat,
    byteOf_toNat]
  omega

theorem at4_of_drop {n : Nat} (h : p.drop i = bytes4 n ++ rest) (hn : n < 4294967296) : at4 p i = n := by
  have htail : p.drop (i + 1) = bytes3 n ++ rest := drop_tail h
  have htail2 : p.drop (i + 2) = bytes2 n ++ rest := drop_tail htail
  rw [at4, at3, at2, at1_of_drop h, at1_of_drop htail, at1_of_drop htail2, at1_of_drop (i := i + 3) (drop_tail htail2),
    byteOf_toNat, byteOf_toNat, byteOf_toNat, byteOf_toNat]
  omega

theorem wordAt_of_drop {w : Word16} (h : p.drop i = bytes2 w.toNat ++ rest) : wordAt p i = w := by
  rw [wordAt, at2_of_drop h w.isLt, BitVec.ofNat_toNat, BitVec.setWidth_eq]

theorem timeAt_of_drop {t : Time} (h : p.drop i = bytes4 t.toNat ++ rest) : timeAt p i = t := by
  rw [timeAt, at4_of_drop h t.isLt, BitVec.ofNat_toNat, BitVec.setWidth_eq]

theorem signedAt3_of_drop {x : Int} (h : p.drop i = signed3 x ++ rest) (hlow : -8388608 ≤ x) (hhigh : x ≤ 8388607) :
    signedAt3 p i = x := by
  rw [signedAt3, at3_of_drop h (BitVec.ofInt 24 x).isLt, BitVec.ofNat_toNat, BitVec.setWidth_eq, BitVec.toInt_ofInt]
  exact Int.bmod_eq_of_le (by omega) (by omega)

end

/-! ### Codes and flags -/

theorem shareField_eq (x : Option Nat) : shareField x = bytes2 (x.getD 65535) := by cases x <;> rfl

theorem gradeOfByte_gradeCode (g : Grade) : gradeOfByte (gradeCode g) = some g := by cases g <;> rfl

theorem gradeOfByte_marked (g : Grade) (b : Bool) : gradeOfByte ((gradeCode g ||| byteOf (flagBit b 7)) &&& 3) = some g := by
  cases g <;> cases b <;> rfl

theorem markedGrade_bit (g : Grade) (b : Bool) : (gradeCode g ||| byteOf (flagBit b 7)).getLsbD 7 = b := by
  cases g <;> cases b <;> rfl

theorem flags4_bits : ∀ a b c d : Bool,
    (List.range 8).map (byteOf (flagBit a 0 + flagBit b 1 + flagBit c 2 + flagBit d 3)).getLsbD
      = [a, b, c, d, false, false, false, false] := by decide

theorem flags2_bits : ∀ a b : Bool, (byteOf (flagBit a 0 + flagBit b 1)).getLsbD 0 = a
    ∧ (byteOf (flagBit a 0 + flagBit b 1)).getLsbD 1 = b := by decide

theorem flags7_bits : ∀ a b c d e f g : Bool,
    (List.range 8).map (byteOf (flagBit a 0 + flagBit b 1 + flagBit c 2 + flagBit d 3 + flagBit e 4 + flagBit f 5
      + flagBit g 6)).getLsbD = [a, b, c, d, e, f, g, false] := by decide

theorem shutMask_bits (shuts : List (Option ShutCounts)) :
    ∀ n < 8, (byteOf (shutMask shuts)).getLsbD n = (place shuts n none).isSome := by
  have hmask : shutMask shuts = (total [(flagBit (place shuts 0 none).isSome 0 : Nat), (flagBit (place shuts 1 none).isSome 1 : Nat),
    (flagBit (place shuts 2 none).isSome 2 : Nat), (flagBit (place shuts 3 none).isSome 3 : Nat),
    (flagBit (place shuts 4 none).isSome 4 : Nat), (flagBit (place shuts 5 none).isSome 5 : Nat),
    (flagBit (place shuts 6 none).isSome 6 : Nat), (flagBit (place shuts 7 none).isSome 7 : Nat)]).toNat := rfl
  have hbits : ∀ b0 b1 b2 b3 b4 b5 b6 b7 : Bool,
      (List.range 8).map (byteOf (total [(flagBit b0 0 : Nat), (flagBit b1 1 : Nat), (flagBit b2 2 : Nat), (flagBit b3 3 : Nat),
        (flagBit b4 4 : Nat), (flagBit b5 5 : Nat), (flagBit b6 6 : Nat), (flagBit b7 7 : Nat)]).toNat).getLsbD
      = [b0, b1, b2, b3, b4, b5, b6, b7] := by decide
  have hall := hbits (place shuts 0 none).isSome (place shuts 1 none).isSome (place shuts 2 none).isSome
    (place shuts 3 none).isSome (place shuts 4 none).isSome (place shuts 5 none).isSome (place shuts 6 none).isSome
    (place shuts 7 none).isSome
  rw [← hmask] at hall
  intro n hn
  have hread : ((List.range 8).map (byteOf (shutMask shuts)).getLsbD)[n]? = some ((byteOf (shutMask shuts)).getLsbD n) := by
    rw [List.getElem?_map, List.getElem?_range hn]
    rfl
  rw [hall] at hread
  interval_cases n <;> exact (Option.some.inj hread).symm

theorem stationCode_ready (x : StationState) : stationCode x = stationCode .ready ↔ x = .ready := by
  cases x <;> decide

theorem lineCode_active (x : LineState) : lineCode x = lineCode .active ↔ x = .active := by
  cases x <;> decide

theorem topCauseCode_line (x : Option Cause) : topCauseCode x = topCauseCode (some .line) ↔ x = some .line := by
  rcases x with _ | c
  · decide
  · cases c <;> decide

theorem speedField_small {v : Nat} (h : v < 65536) : speedField v < 65536 := by
  unfold speedField roundNat
  omega

/-! ### The line image (R86, R96) -/

theorem checkedBits_check (f : LineFrame) (c : Word16) : checkedBits { f with check := c } = checkedBits f := by
  simp only [checkedBits]

theorem frameCheck_check (f : LineFrame) (c : Word16) : frameCheck { f with check := c } = frameCheck f := by
  rw [frameCheck, checkedBits_check, frameCheck]

theorem lineImage_check (own : BitVec 3) (t : Time) (f : TxFrame) :
    frameCheck (lineImage own t f) = (lineImage own t f).check := by
  obtain ⟨bare, hbare⟩ : ∃ bare : LineFrame, lineImage own t f = { bare with check := frameCheck bare } := ⟨_, rfl⟩
  rw [hbare, frameCheck_check]

theorem lineImage_length (own : BitVec 3) (t : Time) {f : TxFrame} (h : (payloadOf f.body).length ≤ 64) :
    (lineImage own t f).length.toNat = (payloadOf f.body).length := by
  show (BitVec.ofNat 7 (payloadOf f.body).length).toNat = _
  rw [BitVec.toNat_ofNat]
  omega

theorem lineImage_node (own : BitVec 3) (t : Time) (f : TxFrame) : (lineImage own t f).node.toNat = own.toNat := by
  show (own.setWidth 4).toNat = _
  rw [BitVec.toNat_setWidth]
  omega

/-- A frame of a length and target of its kind passes at every other station. -/
theorem lineImage_good {own other : BitVec 3} (t : Time) {f : TxFrame} {k : FrameKind} (hne : own ≠ other)
    (hk : kindOfBody f.body = k) (hl : (payloadOf f.body).length ≤ 64) (hfits : LengthFits k (lineImage own t f))
    (ht : if k = .reply then 8 ≤ f.target.toNat else f.target = 15) : goodFrame other (lineImage own t f) = some k := by
  rw [goodFrame_iff]
  have hask : k ≠ .ask := by
    rw [← hk]
    cases f.body <;> exact fun h => nomatch h
  refine ⟨rfl, (lineImage_check own t f).symm, ?_, ?_, ?_, hfits, ?_, ?_, ?_⟩
  · rw [lineImage_length own t hl]
    exact hl
  · show (kindCode (kindOfBody f.body)).toNat = _
    rw [hk]
    cases k <;> rfl
  · show (classCode (classOfBody f.body)).toNat = _
    rw [classOfBody, hk]
    cases k <;> rfl
  · rw [if_neg hask, lineImage_node]
    exact own.isLt
  · rw [if_neg hask]
    show if k = .reply then 8 ≤ f.target.toNat else f.target.toNat = 15
    by_cases hreply : k = .reply
    · rw [if_pos hreply] at ht ⊢
      exact ht
    · rw [if_neg hreply] at ht ⊢
      rw [ht]
      rfl
  · rw [lineImage_node]
    exact fun h => hne (BitVec.eq_of_toNat_eq h)

/-! ### Wagon records (5.7) -/

theorem axleField_length (a : AxleWeight) : (axleField a).length = 6 := by
  unfold axleField
  rw [shareField_eq]
  rfl

theorem axleFields_length : ∀ axles : List AxleWeight, (axles.flatMap axleField).length = 6 * axles.length
  | [] => rfl
  | a :: axles => by
    rw [List.flatMap_cons, List.length_append, axleField_length, axleFields_length axles, List.length_cons]
    omega

theorem axleFields_drop : ∀ (axles : List AxleWeight) (i : Nat) (a : AxleWeight), axles[i]? = some a →
    ∃ rest, (axles.flatMap axleField).drop (6 * i) = axleField a ++ rest
  | [], _, _, h => nomatch h
  | b :: axles, 0, a, h => by
    cases h
    exact ⟨axles.flatMap axleField, rfl⟩
  | b :: axles, i + 1, a, h => by
    obtain ⟨rest, hrest⟩ := axleFields_drop axles i a h
    have hsix : 6 * (i + 1) = (axleField b).length + 6 * i := by rw [axleField_length]; omega
    exact ⟨rest, by rw [List.flatMap_cons, hsix, ← List.drop_drop, List.drop_left, hrest]⟩

/-- A record whose gross fits, its twenty bytes written out. -/
theorem recordField_eq {r : WagonRecord} (h : -8388608 ≤ r.gross ∧ r.gross ≤ 8388607) : recordField r =
    bytes2 r.index.toNat ++ bytes2 r.session.toNat ++ bytes2 r.wagon ++ [recordCode r.kind, byteOf (r.pattern.getD 0)]
      ++ bytes2 r.first ++ [byteOf r.axles.length] ++ signed3 r.gross ++ [gradeCode r.grade] ++ bytes2 r.meanSpeed
      ++ [byteOf (flagBit r.overload 0 + flagBit r.lateral 1 + flagBit r.longitudinal 2 + flagBit r.overspeed 3
            + flagBit r.creep 4 + flagBit r.reversal 5 + flagBit r.forced 6), byteOf r.misaligned, byteOf r.unchecked]
      ++ r.axles.flatMap axleField := by
  rw [recordField, grossField, if_pos h]

theorem recordField_length {r : WagonRecord} (h : -8388608 ≤ r.gross ∧ r.gross ≤ 8388607) :
    (recordField r).length = 20 + 6 * r.axles.length := by
  rw [recordField_eq h, List.length_append, axleFields_length]
  rfl

theorem axleLaid {p : List Byte} {o : Nat} {a : AxleWeight} {rest : List Byte} (h : p.drop o = axleField a ++ rest)
    (hw : -8388608 ≤ a.w ∧ a.w ≤ 8388607) (hs : a.share.getD 0 < 65535) :
    signedAt3 p o = a.w ∧ gradeOfByte (p.getD (o + 3) 0 &&& 3) = some a.grade ∧ bitAt p (o + 3) 7 = a.reversal
      ∧ at2 p (o + 4) = a.share.getD 65535 := by
  rw [axleField, shareField_eq] at h
  have hgrade : p.drop (o + 3) = (gradeCode a.grade ||| byteOf (flagBit a.reversal 7)) :: (bytes2 (a.share.getD 65535) ++ rest) := by
    rw [← List.drop_drop, h]
    rfl
  have hshare : a.share.getD 65535 < 65536 := by
    cases hx : a.share with
    | none => decide
    | some x =>
      rw [hx] at hs
      exact Nat.lt_succ_of_lt hs
  refine ⟨signedAt3_of_drop h hw.1 hw.2, ?_, ?_, at2_of_drop (drop_tail hgrade) hshare⟩
  · rw [getD_of_drop hgrade, gradeOfByte_marked]
  · rw [bitAt, getD_of_drop hgrade, markedGrade_bit]

theorem recordLaid {p : List Byte} {o : Nat} {r : WagonRecord} (h : p.drop o = recordField r) (hr : RecordFits r) :
    RecordLaid p o r := by
  have hat : ∀ k, p.drop (o + k) = (recordField r).drop k := fun k => by rw [← List.drop_drop, h]
  rw [recordField_eq hr.gross] at hat
  obtain ⟨hgross, hgross'⟩ := hr.gross
  obtain ⟨hmis, hun⟩ := hr.counts
  have hbyte : ∀ n < 256, (byteOf n).toNat = n := fun n hn => by rw [byteOf_toNat, Nat.mod_eq_of_lt hn]
  have hflags := flags7_bits r.overload r.lateral r.longitudinal r.overspeed r.creep r.reversal r.forced
  refine ⟨⟨wordAt_of_drop (hat 0), wordAt_of_drop (hat 2), at2_of_drop (hat 4) hr.wagon⟩, ⟨?_, ?_⟩,
    ⟨at2_of_drop (hat 8) hr.first, ?_⟩, signedAt3_of_drop (hat 11) hgross hgross', ⟨?_, at2_of_drop (hat 15) hr.speed⟩, ?_,
    ⟨?_, ?_⟩, fun i a ha => ?_⟩
  · rw [at1_of_drop (hat 6)]
    cases r.kind <;> rfl
  · rw [at1_of_drop (hat 7), hbyte _ hr.number]
  · obtain ⟨_, hsix⟩ := hr.count
    rw [at1_of_drop (hat 10), hbyte _ (by omega)]
  · rw [getD_of_drop (hat 14), gradeOfByte_gradeCode]
  · rw [← hflags]
    refine congrArg (fun f => (List.range 8).map f) (funext fun i => ?_)
    rw [bitAt, getD_of_drop (hat 17)]
  · rw [at1_of_drop (hat 18), hbyte _ hmis]
  · rw [at1_of_drop (hat 19), hbyte _ hun]
  · obtain ⟨rest, hrest⟩ := axleFields_drop r.axles i a ha
    obtain ⟨hlow, hhigh, hshare⟩ := hr.axles a (List.mem_of_getElem? ha)
    have hstart : p.drop (o + 20) = r.axles.flatMap axleField := hat 20
    have hplace : p.drop (o + 20 + 6 * i) = axleField a ++ rest := by rw [← List.drop_drop, hstart, hrest]
    rw [show o + 23 + 6 * i = o + 20 + 6 * i + 3 by omega, show o + 24 + 6 * i = o + 20 + 6 * i + 4 by omega]
    exact axleLaid hplace ⟨hlow, hhigh⟩ hshare

/-! ### Session summaries (5.7) -/

theorem shutField_eq (x : Option ShutCounts) : shutField x =
    bytes2 ((x.map (·.axles)).getD 0) ++ bytes2 ((x.map (·.wagons)).getD 0) := by
  cases x <;> rfl

theorem shutFields_length (shuts : List (Option ShutCounts)) :
    (stationNumbers.flatMap fun n => shutField (place shuts n none)).length = 32 := by
  simp only [shutField_eq]
  rfl

theorem shutFields_drop (shuts : List (Option ShutCounts)) : ∀ n < 8, ∃ rest,
    (stationNumbers.flatMap fun n => shutField (place shuts n none)).drop (4 * n) = shutField (place shuts n none) ++ rest := by
  intro n hn
  simp only [shutField_eq]
  interval_cases n <;> exact ⟨_, rfl⟩

theorem summaryField_length (last : Bool) (m : Summary) : (summaryField last m).length = 60 := by
  rw [summaryField, List.length_append, shutFields_length]
  rfl

theorem summaryLaid {p : List Byte} {o : Nat} {last : Bool} {m : Summary} (h : p.drop o = summaryField last m)
    (hm : SummaryFits m) : SummaryLaid p o last m := by
  have hat : ∀ k, p.drop (o + k) = (summaryField last m).drop k := fun k => by rw [← List.drop_drop, h]
  obtain ⟨haxles, hwagons, hphantoms, hreversals, hlate⟩ := hm.counts
  refine ⟨?_, ⟨wordAt_of_drop (hat 1), ?_⟩, ⟨timeAt_of_drop (hat 4), timeAt_of_drop (hat 8)⟩,
    ⟨at2_of_drop (hat 12) haxles, at2_of_drop (hat 14) hwagons, at2_of_drop (hat 16) hphantoms, at2_of_drop (hat 18) hreversals⟩,
    at4_of_drop (hat 20) hm.halted, ⟨at2_of_drop (hat 24) hlate, ?_⟩, fun n hn => ?_⟩
  · rw [at1_of_drop (i := o) (hat 0)]
    cases last <;> rfl
  · rw [at1_of_drop (hat 3)]
    cases m.direction <;> rfl
  · rw [at1_of_drop (hat 26)]
    cases m.mismatch <;> rfl
  · obtain ⟨rest, hrest⟩ := shutFields_drop m.shuts n hn
    have hstart : p.drop (o + 28) = stationNumbers.flatMap fun n => shutField (place m.shuts n none) := hat 28
    have hplace : p.drop (o + 28 + 4 * n) = shutField (place m.shuts n none) ++ rest := by
      rw [← List.drop_drop, hstart, hrest]
    have hsmall : ((place m.shuts n none).map (·.axles)).getD 0 < 65536 ∧ ((place m.shuts n none).map (·.wagons)).getD 0 < 65536 := by
      cases hx : place m.shuts n none with
      | none => exact ⟨by decide, by decide⟩
      | some x => exact hm.shuts n x hx
    rw [shutField_eq, List.append_assoc] at hplace
    refine ⟨?_, at2_of_drop hplace hsmall.1, ?_⟩
    · rw [bitAt, getD_of_drop (hat 27), shutMask_bits m.shuts n hn]
    · rw [show o + 30 + 4 * n = o + 28 + 4 * n + 2 by omega]
      exact at2_of_drop (drop_of_drop (head := bytes2 _) hplace) hsmall.2

/-! ### Conditions (5.7) -/

theorem conditionsField_length (c : ConditionsBody) : (conditionsField c).length = 12 := rfl

theorem topCauseCode_toNat (c : Option Cause) : (topCauseCode c).toNat = (c.map priority).getD 0 := by
  cases c with
  | none => rfl
  | some c => cases c <;> rfl

theorem conditionsLaid {p : List Byte} {o : Nat} {c : ConditionsBody} (h : p.drop o = conditionsField c) :
    ConditionsLaid p o c := by
  have hat : ∀ k, p.drop (o + k) = (conditionsField c).drop k := fun k => by rw [← List.drop_drop, h]
  have hmask : ∀ m : CauseMask, m.toNat < 65536 := fun m => Nat.lt_of_lt_of_le m.isLt (by decide)
  refine ⟨⟨at2_of_drop (hat 0) (hmask _), at2_of_drop (hat 2) (hmask _)⟩, ?_, ?_, fun n hn hlow hhigh => ?_, fun _ => ?_, ?_, ?_⟩
  · rw [at1_of_drop (hat 4), topCauseCode_toNat]
  · rw [at1_of_drop (hat 5)]
    cases c.netLoad <;> rfl
  · have hload := hat 6
    unfold conditionsField at hload
    rw [hn] at hload
    exact signedAt3_of_drop hload hlow hhigh
  · rw [at1_of_drop (hat 9)]
    cases c.station <;> rfl
  · rw [at1_of_drop (hat 10)]
    cases c.line <;> rfl
  · rw [at1_of_drop (hat 11)]
    cases c.session <;> rfl

end Sys2Proof.Machine

open Sys2Proof Sys2Proof.Machine

/-- Settles O31: a payload is its fields one after the other, so each is read at its offset. -/
theorem stationFramesReadBack : Obligations.StationFramesReadBack := by
  intro own other t f hne image p
  refine ⟨rfl, rfl, lineImage_node own t f, lineImage_check own t f, ?hail, ?opening, ?cross, ?shut, ?step, ?tally, ?reply⟩
  case hail =>
    intro h hb ht hp hl hstation
    have hpay : p = payloadOf (.hail h) := congrArg payloadOf hb
    have hlen : (payloadOf f.body).length = 16 := by rw [hb]; rfl
    have hat : ∀ k, p.drop k = (payloadOf (.hail h)).drop k := fun k => by rw [hpay]
    have hline : p.getD 6 0 = lineCode h.line := getD_of_drop (hat 6)
    have hstate : p.getD 7 0 = stationCode h.station := getD_of_drop (hat 7)
    have hsession : p.getD 8 0 = sessionCode h.session := getD_of_drop (hat 8)
    have htop : p.getD 11 0 = topCauseCode h.topCause := getD_of_drop (hat 11)
    have hknown : hailCodesKnown p = true := by
      unfold hailCodesKnown at1
      rw [hline, hstate, hsession]
      cases hs : h.station with
      | loading => exact absurd hs hstation
      | configFault | settling | ready => cases h.line <;> cases h.session <;> rfl
    refine ⟨?_, at4_of_drop (i := 0) (hat 0) hp, at2_of_drop (hat 4) hl, ?_, ?_, ?_, wordAt_of_drop (hat 9), ?_,
      wordAt_of_drop (hat 12), wordAt_of_drop (hat 14), hknown, ?_⟩
    · exact lineImage_good t hne (by rw [hb]; rfl) (by omega) ((lineImage_length own t (by omega)).trans hlen) ht
    · rw [at1, hline]
      cases h.line <;> rfl
    · rw [at1, hstate]
      cases h.station <;> rfl
    · rw [at1, hsession]
      cases h.session <;> rfl
    · rw [at1, htop]
      rcases h.topCause with _ | c
      · rfl
      · cases c <;> rfl
    · unfold hailQualifies
      rw [hknown, hline, hstate, htop]
      simp only [Bool.true_and, Bool.and_eq_true, beq_iff_eq, bne_iff_ne, Ne, stationCode_ready, lineCode_active, topCauseCode_line,
        and_assoc]
  case opening =>
    intro number d tf hb ht
    have hlen : (payloadOf f.body).length = 7 := by rw [hb]; rfl
    have hat : ∀ k, p.drop k = (payloadOf (.opening number d tf)).drop k := fun k => congrArg _ (congrArg payloadOf hb)
    refine ⟨?_, wordAt_of_drop (i := 0) (hat 0), ?_, ?_, timeAt_of_drop (hat 3)⟩
    · exact lineImage_good t hne (by rw [hb]; rfl) (by omega) ((lineImage_length own t (by omega)).trans hlen) ht
    · rw [at1_of_drop (hat 2)]
      cases d <;> rfl
    · rw [getD_of_drop (hat 2)]
      cases d <;> rfl
  case cross =>
    intro number j kind revision edge speed overspeed creep hb ht hj hrevision hspeed
    have hlen : (payloadOf f.body).length = 13 := by rw [hb]; rfl
    have hat : ∀ k, p.drop k = (payloadOf (.cross number j kind revision edge speed overspeed creep)).drop k :=
      fun k => congrArg _ (congrArg payloadOf hb)
    have hflags := flags2_bits overspeed creep
    refine ⟨?_, wordAt_of_drop (i := 0) (hat 0), at2_of_drop (hat 2) hj, ?_, ?_, timeAt_of_drop (hat 6), ?_, ?_, ?_⟩
    · exact lineImage_good t hne (by rw [hb]; rfl) (by omega) ((lineImage_length own t (by omega)).trans hlen) ht
    · rw [at1_of_drop (hat 4)]
      cases kind <;> rfl
    · rw [at1_of_drop (hat 5), byteOf_toNat, Nat.mod_eq_of_lt hrevision]
    · rw [at2_of_drop (hat 10) (speedField_small hspeed)]
      exact roundNat_isRounded _ _ (by decide)
    · rw [bitAt, getD_of_drop (hat 12)]
      exact hflags.1
    · rw [bitAt, getD_of_drop (hat 12)]
      exact hflags.2
  case shut =>
    intro number axles wagons hb ht haxles hwagons
    have hlen : (payloadOf f.body).length = 6 := by rw [hb]; rfl
    have hat : ∀ k, p.drop k = (payloadOf (.shut number axles wagons)).drop k := fun k => congrArg _ (congrArg payloadOf hb)
    refine ⟨?_, wordAt_of_drop (i := 0) (hat 0), at2_of_drop (hat 2) haxles, at2_of_drop (hat 4) hwagons⟩
    exact lineImage_good t hne (by rw [hb]; rfl) (by omega) ((lineImage_length own t (by omega)).trans hlen) ht
  case step =>
    intro number e hb ht hj hrevision hlow hhigh hspeed hshare
    have hpay : payloadOf f.body = bytes2 number.toNat ++ bytes2 e.ordinal ++ [byteOf e.revision] ++ signed3 e.w
        ++ [gradeCode e.grade] ++ bytes2 (e.share.getD 65535) ++ bytes2 (speedField e.entrySpeed) ++ bytes4 e.entryTime.toNat
        ++ [byteOf (flagBit e.flags.overspeed 0 + flagBit e.flags.creep 1 + flagBit e.flags.reversal 2
              + flagBit e.flags.implausible 3)] := by
      rw [hb, ← shareField_eq]
      rfl
    have hlen : (payloadOf f.body).length = 18 := by rw [hpay]; rfl
    have hat : ∀ k, p.drop k = (payloadOf f.body).drop k := fun k => rfl
    rw [hpay] at hat
    have hsmall : e.share.getD 65535 < 65536 := by
      cases hx : e.share with
      | none => decide
      | some x => exact Nat.lt_of_le_of_lt (hshare x hx) (by decide)
    have hordinal : at2 p 2 = e.ordinal := at2_of_drop (hat 2) hj
    have hrev : at1 p 4 = e.revision := by rw [at1_of_drop (hat 4), byteOf_toNat, Nat.mod_eq_of_lt hrevision]
    have hweight : signedAt3 p 5 = e.w := signedAt3_of_drop (hat 5) hlow hhigh
    have hgrade : p.getD 8 0 = gradeCode e.grade := getD_of_drop (hat 8)
    have hleft : at2 p 9 = e.share.getD 65535 := at2_of_drop (hat 9) hsmall
    have hfield : at2 p 11 = speedField e.entrySpeed := at2_of_drop (hat 11) (speedField_small hspeed)
    have htime : timeAt p 13 = e.entryTime := timeAt_of_drop (hat 13)
    have hbits : (List.range 8).map (bitAt p 17)
        = [e.flags.overspeed, e.flags.creep, e.flags.reversal, e.flags.implausible, false, false, false, false] := by
      rw [← flags4_bits]
      refine congrArg (fun f => (List.range 8).map f) (funext fun i => ?_)
      rw [bitAt, getD_of_drop (hat 17)]
    refine ⟨?_, wordAt_of_drop (i := 0) (hat 0), hordinal, hrev, hweight, ?_, hleft, ?_, htime, hbits, ?_⟩
    · exact lineImage_good t hne (by rw [hb]; rfl) (by omega) ((lineImage_length own t (by omega)).trans hlen) ht
    · rw [at1, hgrade]
      cases e.grade <;> rfl
    · rw [hfield]
      exact roundNat_isRounded _ _ (by decide)
    · have hpresent : shareOfField (at2 p 9) = e.share := by
        rw [hleft]
        cases hx : e.share with
        | none => rfl
        | some x => exact if_pos (hshare x hx)
      have hflags : bitAt p 17 0 = e.flags.overspeed ∧ bitAt p 17 1 = e.flags.creep ∧ bitAt p 17 2 = e.flags.reversal
          ∧ bitAt p 17 3 = e.flags.implausible := by
        have height : [bitAt p 17 0, bitAt p 17 1, bitAt p 17 2, bitAt p 17 3, bitAt p 17 4, bitAt p 17 5, bitAt p 17 6, bitAt p 17 7]
          = _ := hbits
        simp only [List.cons.injEq] at height
        obtain ⟨h0, h1, h2, h3, _⟩ := height
        exact ⟨h0, h1, h2, h3⟩
      obtain ⟨hover, hcreep, hreversal, himplausible⟩ := hflags
      unfold stepRow
      rw [hgrade, gradeOfByte_gradeCode, hweight, hpresent, hfield, htime, hrev, hover, hcreep, hreversal, himplausible]
      rfl
  case tally =>
    intro r hb ht hr
    have hpay : payloadOf f.body = recordField r := by rw [hb]; rfl
    have hlen : (payloadOf f.body).length = 20 + 6 * r.axles.length := by rw [hpay, recordField_length hr.gross]
    obtain ⟨hone, hsix⟩ := hr.count
    refine ⟨lineImage_good t hne (by rw [hb]; rfl) (by omega) ?_ ht, hlen, recordLaid (o := 0) hpay hr⟩
    rw [LengthFits, lineImage_length own t (by omega), hlen]
    omega
  case reply =>
    intro status asked content hb ht
    have hpay : payloadOf f.body = [statusCode status, asked] ++ contentField content := by rw [hb]; rfl
    have hlen : (payloadOf f.body).length = 2 + (contentField content).length := by
      rw [hpay, List.length_append]
      rfl
    have hstatus : p.getD 0 0 = statusCode status := congrArg (fun q : List Byte => q.getD 0 0) hpay
    have hasked : p.getD 1 0 = asked := congrArg (fun q : List Byte => q.getD 1 0) hpay
    have hcontent : p.drop 2 = contentField content := congrArg (List.drop 2) hpay
    have hgood : p.length ≤ 64 → replyLengthAllowed p p.length = true → goodFrame other image = some .reply := by
      intro hl hallowed
      refine lineImage_good t hne (by rw [hb]; rfl) hl ((lengthAllowed_iff .reply image).mp ?_) ht
      show replyLengthAllowed p (lineImage own t f).length.toNat = true
      rw [lineImage_length own t hl]
      exact hallowed
    refine ⟨fun hok hfits => ?_, fun hbad hnone => ?_⟩
    · have hzero : p.getD 0 0 = 0 := by rw [hstatus, hok]; rfl
      have hlaid : ContentLaid p asked content ∧ p.length ≤ 64 ∧ replyLengthAllowed p p.length = true := by
        rw [replyLengthAllowed_iff, hzero, hasked]
        cases content with
        | none =>
          have hfour : asked = 4 := hfits
          have htwo : p.length = 2 := hlen
          exact ⟨⟨hfour, htwo⟩, by omega, by rw [hfour, htwo]; simp⟩
        | record r =>
          obtain ⟨hkind, hr⟩ := hfits
          obtain ⟨hone, hsix⟩ := hr.count
          have hlength : p.length = 22 + 6 * r.axles.length := by
            rw [show p.length = 2 + (recordField r).length from hlen, recordField_length hr.gross]
            omega
          refine ⟨⟨hkind, hlength, recordLaid hcontent hr⟩, by omega, ?_⟩
          rw [if_neg (by decide), if_pos hkind]
          exact ⟨20 + 6 * r.axles.length, by omega, by omega⟩
        | summary last m =>
          obtain ⟨hfive, hm⟩ := hfits
          have hlength : p.length = 62 := by
            rw [show p.length = 2 + (summaryField last m).length from hlen, summaryField_length]
          exact ⟨⟨hfive, hlength, summaryLaid hcontent hm⟩, by omega, by rw [hfive, hlength]; simp⟩
        | conditions c =>
          have hsix : asked = 6 := hfits
          have hlength : p.length = 14 := by
            rw [show p.length = 2 + (conditionsField c).length from hlen, conditionsField_length]
          exact ⟨⟨hsix, hlength, conditionsLaid hcontent⟩, by omega, by rw [hsix, hlength]; simp⟩
        | mask m =>
          have hseven : asked = 7 := hfits
          have hlength : p.length = 4 := hlen
          have hsmall : m.toNat < 65536 := Nat.lt_of_lt_of_le m.isLt (by decide)
          have hmask : p.drop 2 = bytes2 m.toNat ++ [] := hcontent
          exact ⟨⟨hseven, hlength, at2_of_drop hmask hsmall⟩, by omega, by rw [hseven, hlength]; simp⟩
      obtain ⟨hcarried, hl, hallowed⟩ := hlaid
      exact ⟨hgood hl hallowed, rfl, by rw [at1, hzero]; rfl, hasked, hcarried⟩
    · have htwo : p.length = 2 := by
        rw [hnone] at hlen
        exact hlen
      have hnonzero : p.getD 0 0 ≠ 0 := by
        rw [hstatus]
        cases status with
        | ok => exact absurd rfl hbad
        | empty | range | deferred | busy | refused => decide
      refine ⟨hgood (by omega) ?_, rfl, ?_, hasked, htwo⟩
      · rw [replyLengthAllowed_iff, if_pos hnonzero]
        exact htwo
      · rw [at1, hstatus]
        cases status <;> rfl

end

section
/-! The Peer Table: offsets, entry states, the live set, exit station and layout, the own HAIL (06). -/

namespace Sys2Proof.Machine

open Sys2Proof

/-! ### The number mark (R121) -/

theorem laterNumber_iff (n m : Word16) : laterNumber n m = true ↔ 1 ≤ (n - m).toNat ∧ (n - m).toNat ≤ 32767 := by
  simp [laterNumber, inRange]

theorem raiseMark_some (n m : Word16) : raiseMark n (some m) = if laterNumber n m = true then some n else some m := rfl

/-! ### Offset (R107, R108) -/

theorem hear_first {p : Peer} (stamp start : Time) (h : p.offset = none) :
    hear stamp start p = { p with offset := some (start - stamp), lastHeard := some start } := by
  unfold hear
  rw [h]

theorem hear_smoothed {p : Peer} {stamp start held : Time} (h : p.offset = some held)
    (hj : (start - stamp - held).toInt.natAbs ≤ 5000) : hear stamp start p =
      { p with offset := some (held + BitVec.ofInt 32 ((start - stamp - held).toInt.tdiv 8)), lastHeard := some start } := by
  have hstay : isJump held (start - stamp) = false := by
    rw [isJump, decide_eq_false_iff_not]
    exact Nat.not_lt.mpr hj
  unfold hear
  rw [h]
  simp only [hstay, Bool.false_eq_true, if_false]
  rfl

theorem hear_jump {p : Peer} {stamp start held : Time} (h : p.offset = some held)
    (hj : 5000 < (start - stamp - held).toInt.natAbs) : hear stamp start p =
      if p.state = .absent then { p with offset := some (start - stamp), lastHeard := some start }
      else { p with offset := some (start - stamp), lastHeard := some start, state := .joining, firstHail := none } := by
  have hjump : isJump held (start - stamp) = true := by
    rw [isJump, decide_eq_true_iff]
    exact hj
  unfold hear
  rw [h]
  simp only [hjump, if_true, beq_iff_eq]
  split <;> rfl

/-- A report leaves the entry's state or takes it to JOINING. -/
theorem hear_state (stamp start : Time) (p : Peer) :
    (hear stamp start p).state = p.state ∨ (hear stamp start p).state = .joining := by
  cases ho : p.offset with
  | none =>
    rw [hear_first stamp start ho]
    exact .inl rfl
  | some held =>
    by_cases hj : 5000 < (start - stamp - held).toInt.natAbs
    · rw [hear_jump ho hj]
      split
      · exact .inl rfl
      · exact .inr rfl
    · rw [hear_smoothed ho (Nat.not_lt.mp hj)]
      exact .inl rfl

theorem tdiv_eight (d : Int) : 8 * (d.tdiv 8).natAbs ≤ d.natAbs ∧ d.natAbs < 8 * (d.tdiv 8).natAbs + 8
    ∧ (0 ≤ d → 0 ≤ d.tdiv 8) ∧ (d ≤ 0 → d.tdiv 8 ≤ 0) := by
  obtain ⟨n, hn⟩ := d.eq_nat_or_neg
  have hdiv : (n : Int).tdiv 8 = ((n / 8 : Nat) : Int) := rfl
  rcases hn with rfl | rfl
  · rw [hdiv]
    omega
  · rw [Int.neg_tdiv, hdiv]
    omega

/-! ### Entry states (R110 to R112) -/

/-- R110, R111: the codes of a HAIL are listed. -/
def CodesListed (c : List Byte) : Prop := at1 c 6 ≤ 3 ∧ 1 ≤ at1 c 7 ∧ at1 c 7 ≤ 3 ∧ at1 c 8 ≤ 3

theorem hailCodesKnown_iff (c : List Byte) : hailCodesKnown c = true ↔ CodesListed c := by
  simp [hailCodesKnown, inRange, CodesListed, and_assoc]

theorem byte_eq_iff (c : List Byte) (i : Nat) (b : Byte) : c.getD i 0 = b ↔ at1 c i = b.toNat := BitVec.toNat_inj.symm

theorem hailQualifies_iff (c : List Byte) :
    hailQualifies c = true ↔ CodesListed c ∧ at1 c 6 = 0 ∧ at1 c 7 = 3 ∧ at1 c 11 ≠ 2 := by
  have h6 : c.getD 6 0 = lineCode .active ↔ at1 c 6 = 0 := byte_eq_iff c 6 _
  have h7 : c.getD 7 0 = stationCode .ready ↔ at1 c 7 = 3 := byte_eq_iff c 7 _
  have h11 : c.getD 11 0 = topCauseCode (some .line) ↔ at1 c 11 = 2 := byte_eq_iff c 11 _
  unfold hailQualifies
  rw [Bool.and_eq_true, Bool.and_eq_true, Bool.and_eq_true, beq_iff_eq, beq_iff_eq, bne_iff_ne, Ne, h6, h7, h11,
    hailCodesKnown_iff]
  tauto

theorem secondQualifying_iff (p : Peer) (t : Time) :
    secondQualifying p t = true ↔ ∃ f, p.firstHail = some f ∧ elapsed f t ≤ 1000000 := by
  unfold secondQualifying
  cases p.firstHail <;> simp

/-- R111: the table of the entry's states. -/
theorem hailMove_is {q : Bool} {t : Time} {p : Peer} {state : PeerState} {first : Option Time}
    (hbad : q = false → state = .joining ∧ first = none)
    (hlive : q = true → p.state = .live → state = .live ∧ first = p.firstHail)
    (hsecond : q = true → p.state = .joining → secondQualifying p t = true → state = .live ∧ first = none)
    (hfirst : q = true → p.state ≠ .live → (p.state = .joining → ¬ secondQualifying p t = true) →
      state = .joining ∧ first = some t) :
    hailMove q t p = { p with state := state, firstHail := first } := by
  cases q with
  | false =>
    obtain ⟨rfl, rfl⟩ := hbad rfl
    rfl
  | true =>
    unfold hailMove
    rw [if_pos rfl]
    cases hp : p.state with
    | live =>
      obtain ⟨rfl, rfl⟩ := hlive rfl hp
      exact congrArg (fun x => { p with state := x }) hp
    | joining =>
      simp only
      by_cases hs : secondQualifying p t = true
      · obtain ⟨rfl, rfl⟩ := hsecond rfl hp hs
        rw [if_pos hs]
      · obtain ⟨rfl, rfl⟩ := hfirst rfl (by rw [hp]; decide) fun _ => hs
        rw [if_neg hs]
    | absent =>
      obtain ⟨rfl, rfl⟩ := hfirst rfl (by rw [hp]; decide) fun h => by rw [hp] at h; cases h
      rfl
    | silent =>
      obtain ⟨rfl, rfl⟩ := hfirst rfl (by rw [hp]; decide) fun h => by rw [hp] at h; cases h
      rfl

theorem silence_waits {p : Peer} {now : Time} (h : ∀ t, p.lastHeard = some t → reached (t + 1000001) now = false) :
    silence now p = p := by
  have hdue : silenceDue p now = false := by
    unfold silenceDue
    cases hl : p.lastHeard with
    | none => rfl
    | some t => exact h t hl
  unfold silence
  rw [hdue, Bool.and_false]
  rfl

theorem silence_idle {p : Peer} (now : Time) (h : p.state = .absent ∨ p.state = .silent) : silence now p = p := by
  unfold silence
  rcases h with h | h <;> rw [h] <;> rfl

theorem silence_due {p : Peer} {now t : Time} (hs : p.state = .joining ∨ p.state = .live) (hl : p.lastHeard = some t)
    (hd : reached (t + 1000001) now = true) : silence now p = { p with state := .silent, firstHail := none } := by
  have hdue : silenceDue p now = true := by
    unfold silenceDue
    rw [hl]
    exact hd
  unfold silence
  refine if_pos ?_
  rw [hdue]
  rcases hs with h | h <;> rw [h] <;> rfl

/-! ### An entry replaced (R114, R145) -/

theorem setPeer_twice (n : Nat) (p q : Peer) (s : State) : setPeer n p (setPeer n q s) = setPeer n p s := by
  simp [setPeer, setPlace]

theorem setPeer_self {n : Nat} {s : State} (hn : n < s.ptb.peers.length) : setPeer n (peer s n) s = s := by
  have hsame : s.ptb.peers.set n (peer s n) = s.ptb.peers := by
    unfold peer place
    rw [List.getD_eq_getElem _ _ hn, List.set_getElem_self]
  show { s with ptb := { s.ptb with peers := s.ptb.peers.set n (peer s n) } } = s
  rw [hsame]

section
variable {n : Nat} {p : Peer} {s : State} {t : Time}

/-- The replaced entry is the only one that changes, and time stands. -/
theorem replacePeer_frame (ht : s.now = t) (hn : n ≠ ownNumber s) (hl : n < s.ptb.peers.length) :
    (replacePeer n p s).ptb.peers = s.ptb.peers.set n p ∧ (replacePeer n p s).now = t
      ∧ (replacePeer n p s).stc = s.stc := by
  obtain ⟨hsame, hleaves, henters⟩ := replacePeer_is n p s ht hn hl
  by_cases hwas : (peer s n).state = .live
  · by_cases his : p.state = .live
    · rw [hsame (iff_of_true hwas his)]
      exact ⟨rfl, ht, rfl⟩
    · obtain ⟨hnow, hstc, _, hptb, _⟩ := hleaves hwas his
      exact ⟨by rw [hptb]; rfl, hnow.trans ht, hstc⟩
  · by_cases his : p.state = .live
    · obtain ⟨hnow, hstc, _, hptb, _⟩ := henters hwas his
      obtain ⟨x, c, hchecked⟩ := recheckPeer_eq n (setPeer n p s)
      rw [hchecked] at hnow hstc hptb
      exact ⟨by rw [hptb]; rfl, hnow.trans ht, hstc⟩
    · rw [hsame (iff_of_false hwas his)]
      exact ⟨rfl, ht, rfl⟩

end

theorem assessLayout_peers (s : State) : (assessLayout s).ptb.peers = s.ptb.peers := by
  obtain ⟨b, c, h⟩ := assessLayout_eq s
  rw [h]

/-- What the table holds once an entry was replaced and the layout assessed. -/
theorem peers_after {n : Nat} {p : Peer} {s a : State} (ha : a.ptb.peers = s.ptb.peers.set n p) (hl : n < s.ptb.peers.length) :
    place (assessLayout a).ptb.peers n Peer.reset = p
      ∧ ∀ m, m ≠ n → place (assessLayout a).ptb.peers m Peer.reset = place s.ptb.peers m Peer.reset := by
  rw [assessLayout_peers, ha]
  exact ⟨place_set_self _ _ _ _ hl, fun m hm => place_set_other _ _ _ _ _ hm⟩

/-! ### The exit station (R115) -/

/-- How far downstream a station lies for a direction. -/
def downstream (d : Direction) (s : State) (n : Nat) : Int :=
  match d with
  | .up => positionOf s n
  | .down => -positionOf s n

theorem furtherDown_iff (d : Direction) (s : State) (n m : Nat) :
    furtherDown d s n m = true ↔ downstream d s m < downstream d s n := by
  cases d with
  | up =>
    rw [furtherDown, decide_eq_true_iff]
    exact Int.ofNat_lt.symm
  | down =>
    rw [furtherDown, decide_eq_true_iff]
    simp only [downstream]
    omega

/-- The first of the furthest, in a rising list. -/
theorem furthest_best (d : Direction) (s : State) : ∀ (xs : List Nat) (b : Nat), (b :: xs).Pairwise (· < ·) →
    ∀ n ∈ b :: xs,
      downstream d s n ≤ downstream d s (xs.foldl (fun best m => if furtherDown d s m best then m else best) b)
      ∧ (downstream d s n = downstream d s (xs.foldl (fun best m => if furtherDown d s m best then m else best) b) →
          xs.foldl (fun best m => if furtherDown d s m best then m else best) b ≤ n)
  | [], b, _, n, hn => by
    rw [List.mem_singleton.mp hn]
    exact ⟨le_rfl, fun _ => le_rfl⟩
  | x :: xs, b, hrise, n, hn => by
    rw [List.foldl_cons]
    obtain ⟨hb, hx⟩ := List.pairwise_cons.mp hrise
    have hbx : b < x := hb x (List.mem_cons_self ..)
    have hskip : (b :: xs).Pairwise (· < ·) :=
      List.pairwise_cons.mpr ⟨fun y hy => hb y (List.mem_cons_of_mem _ hy), (List.pairwise_cons.mp hx).2⟩
    by_cases hf : furtherDown d s x b = true
    · rw [if_pos hf]
      have hbest := furthest_best d s xs x hx
      rcases List.mem_cons.mp hn with rfl | hn
      · have hlt := (furtherDown_iff d s x n).mp hf
        obtain ⟨hle, _⟩ := hbest x (List.mem_cons_self ..)
        exact ⟨by omega, fun h => by omega⟩
      · exact hbest n hn
    · rw [if_neg hf]
      have hbest := furthest_best d s xs b hskip
      have hnot : downstream d s x ≤ downstream d s b := by
        rw [furtherDown_iff] at hf
        omega
      obtain ⟨hble, hbtie⟩ := hbest b (List.mem_cons_self ..)
      rcases List.mem_cons.mp hn with rfl | hn
      · exact ⟨hble, hbtie⟩
      · rcases List.mem_cons.mp hn with rfl | hn
        · refine ⟨by omega, fun h => ?_⟩
          have := hbtie (by omega)
          omega
        · exact hbest n (List.mem_cons_of_mem _ hn)

theorem mem_stationNumbers (n : Nat) : n ∈ stationNumbers ↔ n < 8 := by
  simp only [stationNumbers, List.mem_cons, List.not_mem_nil, or_false]
  omega

theorem mem_liveSet (s : State) (n : Nat) :
    n ∈ liveSet s ↔ n = ownNumber s ∨ (n < 8 ∧ (place s.ptb.peers n Peer.reset).state = .live) := by
  have hown := ownNumber_lt s
  unfold liveSet isLive peer
  rw [List.mem_filter, mem_stationNumbers, Bool.or_eq_true, Bool.and_eq_true, bne_iff_ne, beq_iff_eq, beq_iff_eq]
  constructor
  · rintro ⟨hn, h | ⟨_, h⟩⟩
    · exact .inl h
    · exact .inr ⟨hn, h⟩
  · rintro (h | ⟨hn, h⟩)
    · exact ⟨by omega, .inl h⟩
    · by_cases ho : n = ownNumber s
      · exact ⟨hn, .inl ho⟩
      · exact ⟨hn, .inr ⟨ho, h⟩⟩

/-- R115: the exit station is of the live set, and no station of it lies further, or as far with a lower number. -/
theorem chooseExit_best (s : State) : (chooseExit s).ptb.exitStation ∈ liveSet s
    ∧ ∀ n ∈ liveSet s, downstream s.ses.direction s n ≤ downstream s.ses.direction s (chooseExit s).ptb.exitStation
      ∧ (downstream s.ses.direction s n = downstream s.ses.direction s (chooseExit s).ptb.exitStation →
          (chooseExit s).ptb.exitStation ≤ n) := by
  have hrise : (liveSet s).Pairwise (· < ·) := List.Pairwise.filter _ (by decide)
  have hown : ownNumber s ∈ liveSet s := (mem_liveSet s _).mpr (.inl rfl)
  have hexit : (chooseExit s).ptb.exitStation = (furthest s.ses.direction s (liveSet s)).getD (ownNumber s) := rfl
  cases hset : liveSet s with
  | nil =>
    rw [hset] at hown
    cases hown
  | cons b xs =>
    rw [hset] at hrise hexit
    rw [hexit]
    exact ⟨furthest_mem (xs := b :: xs) rfl, fun n hn => furthest_best _ s xs b hrise n hn⟩

/-! ### Layout (R116) -/

theorem overlaps_iff (s : State) (q : Peer) : overlaps s q = true ↔
    ∃ p l, q.p = some p ∧ q.l = some l ∧ p < s.ptb.ownP + s.ptb.ownL ∧ s.ptb.ownP < p + l := by
  unfold overlaps
  cases q.p <;> cases q.l <;> simp

theorem layoutFault_iff (s : State) (q : Peer) : layoutFault s q = true ↔
    (q.state = .joining ∨ q.state = .live) ∧ (q.stationState = some 2 ∨ q.stationState = some 3)
      ∧ ((∃ p l, q.p = some p ∧ q.l = some l ∧ p < s.ptb.ownP + s.ptb.ownL ∧ s.ptb.ownP < p + l)
          ∨ ∃ sum, q.patternSum = some sum ∧ sum ≠ s.ptb.ownPatternSum) := by
  have hsum : (q.patternSum.isSome && q.patternSum != some s.ptb.ownPatternSum) = true ↔
      ∃ sum, q.patternSum = some sum ∧ sum ≠ s.ptb.ownPatternSum := by
    cases q.patternSum <;> simp
  unfold layoutFault
  rw [Bool.and_eq_true, Bool.and_eq_true, Bool.or_eq_true, Bool.or_eq_true, Bool.or_eq_true, beq_iff_eq, beq_iff_eq, beq_iff_eq,
    beq_iff_eq, overlaps_iff, hsum, and_assoc]
  rfl

theorem layoutFound_iff (s : State) : layoutFound s = true ↔ s.stc.station ≠ .configFault ∧ ∃ n, n < 8 ∧ n ≠ ownNumber s
    ∧ layoutFault s (peer s n) = true := by
  unfold layoutFound
  rw [Bool.and_eq_true, bne_iff_ne, List.any_eq_true]
  simp only [mem_stationNumbers, Bool.and_eq_true, bne_iff_ne]

theorem assessLayout_layout (s : State) : (assessLayout s).ptb.layout = layoutFound s := by
  unfold assessLayout
  cases layoutFound s <;> cases s.ptb.layout <;> rfl

theorem assessLayout_cnd (s : State) : (assessLayout s).cnd =
    if layoutFound s = true ∧ s.ptb.layout = false then (reportPresent .layout s).cnd
    else if layoutFound s = false ∧ s.ptb.layout = true then (reportAbsent .layout s).cnd
    else s.cnd := by
  unfold assessLayout
  cases layoutFound s <;> cases s.ptb.layout <;> rfl

theorem assessLayout_rest (s : State) : assessLayout s =
    { s with ptb := { s.ptb with layout := (assessLayout s).ptb.layout }, cnd := (assessLayout s).cnd } := by
  obtain ⟨b, c, h⟩ := assessLayout_eq s
  rw [h]

/-! ### Dispatch, expiry and the own HAIL (R110 to R113) -/

theorem hailSession_is {c : List Byte} {s : State} {P : Prop} [Decidable P]
    (h : (sesWorks s && hailCodesKnown c && c.getD 8 0 != sessionCode .idle) = true ↔ P) : hailSession c s =
      { s with ses := { s.ses with mark := if P then raiseMark (wordAt c 9) s.ses.mark else s.ses.mark } } := by
  unfold hailSession onlyIf
  by_cases hP : P
  · rw [if_pos (h.mpr hP), if_pos hP]
    rfl
  · rw [if_neg (mt h.mp hP), if_neg hP]

theorem onlyIf_assessLayout (b : Bool) (s : State) :
    onlyIf b assessLayout s = { s with ptb := (onlyIf b assessLayout s).ptb, cnd := (onlyIf b assessLayout s).cnd }
      ∧ (onlyIf b assessLayout s).ptb.peers = s.ptb.peers := by
  cases b with
  | false => exact ⟨rfl, rfl⟩
  | true =>
    obtain ⟨l, c, h⟩ := assessLayout_eq s
    rw [onlyIf_true, h]
    exact ⟨rfl, rfl⟩

theorem silenceExpired_due {n : Nat} {q : Peer} {s : State} (hn : n ≠ ownNumber s) (hq : silence s.now (peer s n) = q)
    (hne : q ≠ peer s n) : silenceExpired n s = assessLayout (replacePeer n q s) := by
  unfold silenceExpired
  rw [hq]
  refine if_neg ?_
  rw [Bool.or_eq_true, beq_iff_eq, beq_iff_eq]
  exact fun h => h.elim hn hne

theorem sendingHail_iff (c : Slc) : sendingHail c = true ↔ ∃ x h, c.sending = some x ∧ x.frame.body = .hail h := by
  unfold sendingHail
  cases hs : c.sending with
  | none => simp
  | some x =>
    simp only [beq_iff_eq, Option.some.injEq]
    constructor
    · intro hk
      cases hb : x.frame.body with
      | hail h => exact ⟨x, h, rfl, hb⟩
      | opening | cross | shut | step | tally | reply => rw [hb] at hk; cases hk
    · rintro ⟨y, h, rfl, hb⟩
      rw [hb]
      rfl

end Sys2Proof.Machine

open Sys2Proof Sys2Proof.Machine

/-- Settles O33: an eighth truncated toward zero, and the jump. -/
theorem offsetAndMarkFollowWhatIsHeard : Obligations.OffsetAndMarkFollowWhatIsHeard := by
  refine ⟨fun n => rfl, fun n m => ?_, fun n m => ?_, fun stamp start p => ?_⟩
  · rw [raiseMark_some]
    split
    case isTrue h => exact iff_of_true rfl (.inr ((laterNumber_iff n m).mp h))
    case isFalse h =>
      rw [laterNumber_iff] at h
      constructor
      · exact fun he => .inl (Option.some.inj he).symm
      · exact fun he => congrArg some (he.resolve_right h).symm
  · rw [raiseMark_some]
    split
    · exact .inl rfl
    · exact .inr rfl
  · have hkept : (hear stamp start p).lastHeard = some start ∧ (hear stamp start p).p = p.p ∧ (hear stamp start p).l = p.l
        ∧ (hear stamp start p).patternSum = p.patternSum ∧ (hear stamp start p).stationState = p.stationState := by
      cases ho : p.offset with
      | none =>
        rw [hear_first stamp start ho]
        exact ⟨rfl, rfl, rfl, rfl, rfl⟩
      | some held =>
        by_cases hj : 5000 < (start - stamp - held).toInt.natAbs
        · rw [hear_jump ho hj]
          split <;> exact ⟨rfl, rfl, rfl, rfl, rfl⟩
        · rw [hear_smoothed ho (Nat.not_lt.mp hj)]
          exact ⟨rfl, rfl, rfl, rfl, rfl⟩
    obtain ⟨hheard, hp, hl, hsum, hstate⟩ := hkept
    refine ⟨hheard, hp, hl, hsum, hstate, fun ho => ?_, fun held ho => ⟨fun hj => ?_, fun hj => ?_⟩⟩
    · rw [hear_first stamp start ho]
      exact ⟨rfl, rfl, rfl⟩
    · rw [hear_smoothed ho hj]
      obtain ⟨hle, hlt, hpos, hneg⟩ := tdiv_eight (start - stamp - held).toInt
      exact ⟨rfl, rfl, _, hle, hlt, hpos, hneg, rfl⟩
    · rw [hear_jump ho hj]
      refine ⟨?_, fun ha => ?_, fun ha => ?_⟩
      · split <;> rfl
      · rw [if_pos ha]
        exact ⟨ha, rfl⟩
      · rw [if_neg ha]
        exact ⟨rfl, rfl⟩

/-- Settles O37: the first of the furthest of the live set, and the four changes of the layout condition. -/
theorem exitStationAndLayoutFollowTheEntries : Obligations.ExitStationAndLayoutFollowTheEntries := by
  intro s own entry live at_ e
  obtain ⟨hin, hbest⟩ := chooseExit_best s
  have hlive : ∀ n, live n → n ∈ liveSet s := fun n => (mem_liveSet s n).mpr
  have he : (chooseExit s).ptb.exitStation = e := rfl
  rw [he] at hin hbest
  have hup : s.ses.direction = .up → ∀ n, downstream s.ses.direction s n = at_ n := fun hd n => by
    rw [hd]
    show (positionOf s n : Int) = at_ n
    simp [positionOf, ownNumber, peer, at_, own, entry]
  have hdown : s.ses.direction = .down → ∀ n, downstream s.ses.direction s n = -(at_ n : Int) := fun hd n => by
    rw [hd]
    show -(positionOf s n : Int) = -(at_ n : Int)
    simp [positionOf, ownNumber, peer, at_, own, entry]
  refine ⟨rfl, (mem_liveSet s _).mp hin, fun n hn hd => ?_, fun n hn hd => ?_, ?_⟩
  · obtain ⟨hle, htie⟩ := hbest n (hlive n hn)
    rw [hup hd, hup hd] at hle htie
    exact ⟨by omega, fun h => htie (by rw [h])⟩
  · obtain ⟨hle, htie⟩ := hbest n (hlive n hn)
    rw [hdown hd, hdown hd] at hle htie
    exact ⟨by omega, fun h => htie (by rw [h])⟩
  · intro clash found a
    have hclash : ∀ n, n < 8 ∧ n ≠ ownNumber s ∧ layoutFault s (peer s n) = true ↔ clash n := fun n => by
      rw [layoutFault_iff]
      exact Iff.rfl
    have hfound : layoutFound s = true ↔ found := by
      rw [layoutFound_iff]
      exact and_congr_right fun _ => exists_congr hclash
    have hcnd := assessLayout_cnd s
    refine ⟨by rw [← hfound, ← assessLayout_layout], assessLayout_rest s, fun hf hl => ?_, fun hf hl => ?_, fun hsame => ?_⟩
    · rw [hcnd, if_pos ⟨hfound.mpr hf, hl⟩]
      exact ⟨rfl, rfl⟩
    · have hfalse : layoutFound s = false := by
        rw [Bool.eq_false_iff]
        exact mt hfound.mp hf
      rw [hcnd, if_neg (by rw [hfalse]; exact fun h => nomatch h.1), if_pos ⟨hfalse, hl⟩]
      exact ⟨rfl, rfl⟩
    · have hkeep : layoutFound s = s.ptb.layout := by
        rw [Bool.eq_iff_iff, hfound]
        exact hsame
      rw [hcnd, hkeep]
      cases s.ptb.layout <;> rfl

/-- Settles O32: the entry takes the content, moves once, and is not silent yet. -/
theorem hailMovesItsEntry : Obligations.HailMovesItsEntry := by
  intro t x rest state first s n c p codes qualifies second hwaits hplaces hn hown hquiet hbad hlive hsecond hfirst moved
  have hl : n < s.ptb.peers.length := by omega
  let entry : Peer := { takeHailContent c p with state := state, firstHail := first }
  let told : State := { setPeer n (takeHailContent c p) (afterHead t rest s) with ses := moved.ses }
  have hq : hailQualifies c = true ↔ qualifies := hailQualifies_iff c
  have hs : secondQualifying (takeHailContent c p) x.start = true ↔ second := secondQualifying_iff _ _
  have hmove : hailMove (hailQualifies c) x.start (takeHailContent c p) = entry := by
    refine hailMove_is (fun h => hbad ?_) (fun h => hlive (hq.mp h)) (fun h hj h2 => hsecond (hq.mp h) hj (hs.mp h2))
      (fun h hne h2 => hfirst (hq.mp h) hne fun hj => mt hs.mpr (h2 hj))
    rw [← hq, h]
    decide
  have htold : hailSession c (setPeer n (takeHailContent c p) (afterHead t rest s)) = told := by
    have hworks : (sesWorks (afterHead t rest s) && hailCodesKnown c && c.getD 8 0 != sessionCode .idle) = true ↔
        (s.stc.station = .settling ∨ s.stc.station = .ready) ∧ codes ∧ at1 c 8 ≠ 0 := by
      rw [Bool.and_eq_true, Bool.and_eq_true, bne_iff_ne, hailCodesKnown_iff, Ne, byte_eq_iff, and_assoc]
      unfold sesWorks
      rw [Bool.or_eq_true, beq_iff_eq, beq_iff_eq]
      rfl
    exact hailSession_is (s := setPeer n (takeHailContent c p) (afterHead t rest s)) hworks
  have hpeer : peer told n = takeHailContent c p := place_set_self _ _ _ _ hl
  have hroom : n < told.ptb.peers.length := (List.length_set ..).symm ▸ hl
  have hmoved : setPeer n entry told = moved := by
    have htwice : ∀ z : State, { setPeer n entry (setPeer n (takeHailContent c p) z) with ses := moved.ses } =
      { setPeer n entry z with ses := moved.ses } := fun z => by rw [setPeer_twice]
    exact htwice (afterHead t rest s)
  obtain ⟨hsame, hleaves, henters⟩ := replacePeer_is (t := t) n entry told rfl hown hroom
  rw [hpeer, hmoved] at hsame hleaves henters
  obtain ⟨hpeers, hnow, -⟩ := replacePeer_frame (t := t) (p := entry) (s := told) rfl hown hroom
  have hset : (replacePeer n entry told).ptb.peers = s.ptb.peers.set n entry := by
    rw [hpeers]
    exact List.set_set ..
  obtain ⟨hself, hrest⟩ := peers_after hset hl
  have hrun : exec (.hailDispatch t) s = .next (assessLayout (replacePeer n entry told)) := by
    refine congrArg Host.Outcome.next ((dispatch_eq .hail hailDispatched t s x rest hwaits).trans ?_)
    unfold hailDispatched
    simp only
    rw [show peer (afterHead t rest s) x.frame.node.toNat = p from rfl, htold, hpeer, hmove, hnow]
    have hentry : peer (replacePeer n entry told) n = entry := by
      unfold peer
      rw [hset]
      exact place_set_self _ _ _ _ hl
    have hstays : silence t entry = entry := silence_waits (p := entry) hquiet
    refine congrArg assessLayout ?_
    rw [hentry, hstays, replacePeer_same (by rw [hentry])]
    have hstill := setPeer_self (n := n) (s := replacePeer n entry told) (by rw [hset, List.length_set]; exact hl)
    rw [hentry] at hstill
    exact hstill
  exact ⟨recheckPeer n moved, _, hrun, hsame, hleaves, fun hwas his => ⟨henters hwas his, recheckPeer_is moved n⟩, hself, hrest⟩

/-- Settles O34: a report leaves LIVE only by a jump, and admission touches the line alone. -/
theorem everyGoodFrameIsReported : Obligations.EveryGoodFrameIsReported := by
  intro t start f k s n p moved hreset hstation hsending hgood hn hplaces
  have hforeign : n ≠ ownNumber s := ((goodFrame_iff _ _ _).mp hgood).foreign
  have hl : n < s.ptb.peers.length := by omega
  let q : Peer := hear f.stamp start p
  obtain ⟨hsame, hleaves, henters⟩ := replacePeer_is (t := t) n q { s with now := t } rfl hforeign hl
  obtain ⟨hpeers, -, -⟩ := replacePeer_frame (t := t) (p := q) (s := { s with now := t }) rfl hforeign hl
  let s1 : State := replacePeer n q { s with now := t }
  let a : State := onlyIf (q.state != p.state) assessLayout s1
  obtain ⟨y, d, hadmit⟩ := admitFrame_eq k start f a
  have hrun : exec (.frameReceived t start f) s = .next { a with slc := y, cnd := d } := by
    refine congrArg Host.Outcome.next ((atTime_running _ _ s hreset).trans ?_)
    rw [receiveFrame_good (s := { s with now := t }) hstation hsending hgood, decide_eq_true hn, onlyIf_true]
    exact hadmit
  obtain ⟨ha, hkept⟩ := onlyIf_assessLayout (q.state != p.state) s1
  have hnow : ∀ m, place a.ptb.peers m Peer.reset = place (s.ptb.peers.set n q) m Peer.reset := fun m => by rw [hkept, hpeers]
  refine ⟨s1, _, hrun, fun hstate => ?_, fun hstate => ?_, fun hlive => ?_, hleaves,
    congrArg (fun z : State => { z with slc := y, cnd := d }) ha, (hnow n).trans (place_set_self _ _ _ _ hl),
    fun m hm => (hnow m).trans (place_set_other _ _ _ _ _ hm)⟩
  · have hb : (q.state != p.state) = false := by rw [hstate, bne_self_eq_false]
    have hmoved : s1 = moved := hsame (by rw [hstate]; exact Iff.rfl)
    refine ⟨hmoved, ?_⟩
    show (onlyIf (q.state != p.state) assessLayout s1).ptb = moved.ptb
    rw [hb, onlyIf_false, hmoved]
  · have hb : (q.state != p.state) = true := bne_iff_ne.mpr hstate
    show (onlyIf (q.state != p.state) assessLayout s1).ptb = _
    rw [hb, onlyIf_true]
  · refine hsame (iff_of_false hlive fun hq => ?_)
    rcases hear_state f.stamp start p with h | h
    · exact hlive (h.symm.trans hq)
    · exact absurd (h.symm.trans hq) (by decide)

/-- Settles O35: the expiry acts on a JOINING or LIVE entry of another station. -/
theorem silentPeerLeavesTheLiveSet : Obligations.SilentPeerLeavesTheLiveSet := by
  intro t station s p moved hreset hplaces
  have hl : station.toNat < s.ptb.peers.length := by have := station.isLt; omega
  have hrun : exec (.silenceExpiry t station) s = .next (silenceExpired station.toNat { s with now := t }) :=
    congrArg Host.Outcome.next (atTime_running _ _ s hreset)
  rw [hrun]
  refine ⟨fun h hother hstate hheard hdue => ?_, fun h => congrArg _ ?_⟩
  · have hown : station.toNat ≠ ownNumber s := fun he => hother (BitVec.eq_of_toNat_eq he)
    have hsilent : silence t p = { p with state := .silent, firstHail := none } := silence_due hstate hheard hdue
    obtain ⟨hsame, hleaves, -⟩ := replacePeer_is (t := t) station.toNat { p with state := .silent, firstHail := none }
      { s with now := t } rfl hown hl
    obtain ⟨hpeers, -, -⟩ := replacePeer_frame (t := t) (p := { p with state := .silent, firstHail := none })
      (s := { s with now := t }) rfl hown hl
    obtain ⟨hself, hrest⟩ := peers_after (s := s) hpeers hl
    refine ⟨_, congrArg Host.Outcome.next (silenceExpired_due (s := { s with now := t }) hown hsilent ?_), fun hj => ?_,
      fun hlive => hleaves hlive (fun h => nomatch h), hself, hrest⟩
    · rintro he
      have hstill : PeerState.silent = p.state := congrArg Peer.state he
      rcases hstate with h | h <;> rw [h] at hstill <;> cases hstill
    · have hnot : p.state ≠ .live := by rw [hj]; decide
      exact hsame (iff_of_false hnot fun h => nomatch h)
  · rcases h with hown | hrest
    · refine if_pos ?_
      rw [Bool.or_eq_true, beq_iff_eq]
      exact .inl (congrArg BitVec.toNat hown)
    · have hstill : silence t p = p := by
        rcases hrest with h | h | h | ⟨d, h, hd⟩
        · exact silence_idle t (.inl h)
        · exact silence_idle t (.inr h)
        · exact silence_waits fun d hd => by rw [h] at hd; cases hd
        · exact silence_waits fun d' hd' => by rw [h] at hd'; cases hd'; exact hd
      refine if_pos ?_
      rw [Bool.or_eq_true, beq_iff_eq, beq_iff_eq]
      exact .inr hstill

/-- Settles O36: the timer's hand-over in a line state that takes a HAIL, with and without one being sent. -/
theorem ownHailIsHandedOverEveryPeriod : Obligations.OwnHailIsHandedOverEveryPeriod := by
  intro t d s hreset htimer hail ptb busy
  have hrun : exec (.hailTimer t) s = .next (onlyIf (reached d t)
      (fun s => { handHail s with ptb := { (handHail s).ptb with hailTimer := some (d + 250000) } }) { s with now := t }) := by
    refine congrArg Host.Outcome.next ((atTime_running _ _ s hreset).trans ?_)
    unfold hailTimerDue
    simp only [htimer]
    rfl
  have hbusy : sendingHail s.slc = true ↔ busy := sendingHail_iff s.slc
  have htakes : s.slc.line ≠ .listen → sendsKind s.slc.line .hail = true := by
    intro h
    cases hl : s.slc.line with
    | listen => exact absurd hl h
    | active | muted | configFault => rfl
  rw [hrun]
  refine ⟨fun hno => ?_, fun hyes => ⟨fun hl => ?_, fun hl hb => ?_, fun hl hb => ?_⟩⟩
  · rw [hno, onlyIf_false]
  all_goals rw [hyes, onlyIf_true]; refine congrArg Host.Outcome.next ?_
  · have hrefused : handHail { s with now := t } = { s with now := t } :=
      handOver_refused (s := { s with now := t }) (by show sendsKind s.slc.line _ = false; rw [hl]; rfl)
    rw [hrefused]
  · unfold handHail
    rw [handOver_timing (b := .hail (ownHail { s with now := t })) (s := { s with now := t }) (htakes hl) rfl (Bool.eq_false_iff.mpr (mt hbusy.mp hb))]
    rfl
  · unfold handHail
    rw [handOver_waits (b := .hail (ownHail { s with now := t })) (s := { s with now := t }) (htakes hl) rfl (hbusy.mpr hb)]
    rfl

end

section
/-! The recorder service and the store: storing, SUMMARY, CONDITIONS, CLEAR, refusals (09, 10). -/

namespace Sys2Proof.Machine

open Sys2Proof

/-! ### Taking an ASK (R101, R175) -/

theorem exec_summary_of_waits {s : State} {x : RxFrame} {rest : List RxFrame} (h : AskWaits s x rest 5) (t : Time) :
    exec (.summary t) s = .next (summaryAsk x (afterHead t rest s)) :=
  congrArg Host.Outcome.next (ask_eq h t (· == askSummary) rfl summaryAsk)

theorem exec_conditions_of_waits {s : State} {x : RxFrame} {rest : List RxFrame} (h : AskWaits s x rest 6) (t : Time) :
    exec (.conditions t) s = .next (conditionsAsk x (afterHead t rest s)) :=
  congrArg Host.Outcome.next (ask_eq h t (· == askConditions) rfl conditionsAsk)

theorem exec_clear_of_waits {s : State} {x : RxFrame} {rest : List RxFrame} (h : AskWaits s x rest 7) (t : Time) :
    exec (.clear t) s = .next (clearAsk x (afterHead t rest s)) :=
  congrArg Host.Outcome.next (ask_eq h t (· == askClear) rfl clearAsk)

/-- R175: in LISTEN and MUTED an ASK is only taken. -/
theorem takeAsk_silent {s : State} {x : RxFrame} {rest : List RxFrame} (h : FrameWaits s x rest .ask) (t : Time)
    {p : Byte → Bool} (hp : p (askedKind x) = true) (f : RxFrame → State → State)
    (hl : s.slc.line = .listen ∨ s.slc.line = .muted) : atTime t (takeAsk p f) s = afterHead t rest s := by
  obtain ⟨hreset, hqueue, hkind⟩ := h
  have hacts : serviceActs { s with now := t } = false := by
    unfold serviceActs drivesSlots
    rcases hl with hl | hl <;> simp only [hl] <;> rfl
  rw [atTime_running _ _ s hreset]
  unfold takeAsk serviceAccepts
  simp only [hqueue, hkind, hp, hacts, beq_self_eq_true, Bool.and_self, Bool.not_false, Bool.or_true, if_true, onlyIf_false]
  exact afterHead_eq t s x rest hqueue

/-- R101: an ASK waits while the SERVICE queue is full. -/
theorem takeAsk_full {s : State} {x : RxFrame} {rest : List RxFrame} (h : FrameWaits s x rest .ask) (t : Time)
    (p : Byte → Bool) (f : RxFrame → State → State) (hl : s.slc.line = .active ∨ s.slc.line = .configFault)
    (hfull : 4 ≤ s.slc.service.length) : atTime t (takeAsk p f) s = { s with now := t } := by
  obtain ⟨hreset, hqueue, hkind⟩ := h
  have hacts : serviceActs { s with now := t } = true := by
    unfold serviceActs drivesSlots
    rcases hl with hl | hl <;> simp only [hl] <;> rfl
  have haccepts : serviceAccepts { s with now := t } = false := by
    unfold serviceAccepts
    rw [hacts, Bool.not_true, Bool.or_false]
    exact decide_eq_false (Nat.not_lt.mpr hfull)
  rw [atTime_running _ _ s hreset]
  unfold takeAsk
  simp only [hqueue, haccepts, Bool.and_false, Bool.false_eq_true, if_false]

theorem takeAsk_unlessFault_refused {s : State} {x : RxFrame} {rest : List RxFrame} {k : Byte} (h : AskWaits s x rest k)
    (hf : s.stc.station = .configFault) (t : Time) {p : Byte → Bool} (hp : p k = true) (f : RxFrame → State → State) :
    atTime t (takeAsk p fun x => unlessFault x (f x)) s = withReply x.frame.node .refused k .none (afterHead t rest s) := by
  rw [ask_eq h t p hp]
  exact (if_pos (beq_iff_eq.mpr hf)).trans (answer_eq h (afterHead t rest s) rfl rfl _ _)

/-! ### The current summary (R182) -/

theorem currentSummary_awake {s : State} (h : s.ses.state ≠ .halted) : currentSummary s =
    s.ses.current.map fun m => { m with ownAxles := s.atr.counter, mismatch := false } := by
  unfold currentSummary
  simp only [beq_eq_false_iff_ne.mpr h, Bool.false_eq_true, if_false]

theorem currentSummary_halted {s : State} {tick : Time} (h : s.ses.state = .halted) (ht : s.ses.nextHaltTick = some tick)
    (hr : reached (tick - 1000) s.now = true) : currentSummary s =
      s.ses.current.map fun m => { m with
        ownAxles := s.atr.counter, mismatch := false,
        haltedMs := min 4294967295 (m.haltedMs + elapsed (tick - 1000) s.now / 1000) } := by
  have hms : uncountedMs s = elapsed (tick - 1000) s.now / 1000 := by
    unfold uncountedMs
    rw [ht]
    exact if_pos hr
  unfold currentSummary
  rw [h, hms]
  rfl

theorem summaryAsk_current {s : State} {x : RxFrame} {m : Summary} (h : at1 x.frame.payload 1 = 0) (hs : s.ses.state ≠ .idle)
    (hm : currentSummary s = some m) : summaryAsk x s = answer x .ok (.summary false m) s := by
  have hopen : sessionOpen s = true := bne_iff_ne.mpr hs
  unfold summaryAsk
  simp only [h, hopen, hm, beq_self_eq_true, if_true]

theorem summaryAsk_idle {s : State} {x : RxFrame} (h : at1 x.frame.payload 1 = 0) (hs : s.ses.state = .idle) :
    summaryAsk x s = answer x .empty .none s := by
  have hclosed : sessionOpen s = false := bne_eq_false_iff_eq.mpr hs
  unfold summaryAsk
  simp only [h, hclosed, beq_self_eq_true, if_true, Bool.false_eq_true, if_false]

theorem summaryAsk_last {s : State} {x : RxFrame} {m : Summary} (h : at1 x.frame.payload 1 = 1) (hm : s.ses.last = some m) :
    summaryAsk x s = answer x .ok (.summary true m) s := by
  unfold summaryAsk
  simp only [h, hm, beq_self_eq_true, if_true, one_ne_zero, beq_iff_eq, if_false]

theorem summaryAsk_no_last {s : State} {x : RxFrame} (h : at1 x.frame.payload 1 = 1) (hm : s.ses.last = none) :
    summaryAsk x s = answer x .empty .none s := by
  unfold summaryAsk
  simp only [h, hm, beq_self_eq_true, if_true, one_ne_zero, beq_iff_eq, if_false]

theorem summaryAsk_range {s : State} {x : RxFrame} (h : 1 < at1 x.frame.payload 1) :
    summaryAsk x s = answer x .range .none s := by
  have h0 : (at1 x.frame.payload 1 == 0) = false := by rw [beq_eq_false_iff_ne]; omega
  have h1 : (at1 x.frame.payload 1 == 1) = false := by rw [beq_eq_false_iff_ne]; omega
  unfold summaryAsk
  simp only [h0, h1, Bool.false_eq_true, if_false]

/-! ### CLEAR and the top cause (R185, R186, R188) -/

theorem clearCauses_bit (mask : Nat) (c : Cnd) {i : Nat} (hi : i < 9) :
    ((c.latched &&& ~~~ (BitVec.ofNat 9 mask)) ||| (c.latched &&& (BitVec.ofNat 9 mask) &&& c.present)).getLsbD i =
      (c.latched.getLsbD i && (!mask.testBit i || c.present.getLsbD i)) := by
  rw [BitVec.getLsbD_or, BitVec.getLsbD_and, BitVec.getLsbD_and, BitVec.getLsbD_and, BitVec.getLsbD_not, BitVec.getLsbD_ofNat]
  simp only [hi, decide_true, Bool.true_and]
  cases c.latched.getLsbD i <;> cases mask.testBit i <;> cases c.present.getLsbD i <;> rfl

theorem allCauses_getElem : ∀ (i : Nat) (h : i < allCauses.length), priority allCauses[i] - 1 = i := by decide

theorem allCauses_place : ∀ c : Cause, ∃ h : priority c - 1 < allCauses.length, allCauses[priority c - 1] = c := by
  intro c
  cases c <;> exact ⟨by decide, rfl⟩

theorem topCause_none_iff (s : State) : topCause s = none ↔ s.cnd.latched = 0 := by
  unfold topCause
  rw [List.find?_eq_none]
  constructor
  · intro h
    refine BitVec.eq_of_getLsbD_eq fun i hi => ?_
    have hplace : i < allCauses.length := hi
    have hbit := h allCauses[i] (List.getElem_mem hplace)
    rw [hasCause, allCauses_getElem i hplace, Bool.not_eq_true] at hbit
    rw [hbit, BitVec.ofNat_eq_ofNat, BitVec.getLsbD_zero]
  · intro h c _
    rw [h, hasCause, BitVec.ofNat_eq_ofNat, BitVec.getLsbD_zero]
    decide

theorem topCause_some_iff (s : State) (c : Cause) : topCause s = some c ↔
    s.cnd.latched.getLsbD (priority c - 1) = true ∧ ∀ i : Nat, i < priority c - 1 → s.cnd.latched.getLsbD i = false := by
  obtain ⟨hplace, hself⟩ := allCauses_place c
  unfold topCause
  rw [List.find?_eq_some_iff_getElem]
  refine and_congr_right fun _ => ⟨?_, fun h => ⟨priority c - 1, hplace, hself, fun j hj => ?_⟩⟩
  · rintro ⟨i, hi, hc, hbefore⟩ j hj
    have hij : priority c - 1 = i := by rw [← hc, allCauses_getElem]
    have hbit := hbefore j (by omega)
    rw [Bool.not_eq_true', hasCause, allCauses_getElem] at hbit
    exact hbit
  · rw [Bool.not_eq_true', hasCause, allCauses_getElem]
    exact h j hj

/-! ### Storing a record (R168 to R170, R181) -/

/-- R169: whether the read pointer is on the record that a full ring loses. -/
def losesUnread (s : State) : Bool :=
  decide (128 ≤ s.rst.ring.length) && (s.rst.ring.head?.any fun o => o.index == s.rst.readPointer)

theorem overwriteOldest_is (s : State) : overwriteOldest s = { s with
    rst := { s.rst with
      ring := s.rst.ring.drop (if 128 ≤ s.rst.ring.length then 1 else 0),
      readPointer := if losesUnread s = true then (s.rst.ring[1]?.map (·.index)).getD s.rst.nextIndex else s.rst.readPointer },
    cnd := if losesUnread s = true then (latch .overrun s).cnd else s.cnd } := by
  cases hring : s.rst.ring with
  | nil =>
    have hkept : s = { s with rst := { s.rst with ring := [] } } :=
      congrArg (fun q => { s with rst := { s.rst with ring := q } }) hring
    unfold overwriteOldest losesUnread
    rw [hring]
    exact hkept
  | cons oldest rest =>
    unfold overwriteOldest losesUnread
    rw [hring]
    by_cases hfull : 128 ≤ (oldest :: rest).length
    · have hnot : ¬ (oldest :: rest).length < 128 := Nat.not_lt.mpr hfull
      by_cases hunread : oldest.index = s.rst.readPointer
      · have hloses : (decide (128 ≤ (oldest :: rest).length)
            && (oldest :: rest).head?.any fun o => o.index == s.rst.readPointer) = true := by
          rw [decide_eq_true hfull, Bool.true_and]
          exact beq_iff_eq.mpr hunread
        refine (if_neg hnot).trans ((if_pos (beq_iff_eq.mpr hunread.symm)).trans ?_)
        rw [hloses, if_pos hfull]
        cases rest <;> rfl
      · have hkeeps : (decide (128 ≤ (oldest :: rest).length)
            && (oldest :: rest).head?.any fun o => o.index == s.rst.readPointer) = false := by
          rw [decide_eq_true hfull, Bool.true_and]
          exact beq_eq_false_iff_ne.mpr hunread
        refine (if_neg hnot).trans ((if_neg (by rw [beq_iff_eq]; exact fun h => hunread h.symm)).trans ?_)
        rw [hkeeps, if_pos hfull]
        rfl
    · have hkept : s = { s with rst := { s.rst with ring := oldest :: rest } } :=
        congrArg (fun q => { s with rst := { s.rst with ring := q } }) hring
      refine (if_pos (Nat.not_le.mp hfull)).trans ?_
      rw [decide_eq_false hfull, if_neg hfull]
      exact hkept

theorem sendTally_is {r : WagonRecord} {s : State} (hl : s.slc.line = .active) (hb : s.slc.bulk.length < 32) :
    sendTally r s = { s with slc := { s.slc with
      sequence := s.slc.sequence + (if (s.ptb.exitStation == s.stc.number.toNat) = true then 1 else 0),
      bulk := s.slc.bulk ++ (if (s.ptb.exitStation == s.stc.number.toNat) = true then
        [newFrame (.tally r) broadcast s.slc.sequence] else []) } } := by
  unfold sendTally
  cases hsends : s.ptb.exitStation == s.stc.number.toNat with
  | true =>
    rw [show (s.ptb.exitStation == ownNumber s) = true from hsends, onlyIf_true, handOver_bulk (by rw [hl]; rfl) rfl hb]
    rfl
  | false =>
    rw [show (s.ptb.exitStation == ownNumber s) = false from hsends, onlyIf_false]
    simp

/-- R181: the deferred request is for the record. -/
def asksFor (r : WagonRecord) (d : Deferred) : Bool := d.session == r.session && d.wagon == r.wagon

theorem answerDeferred_is {r : WagonRecord} {s : State} (hl : s.slc.line = .active) (hroom : s.slc.service.length < 4) :
    answerDeferred r s = { s with
      rst := { s.rst with deferred := if s.rst.deferred.any (asksFor r) = true then none else s.rst.deferred },
      slc := { s.slc with
        sequence := s.slc.sequence + (if s.rst.deferred.any (asksFor r) = true then 1 else 0),
        service := s.slc.service ++ (if s.rst.deferred.any (asksFor r) = true then
          [newFrame (.reply .ok 3 (.record r)) ((s.rst.deferred.map (·.node)).getD 0) s.slc.sequence] else []) } } := by
  cases hd : s.rst.deferred with
  | none =>
    have hkept : s = { s with rst := { s.rst with deferred := none } } :=
      congrArg (fun q => { s with rst := { s.rst with deferred := q } }) hd
    unfold answerDeferred
    simp only [hd, Option.any_none, Bool.false_eq_true, if_false, BitVec.ofNat_eq_ofNat, BitVec.add_zero, List.append_nil]
    exact hkept
  | some d =>
    unfold answerDeferred
    rw [hd]
    cases hasked : asksFor r d with
    | true =>
      simp only [Option.any_some, hasked, if_true]
      exact (if_pos hasked).trans
        (reply_with (s := { s with rst := { s.rst with deferred := none } }) (.inl hl) hroom d.node .ok 3 (.record r))
    | false =>
      simp only [Option.any_some, hasked, Bool.false_eq_true, if_false]
      have hkept : s = { s with rst := { s.rst with deferred := some d } } :=
        congrArg (fun q => { s with rst := { s.rst with deferred := q } }) hd
      refine (if_neg (by rw [show (d.session == r.session && d.wagon == r.wagon) = false from hasked]; decide)).trans ?_
      simp only [BitVec.ofNat_eq_ofNat, BitVec.add_zero, List.append_nil]
      exact hkept

end Sys2Proof.Machine

open Sys2Proof Sys2Proof.Machine

/-- Settles O51: the ring, the summary, the TALLY and the deferred answer, one after the other. -/
theorem storedRecordJoinsTheRing : Obligations.StoredRecordJoinsTheRing := by
  intro r s full overrun sends asked tally seq answers hl hb hroom
  have hpointer : (if overrun = true then (s.rst.ring[1]?.map (·.index)).getD (s.rst.nextIndex + 1) else s.rst.readPointer)
      = if overrun = true then (s.rst.ring[1]?.map (·.index)).getD 0 else s.rst.readPointer := by
    split
    case isFalse => rfl
    case isTrue h =>
      have hlong : 128 ≤ s.rst.ring.length := of_decide_eq_true (Bool.and_eq_true_iff.mp h).1
      rw [List.getElem?_eq_getElem (by omega)]
      rfl
  have hjoined : joinRing r { s with was := { s.was with wagons := r.wagon } } = { s with
      was := { s.was with wagons := r.wagon },
      rst := { s.rst with
        ring := s.rst.ring.drop (if full then 1 else 0) ++ [r], nextIndex := s.rst.nextIndex + 1,
        readPointer := if overrun then (s.rst.ring[1]?.map (·.index)).getD 0 else s.rst.readPointer },
      cnd := if overrun then (latch .overrun s).cnd else s.cnd } := by
    rw [← hpointer]
    unfold joinRing
    rw [overwriteOldest_is]
    have hdrop : (if full = true then 1 else 0) = if 128 ≤ s.rst.ring.length then 1 else 0 := by
      simp only [full, decide_eq_true_eq]
    rw [hdrop]
    rfl
  show answerDeferred r (sendTally r (countWagon (joinRing r { s with was := { s.was with wagons := r.wagon } }))) = _
  rw [hjoined, sendTally_is (by exact hl) (by exact hb), answerDeferred_is (by exact hl) (by exact hroom)]
  rfl

/-- Settles O54: which summary the ASK names, and whether there is one. -/
theorem summaryAndConditionsAreReported : Obligations.SummaryAndConditionsAreReported := by
  intro t x rest k s node which s₀ hwaits
  have hanswer : ∀ st c, answer x st c s₀ = withReply node st k c s₀ := answer_eq hwaits s₀ rfl rfl
  refine ⟨fun m hk h0 hs hm => ⟨fun hawake => ?_, fun tick hhalted htick hreached => ?_⟩, fun hk h0 hs => ?_, fun m hk h1 hm => ?_,
    fun hk h1 hm => ?_, fun hk hwhich => ?_, fun hk => ?_⟩
  all_goals subst hk
  · have hsummary := currentSummary_awake (s := s₀) hawake
    rw [show s₀.ses.current = some m from hm] at hsummary
    rw [exec_summary_of_waits hwaits, summaryAsk_current (s := s₀) h0 hs hsummary, hanswer]
    rfl
  · have hsummary := currentSummary_halted (s := s₀) hhalted htick hreached
    rw [show s₀.ses.current = some m from hm] at hsummary
    rw [exec_summary_of_waits hwaits, summaryAsk_current (s := s₀) h0 hs hsummary, hanswer]
    rfl
  · rw [exec_summary_of_waits hwaits, summaryAsk_idle (s := s₀) h0 hs, hanswer]
  · rw [exec_summary_of_waits hwaits, summaryAsk_last (s := s₀) h1 hm, hanswer]
  · rw [exec_summary_of_waits hwaits, summaryAsk_no_last (s := s₀) h1 hm, hanswer]
  · rw [exec_summary_of_waits hwaits, summaryAsk_range (s := s₀) hwhich, hanswer]
  · rw [exec_conditions_of_waits hwaits, conditionsAsk, hanswer]
    rfl

/-- Settles O55: the masks bit by bit; the list of causes is in order of priority. -/
theorem clearKeepsPresentCauses : Obligations.ClearKeepsPresentCauses := by
  refine ⟨fun t x rest s hwaits => ⟨_, fun i hi => clearCauses_bit _ s.cnd hi, ?_⟩, topCause_none_iff, topCause_some_iff⟩
  rw [exec_clear_of_waits hwaits]
  exact congrArg Host.Outcome.next (answer_eq hwaits (clearCauses _ (afterHead t rest s)) rfl rfl _ _)

/-- Settles O56: what is refused, what waits, and what is taken without effect. -/
theorem otherAsksAreRefusedOrWait : Obligations.OtherAsksAreRefusedOrWait := by
  intro t x rest s k s₀ takes takesAny
  have hunknown : ¬ (1 ≤ k.toNat ∧ k.toNat ≤ 8) → (!askKnown k) = true := by
    intro h
    simp [askKnown, inRange] at h ⊢
    omega
  refine ⟨fun hwaits => ⟨fun h => ?_, ?_⟩, fun i hwaits htakes => ?_, fun kind hkind hwaits => ?_⟩
  · refine congrArg Host.Outcome.next ((ask_eq hwaits t _ (hunknown h) unknownAsk).trans ?_)
    exact answer_eq hwaits s₀ rfl rfl _ _
  · intro i htakes hfault
    obtain ⟨kind, f, hrun, hk⟩ : ∃ (kind : Byte) (f : RxFrame → State → State),
        exec i s = .next (atTime t (takeAsk (· == kind) fun x => unlessFault x (f x)) s) ∧ k = kind := by
      rcases htakes with ⟨rfl, hk⟩ | ⟨rfl, hk⟩ | ⟨rfl, hk⟩ | ⟨rfl, hk⟩
      · exact ⟨_, fetchNextAsk, rfl, hk⟩
      · exact ⟨_, fetchAsk, rfl, hk⟩
      · exact ⟨_, fetchWagonAsk, rfl, hk⟩
      · exact ⟨_, seekAsk, rfl, hk⟩
    rw [hrun, takeAsk_unlessFault_refused hwaits hfault t (p := (· == kind)) (beq_iff_eq.mpr hk) f]
  · obtain ⟨p, f, hrun, hp⟩ : ∃ p f, exec i s = .next (atTime t (takeAsk p f) s) ∧ p k = true := by
      rcases htakes with (⟨rfl, hk⟩ | ⟨rfl, hk⟩ | ⟨rfl, hk⟩ | ⟨rfl, hk⟩) | ⟨rfl, hk⟩ | ⟨rfl, hk⟩ | ⟨rfl, hk⟩ | ⟨rfl, hk⟩
      · exact ⟨(· == askFetchNext), _, rfl, beq_iff_eq.mpr hk⟩
      · exact ⟨(· == askFetch), _, rfl, beq_iff_eq.mpr hk⟩
      · exact ⟨(· == askFetchWagon), _, rfl, beq_iff_eq.mpr hk⟩
      · exact ⟨(· == askSeek), _, rfl, beq_iff_eq.mpr hk⟩
      · exact ⟨(· == askSummary), _, rfl, beq_iff_eq.mpr hk⟩
      · exact ⟨(· == askConditions), _, rfl, beq_iff_eq.mpr hk⟩
      · exact ⟨(· == askClear), _, rfl, beq_iff_eq.mpr hk⟩
      · exact ⟨fun k => !askKnown k, _, rfl, hunknown hk⟩
    rw [hrun]
    exact ⟨fun hl => congrArg _ (takeAsk_silent hwaits t hp f hl), fun hl hfull => congrArg _ (takeAsk_full hwaits t p f hl hfull)⟩
  · obtain ⟨hreset, hqueue, hrx⟩ := hwaits
    refine congrArg Host.Outcome.next ((atTime_running _ _ s hreset).trans ?_)
    unfold discardHead
    simp only [hqueue, hrx]
    rw [if_pos (by rcases hkind with rfl | rfl <;> rfl)]
    exact afterHead_eq t s x rest hqueue

end

section
/-! The session's timers and heard SHUTs: halt expiry, halted milliseconds, close expiry, and the close (07). -/

namespace Sys2Proof.Machine

open Sys2Proof

/-! ### HALTED (R128) -/

theorem haltDue_enters {s : State} {d : Time} (hrun : s.ses.state = .running) (ht : s.ses.haltExpiry = some d)
    (hdue : reached d s.now = true) : haltDue s = enterHalted s := by
  unfold haltDue
  rw [hrun, ht, timerDue_some hdue]
  rfl

theorem haltDue_early {s : State} (h : s.ses.state ≠ .running ∨ timerDue s.ses.haltExpiry s.now = false) : haltDue s = s := by
  unfold haltDue
  rcases h with h | h
  · rw [beq_eq_false_iff_ne.mpr h]; rfl
  · rw [h, Bool.and_false]; rfl

theorem haltTick_counts {s : State} {d : Time} (hhalted : s.ses.state = .halted) (ht : s.ses.nextHaltTick = some d)
    (hdue : reached d s.now = true) :
    haltTick s = { s with ses := { s.ses with
      nextHaltTick := some (d + 1000), current := s.ses.current.map (addHalted 1) } } := by
  unfold haltTick
  rw [ht]
  exact if_pos (by rw [hhalted, hdue]; rfl)

theorem haltTick_early {s : State} (h : s.ses.state ≠ .halted ∨ timerDue s.ses.nextHaltTick s.now = false) :
    haltTick s = s := by
  unfold haltTick
  split
  · rfl
  · next d ht =>
    rw [if_neg]
    rcases h with h | h
    · simp [h]
    · rw [ht] at h
      simp only [timerDue] at h
      simp [h]

/-! ### The close expiry (R129) -/

theorem closeDue_early {s : State} (h : timerDue s.ses.closeExpiry s.now = false) : closeDue s = s := by
  unfold closeDue
  rw [h, Bool.and_false]
  rfl

theorem timersRun_iff (s : State) : timersRun s = true ↔ s.ses.state = .running ∨ s.ses.state = .halted := by
  unfold timersRun
  rw [Bool.or_eq_true, beq_iff_eq, beq_iff_eq]

theorem closeDue_expires {s : State} {d : Time} (hopen : s.ses.state = .running ∨ s.ses.state = .halted)
    (ht : s.ses.closeExpiry = some d) (hdue : reached d s.now = true) : closeDue s = closeExpired s := by
  unfold closeDue
  rw [(timersRun_iff s).mpr hopen, ht, timerDue_some hdue]
  rfl

theorem closeExpired_pends {s : State} (hlist : s.atr.list ≠ []) :
    closeExpired s = peerTest { s with ses := { s.ses with closeExpiry := none, closePending := true } } := by
  unfold closeExpired
  simp only [List.isEmpty_eq_false_iff.mpr hlist, Bool.false_eq_true, if_false]

theorem closeExpired_drains {s : State} (hlist : s.atr.list = []) :
    closeExpired s = enterDraining { s with ses := { s.ses with closeExpiry := none } } := by
  unfold closeExpired
  simp only [hlist, List.isEmpty_nil, if_true]

/-! ### Begin and close of a session without pending records -/

/-- R56: with every record done nothing is completed at a fresh start. -/
theorem freshStart_done {s : State} (ended : Word16) (h : ∀ r ∈ s.atr.records, r.done = true) :
    freshStart ended s = { s with atr := Atr.reset } := by
  have hfold : ∀ (rs : List OwnRecord) (u : State), (∀ r ∈ rs, r.done = true) → rs.foldl (completeRecord ended) u = u := by
    intro rs
    induction rs with
    | nil => exact fun _ _ => rfl
    | cons r rs ih =>
      intro u hr
      have hnow : completeRecord ended u r = u := if_pos (hr r List.mem_cons_self)
      rw [List.foldl_cons, hnow]
      exact ih u fun r' h' => hr r' (List.mem_cons_of_mem _ h')
  unfold freshStart
  rw [hfold _ _ h]

theorem refuseDeferred_none {s : State} (h : s.rst.deferred = none) : refuseDeferred s = s := by
  unfold refuseDeferred
  rw [h]

/-- R132: the close of a session whose records are done, with room for its SHUT and no request deferred. -/
theorem closeSession_done {s : State} (hdone : ∀ r ∈ s.atr.records, r.done = true) (hdeferred : s.rst.deferred = none)
    (hline : s.slc.line = .active) (hroom : s.slc.urgent.length < 8) :
    closeSession s = { s with
      atr := Atr.reset, was := Was.reset, ses := (fileSummary s).ses,
      whu := { endA := { s.whu.endA with lastSpeed := none }, endB := { s.whu.endB with lastSpeed := none } },
      slc := { s.slc with
        sequence := s.slc.sequence + 1,
        urgent := s.slc.urgent ++
          [newFrame (.shut s.ses.number s.atr.counter ((s.ses.current.map (·.wagons)).getD 0)) broadcast s.slc.sequence] } } := by
  have hshut : handShut s = { s with slc := { s.slc with
      sequence := s.slc.sequence + 1,
      urgent := s.slc.urgent ++
        [newFrame (.shut s.ses.number s.atr.counter ((s.ses.current.map (·.wagons)).getD 0)) broadcast s.slc.sequence] } } :=
    handOver_urgent (by rw [hline]; rfl) rfl hroom
  unfold closeSession
  simp only [hshut]
  rw [refuseDeferred_none (by exact hdeferred), freshStart_done _ (by exact hdone)]
  rfl

/-- R122, R123, R136: a session begins where every record is done. -/
theorem beginSession_done {s : State} (hdone : ∀ r ∈ s.atr.records, r.done = true) (n d b o x y z) :
    beginSession n d b o x y z s = { s with
      ses := (beginFields n d b o x y z s).ses,
      lfe := (abandonBlock s).lfe,
      atr := Atr.reset,
      ptb := (chooseExit { s with ses := { s.ses with direction := d } }).ptb,
      fus := { s.fus with current := some n, superseded := none } } := by
  obtain ⟨l, hblock⟩ : ∃ l, abandonBlock (beginFields n d b o x y z s) = { beginFields n d b o x y z s with lfe := l } ∧
      (abandonBlock s).lfe = l := by
    unfold abandonBlock
    by_cases hready : s.stc.station = .ready
    · exact ⟨{ s.lfe with block := [] }, by simp [beginFields, hready], by simp [hready]⟩
    · exact ⟨s.lfe, by simp [beginFields, hready], by simp [hready]⟩
  obtain ⟨hfields, hlfe⟩ := hblock
  unfold beginSession
  simp only [hfields, hlfe]
  rw [freshStart_done _ (by exact hdone)]
  rfl

/-! ### A heard SHUT (R129, R135) -/

theorem sesWorks_of {s : State} (h : s.stc.station = .settling ∨ s.stc.station = .ready) : sesWorks s = true := by
  unfold sesWorks
  rcases h with h | h <;> rw [h] <;> rfl

theorem shutDispatched_works {s : State} (h : s.stc.station = .settling ∨ s.stc.station = .ready) (x : RxFrame) :
    shutDispatched x s = takeShut x.frame.node.toNat
      { number := wordAt x.frame.payload 0, axles := at2 x.frame.payload 2, wagons := at2 x.frame.payload 4 }
      (meetNumber (wordAt x.frame.payload 0) s) :=
  if_pos (sesWorks_of h)

section
variable {s : State} {n : Nat} {c : ShutCounts}

theorem takeShut_current (h : s.ses.state ≠ .idle ∧ ∃ m, s.ses.current = some m ∧ m.number = c.number) :
    takeShut n c s = peerTest (onCurrent (recordShut n c) s) := by
  obtain ⟨hopen, m, hm, hnumber⟩ := h
  refine if_pos ?_
  rw [hm, Option.map_some, hnumber, beq_self_eq_true, Bool.and_true]
  exact bne_iff_ne.mpr hopen

theorem takeShut_elsewhere (h : ¬ (s.ses.state ≠ .idle ∧ ∃ m, s.ses.current = some m ∧ m.number = c.number)) :
    takeShut n c s = if (s.ses.last.map (·.number)) == some c.number then
      { s with ses := { s.ses with last := s.ses.last.map (recordLateShut n c) } } else s := by
  refine if_neg fun hcurrent => h ?_
  obtain ⟨hopen, hnumber⟩ := (Bool.and_eq_true _ _).mp hcurrent
  obtain ⟨m, hm, hmn⟩ := Option.map_eq_some_iff.mp (beq_iff_eq.mp hnumber)
  exact ⟨bne_iff_ne.mp hopen, m, hm, hmn⟩

theorem takeShut_last (h : ¬ (s.ses.state ≠ .idle ∧ ∃ m, s.ses.current = some m ∧ m.number = c.number)) {m : Summary}
    (hm : s.ses.last = some m) (hnumber : m.number = c.number) :
    takeShut n c s = { s with ses := { s.ses with last := some (recordLateShut n c m) } } := by
  rw [takeShut_elsewhere h, hm]
  exact if_pos (by rw [Option.map_some, hnumber, beq_self_eq_true])

theorem takeShut_unknown (h : ¬ (s.ses.state ≠ .idle ∧ ∃ m, s.ses.current = some m ∧ m.number = c.number))
    (hlast : ∀ m, s.ses.last = some m → m.number ≠ c.number) : takeShut n c s = s := by
  rw [takeShut_elsewhere h]
  refine if_neg fun hnumber => ?_
  obtain ⟨m, hm, hmn⟩ := Option.map_eq_some_iff.mp (beq_iff_eq.mp hnumber)
  exact hlast m hm hmn

end

/-! ### The close expiry that closes the session (R130, R132) -/

/-- R163: nothing is known at the cursor of a pass, so it only ends room force. -/
theorem pass_beyond {s : State} (hgroup : s.was.group = none) (h : s.was.highest < s.was.cursor) :
    pass s = { s with was := { s.was with roomForce := false } } := by
  have hreach : cursorReachable s = false := by
    rw [Bool.eq_false_iff]
    exact fun hc => Nat.not_le.mpr h ((cursorReachable_iff s).mp hc).1
  unfold pass passLimit
  rw [passLoop.eq_def]
  simp only [hgroup, hreach, Bool.false_eq_true, if_false, endPass]

/-- R130: in DRAINING with nothing left to fuse or assemble the tests close the session. -/
theorem drainTests_closes {s : State} (hstate : s.ses.state = .draining) (htable : s.fus.table = [])
    (hgroup : s.was.group = none) (hcursor : s.was.highest < s.was.cursor) (hheld : s.ses.held = none)
    (hmatching : s.ses.closedForMatching = false) :
    drainTests s = closeSession { s with
      was := { s.was with roomForce := false }, ses := { s.ses with closedForMatching := true } } := by
  have hfinal : allFinal s = true := by unfold allFinal; rw [htable]; rfl
  have hclose : closeMatching s = { s with
      was := { s.was with roomForce := false }, ses := { s.ses with closedForMatching := true } } :=
    pass_beyond hgroup hcursor
  have hadopt : ∀ u : State, u.ses.held = none → adoptHeld (closeSession u) = closeSession u := by
    intro u hu
    obtain ⟨a, b, w, e⟩ := closeSession_eq u
    have hnone : (closeSession u).ses.held = none := by rw [e]; exact hu
    unfold adoptHeld
    rw [hnone]
  unfold drainTests
  simp only [hstate, hmatching, hfinal, hclose, htable, beq_self_eq_true, Bool.not_false, Bool.and_self, List.isEmpty_nil,
    if_true]
  exact hadopt _ hheld

/-- R129, R130: entering DRAINING with nothing left to fuse or assemble closes the session. -/
theorem enterDraining_closes {t : Time} {ms : Nat} {s : State} (hnow : s.now = t) (hleaves : LeavesAt t s ms)
    (htable : s.fus.table = []) (hgroup : s.was.group = none) (hcursor : s.was.highest < s.was.cursor)
    (hheld : s.ses.held = none) (hmatching : s.ses.closedForMatching = false) :
    enterDraining s = closeSession { s with
      was := { s.was with roomForce := false },
      ses := { s.ses with
        state := .draining, drainLimit := some (addUs s.now 30000001), haltExpiry := none, closeExpiry := none,
        closePending := false, closedForMatching := true,
        nextHaltTick := if s.ses.state = .halted then none else s.ses.nextHaltTick,
        current := s.ses.current.map (withStay s ms) } } := by
  have htest : ∀ u : State, u.fus.table = [] → testAll u = u := by
    intro u hu
    unfold testAll openOrdinals
    rw [hu]
    rfl
  have hdeadlines : ∀ u : State, u.fus.table = [] → drainDeadlines u = u := by
    intro u hu
    unfold drainDeadlines
    rw [hu, List.map_nil, ← hu]
  unfold enterDraining
  rw [leave_eq s hnow hleaves]
  dsimp only
  rw [htest _ (by exact htable)]
  simp only [beq_self_eq_true, onlyIf_true]
  rw [hdeadlines _ (by exact htable),
    drainTests_closes (by rfl) (by exact htable) (by exact hgroup) (by exact hcursor) (by exact hheld) (by exact hmatching)]

/-- The summary as it is closed (R132). -/
theorem closeSummary_eq (n : Nat) (m : Summary) :
    closeSummary n m = { m with
      ownAxles := n,
      mismatch := m.mismatch || m.shuts.any fun x =>
        (x.map fun c => c.axles != n || c.wagons != m.wagons).getD false } := by
  have hdiffers : shutDiffers { m with ownAxles := n } = fun x =>
      (x.map fun c => c.axles != n || c.wagons != m.wagons).getD false := by
    funext x
    cases x <;> rfl
  unfold closeSummary
  simp only [hdiffers]

end Sys2Proof.Machine
end

open Sys2Proof Sys2Proof.Machine

/-- Settles O42: both timers act exactly when they are due in their state. -/
theorem haltedTimeIsCounted : Obligations.HaltedTimeIsCounted := by
  intro t s hreset
  refine ⟨fun d hrun ht hdue => ?_, fun hearly => ?_, fun d hhalted ht hdue => ?_, fun hearly => ?_⟩
  all_goals refine congrArg Host.Outcome.next ((atTime_running _ _ s hreset).trans ?_)
  · exact haltDue_enters (s := { s with now := t }) hrun ht hdue
  · refine haltDue_early (s := { s with now := t }) ?_
    rcases hearly with h | h | ⟨d, hd, hr⟩
    · exact .inl h
    · exact .inr (timerDue_not fun d hd => nomatch h.symm.trans hd)
    · exact .inr (timerDue_not fun d' hd' => Option.some.inj (hd.symm.trans hd') ▸ hr)
  · exact haltTick_counts (s := { s with now := t }) hhalted ht hdue
  · refine haltTick_early (s := { s with now := t }) ?_
    rcases hearly with h | h | ⟨d, hd, hr⟩
    · exact .inl h
    · exact .inr (timerDue_not fun d hd => nomatch h.symm.trans hd)
    · exact .inr (timerDue_not fun d' hd' => Option.some.inj (hd.symm.trans hd') ▸ hr)

/-- Settles O41: a SHUT goes to the summary of its number; in the current one the peer test follows. -/
theorem shutIsRecordedInItsSummary : Obligations.ShutIsRecordedInItsSummary := by
  intro t x rest s n c number counts marked recorded inCurrent hwaits hstation
  have htake : exec (.shutDispatch t) s
      = .next (takeShut n counts (meetNumber number (afterHead t rest s))) :=
    congrArg Host.Outcome.next ((dispatch_eq .shut shutDispatched t s x rest hwaits).trans
      (shutDispatched_works (s := afterHead t rest s) hstation x))
  have hcurrent : inCurrent → takeShut n counts (meetNumber number (afterHead t rest s)) = peerTest recorded :=
    fun h => takeShut_current (s := meetNumber number (afterHead t rest s)) h
  refine ⟨fun hin hstays => ?_, fun ms hin hshut hleaves hdraining => ?_, fun hout m hm hnumber => ?_, fun hout hlast => ?_⟩
  · rw [htake, hcurrent hin, peerTest_stays recorded hstays]
  · refine ⟨enterDraining recorded, ?_, enterDraining_is recorded ms rfl hleaves hdraining⟩
    rw [htake, hcurrent hin, peerTest_drains recorded hshut]
  · rw [htake, takeShut_last (s := meetNumber number (afterHead t rest s)) (c := counts) hout hm hnumber]
    rfl
  · rw [htake, takeShut_unknown (s := meetNumber number (afterHead t rest s)) (c := counts) hout hlast]
    rfl

/-- Settles O43: the close expiry makes the close pending while axles are held, and else drains; with nothing left in the
table and at the cursor the first draining tests close the session. -/
theorem closeExpiryPendsOrClosesTheSession : Obligations.CloseExpiryPendsOrClosesTheSession := by
  intro t d s ended pending hreset hopen ht
  have hexec : ∀ u, closeDue { s with now := t } = u → exec (.closeExpiry t) s = .next u := fun u hu =>
    congrArg Host.Outcome.next ((atTime_running _ _ s hreset).trans hu)
  have hexpires : reached d t = true → closeDue { s with now := t } = closeExpired { s with now := t } :=
    fun hdue => closeDue_expires (s := { s with now := t }) hopen ht hdue
  have hpends : reached d t = true → s.atr.list ≠ [] → closeDue { s with now := t } = peerTest pending :=
    fun hdue hlist => (hexpires hdue).trans (closeExpired_pends (s := { s with now := t }) hlist)
  have hdrains : reached d t = true → s.atr.list = [] → closeDue { s with now := t } = enterDraining ended :=
    fun hdue hlist => (hexpires hdue).trans (closeExpired_drains (s := { s with now := t }) hlist)
  refine ⟨fun hearly => ?_, fun hdue hlist => ⟨fun hstays => ?_, fun ms hshut hleaves hdraining => ?_⟩,
    fun ms hdue hleaves hlist hdraining => ?_, ?_⟩
  · exact hexec _ (closeDue_early (s := { s with now := t })
      (timerDue_not fun d' hd' => Option.some.inj (ht.symm.trans hd') ▸ hearly))
  · exact hexec _ ((hpends hdue hlist).trans (peerTest_stays pending hstays))
  · exact ⟨enterDraining pending, hexec _ ((hpends hdue hlist).trans (peerTest_drains pending hshut)),
      enterDraining_is pending ms rfl hleaves hdraining⟩
  · exact ⟨enterDraining ended, hexec _ (hdrains hdue hlist), enterDraining_is ended ms rfl hleaves hdraining⟩
  · intro ms m hdue hleaves hlist htable hgroup hcursor hheld hm hmatching hdone hdeferred hline hroom
    refine ⟨enterDraining ended, hexec _ (hdrains hdue hlist), ?_⟩
    rw [enterDraining_closes (s := ended) rfl hleaves htable hgroup hcursor hheld hmatching,
      closeSession_done (by exact hdone) (by exact hdeferred) (by exact hline) (by exact hroom)]
    have hstay : withStay ended ms m = withStay s ms m := rfl
    have hwagons : (withStay s ms m).wagons = m.wagons := by unfold withStay; split <;> rfl
    have hmismatch : (withStay s ms m).mismatch = m.mismatch := by unfold withStay; split <;> rfl
    have hshuts : (withStay s ms m).shuts = m.shuts := by unfold withStay; split <;> rfl
    have hcurrent : ended.ses.current = some m := hm
    simp only [fileSummary, hcurrent, Option.map_some, hstay, closeSummary_eq, hwagons, hmismatch, hshuts, Option.getD_some]
    refine ⟨rfl, ?_, rfl⟩
    rw [hmatching]

section
/-! Heard CROSSes: the timers, the resumption from HALTED, and the exit told to the Fusion Unit (R127, R128, R143, R152). -/

namespace Sys2Proof.Machine

open Sys2Proof

/-! ### A crossing taken (R127, R128) -/

/-- R127, R128: the session once a crossing has been taken in RUNNING or HALTED. -/
def takenSes (tc : Time) (ms : Nat) (s : State) : Ses :=
  { s.ses with
    state := .running, tc := some tc, haltExpiry := some (addUs tc (haltUs s)), closeExpiry := some (addUs tc (closeUs s)),
    closePending := false, nextHaltTick := if s.ses.state = .halted then none else s.ses.nextHaltTick,
    current := s.ses.current.map fun m => { withStay s ms m with lastCrossing := tc } }

/-- R153: the state by which the entries are resumed. -/
def takenState (tc : Time) (ms : Nat) (s : State) : State := { s with ses := takenSes tc ms s }

/-- R153: what a crossing taken does to an entry: from HALTED it is resumed. -/
def takenEntry (tc : Time) (ms : Nat) (s : State) (e : Entry) : Entry :=
  if s.ses.state = .halted then resumedEntry (takenState tc ms s) e else e

theorem restartTimers_left {ms : Nat} {s : State} (tc : Time) (hleaves : LeavesAt s.now s ms) :
    restartTimers tc (leaveHalted s) = takenState tc ms s := by
  rw [leave_eq s rfl hleaves]
  unfold restartTimers takenState takenSes onCurrent haltUs closeUs
  simp only [Option.map_map, Function.comp_def]

theorem takeExpiries_ahead {s : State} (hhalt : timerDue s.ses.haltExpiry s.now = false)
    (hclose : timerDue s.ses.closeExpiry s.now = false) : takeExpiries s = s := by
  unfold takeExpiries
  rw [haltDue_early (.inr hhalt), closeDue_early hclose]

/-- R127, R128: what a crossing does in RUNNING or HALTED, when the timers' next expiries lie ahead. -/
theorem crossingTaken_is {ms : Nat} {s : State} {tc : Time} (hleaves : LeavesAt s.now s ms)
    (hhalt : reached (addUs tc (haltUs s)) s.now = false) (hclose : reached (addUs tc (closeUs s)) s.now = false) :
    crossingTaken tc s = { s with
      ses := takenSes tc ms s, fus := { s.fus with table := s.fus.table.map (takenEntry tc ms s) } } := by
  have hrun : timersRun s = true := (timersRun_iff s).mpr (hleaves.imp_right fun h => h.1)
  have hresumed : onlyIf (s.ses.state == .halted) resumeDeadlines (takenState tc ms s) = { s with
      ses := takenSes tc ms s, fus := { s.fus with table := s.fus.table.map (takenEntry tc ms s) } } := by
    by_cases hhalted : s.ses.state = .halted
    · have hentry : takenEntry tc ms s = resumedEntry (takenState tc ms s) := funext fun e => if_pos hhalted
      rw [hhalted, beq_self_eq_true, onlyIf_true, hentry]
      rfl
    · have hentry : takenEntry tc ms s = id := funext fun e => if_neg hhalted
      rw [beq_eq_false_iff_ne.mpr hhalted, onlyIf_false, hentry, List.map_id]
      rfl
  unfold crossingTaken
  rw [hrun, if_pos rfl, restartTimers_left tc hleaves]
  dsimp only
  rw [hresumed]
  exact takeExpiries_ahead hhalt hclose

theorem crossingTaken_stays {s : State} (tc : Time) (h : s.ses.state = .idle ∨ s.ses.state = .draining) :
    crossingTaken tc s = s := by
  refine if_neg fun hrun => ?_
  rcases (timersRun_iff s).mp hrun with h' | h' <;> rcases h with h | h <;> exact nomatch h.symm.trans h'

theorem resumedEntry_keeps (s : State) (e : Entry) :
    resumedEntry s e = { e with deadline := (resumedEntry s e).deadline, deadlinePeer := (resumedEntry s e).deadlinePeer } := by
  unfold resumedEntry
  split
  · rfl
  · split
    · rfl
    · split
      · rfl
      · split <;> rfl

theorem takenEntry_keeps (tc : Time) (ms : Nat) (s : State) (e : Entry) :
    takenEntry tc ms s e =
      { e with deadline := (takenEntry tc ms s e).deadline, deadlinePeer := (takenEntry tc ms s e).deadlinePeer } := by
  unfold takenEntry
  split
  · exact resumedEntry_keeps _ e
  · rfl

theorem takenEntry_ordinal (tc : Time) (ms : Nat) (s : State) (e : Entry) :
    (takenEntry tc ms s e).ordinal = e.ordinal := by
  rw [takenEntry_keeps]

/-- R153: the table after a crossing, for any state that agrees on records, peers, direction and session state. -/
theorem taken_resumedTable {t tc : Time} {ms : Nat} {s u : State} (hnow : u.now = t) (hses : u.ses.state = s.ses.state)
    (htable : u.fus.table = s.fus.table) (hf : furthestPeer (takenState tc ms u) = furthestPeer s)
    (hs : ∀ e, ownSettled (takenState tc ms u) e = ownSettled s e)
    (hx : ∀ n, exitDistance (takenState tc ms u) n = exitDistance s n) :
    ResumedTable t s (u.fus.table.map (takenEntry tc ms u)) := by
  unfold takenEntry
  rw [htable, hses]
  constructor
  · intro hrun
    simp only [if_neg hrun, List.map_id']
  · intro hhalted
    simp only [if_pos hhalted]
    rw [List.forall₂_map_right_iff, List.forall₂_same]
    exact fun e _ => resumed_is s (takenState tc ms u) e hnow hf hs hx

/-! ### A CROSS dispatched (R127, R143) -/

theorem crossDispatched_works {s : State} (h : s.stc.station = .settling ∨ s.stc.station = .ready) (x : RxFrame) :
    crossDispatched x s = crossHeard x.frame.node.toNat x.start x.frame.payload
      (crossingTaken (laterCrossing s.ses.tc x.start) (meetNumber (wordAt x.frame.payload 0) s)) :=
  if_pos (sesWorks_of h)

/-- R143: only a normal exit of an axle of a current or superseded number concerns the Fusion Unit. -/
theorem crossHeard_ignored {n : Nat} {start : Time} {p : List Byte} {s : State}
    (h : p.getD 4 0 ≠ 1 ∨ at2 p 2 = 0 ∨ (s.fus.current ≠ some (wordAt p 0) ∧ s.fus.superseded ≠ some (wordAt p 0))) :
    crossHeard n start p s = s := by
  refine if_neg fun hc => ?_
  simp only [Bool.and_eq_true, bne_iff_ne] at hc
  obtain ⟨⟨hkind, hordinal⟩, hnumber⟩ := hc
  rcases h with h | h | ⟨hcurrent, hsuperseded⟩
  · exact h (eq_of_beq hkind)
  · exact hordinal h
  · rcases (Bool.or_eq_true _ _).mp hnumber with h | h
    · exact hcurrent (eq_of_beq h)
    · exact hsuperseded (eq_of_beq h)

theorem crossHeard_exit {n : Nat} {start : Time} {p : List Byte} {s : State} (hkind : p.getD 4 0 = 1) (hj : at2 p 2 ≠ 0)
    (hnumber : s.fus.current = some (wordAt p 0) ∨ s.fus.superseded = some (wordAt p 0)) :
    crossHeard n start p s = match findEntry s (at2 p 2) with
      | none => s
      | some e =>
        if !isFinal e && exitReplaces e n (at1 p 5) then
          testEntry (at2 p 2) (changeEntry (at2 p 2) (hearExit s n { revision := at1 p 5, received := start }) s)
        else s := by
  refine (if_pos ?_).trans rfl
  have hcurrent : currentNumber s (wordAt p 0) = true := by
    unfold currentNumber
    rcases hnumber with h | h <;> simp [h]
  rw [hcurrent, hkind, bne_iff_ne.mpr hj]
  rfl

theorem hearExit_ordinal (s : State) (n : Nat) (x : ExitHeard) (e : Entry) : (hearExit s n x e).ordinal = e.ordinal := by
  unfold hearExit
  cases e.deadline with
  | none => rfl
  | some d =>
    dsimp only
    split <;> rfl

theorem exitReplaces_iff (e : Entry) (n revision : Nat) :
    exitReplaces e n revision = true ↔ ∀ h, place e.exits n none = some h → h.revision ≤ revision := by
  unfold exitReplaces
  cases place e.exits n none with
  | none => simp
  | some h => simp

theorem cutShort_heard {e : Entry} {n : Nat} {x : ExitHeard} (h : place e.exits n none = some x) (t d : Time) :
    cutShort t e (some n) d =
      let cut := if earlier (x.received + 1000000) d then x.received + 1000000 else d
      if earlier cut t then t else cut := by
  unfold cutShort
  rw [Option.bind_some, h]

/-- R143, R152: the entry with a heard exit. -/
theorem hearExit_is {t : Time} {s : State} (hnow : s.now = t) (n : Nat) (x : ExitHeard) (e : Entry)
    (hn : n < e.exits.length) :
    hearExit s n x e = { e with exits := e.exits.set n (some x), deadline := (hearExit s n x e).deadline }
      ∧ (e.deadlinePeer = some n → (hearExit s n x e).deadline = e.deadline.map fun d =>
          let cut := if earlier (x.received + 1000000) d then x.received + 1000000 else d
          if earlier cut t then t else cut)
      ∧ (e.deadlinePeer ≠ some n → (hearExit s n x e).deadline = e.deadline) := by
  have hplace : place (setPlace e.exits n (some x)) n none = some x := place_set_self _ _ _ _ hn
  unfold hearExit
  cases hd : e.deadline with
  | none => exact ⟨rfl, fun _ => rfl, fun _ => rfl⟩
  | some d =>
    by_cases hp : e.deadlinePeer = some n
    · simp only [hp, beq_self_eq_true, if_true]
      refine ⟨by rw [← hp]; rfl, fun _ => ?_, fun h => absurd rfl h⟩
      exact congrArg some ((shortened_cut s _ (some n) d hnow).trans (cutShort_heard (by exact hplace) t d))
    · have hp' : (e.deadlinePeer == some n) = false := beq_eq_false_iff_ne.mpr hp
      simp only [hp', Bool.false_eq_true, if_false]
      exact ⟨by rw [← hd]; rfl, fun h => absurd h hp, fun _ => trivial⟩

/-- What makes an entry complete does not hang on its deadline, nor on a session that is not DRAINING (R148, R149). -/
theorem isComplete_congr {s u : State} {e f : Entry} (hstc : u.stc = s.stc) (hptb : u.ptb = s.ptb) (hatr : u.atr = s.atr)
    (hdraining : u.ses.state = .draining ↔ s.ses.state = .draining)
    (hf : f = { e with deadline := f.deadline, deadlinePeer := f.deadlinePeer }) : IsComplete u f ↔ IsComplete s e := by
  have hpeers : livePeers u = livePeers s := by
    unfold livePeers isLive peer ownNumber
    rw [hstc, hptb]
  unfold IsComplete OwnSettled Reported
  rw [hpeers, hatr, hdraining, hf]

/-- The session state, table and records as a CROSS leaves them, before the Fusion Unit hears of it. -/
theorem cross_taken {t : Time} {ms : Nat} {rest : List RxFrame} {s : State} (number : Word16) (tc : Time)
    (h : s.ses.state = .idle ∨ s.ses.state = .draining ∨ (LeavesAt t s ms
      ∧ reached (addUs tc (haltUs s)) t = false ∧ reached (addUs tc (closeUs s)) t = false)) :
    ∃ g : Entry → Entry, (∀ e, g e = { e with deadline := (g e).deadline, deadlinePeer := (g e).deadlinePeer })
      ∧ ResumedTable t s (s.fus.table.map g)
      ∧ crossingTaken tc (meetNumber number (afterHead t rest s)) = { afterHead t rest s with
          fus := { s.fus with table := s.fus.table.map g },
          ses := if s.ses.state = .idle ∨ s.ses.state = .draining then
              { s.ses with mark := raiseMark number s.ses.mark }
            else takenSes tc ms { s with ses := { s.ses with mark := raiseMark number s.ses.mark } } } := by
  by_cases hstays : s.ses.state = .idle ∨ s.ses.state = .draining
  · refine ⟨id, fun _ => rfl, ⟨fun _ => List.map_id _, fun hhalted => ?_⟩, ?_⟩
    · rcases hstays with h | h <;> exact nomatch h.symm.trans hhalted
    · rw [crossingTaken_stays (s := meetNumber number (afterHead t rest s)) tc hstays, if_pos hstays, List.map_id]
      rfl
  · obtain ⟨hleaves, hhalt, hclose⟩ := (or_assoc.mpr h).resolve_left hstays
    refine ⟨takenEntry tc ms (meetNumber number (afterHead t rest s)), takenEntry_keeps _ _ _,
      taken_resumedTable (u := meetNumber number (afterHead t rest s)) rfl rfl rfl rfl (fun _ => rfl) (fun _ => rfl), ?_⟩
    rw [crossingTaken_is (s := meetNumber number (afterHead t rest s)) hleaves hhalt hclose, if_neg hstays]
    rfl

end Sys2Proof.Machine
end

open Sys2Proof Sys2Proof.Machine

/-- Settles O40: the Fusion Unit ignores the CROSS, so what the Session Controller does with it stands. -/
theorem heardCrossRestartsTheTimers : Obligations.HeardCrossRestartsTheTimers := by
  intro t x rest s c tc halt close_ marked hwaits hstation hignored
  have hexec : ∀ u, crossingTaken tc (meetNumber (wordAt c 0) (afterHead t rest s)) = u →
      u.fus.current = s.fus.current → u.fus.superseded = s.fus.superseded → exec (.crossDispatch t) s = .next u := by
    intro u hu hcurrent hsuperseded
    refine congrArg Host.Outcome.next ((dispatch_eq .cross crossDispatched t s x rest hwaits).trans ?_)
    refine (crossDispatched_works (s := afterHead t rest s) hstation x).trans ?_
    refine (congrArg (crossHeard _ _ _) hu).trans (crossHeard_ignored ?_)
    rw [hcurrent, hsuperseded]
    exact hignored
  refine ⟨fun ms hleaves hhalt hclose => ?_, fun hstays => ?_⟩
  · obtain ⟨g, _, hresumed, htaken⟩ := cross_taken (rest := rest) (wordAt c 0) tc (.inr (.inr ⟨hleaves, hhalt, hclose⟩))
    have hopen : ¬ (s.ses.state = .idle ∨ s.ses.state = .draining) := by
      rintro (h | h) <;> rcases hleaves with h' | ⟨h', _⟩ <;> exact nomatch h.symm.trans h'
    rw [if_neg hopen] at htaken
    exact ⟨_, hexec _ htaken rfl rfl, rfl, hresumed⟩
  · exact hexec _ (crossingTaken_stays (s := meetNumber _ (afterHead t rest s)) tc hstays) rfl rfl

/-- Settles O46: after the crossing is taken, the exit is kept in the entry of its ordinal, which stays OPEN. -/
theorem heardExitShortensTheDeadline : Obligations.HeardExitShortensTheDeadline := by
  intro t ms x rest s n c number j entry marked tc halt close_ ses heard cut shorter base hwaits hstation hsession hkind hj
    hnumber
  obtain ⟨g, hkeeps, hresumed, htaken⟩ := cross_taken (rest := rest) number tc hsession
  have hordinal : ∀ e, (g e).ordinal = e.ordinal := fun e => (congrArg Entry.ordinal (hkeeps e) :)
  have hfind : ∀ i, ((s.fus.table.map g).find? fun e => e.ordinal == i) = (s.fus.table.find? fun e => e.ordinal == i).map g :=
    fun i => find_mapped _ i g hordinal
  have hexec : ∀ u, crossHeard n x.start c (base (s.fus.table.map g)) = u → exec (.crossDispatch t) s = .next u := by
    intro u hu
    refine congrArg Host.Outcome.next ((dispatch_eq .cross crossDispatched t s x rest hwaits).trans ?_)
    refine (crossDispatched_works (s := afterHead t rest s) hstation x).trans ?_
    exact (congrArg (crossHeard _ _ _) htaken).trans hu
  have hheard := crossHeard_exit (s := base (s.fus.table.map g)) (n := n) (start := x.start) hkind hj hnumber
  have hfused : ∀ e, (g e).fused = e.fused := fun e => (congrArg Entry.fused (hkeeps e) :)
  have hexits : ∀ e, (g e).exits = e.exits := fun e => (congrArg Entry.exits (hkeeps e) :)
  have hdraining : ses.state = .draining ↔ s.ses.state = .draining := by
    by_cases hstays : s.ses.state = .idle ∨ s.ses.state = .draining
    · have hsame : ses = marked := if_pos hstays
      rw [hsame]
    · have hrun : ses.state = .running := congrArg Ses.state (if_neg hstays)
      rw [hrun]
      exact ⟨fun h => (nomatch h), fun h => absurd (.inr h) hstays⟩
  have hentry : findEntry (base (s.fus.table.map g)) j = entry.map g := hfind j
  refine ⟨fun e he ho hrevision hn hincomplete => ?_, fun hnothing => ?_⟩
  · have htakes : (!isFinal (g e) && exitReplaces (g e) n (at1 c 5)) = true := by
      have hreplaces : exitReplaces (g e) n (at1 c 5) = true :=
        (exitReplaces_iff _ _ _).mpr fun h hh => hrevision h (hexits e ▸ hh)
      rw [hreplaces, isFinal, hfused, ho]
      rfl
    obtain ⟨hheardEntry, hshorter, hother⟩ :=
      hearExit_is (s := base (s.fus.table.map g)) (t := t) rfl n heard (g e) (by rw [hexits]; exact hn)
    generalize hu : changeEntry j (hearExit (base (s.fus.table.map g)) n heard) (base (s.fus.table.map g)) = u at *
    have hfound : findEntry u j = some (hearExit (base (s.fus.table.map g)) n heard (g e)) := by
      rw [← hu, findEntry_changeEntry _ _ _ (hearExit_ordinal _ n heard), hentry, he]
      rfl
    have hopen : complete u (hearExit (base (s.fus.table.map g)) n heard (g e)) = false := by
      rw [Bool.eq_false_iff]
      refine fun hc => hincomplete ((isComplete_congr (u := u) (s := s) ?_ ?_ ?_ ?_ ?_).mp ((complete_iff _ _).mp hc).2)
      · rw [← hu]; rfl
      · rw [← hu]; rfl
      · rw [← hu]; rfl
      · rw [← hu]; exact hdraining
      · rw [hheardEntry, hexits, hkeeps]
    refine ⟨s.fus.table.map g, u, g e, _, hexec u ?_, hresumed, ?_, ?_, ?_, hfound, ?_, hshorter, hother⟩
    · rw [hheard, hentry, he]
      exact (if_pos htakes).trans (testEntry_open u j _ hfound hopen)
    · rw [← hu]; rfl
    · exact fun i hi => by rw [← hu, changeEntry_other _ _ _ _ (hearExit_ordinal _ n heard) hi]; rfl
    · rw [hfind j]; exact congrArg (Option.map g) he
    · rw [hheardEntry, hexits]
  · refine ⟨_, hexec _ (hheard.trans ?_), hresumed⟩
    rw [hentry]
    rcases hnothing with hnone | ⟨e, he, hlate⟩
    · rw [hnone]; rfl
    · rw [he]
      refine if_neg ?_
      rw [Bool.and_eq_true, Bool.not_eq_true', isFinal, hfused, exitReplaces_iff, hexits]
      rintro ⟨ho, hrevision⟩
      rcases hlate with hfinal | ⟨h, hh, hlower⟩
      · exact nomatch ho.symm.trans hfinal
      · exact absurd (hrevision h hh) (Nat.not_le.mpr hlower)

section
/-! Heard OPENs: adoption in IDLE, and competing OPENs (R123, R125, R126). -/

namespace Sys2Proof.Machine

open Sys2Proof

theorem openDispatched_works {s : State} (h : s.stc.station = .settling ∨ s.stc.station = .ready) (x : RxFrame) :
    openDispatched x s = takeOpen x.frame.node.toNat x.start (wordAt x.frame.payload 0)
      (directionOfByte (x.frame.payload.getD 2 0)) (toLocal s x.frame.node.toNat (timeAt x.frame.payload 3))
      (meetNumber (wordAt x.frame.payload 0) s) :=
  if_pos (sesWorks_of h)

theorem directionOfByte_codes (b : Byte) : (b = 0 → directionOfByte b = .up) ∧ (b = 1 → directionOfByte b = .down) := by
  constructor <;> rintro rfl <;> rfl

section
variable {s : State} {n : Nat} {start tf : Time} {number : Word16} {d : Direction}

theorem abandonBlock_lfe (s : State) :
    (abandonBlock s).lfe = if s.stc.station = .ready then { s.lfe with block := [] } else s.lfe := by
  unfold abandonBlock
  by_cases hready : s.stc.station = .ready
  · rw [if_pos (beq_iff_eq.mpr hready), if_pos hready]
  · rw [if_neg fun h => hready (eq_of_beq h), if_neg hready]

/-! ### In IDLE (R123, R126) -/

theorem takeOpen_closed (hidle : s.ses.state = .idle) {m : Summary} (hm : s.ses.last = some m) (hnumber : m.number = number) :
    takeOpen n start number d tf s = s :=
  (if_pos (beq_iff_eq.mpr hidle)).trans (if_pos (by rw [hm, Option.map_some, hnumber, beq_self_eq_true]))

theorem takeOpen_adopts (hidle : s.ses.state = .idle) (hlast : ∀ m, s.ses.last = some m → m.number ≠ number) :
    takeOpen n start number d tf s = takeExpiries (beginSession number d false n tf start start s) := by
  refine (if_pos (beq_iff_eq.mpr hidle)).trans (if_neg fun hsame => ?_)
  obtain ⟨m, hm, hmn⟩ := Option.map_eq_some_iff.mp (eq_of_beq hsame)
  exact hlast m hm hmn

/-! ### In an open session (R125, R126) -/

theorem withinWindow_iff {tOpen : Time} (h : s.ses.tOpen = some tOpen) :
    withinWindow s start = true ↔ earlier (tOpen + 2000000) start = false := by
  unfold withinWindow
  rw [h]
  exact iff_of_eq (Bool.not_eq_true' _)

theorem openWins_iff {held : Time} {opener : Nat} (h : s.ses.tf = some held) (ho : s.ses.opener = some opener) :
    openWins s n tf = true ↔ earlier tf held = true ∨ (tf = held ∧ n < opener) := by
  unfold openWins
  rw [h, ho]
  simp

theorem takeOpen_within (hopen : s.ses.state ≠ .idle) (hwithin : withinWindow s start = true) :
    takeOpen n start number d tf s =
      if !openWins s n tf then s
      else if number == s.ses.number then onlyIf (timersRun s) (replaceOpening n tf) s
      else competingDirection d (replaceNumber number (replaceOpening n tf s)) :=
  (if_neg fun h => hopen (eq_of_beq h)).trans (if_pos hwithin)

theorem takeOpen_renews (hopen : s.ses.state ≠ .idle) (hwithin : withinWindow s start = true)
    (hwins : openWins s n tf = true) (hsame : number = s.ses.number) (hrun : timersRun s = true) :
    takeOpen n start number d tf s = replaceOpening n tf s := by
  rw [takeOpen_within hopen hwithin, hwins, hsame, beq_self_eq_true, hrun]
  rfl

theorem takeOpen_competes (hopen : s.ses.state ≠ .idle) (hwithin : withinWindow s start = true)
    (hwins : openWins s n tf = true) (hother : number ≠ s.ses.number) :
    takeOpen n start number d tf s = competingDirection d (replaceNumber number (replaceOpening n tf s)) := by
  rw [takeOpen_within hopen hwithin, hwins, beq_eq_false_iff_ne.mpr hother]
  rfl

theorem takeOpen_after (hopen : s.ses.state ≠ .idle) (hafter : withinWindow s start = false) :
    takeOpen n start number d tf s =
      if s.ses.state == .draining && !(number == s.ses.number) && laterNumber number s.ses.number then
        { s with ses := { s.ses with
          held := some { number := number, direction := d, firstEdge := tf, sender := n, received := start } } }
      else s :=
  (if_neg fun h => hopen (eq_of_beq h)).trans (if_neg (Bool.eq_false_iff.mp hafter))

end

/-! ### The held number replaced (R125, R181) -/

/-- R181: a deferred request is answered RANGE, where the SERVICE queue has room for the answer. -/
theorem refuseDeferred_is {s : State} (h : s.rst.deferred = none ∨ (s.slc.line = .active ∧ s.slc.service.length < 4)) :
    refuseDeferred s = { s with
      rst := { s.rst with deferred := none },
      slc := (s.rst.deferred.map fun a => (withReply a.node .range 3 .none s).slc).getD s.slc } := by
  cases hd : s.rst.deferred with
  | none =>
    rw [refuseDeferred_none hd]
    exact congrArg (fun q => ({ s with rst := { s.rst with deferred := q } } : State)) hd
  | some a =>
    unfold refuseDeferred
    rw [hd]
    rcases h with h | ⟨hline, hroom⟩
    · exact nomatch hd.symm.trans h
    · exact reply_with (s := { s with rst := { s.rst with deferred := none } }) (.inl hline) hroom _ _ _ _

/-- R125, R139, R181: what taking the winner's number does. -/
theorem replaceNumber_is {s : State} (number : Word16)
    (h : s.rst.deferred = none ∨ (s.slc.line = .active ∧ s.slc.service.length < 4)) :
    replaceNumber number s = { s with
      rst := { s.rst with deferred := none },
      slc := (s.rst.deferred.map fun a => (withReply a.node .range 3 .none s).slc).getD s.slc,
      fus := { s.fus with superseded := s.fus.current, current := some number },
      ses := { s.ses with number := number, current := s.ses.current.map fun m => { m with number := number } } } := by
  unfold replaceNumber
  dsimp only
  rw [refuseDeferred_is (by exact h)]
  rfl

theorem competingDirection_same {d : Direction} {s : State} (h : d = s.ses.direction) : competingDirection d s = s :=
  if_pos (beq_iff_eq.mpr h)

theorem competingDirection_slips {d : Direction} {s : State} (h : d ≠ s.ses.direction) (hchecked : s.ses.checked = true) :
    competingDirection d s = latch .slip s :=
  (if_neg fun hd => h (eq_of_beq hd)).trans (if_pos hchecked)

theorem competingDirection_turns {d : Direction} {s : State} (h : d ≠ s.ses.direction) (hchecked : s.ses.checked = false) :
    competingDirection d s = chooseExit { s with ses := { s.ses with
      direction := d, current := s.ses.current.map fun m => { m with direction := d } } } :=
  (if_neg fun hd => h (eq_of_beq hd)).trans (if_neg (Bool.eq_false_iff.mp hchecked))

/-- R125: what a winning OPEN's direction does. -/
theorem competingDirection_is (d : Direction) (s : State) :
    competingDirection d s = { s with
        ptb := { s.ptb with exitStation := (competingDirection d s).ptb.exitStation },
        cnd := (competingDirection d s).cnd,
        ses := { s.ses with
          direction := if s.ses.checked then s.ses.direction else d,
          current := s.ses.current.map fun m =>
            { m with direction := if s.ses.checked ∨ d = s.ses.direction then m.direction else d } } }
      ∧ (s.ses.checked = false → d ≠ s.ses.direction →
          (competingDirection d s).ptb.exitStation = (chooseExit (competingDirection d s)).ptb.exitStation)
      ∧ (s.ses.checked = true ∨ d = s.ses.direction → (competingDirection d s).ptb.exitStation = s.ptb.exitStation)
      ∧ (s.ses.checked = true ∧ d ≠ s.ses.direction → (competingDirection d s).cnd.latched = s.cnd.latched ||| 16)
      ∧ (s.ses.checked = false ∨ d = s.ses.direction → (competingDirection d s).cnd = s.cnd) := by
  have hid : s.ses.current.map (fun m : Summary => { m with direction := m.direction }) = s.ses.current := congrFun Option.map_id _
  by_cases hd : d = s.ses.direction
  · rw [competingDirection_same hd]
    refine ⟨?_, fun _ h => absurd hd h, fun _ => rfl, fun h => absurd hd h.2, fun _ => rfl⟩
    simp only [hd, or_true, if_true, ite_self, hid]
  · cases hc : s.ses.checked with
    | true =>
      rw [competingDirection_slips hd hc, latch_slip]
      refine ⟨?_, fun h => (nomatch h), fun _ => rfl, fun _ => rfl, fun h => h.elim (fun h => (nomatch h)) fun h => absurd h hd⟩
      simp only [true_or, if_true, hid]
    | false =>
      rw [competingDirection_turns hd hc]
      refine ⟨?_, fun _ _ => chooseExit_congr _ _ rfl rfl rfl rfl, fun h => h.elim (fun h => (nomatch h)) fun h => absurd h hd,
        fun h => (nomatch h.1), fun _ => rfl⟩
      simp only [hd, or_false, Bool.false_eq_true, if_false]
      rfl

end Sys2Proof.Machine
end

open Sys2Proof Sys2Proof.Machine

/-- Settles O38: in IDLE the OPEN begins a session, but for one of the number just closed. -/
theorem openIsAdoptedInIdle : Obligations.OpenIsAdoptedInIdle := by
  intro t x rest s n c number d tf halt close_ hwaits hstation hidle
  have htake : exec (.openDispatch t) s
      = .next (takeOpen n x.start number d tf (meetNumber number (afterHead t rest s))) :=
    congrArg Host.Outcome.next ((dispatch_eq .opening openDispatched t s x rest hwaits).trans
      (openDispatched_works (s := afterHead t rest s) hstation x))
  obtain ⟨hup, hdown⟩ := directionOfByte_codes (c.getD 2 0)
  refine ⟨hup, hdown, fun hlast hdone hhalt hclose => ?_, fun m hm hnumber => ?_⟩
  · have hbegin := beginSession_done (s := meetNumber number (afterHead t rest s)) hdone number d false n tf x.start x.start
    have hahead := takeExpiries_ahead
      (s := beginSession number d false n tf x.start x.start (meetNumber number (afterHead t rest s)))
      (by rw [hbegin]; exact hhalt) (by rw [hbegin]; exact hclose)
    rw [takeOpen_adopts (s := meetNumber number (afterHead t rest s)) hidle hlast, hahead, hbegin] at htake
    refine ⟨_, htake, ?_, chooseExit_congr _ _ rfl rfl rfl rfl⟩
    rw [abandonBlock_lfe]
    rfl
  · rw [htake, takeOpen_closed (s := meetNumber number (afterHead t rest s)) hidle hm hnumber]
    rfl

/-- Settles O39: within the window the earlier opening is taken, with what its number and direction change; past it only
DRAINING holds the OPEN. -/
theorem competingOpenIsSettledByFirstEdge : Obligations.CompetingOpenIsSettledByFirstEdge := by
  intro t tOpen tf opener x rest s n c number d first open_ within wins marked hwaits hstation htOpen htf hopener
  generalize hA : meetNumber number (afterHead t rest s) = A
  have htake : exec (.openDispatch t) s = .next (takeOpen n x.start number d first A) := by
    rw [← hA]
    exact congrArg Host.Outcome.next ((dispatch_eq .opening openDispatched t s x rest hwaits).trans
      (openDispatched_works (s := afterHead t rest s) hstation x))
  have hses : A.ses = marked := by rw [← hA]; rfl
  have hwindow : withinWindow A x.start = true ↔ within := withinWindow_iff (by rw [hses]; exact htOpen)
  have hwins : openWins A n first = true ↔ wins := openWins_iff (by rw [hses]; exact htf) (by rw [hses]; exact hopener)
  have hbusy : open_ → A.ses.state ≠ .idle := by
    rw [hses]
    rintro (h | h) h' <;> exact nomatch h.symm.trans h'
  have hrun : open_ → timersRun A = true := fun hopen => (timersRun_iff A).mpr (by rw [hses]; exact hopen)
  have hlost : s.ses.state ≠ .idle → within → ¬ wins → takeOpen n x.start number d first A = A := by
    intro hopen hwithin hlose
    rw [takeOpen_within (by rw [hses]; exact hopen) (hwindow.mpr hwithin), Bool.eq_false_iff.mpr (mt hwins.mp hlose)]
    rfl
  have hafterwards : ¬ within → A.ses.state ≠ .idle →
      ¬ (s.ses.state = .draining ∧ number ≠ s.ses.number ∧ laterNumber number s.ses.number = true) →
      takeOpen n x.start number d first A = A := by
    intro hafter hopen hnot
    rw [takeOpen_after hopen (Bool.eq_false_iff.mpr (mt hwindow.mp hafter)), hses]
    refine if_neg fun h => hnot ?_
    simp only [Bool.and_eq_true, Bool.not_eq_true', beq_eq_false_iff_ne] at h
    exact ⟨eq_of_beq h.1.1, h.1.2, h.2⟩
  refine ⟨fun hother hopen hwithin hwin hroom => ?_, fun hsame hopen hwithin hwin => ?_, fun hopen hwithin hlose => ?_,
    fun hsame hopen hafter => ?_, fun hopen hafter => ?_, fun hother hdraining hafter => ⟨fun hlater => ?_, fun hnot => ?_⟩⟩
  · generalize hu : replaceNumber number (replaceOpening n first A) = u
    have hnumber : u = { afterHead t rest s with
        rst := { s.rst with deferred := none },
        slc := (s.rst.deferred.map fun a => (withReply a.node .range 3 .none (afterHead t rest s)).slc).getD
          (afterHead t rest s).slc,
        fus := { s.fus with superseded := s.fus.current, current := some number },
        ses := { marked with
          number := number, opener := some n, tf := some first,
          current := (s.ses.current.map fun m => { m with firstEdge := first }).map fun m => { m with number := number } } } := by
      rw [← hu, ← hA]
      exact replaceNumber_is (s := replaceOpening n first (meetNumber number (afterHead t rest s))) number hroom
    obtain ⟨hstate, hturned, hkept, hslip, hquiet⟩ := competingDirection_is d u
    have hchecked : u.ses.checked = s.ses.checked := by rw [hnumber]
    have hdirection : u.ses.direction = s.ses.direction := by rw [hnumber]
    have hexit : u.ptb.exitStation = s.ptb.exitStation := by rw [hnumber]; rfl
    have hcnd : u.cnd = s.cnd := by rw [hnumber]; rfl
    rw [hchecked, hdirection] at hstate hturned hkept hslip hquiet
    rw [hexit] at hkept
    rw [hcnd] at hslip hquiet
    refine ⟨competingDirection d u, ?_, hstate.trans ?_, hturned, hkept, hslip, hquiet⟩
    · rw [htake, takeOpen_competes (hbusy hopen) (hwindow.mpr hwithin) (hwins.mpr hwin) (by rw [hses]; exact hother), hu]
    · generalize competingDirection d u = v
      rw [hnumber]
      simp only [Option.map_map, Function.comp_def]
      rfl
  · rw [htake, takeOpen_renews (hbusy hopen) (hwindow.mpr hwithin) (hwins.mpr hwin) (by rw [hses]; exact hsame) (hrun hopen),
      ← hA]
    rfl
  · rw [htake, hlost hopen hwithin hlose, ← hA]; rfl
  · rw [htake, hafterwards hafter (by rw [hses]; exact hopen) fun h => h.2.1 hsame, ← hA]; rfl
  · rw [htake, hafterwards hafter (hbusy hopen) fun h => ?_, ← hA]
    · rfl
    · rcases hopen with h' | h' <;> exact nomatch h'.symm.trans h.1
  · rw [htake, takeOpen_after (by rw [hses]; exact fun h => nomatch hdraining.symm.trans h)
      (Bool.eq_false_iff.mpr (mt hwindow.mp hafter)), if_pos, ← hA]
    · rfl
    · rw [hses]
      simp [marked, hdraining, hother, (laterNumber_iff _ _).mpr hlater]
  · rw [htake, hafterwards hafter (by rw [hses]; exact fun h => nomatch hdraining.symm.trans h) fun h => ?_, ← hA]
    · rfl
    · exact absurd ((laterNumber_iff _ _).mp h.2.2).2 (Nat.not_le.mpr hnot)

section
/-! Alignment and fusion of the rows of an entry (R144 to R147). -/

namespace Sys2Proof.Machine

open Sys2Proof

/-! ### Alignment (R144) -/

section
variable {s : State} {e : Entry} {n : Nat} {r : PeerRow}

theorem isLive_iff (s : State) (n : Nat) :
    isLive s n = true ↔ n ≠ s.stc.number.toNat ∧ (place s.ptb.peers n Peer.reset).state = .live := by
  unfold isLive ownNumber peer
  rw [Bool.and_eq_true, bne_iff_ne, beq_iff_eq]

theorem alignmentOf_checked {first : Time} {v : Nat} (ht : e.firstTime = some first) (hv : e.firstSpeed = some v)
    (hpos : 0 < v) (hlive : isLive s n = true) (hopen : e.fused = none) :
    alignmentOf s e n r =
      if alignTolerance s first e.ordinal < (timeDiff first (toLocal s n r.peerTime) - expectedLag s n v).natAbs then .misaligned
      else .aligned := by
  unfold alignmentOf
  rw [ht, hv]
  refine if_pos ?_
  rw [decide_eq_true hpos, hlive, isFinal, hopen]
  rfl

theorem alignmentOf_unchecked (h : e.firstTime = none ∨ e.firstSpeed = none ∨ e.firstSpeed = some 0 ∨ isLive s n = false
    ∨ e.fused.isSome = true) : alignmentOf s e n r = .unchecked := by
  unfold alignmentOf
  cases ht : e.firstTime with
  | none => rfl
  | some first =>
    cases hv : e.firstSpeed with
    | none => rfl
    | some v =>
      refine if_neg ?_
      simp only [Bool.and_eq_true, decide_eq_true_eq, Bool.not_eq_true', isFinal]
      rintro ⟨⟨hpos, hlive⟩, hopen⟩
      rcases h with h | h | h | h | h
      · exact nomatch ht.symm.trans h
      · exact nomatch hv.symm.trans h
      · exact absurd (Option.some.inj (hv.symm.trans h)) (by omega)
      · exact nomatch h.symm.trans hlive
      · exact nomatch h.symm.trans hopen

theorem entryEdge_own (s : State) :
    entryEdge s (ownNumber s) = if s.ses.direction = .up then (s.ptb.ownP : Int) else s.ptb.ownP + s.ptb.ownL := by
  unfold entryEdge positionOf lengthOf
  rw [if_pos (beq_self_eq_true _), if_pos (beq_self_eq_true _)]
  cases s.ses.direction <;> rfl

theorem entryEdge_peer (h : n ≠ s.stc.number.toNat) :
    entryEdge s n = if s.ses.direction = .up then ((place s.ptb.peers n Peer.reset).p.getD 0 : Int)
      else (place s.ptb.peers n Peer.reset).p.getD 0 + (place s.ptb.peers n Peer.reset).l.getD 0 := by
  have hother : ¬ (n == ownNumber s) = true := fun hn => h (eq_of_beq hn)
  unfold entryEdge positionOf lengthOf
  rw [if_neg hother, if_neg hother]
  cases s.ses.direction <;> rfl

/-- R144 item 3: the lag is the distance of the entry edges over the speed, rounded. -/
theorem expectedLag_rounded {v : Nat} (hpos : 0 < v) :
    IsRounded ((if s.ses.direction = .up then entryEdge s (ownNumber s) - entryEdge s n
      else entryEdge s n - entryEdge s (ownNumber s)) * 1000000) v (expectedLag s n v) := by
  unfold expectedLag
  cases s.ses.direction <;> exact roundDiv_isRounded _ _ hpos

/-- R144 item 4: a quarter of the smaller gap to a neighbour, at least 10,000 µs. -/
theorem alignTolerance_eq (s : State) (t : Time) (j : Nat) :
    alignTolerance s t j = match [j - 1, j + 1].filterMap (neighbourGap s t) with
      | [] => 10000
      | [a] => max 10000 (a / 4)
      | a :: b :: _ => max 10000 (min a b / 4) := by
  unfold alignTolerance
  cases h : neighbourGap s t (j - 1) <;> cases h' : neighbourGap s t (j + 1) <;> simp [h, h']

end

/-! ### Fusion (R146, R147) -/

/-- What the fused values are formed from: weight, grade, left share and speed of a report. -/
def figures (r : Report) : Int × Grade × Option Nat × Nat := (r.w, r.grade, r.share, r.speed)

theorem included_figures (e : Entry) :
    ((e.own.toList.map fun o => (o.w, o.grade, o.share, o.entrySpeed)) ++
      (((e.rows.filterMap id).filter fun r => r.alignment != .misaligned).map fun r => (r.w, r.grade, r.share, r.speed))).filter
        (fun y => y.2.1 != .n) = (included (reportsOf e)).map figures := by
  have hown : (e.own.map ownReport).toList.filter (fun r => r.aligned && r.grade != .n)
      = (e.own.map ownReport).toList.filter (fun r => r.grade != .n) := by
    cases e.own <;> rfl
  have hrows : (((e.rows.filterMap id).map rowReport).filter fun r => r.aligned && r.grade != .n)
      = (((e.rows.filterMap id).filter fun r => r.alignment != .misaligned).map rowReport).filter (fun r => r.grade != .n) := by
    rw [List.filter_map, List.filter_map, List.filter_filter]
    congr 2
    funext r
    exact Bool.and_comm _ _
  unfold included reportsOf
  rw [List.filter_append, List.filter_append, List.map_append, hown, hrows]
  congr 1
  · cases e.own with
    | none => rfl
    | some o => by_cases ho : o.grade = .n <;> simp [ownReport, figures, ho]
  · rw [List.filter_map, List.filter_map, List.map_map]
    rfl

theorem reports_speeds (e : Entry) :
    (reportsOf e).map (·.speed) = e.own.toList.map (·.entrySpeed) ++ (e.rows.filterMap id).map (·.speed) := by
  unfold reportsOf
  rw [List.map_append, List.map_map]
  cases e.own <;> rfl

theorem reports_any (e : Entry) (flag : Report → Bool) : (reportsOf e).any flag = true ↔
    (∃ o, e.own = some o ∧ flag (ownReport o) = true) ∨ ∃ r ∈ e.rows.filterMap id, flag (rowReport r) = true := by
  unfold reportsOf
  rw [List.any_append, Bool.or_eq_true, List.any_map]
  refine or_congr ?_ List.any_eq_true
  cases e.own <;> simp

section
variable {rs : List Report}

theorem included_graded (h : ∃ reports, rs = included reports) : ∀ r ∈ rs, 1 ≤ gradeWeight r.grade := by
  obtain ⟨reports, rfl⟩ := h
  intro r hr
  have hgrade := ((Bool.and_eq_true _ _).mp (List.mem_filter.mp hr).2).2
  revert hgrade
  cases r.grade with
  | n => exact fun h => nomatch h
  | a => exact fun _ => by decide
  | b => exact fun _ => by decide
  | c => exact fun _ => by decide

theorem weights_pos (hne : rs ≠ []) (h : ∀ r ∈ rs, 1 ≤ gradeWeight r.grade) : 0 < (rs.map fun r => gradeWeight r.grade).sum := by
  cases rs with
  | nil => exact absurd rfl hne
  | cons r rs =>
    have hr := h r List.mem_cons_self
    rw [List.map_cons, List.sum_cons]
    omega

theorem weightedMean_rounded (value : Report → Int) (hpos : 0 < (rs.map fun r => gradeWeight r.grade).sum) :
    IsRounded (rs.map fun r => (gradeWeight r.grade : Int) * value r).sum (rs.map fun r => gradeWeight r.grade).sum
      (weightedMean value rs) := by
  unfold weightedMean
  rw [total_eq]
  exact roundDiv_isRounded _ _ hpos

theorem weighted_sum_ge (value : Report → Int) (lo : Int) (h : ∀ r ∈ rs, lo ≤ value r) :
    lo * ((rs.map fun r => gradeWeight r.grade).sum : Nat) ≤ (rs.map fun r => (gradeWeight r.grade : Int) * value r).sum := by
  induction rs with
  | nil => simp
  | cons r rs ih =>
    have htail := ih fun r' h' => h r' (List.mem_cons_of_mem _ h')
    have hhead := mul_le_mul_of_nonneg_left (h r List.mem_cons_self) (Int.natCast_nonneg (gradeWeight r.grade))
    rw [List.map_cons, List.sum_cons, List.map_cons, List.sum_cons, Nat.cast_add, mul_add, mul_comm lo]
    exact add_le_add hhead htail

theorem weighted_sum_le (value : Report → Int) (hi : Int) (h : ∀ r ∈ rs, value r ≤ hi) :
    (rs.map fun r => (gradeWeight r.grade : Int) * value r).sum ≤ hi * ((rs.map fun r => gradeWeight r.grade).sum : Nat) := by
  induction rs with
  | nil => simp
  | cons r rs ih =>
    have htail := ih fun r' h' => h r' (List.mem_cons_of_mem _ h')
    have hhead := mul_le_mul_of_nonneg_left (h r List.mem_cons_self) (Int.natCast_nonneg (gradeWeight r.grade))
    rw [List.map_cons, List.sum_cons, List.map_cons, List.sum_cons, Nat.cast_add, mul_add, mul_comm hi]
    exact add_le_add hhead htail

theorem weightedMean_ge {value : Report → Int} {lo : Int} (hpos : 0 < (rs.map fun r => gradeWeight r.grade).sum)
    (h : ∀ r ∈ rs, lo ≤ value r) : lo ≤ weightedMean value rs :=
  rounded_ge hpos (weightedMean_rounded value hpos) (weighted_sum_ge value lo h)

theorem weightedMean_le {value : Report → Int} {hi : Int} (hpos : 0 < (rs.map fun r => gradeWeight r.grade).sum)
    (h : ∀ r ∈ rs, value r ≤ hi) : weightedMean value rs ≤ hi :=
  rounded_le hpos (weightedMean_rounded value hpos) (weighted_sum_le value hi h)

/-- A mean of natural numbers, as the model keeps it. -/
theorem weightedMean_toNat (value : Report → Nat) (hpos : 0 < (rs.map fun r => gradeWeight r.grade).sum) :
    IsRounded (rs.map fun r => (gradeWeight r.grade : Int) * value r).sum (rs.map fun r => gradeWeight r.grade).sum
      ((weightedMean (fun r => (value r : Int)) rs).toNat : Nat) := by
  have hnonneg : 0 ≤ weightedMean (fun r => (value r : Int)) rs := weightedMean_ge hpos fun r _ => Int.natCast_nonneg _
  rw [Int.toNat_of_nonneg hnonneg]
  exact weightedMean_rounded _ hpos

/-! #### The grade -/

theorem fusedGrade_of (hne : rs ≠ []) :
    let n := (rs.filter fun r => r.grade == .a).length
    fusedGrade rs = if 2 ≤ n then .a else if n == 1 || 2 ≤ rs.length then .b else .c := by
  cases rs with
  | nil => exact absurd rfl hne
  | cons r rs => rfl

theorem fusedGrade_iff (hne : rs ≠ []) :
    let n := (rs.filter fun r => r.grade == .a).length
    (fusedGrade rs = .a ↔ 2 ≤ n) ∧ (fusedGrade rs = .b ↔ n = 1 ∨ (n = 0 ∧ 2 ≤ rs.length))
      ∧ (fusedGrade rs = .c ↔ n = 0 ∧ rs.length = 1) := by
  intro n
  have hlength : 1 ≤ rs.length := List.length_pos_iff.mpr hne
  rw [fusedGrade_of hne]
  by_cases h2 : 2 ≤ n
  · rw [if_pos h2]
    simp only [reduceCtorEq, true_iff, false_iff]
    omega
  · rw [if_neg h2]
    by_cases h1 : n = 1 ∨ 2 ≤ rs.length
    · rw [if_pos (by simpa using h1)]
      simp only [reduceCtorEq, true_iff, false_iff]
      omega
    · rw [if_neg (by simpa using h1)]
      simp only [reduceCtorEq, true_iff, false_iff]
      omega

theorem fusedShare_none : fusedShare rs = none ↔ rs.filter (fun r => r.share.isSome) = [] := by
  unfold fusedShare
  cases h : rs.filter (fun r => r.share.isSome) <;> simp

theorem fusedShare_some {n : Nat} (h : fusedShare rs = some n) : rs.filter (fun r => r.share.isSome) ≠ [] ∧
    n = (weightedMean (fun r => ((r.share.getD 0 : Nat) : Int)) (rs.filter fun r => r.share.isSome)).toNat := by
  have hne : rs.filter (fun r => r.share.isSome) ≠ [] := fun he => nomatch (fusedShare_none.mpr he).symm.trans h
  have hmean : fusedShare rs
      = some (weightedMean (fun r => ((r.share.getD 0 : Nat) : Int)) (rs.filter fun r => r.share.isSome)).toNat :=
    if_neg (by simpa using hne)
  exact ⟨hne, Option.some.inj (h.symm.trans hmean)⟩

end

end Sys2Proof.Machine
end

open Sys2Proof Sys2Proof.Machine

/-- Settles O45: the model's check, its lag and its tolerance written out. -/
theorem rowIsCheckedAgainstTheLag : Obligations.RowIsCheckedAgainstTheLag := by
  intro s e n r own live
  have hlive : isLive s n = true ↔ live := isLive_iff s n
  refine ⟨fun first v ht hv hpos hl ho => ?_, fun h => alignmentOf_unchecked ?_⟩
  · have hlag := expectedLag_rounded (s := s) (n := n) hpos
    rw [entryEdge_own, entryEdge_peer hl.1] at hlag
    refine ⟨expectedLag s n v, hlag, ?_⟩
    rw [alignmentOf_checked ht hv hpos (hlive.mpr hl) ho, alignTolerance_eq]
    rfl
  · rcases h with h | h | h | h | h
    · exact .inl h
    · exact .inr (.inl h)
    · exact .inr (.inr (.inl h))
    · exact .inr (.inr (.inr (.inl (Bool.eq_false_iff.mpr (mt hlive.mp h)))))
    · exact .inr (.inr (.inr (.inr h)))

/-- Settles O49: the included estimates are the model's included reports, and each fused value is read off them. -/
theorem fusedWeightLiesWithin : Obligations.FusedWeightLiesWithin := by
  intro e weight rows estimates sharing speeds weights f
  generalize hinc : included (reportsOf e) = inc
  have hgraded : ∀ r ∈ inc, 1 ≤ gradeWeight r.grade := included_graded ⟨_, hinc.symm⟩
  have hfigures : estimates = inc.map figures := (included_figures e).trans (congrArg (List.map figures) hinc)
  have hspeeds : speeds = (reportsOf e).map (·.speed) := (reports_speeds e).symm
  have hweight : ∀ g, weight g = gradeWeight g := fun g => by cases g <;> rfl
  have hweights : weights = (inc.map fun r => gradeWeight r.grade).sum := by
    refine (congrArg (fun l => (List.map (fun y => weight y.2.1) l).sum) hfigures).trans ?_
    rw [List.map_map]
    exact congrArg List.sum (List.map_congr_left fun r _ => hweight r.grade)
  have hsums : ∀ (value : Int × Grade × Option Nat × Nat → Int) (l : List Report),
      ((l.map figures).map fun y => (weight y.2.1 : Int) * value y).sum
        = (l.map fun r => (gradeWeight r.grade : Int) * value (figures r)).sum := by
    intro value l
    rw [List.map_map]
    exact congrArg List.sum (List.map_congr_left fun r _ => by rw [← hweight]; rfl)
  have hnone : estimates = [] ↔ inc = [] := by rw [hfigures, List.map_eq_nil_iff]
  have hcounts : (estimates.filter fun y => y.2.1 == .a).length = (inc.filter fun r => r.grade == .a).length := by
    rw [hfigures, List.filter_map, List.length_map]; rfl
  have hlength : estimates.length = inc.length := by rw [hfigures, List.length_map]
  have hsharing : sharing = (inc.filter fun r => r.share.isSome).map figures :=
    (congrArg (List.filter fun y => y.2.2.1.isSome) hfigures).trans (List.filter_map)
  have hf : f.f = fusedWeight inc := congrArg fusedWeight hinc
  have hgrade : f.grade = fusedGrade inc := congrArg fusedGrade hinc
  have hshare : f.share = fusedShare inc := congrArg fusedShare hinc
  have hspeed : f.speed = fusedSpeed e.firstSpeed (reportsOf e) inc := congrArg (fusedSpeed e.firstSpeed (reportsOf e)) hinc
  refine ⟨fun hempty => ?_, fun hsome => ?_, fun hempty hsp => ?_, fun hsp => ?_, ?_, fun n hn => ?_,
    reports_any e _, reports_any e _, reports_any e _, rfl, rfl⟩
  · rw [hf, hgrade, hshare, hnone.mp hempty]
    exact ⟨rfl, rfl, rfl⟩
  · have hne : inc ≠ [] := mt hnone.mpr hsome
    have hpos := weights_pos hne hgraded
    have hmean : fusedWeight inc = weightedMean (·.w) inc := if_neg (by simpa using hne)
    have hmeanSpeed : fusedSpeed e.firstSpeed (reportsOf e) inc = (weightedMean (fun r => (r.speed : Nat)) inc).toNat :=
      if_pos (by simpa using hne)
    have hmem : ∀ r ∈ inc, figures r ∈ estimates := fun r hr => hfigures ▸ List.mem_map_of_mem hr
    obtain ⟨ha, hb, hc⟩ := fusedGrade_iff hne
    rw [hf, hgrade, hspeed, hmean, hmeanSpeed, hcounts, hlength, hweights]
    refine ⟨?_, fun lo hlo => weightedMean_ge hpos fun r hr => hlo _ (hmem r hr),
      fun hi hhi => weightedMean_le hpos fun r hr => hhi _ (hmem r hr), ha, hb, hc, ?_⟩
    · rw [hfigures, hsums fun y => y.1]
      exact weightedMean_rounded _ hpos
    · rw [hfigures, hsums fun y => y.2.2.2]
      exact weightedMean_toNat _ hpos
  · have hreports : reportsOf e ≠ [] := fun h => hsp (by rw [hspeeds, h]; rfl)
    have hround : f.speed = roundNat speeds.sum speeds.length := by
      rw [hspeed, hnone.mp hempty, hspeeds, List.length_map]
      exact (if_neg Bool.false_ne_true).trans (if_pos (by simpa using hreports))
    have hsum : (speeds.map Int.ofNat).sum = (speeds.sum : Nat) := (Nat.cast_list_sum speeds).symm
    rw [hround, hsum]
    exact roundNat_isRounded _ _ (List.length_pos_iff.mpr hsp)
  · have hreports : reportsOf e = [] := List.map_eq_nil_iff.mp (hspeeds ▸ hsp)
    have hempty : inc = [] := by rw [← hinc, hreports]; rfl
    rw [hspeed, hempty, hreports]
    rfl
  · rw [hshare, hsharing, List.map_eq_nil_iff, fusedShare_none]
  · rw [hshare] at hn
    obtain ⟨hne, hmean⟩ := fusedShare_some hn
    have hpos := weights_pos hne fun r hr => hgraded r (List.mem_of_mem_filter hr)
    have hsharingWeights : (sharing.map fun y => weight y.2.1)
        = (inc.filter fun r => r.share.isSome).map fun r => gradeWeight r.grade := by
      rw [hsharing, List.map_map]
      exact List.map_congr_left fun r _ => hweight r.grade
    rw [hmean, hsharingWeights, hsharing, hsums fun y => (y.2.2.1.getD 0 : Nat)]
    exact weightedMean_toNat (fun r => r.share.getD 0) hpos

section
/-! Forcing, assembling and closing in DRAINING: what passes, forcing and the close of a session leave and bring (R130 to R133,
R152, R154, R161). -/

namespace Sys2Proof.Machine

open Sys2Proof

/-! ### Causes only join, and SLIP is none of them -/

/-- Latched causes stay latched, and SLIP stays as it is. -/
structure CausesGain (s s' : State) : Prop where
  kept : ∀ i, s.cnd.latched.getLsbD i = true → s'.cnd.latched.getLsbD i = true
  slip : s'.cnd.latched.getLsbD 4 = s.cnd.latched.getLsbD 4

theorem CausesGain.of_eq {s s' : State} (h : s'.cnd = s.cnd) : CausesGain s s' := ⟨fun _ hi => by rw [h]; exact hi, by rw [h]⟩

theorem CausesGain.trans {s s' s'' : State} (h : CausesGain s s') (h' : CausesGain s' s'') : CausesGain s s'' :=
  ⟨fun i hi => h'.kept i (h.kept i hi), h'.slip.trans h.slip⟩

theorem CausesGain.latch (s : State) {c : Cause} (hc : (causeBit c).getLsbD 4 = false) : CausesGain s (latch c s) := by
  constructor
  · intro i hi
    show (s.cnd.latched ||| causeBit c).getLsbD i = true
    rw [BitVec.getLsbD_or, hi, Bool.true_or]
  · show (s.cnd.latched ||| causeBit c).getLsbD 4 = _
    rw [BitVec.getLsbD_or, hc, Bool.or_false]

theorem latched_late (s : State) : (latch .late s).cnd.latched.getLsbD 7 = true := by
  show (s.cnd.latched ||| causeBit .late).getLsbD 7 = true
  rw [BitVec.getLsbD_or]
  exact Bool.or_true _

/-! ### Frames handed over -/

theorem enqueue_line (c : Slc) (f : TxFrame) : (enqueue c f).1.line = c.line := by
  unfold enqueue
  cases classOfBody f.body <;> dsimp only <;> split <;> rfl

theorem enqueue_urgent {c : Slc} {f : TxFrame} (h : classOfBody f.body ≠ .urgent) : (enqueue c f).1.urgent = c.urgent := by
  unfold enqueue
  cases hc : classOfBody f.body with
  | urgent => exact absurd hc h
  | timing | bulk | service => dsimp only; split <;> rfl

theorem handOver_gains (b : Body) (n : BitVec 4) (s : State) : CausesGain s (handOver b n s) := by
  unfold handOver
  split
  · exact kept_onlyIf (.of_eq rfl) fun h => h.trans (.latch _ (by decide))
  · exact .of_eq rfl

theorem handOver_line (b : Body) (n : BitVec 4) (s : State) : (handOver b n s).slc.line = s.slc.line := by
  unfold handOver
  split
  · exact kept_onlyIf (P := fun u => u.slc.line = s.slc.line) (enqueue_line _ _) fun h => h
  · rfl

theorem handOver_elsewhere {b : Body} (h : classOfBody b ≠ .urgent) (n : BitVec 4) (s : State) :
    (handOver b n s).slc.urgent = s.slc.urgent := by
  unfold handOver
  split
  · exact kept_onlyIf (P := fun u => u.slc.urgent = s.slc.urgent) (enqueue_urgent (by exact h)) fun h => h
  · rfl

/-- URGENT frames, line state and causes after a step that hands over no URGENT frame. -/
structure HandsNoUrgent (s s' : State) : Prop where
  urgent : s'.slc.urgent = s.slc.urgent
  line   : s'.slc.line = s.slc.line
  causes : CausesGain s s'

theorem HandsNoUrgent.of_eq {s s' : State} (hslc : s'.slc = s.slc) (hcnd : s'.cnd = s.cnd) : HandsNoUrgent s s' :=
  ⟨by rw [hslc], by rw [hslc], .of_eq hcnd⟩

theorem HandsNoUrgent.trans {s s' s'' : State} (h : HandsNoUrgent s s') (h' : HandsNoUrgent s' s'') : HandsNoUrgent s s'' :=
  ⟨h'.urgent.trans h.urgent, h'.line.trans h.line, h.causes.trans h'.causes⟩

/-- A start that differs in neither the line nor the causes. -/
theorem HandsNoUrgent.before {s u v : State} (h : HandsNoUrgent u v) (hslc : u.slc = s.slc) (hcnd : u.cnd = s.cnd) :
    HandsNoUrgent s v := (HandsNoUrgent.of_eq hslc hcnd).trans h

theorem HandsNoUrgent.handOver {b : Body} (h : classOfBody b ≠ .urgent) (n : BitVec 4) (s : State) : HandsNoUrgent s (handOver b n s) :=
  ⟨handOver_elsewhere h n s, handOver_line b n s, handOver_gains b n s⟩

theorem HandsNoUrgent.reply (n : BitVec 4) (x : ReplyStatus) (k : Byte) (c : Content) (s : State) :
    HandsNoUrgent s (reply n x k c s) := .handOver (b := .reply x k c) (fun h => nomatch h) n s

theorem HandsNoUrgent.latch (s : State) {c : Cause} (hc : (causeBit c).getLsbD 4 = false) : HandsNoUrgent s (latch c s) :=
  ⟨rfl, rfl, .latch s hc⟩

theorem HandsNoUrgent.refuseDeferred (s : State) : HandsNoUrgent s (refuseDeferred s) := by
  unfold Machine.refuseDeferred
  split
  · exact .of_eq rfl rfl
  · exact (HandsNoUrgent.reply _ _ _ _ _).before rfl rfl

theorem HandsNoUrgent.answerDeferred (r : WagonRecord) (s : State) : HandsNoUrgent s (answerDeferred r s) := by
  unfold Machine.answerDeferred
  split
  · exact .of_eq rfl rfl
  · split
    · exact (HandsNoUrgent.reply _ _ _ _ _).before rfl rfl
    · exact .of_eq rfl rfl

theorem HandsNoUrgent.sendTally (r : WagonRecord) (s : State) : HandsNoUrgent s (sendTally r s) :=
  kept_onlyIf (P := HandsNoUrgent s) (.of_eq rfl rfl) fun h => h.trans (.handOver (b := .tally r) (fun h => nomatch h) _ _)

theorem HandsNoUrgent.joinRing (r : WagonRecord) (s : State) : HandsNoUrgent s (joinRing r s) := by
  refine HandsNoUrgent.trans (s' := overwriteOldest { s with rst := { s.rst with nextIndex := s.rst.nextIndex + 1 } }) ?_
    (.of_eq rfl rfl)
  unfold overwriteOldest
  split
  · exact .of_eq rfl rfl
  · split
    · exact .of_eq rfl rfl
    · split
      · exact HandsNoUrgent.before (.latch _ (by decide)) rfl rfl
      · exact .of_eq rfl rfl

theorem HandsNoUrgent.freshStart (n : Word16) (s : State) : HandsNoUrgent s (freshStart n s) := by
  have hfold : HandsNoUrgent s (s.atr.records.foldl (completeRecord n) s) := by
    refine kept_foldl (P := HandsNoUrgent s) (fun u r hu => ?_) _ _ (.of_eq rfl rfl)
    unfold completeRecord
    split
    · exact hu
    · exact hu.trans (.handOver (b := .step n _) (fun h => nomatch h) _ _)
  exact hfold.trans (.of_eq rfl rfl)

/-! ### Passes and forcing -/

theorem joinRing_ring (r : WagonRecord) (s : State) : ∀ x ∈ (joinRing r s).rst.ring, x ∈ s.rst.ring ∨ x = r := by
  intro x hx
  rcases List.mem_append.mp hx with hx | hx
  · refine .inl ?_
    rw [overwriteOldest_is] at hx
    exact List.mem_of_mem_drop hx
  · exact .inr (List.mem_singleton.mp hx)

/-- What assembling and forcing change: the line but for its URGENT queue, causes, table, spacing list, ring, and the wagon and
late counts of the summary. -/
structure Assembled (s s' : State) : Prop where
  frame   : ∃ a b w f c r, s' = { s with
              slc := a, cnd := b, was := w, fus := { s.fus with table := f }, ses := { s.ses with current := c }, rst := r }
  quiet   : HandsNoUrgent s s'
  ring    : ∀ r ∈ s'.rst.ring, r ∈ s.rst.ring ∨ r.session = s.ses.number
  summary : ∀ m, s.ses.current = some m →
              ∃ w l, m.wagons ≤ w ∧ s'.ses.current = some { m with wagons := w, late := l }

theorem Assembled.refl (s : State) : Assembled s s :=
  ⟨⟨_, _, _, _, _, _, rfl⟩, .of_eq rfl rfl, fun _ h => .inl h, fun m hm => ⟨m.wagons, m.late, le_refl _, hm⟩⟩

theorem Assembled.trans {s s' s'' : State} (h : Assembled s s') (h' : Assembled s' s'') : Assembled s s'' := by
  obtain ⟨⟨a, b, w, f, c, r, hs⟩, hq, hring, hsummary⟩ := h
  obtain ⟨⟨a', b', w', f', c', r', hs'⟩, hq', hring', hsummary'⟩ := h'
  refine ⟨⟨a', b', w', f', c', r', by rw [hs', hs]⟩, hq.trans hq', fun x hx => ?_, fun m hm => ?_⟩
  · rcases hring' x hx with hx | hx
    · exact hring x hx
    · exact .inr (by rw [hx, hs])
  · obtain ⟨n, l, hn, hm'⟩ := hsummary m hm
    obtain ⟨n', l', hn', hm''⟩ := hsummary' _ hm'
    exact ⟨n', l', hn.trans hn', hm''⟩

theorem Assembled.was {s s' : State} (h : Assembled s s') (w : Was) : Assembled s { s' with was := w } := by
  refine h.trans ⟨⟨_, _, _, _, _, _, rfl⟩, .of_eq rfl rfl, fun _ h => .inl h, fun m hm => ⟨m.wagons, m.late, le_refl _, hm⟩⟩

theorem countUp_ge (most n : Nat) : n ≤ countUp most n := by
  unfold countUp
  split <;> omega

theorem answerDeferred_ring (r : WagonRecord) (s : State) : (answerDeferred r s).rst.ring = s.rst.ring := by
  unfold answerDeferred
  split
  · rfl
  · split
    · obtain ⟨a, b, he⟩ := reply_eq _ .ok askFetchWagon (.record r) { s with rst := { s.rst with deferred := none } }
      rw [he]
    · rfl

theorem Assembled.storeRecord {r : WagonRecord} {s : State} (hr : r.session = s.ses.number) :
    Assembled s (storeRecord r s) := by
  obtain ⟨a, b, d, he⟩ := storeRecord_eq r s
  refine ⟨⟨_, _, _, _, _, _, he⟩, ?_, fun x hx => ?_, fun m hm => ⟨countUp 65535 m.wagons, m.late, countUp_ge _ _, ?_⟩⟩
  · have hjoin : HandsNoUrgent s (joinRing r { s with was := { s.was with wagons := r.wagon } }) :=
      (HandsNoUrgent.joinRing r _).before rfl rfl
    unfold Machine.storeRecord
    dsimp only
    generalize joinRing r { s with was := { s.was with wagons := r.wagon } } = u at hjoin ⊢
    have hcount : HandsNoUrgent s (countWagon u) := hjoin.trans (.of_eq rfl rfl)
    exact (hcount.trans (.sendTally r _)).trans (.answerDeferred r _)
  · have hring : (Machine.storeRecord r s).rst.ring = (joinRing r { s with was := { s.was with wagons := r.wagon } }).rst.ring := by
      unfold Machine.storeRecord
      dsimp only
      rw [answerDeferred_ring]
      obtain ⟨a', b', h'⟩ := sendTally_eq r (countWagon (joinRing r { s with was := { s.was with wagons := r.wagon } }))
      rw [h']
      rfl
    rw [hring] at hx
    rcases joinRing_ring r _ x hx with hx | hx
    · exact .inl hx
    · exact .inr (hx ▸ hr)
  · rw [he, hm]
    rfl

theorem Assembled.leaveGroup (g : Group) (s : State) : Assembled s (leaveGroup g s) := by
  obtain ⟨rf, f, he⟩ := leaveGroup_eq g s
  refine ⟨⟨_, _, _, _, _, _, he⟩, .of_eq (by rw [he]) (by rw [he]), fun x hx => .inl (by rw [he] at hx; exact hx),
    fun m hm => ⟨m.wagons, f m, le_refl _, ?_⟩⟩
  rw [he, hm]
  rfl

theorem Assembled.storeGroup (g : Group) (s : State) : Assembled s (storeGroup g s) :=
  (Assembled.storeRecord (r := buildRecord s g) rfl).trans (.leaveGroup g _)

theorem Assembled.pass (s : State) : Assembled s (pass s) :=
  passLoop_keeps (Q := Assembled s) (fun g _ _ h => h.trans (.storeGroup g _)) (fun _ _ h => h.was _) (fun _ _ h => h.was _)
    _ _ _ (.refl s)

theorem Assembled.table (s : State) (xs : List Entry) : Assembled s { s with fus := { s.fus with table := xs } } :=
  ⟨⟨_, _, _, _, _, _, rfl⟩, .of_eq rfl rfl, fun _ h => .inl h, fun m hm => ⟨m.wagons, m.late, le_refl _, hm⟩⟩

theorem Assembled.finalEntry (j : Nat) (s : State) : Assembled s (finalEntry j s) := (Assembled.table s _).trans (.pass _)

theorem Assembled.latch_late (s : State) : Assembled s (latch .late s) :=
  ⟨⟨_, _, _, _, _, _, rfl⟩, .latch s (by decide), fun _ h => .inl h, fun m hm => ⟨m.wagons, m.late, le_refl _, hm⟩⟩

theorem Assembled.forced (js : List Nat) (s : State) :
    Assembled s (js.foldl (fun s j => Machine.finalEntry j (markForced j s)) s) :=
  kept_foldl (P := Assembled s) (fun u j h => (h.trans (.table u _)).trans (.finalEntry j _)) js s (.refl s)

theorem Assembled.forceAll (s : State) : Assembled s (forceAll s) := by
  unfold Machine.forceAll
  split
  · exact .refl s
  · exact (Assembled.latch_late s).trans (.forced _ _)

/-- R154: forcing what is OPEN latches LATE. -/
theorem forceAll_late {s : State} (h : ∃ e ∈ s.fus.table, e.fused = none) :
    (forceAll s).cnd.latched.getLsbD 7 = true := by
  obtain ⟨e, he, ho⟩ := h
  unfold forceAll
  split
  · next hnone => exact absurd (hnone ▸ mem_openOrdinals he ho) List.not_mem_nil
  · exact (Assembled.forced _ _).quiet.causes.kept 7 (latched_late s)

/-- R130: the assembly to its end, from the state already closed for matching. -/
theorem Assembled.closeMatching (s : State) :
    Assembled { s with ses := { s.ses with closedForMatching := true } } (closeMatching s) := .pass _

/-! ### The end of DRAINING (R130 to R133) -/

/-- R132: after its SHUT the close hands over no URGENT frame. -/
theorem closeSession_quiet (s : State) : HandsNoUrgent (handShut s) (closeSession s) := by
  have hrefuse : HandsNoUrgent (handShut s) (refuseDeferred (fileSummary (handShut s))) :=
    (HandsNoUrgent.refuseDeferred _).before rfl rfl
  unfold closeSession
  dsimp only
  generalize refuseDeferred (fileSummary (handShut s)) = u at hrefuse ⊢
  exact (hrefuse.trans (.freshStart _ u)).trans (.of_eq rfl rfl)

theorem closeSession_gains (s : State) : CausesGain s (closeSession s) :=
  (handOver_gains _ _ s).trans (closeSession_quiet s).causes

/-- R132: the summary of the session closed. -/
theorem closeSession_last {s : State} {m : Summary} (h : s.ses.current = some m) :
    (closeSession s).ses.last = some (closeSummary s.atr.counter m) := by
  obtain ⟨a, b, w, he⟩ := closeSession_eq s
  rw [he]
  unfold fileSummary
  simp only [h]

theorem adoptHeld_none {s : State} (h : s.ses.held = none) : adoptHeld s = s := by
  unfold adoptHeld
  rw [h]

theorem adoptHeld_some {s : State} {x : HeldOpen} (h : s.ses.held = some x) :
    adoptHeld s = beginSession x.number x.direction false x.sender x.firstEdge x.received s.now
      { s with ses := { s.ses with held := none } } := by
  unfold adoptHeld
  rw [h]

/-- The session of an assembled state, when one was current. -/
theorem Assembled.session {s s' : State} (h : Assembled s s') {m : Summary} (hm : s.ses.current = some m) :
    ∃ w l, m.wagons ≤ w ∧ s'.ses = { s.ses with current := some { m with wagons := w, late := l } } := by
  obtain ⟨⟨a, b, w, f, c, r, he⟩, -, -, hsummary⟩ := h
  obtain ⟨n, l, hn, hcurrent⟩ := hsummary m hm
  refine ⟨n, l, hn, ?_⟩
  rw [he] at hcurrent ⊢
  exact congrArg (fun q => { s.ses with current := q }) hcurrent

theorem Assembled.tracker {s s' : State} (h : Assembled s s') : s'.atr = s.atr := by
  obtain ⟨⟨a, b, w, f, c, r, he⟩, -⟩ := h
  rw [he]

/-- R131: in DRAINING with every entry FINAL the tests assemble the train to its end and close the session. -/
theorem drainTests_ends {s : State} (h : AsmInv s) (hstate : s.ses.state = .draining)
    (hfinal : ∀ e ∈ s.fus.table, e.fused.isSome = true) :
    ∃ u, drainTests s = adoptHeld (closeSession u) ∧ u.fus.table = []
      ∧ Assembled { s with ses := { s.ses with closedForMatching := true } } u := by
  have hall : allFinal s = true := List.all_eq_true.mpr hfinal
  unfold drainTests
  cases hc : s.ses.closedForMatching with
  | true =>
    have hempty := h.matched hc
    have hsame : s = { s with ses := { s.ses with closedForMatching := true } } :=
      congrArg (fun q => ({ s with ses := { s.ses with closedForMatching := q } } : State)) hc
    refine ⟨s, ?_, hempty, ?_⟩
    · simp [hstate, hc, hempty]
    · exact hsame ▸ Assembled.refl s
  | false =>
    have hempty := closeMatching_empties h.toAsmCore hstate hfinal
    obtain ⟨⟨a, b, w, f, c, r, he⟩, -⟩ := Assembled.closeMatching s
    have hclosed : (closeMatching s).ses.closedForMatching = true := by rw [he]
    refine ⟨closeMatching s, ?_, hempty, .closeMatching s⟩
    simp [hstate, hall, hclosed, hempty]

end Sys2Proof.Machine
end

open Sys2Proof Sys2Proof.Machine

/-- Settles O48: every entry is forced, so the draining tests assemble to the end and close. -/
theorem drainLimitClosesTheSession : Obligations.DrainLimitClosesTheSession := by
  intro t d s hreset hinv hstate hlimit
  refine ⟨fun hearly => ?_, fun hdue => ?_⟩
  · refine congrArg Host.Outcome.next ((atTime_running _ _ s hreset).trans ?_)
    have hno : timerDue s.ses.drainLimit t = false := by rw [hlimit]; exact hearly
    unfold drainLimitDue
    simp only [hno, Bool.and_false, onlyIf_false]
  · obtain ⟨m, hm, -⟩ := hinv.session.opened (by rw [hstate]; exact fun h => nomatch h)
    generalize hA : ({ s with now := t } : State) = A
    have hinvA : AsmInv A := by rw [← hA]; exact asmInv_kept.now t s hinv
    have hexec : exec (.drainLimit t) s = .next (drainTests (forceAll A)) := by
      refine congrArg Host.Outcome.next ((atTime_running _ _ s hreset).trans ?_)
      have hyes : timerDue s.ses.drainLimit t = true := by rw [hlimit]; exact hdue
      rw [← hA]
      unfold drainLimitDue
      simp only [hstate, hyes, beq_self_eq_true, Bool.and_self, onlyIf_true]
    have hforced := Assembled.forceAll A
    obtain ⟨u, hu, hempty, hassembled⟩ := drainTests_ends (asmInv_keptPass.forceAll hinvA)
      ((forceAll_frame A).1.trans (by rw [← hA]; exact hstate)) (forceAll_finals A)
    have hmA : A.ses.current = some m := by rw [← hA]; exact hm
    obtain ⟨w, l, -, hses⟩ := hforced.session hmA
    obtain ⟨w', l', -, hses'⟩ := hassembled.session (m := { m with wagons := w, late := l }) (by rw [hses])
    have hsession : u.ses = { s.ses with
        closedForMatching := true, current := some { m with wagons := w', late := l' } } := by
      rw [hses', hses, ← hA]
    have hcounter : u.atr.counter = s.atr.counter := by
      rw [hassembled.tracker]
      exact (congrArg Atr.counter hforced.tracker).trans (by rw [← hA])
    have hlate : (∃ e ∈ s.fus.table, e.fused = none) → (closeSession u).cnd.latched.getLsbD 7 = true := by
      intro hopen
      have hlatched : (forceAll A).cnd.latched.getLsbD 7 = true := forceAll_late (by rw [← hA]; exact hopen)
      exact (closeSession_gains u).kept 7 (hassembled.quiet.causes.kept 7 hlatched)
    have hlast := closeSession_last (s := u) (m := { m with wagons := w', late := l' }) (by rw [hsession])
    rw [closeSummary_eq, hcounter] at hlast
    obtain ⟨a, b, h, hclose⟩ := closeSession_eq u
    generalize closeSession u = v at *
    have hheld : v.ses.held = s.ses.held := by rw [hclose]; exact (congrArg Ses.held hsession :)
    have htable : v.fus.table = [] := by rw [hclose]; exact hempty
    have hwas : v.was = Was.reset := by rw [hclose]
    have hatr : v.atr = Atr.reset := by rw [hclose]
    have hstate' : v.ses.state = .idle := by rw [hclose]; rfl
    have hcurrent : v.ses.current = none := by rw [hclose]; rfl
    have hdrain : v.ses.drainLimit = none := by rw [hclose]; rfl
    have hmatching : v.ses.closedForMatching = false := by rw [hclose]; rfl
    rw [hu] at hexec
    cases hx : s.ses.held with
    | none =>
      rw [adoptHeld_none (hheld.trans hx)] at hexec
      refine ⟨v, m, hexec, hm, htable, hwas, by rw [hatr]; rfl, by rw [hatr]; rfl, by rw [hatr]; rfl, hdrain, hmatching,
        hheld.trans hx, hlate, ⟨_, hlast, rfl, rfl, rfl, rfl, rfl, rfl⟩, fun _ => ⟨hstate', hcurrent⟩, fun _ h => (nomatch h)⟩
    | some x =>
      rw [adoptHeld_some (hheld.trans hx), beginSession_done (by rw [hatr]; exact fun _ h => nomatch h)] at hexec
      refine ⟨_, m, hexec, hm, htable, hwas, rfl, rfl, rfl, rfl, rfl, rfl, hlate, ⟨_, hlast, rfl, rfl, rfl, rfl, rfl, rfl⟩,
        fun h => (nomatch h), ?_⟩
      rintro h ⟨⟩
      exact ⟨rfl, rfl, rfl, rfl, rfl, rfl, rfl, rfl⟩

section
/-! Deadlines, heard STEPs and own estimates: how an entry becomes FINAL (R141, R142, R148 to R153). -/

namespace Sys2Proof.Machine

open Sys2Proof

/-! ### An entry made FINAL (R150) -/

theorem finalEntry_eq (j : Nat) (s : State) : finalEntry j s = pass (changeEntry j madeFinal s) := rfl

theorem changeEntry_rising {j : Nat} {f : Entry → Entry} (hf : ∀ e, (f e).ordinal = e.ordinal) {s : State}
    (h : s.fus.table.Pairwise fun a b => a.ordinal < b.ordinal) :
    (changeEntry j f s).fus.table.Pairwise fun a b => a.ordinal < b.ordinal := by
  have hkeeps : ∀ e : Entry, (if e.ordinal == j then f e else e).ordinal = e.ordinal := fun e => by
    split
    · exact hf e
    · rfl
  exact List.pairwise_map.mpr (h.imp fun hab => by rw [hkeeps, hkeeps]; exact hab)

/-- R150: what the entry's own assembly leaves of it is FINAL. -/
theorem finalEntry_found {j : Nat} {s : State} {e : Entry} (he : findEntry s j = some e)
    (hr : s.fus.table.Pairwise fun a b => a.ordinal < b.ordinal) {f : Entry}
    (hf : findEntry (finalEntry j s) j = some f) : f = madeFinal e := by
  have hmem : f ∈ (changeEntry j madeFinal s).fus.table := (pass_frame _).2.2.2 f (List.mem_of_find?_eq_some hf)
  have hmade : findEntry (changeEntry j madeFinal s) j = some (madeFinal e) := by
    rw [findEntry_changeEntry s j madeFinal fun _ => rfl, he]
    rfl
  exact rising_eq (changeEntry_rising (j := j) (f := madeFinal) (fun _ => rfl) hr) hmem (List.mem_of_find?_eq_some hmade)
    (by rw [find_ordinal hf, find_ordinal hmade])

/-- R150, R161: nothing more happens where the held group waits for another axle. -/
theorem finalEntry_waits {j : Nat} {s : State} (hg : GroupWaits s (·.ordinal = j)) :
    finalEntry j s = { changeEntry j madeFinal s with was := { s.was with roomForce := false } } := by
  obtain ⟨g, i, f, hgroup, hfirst, hlast, hf, ho, hother⟩ := hg
  have hi : i ≠ j := by simpa only [find_ordinal hf] using hother
  exact pass_waits (changeEntry j madeFinal s) (·.ordinal = j)
    ⟨g, i, f, hgroup, hfirst, hlast, (changeEntry_other s j i madeFinal (fun _ => rfl) hi).trans hf, ho, hother⟩

theorem drainTests_elsewhere {s : State} (h : s.ses.state ≠ .draining) : drainTests s = s :=
  if_neg fun hd => h (eq_of_beq hd)

/-! ### Causes over the draining tests -/

theorem CausesGain.before {s u v : State} (h : CausesGain u v) (hcnd : u.cnd = s.cnd) : CausesGain s v :=
  (CausesGain.of_eq hcnd).trans h

theorem beginSession_gains (n d b o x y z) (s : State) : CausesGain s (beginSession n d b o x y z s) := by
  have hblock : CausesGain s (abandonBlock (beginFields n d b o x y z s)) := by
    unfold abandonBlock
    split <;> exact .of_eq rfl
  exact (hblock.trans (HandsNoUrgent.freshStart _ _).causes).trans (.of_eq rfl)

theorem drainTests_gains (s : State) : CausesGain s (drainTests s) := by
  have hmatching : ∀ b : Bool, CausesGain s (if b = true then closeMatching s else s) := by
    intro b
    split
    · exact (Assembled.closeMatching s).quiet.causes.before rfl
    · exact .of_eq rfl
  have hadopt : ∀ u, CausesGain u (adoptHeld u) := by
    intro u
    unfold adoptHeld
    split
    · exact .of_eq rfl
    · exact (beginSession_gains _ _ _ _ _ _ _ _).before rfl
  unfold drainTests
  split
  · dsimp only
    have hclosed := hmatching (!s.ses.closedForMatching && allFinal s)
    generalize (if (!s.ses.closedForMatching && allFinal s) = true then closeMatching s else s) = u at hclosed ⊢
    split
    · exact (hclosed.trans (closeSession_gains u)).trans (hadopt _)
    · exact hclosed
  · exact .of_eq rfl

/-! ### Deadlines reached (R152) -/

/-- An entry forced FINAL (R152). -/
def forcedFinal (e : Entry) : Entry :=
  { e with forced := true, fused := some (fuse e), deadline := none, deadlinePeer := none }

theorem forceEntry_eq (j : Nat) (s : State) : forceEntry j s = drainTests (finalEntry j (latch .late (markForced j s))) := rfl

theorem markForced_found {j : Nat} {s : State} {e : Entry} (he : findEntry s j = some e) :
    findEntry (latch .late (markForced j s)) j = some { e with forced := true } := by
  have hf := findEntry_changeEntry s j (fun e => { e with forced := true }) fun _ => rfl
  rw [he] at hf
  exact hf

theorem markForced_other {i j : Nat} (h : i ≠ j) (s : State) :
    findEntry (latch .late (markForced j s)) i = findEntry s i :=
  changeEntry_other s j i (fun e => { e with forced := true }) (fun _ => rfl) h

theorem deadlineDue_early {j : Nat} {s : State} (h : ∀ e, findEntry s j = some e →
    e.fused.isSome = true ∨ e.deadline = none ∨ ∃ d, e.deadline = some d ∧ reached d s.now = false) : deadlineDue j s = s := by
  unfold deadlineDue
  split
  · rfl
  · next e he =>
    have hno : (!isFinal e && timerDue e.deadline s.now) = false := by
      rcases h e he with hf | hd | ⟨d, hd, hr⟩
      · rw [isFinal, hf]; rfl
      · rw [hd]; exact Bool.and_false _
      · rw [hd, timerDue, hr]; exact Bool.and_false _
    rw [hno, onlyIf_false]

theorem deadlineDue_forces {j : Nat} {s : State} {e : Entry} {d : Time} (he : findEntry s j = some e) (ho : e.fused = none)
    (hd : e.deadline = some d) (hdue : reached d s.now = true) : deadlineDue j s = forceEntry j s := by
  unfold deadlineDue
  rw [he]
  dsimp only
  rw [isFinal, ho, hd, timerDue_some hdue]
  rfl

theorem forceEntry_late (j : Nat) (s : State) : (forceEntry j s).cnd.latched.getLsbD 7 = true :=
  (drainTests_gains _).kept 7 ((Assembled.finalEntry j _).quiet.causes.kept 7 (latched_late _))

end Sys2Proof.Machine
end

open Sys2Proof Sys2Proof.Machine

/-- Settles O47: the deadline forces the entry; its assembly, and in DRAINING the draining tests, follow. -/
theorem deadlineForcesTheEntry : Obligations.DeadlineForcesTheEntry := by
  intro t ordinal s hreset j
  have hexec : ∀ u, deadlineDue j { s with now := t } = u → exec (.deadlineReached t ordinal) s = .next u := fun u hu =>
    congrArg Host.Outcome.next ((atTime_running _ _ s hreset).trans hu)
  refine ⟨fun hearly => hexec _ (deadlineDue_early (s := { s with now := t }) hearly), fun e d he ho hd hdue => ?_⟩
  have hforces := hexec _ (deadlineDue_forces (s := { s with now := t }) he ho hd hdue)
  have hfound := markForced_found (s := { s with now := t }) he
  refine ⟨⟨_, hforces, forceEntry_late j _, fun hrising hstate f hf => ?_⟩, ?_⟩
  · rw [forceEntry_eq, drainTests_elsewhere] at hf
    · exact finalEntry_found hfound (changeEntry_rising (j := j) (f := fun e => { e with forced := true }) (fun _ => rfl) hrising) hf
    · rw [finalEntry_eq, (pass_frame _).1]
      exact hstate
  · intro group waiting f hgroup hfirst hlast hother hf hopen hstate
    have hwaits : GroupWaits (latch .late (markForced j { s with now := t })) (·.ordinal = j) :=
      ⟨group, waiting, f, hgroup, hfirst, hlast, (markForced_other hother { s with now := t }).trans hf, hopen,
        fun h => hother ((find_ordinal hf).symm.trans h)⟩
    rw [forceEntry_eq, finalEntry_waits hwaits, drainTests_elsewhere (by exact hstate)] at hforces
    refine ⟨_, hforces, ?_, fun i hi => ?_, ?_⟩
    · rw [latch_late]
      rfl
    · exact (changeEntry_other _ j i madeFinal (fun _ => rfl) hi).trans (markForced_other hi { s with now := t })
    · have hmade := findEntry_changeEntry (latch .late (markForced j { s with now := t })) j madeFinal fun _ => rfl
      rw [hfound] at hmade
      exact hmade

section
/-! Heard STEPs (R140, R142, R144, R148 to R151, R155). -/

namespace Sys2Proof.Machine

open Sys2Proof

/-! ### Changes to one entry -/

theorem changeEntry_id (j : Nat) (s : State) : changeEntry j id s = s := by
  have hid : (fun e : Entry => if (e.ordinal == j) = true then id e else e) = id := funext fun e => ite_self _
  unfold changeEntry
  rw [hid, List.map_id]

/-- `u` is `s` but for the table, where only the entry of `j` differs. -/
structure OnlyEntry (j : Nat) (s u : State) : Prop where
  frame  : u = { s with fus := { s.fus with table := u.fus.table } }
  others : ∀ i, i ≠ j → findEntry u i = findEntry s i
  rising : s.fus.table.Pairwise (fun a b => a.ordinal < b.ordinal) → u.fus.table.Pairwise fun a b => a.ordinal < b.ordinal

theorem OnlyEntry.refl (j : Nat) (s : State) : OnlyEntry j s s := ⟨rfl, fun _ _ => rfl, id⟩

theorem OnlyEntry.trans {j : Nat} {s u v : State} (h : OnlyEntry j s u) (h' : OnlyEntry j u v) : OnlyEntry j s v :=
  ⟨h'.frame.trans (congrArg (fun w : State => { w with fus := { w.fus with table := v.fus.table } }) h.frame),
    fun i hi => (h'.others i hi).trans (h.others i hi), fun hr => h'.rising (h.rising hr)⟩

theorem OnlyEntry.changeEntry {j : Nat} {f : Entry → Entry} (hf : ∀ e, (f e).ordinal = e.ordinal) (s : State) :
    OnlyEntry j s (changeEntry j f s) :=
  ⟨rfl, fun i hi => changeEntry_other s j i f hf hi, changeEntry_rising hf⟩

theorem GroupWaits.congr {j : Nat} {s u : State} (hgroup : u.was.group = s.was.group)
    (hothers : ∀ i, i ≠ j → findEntry u i = findEntry s i) (h : GroupWaits s (·.ordinal = j)) :
    GroupWaits u (·.ordinal = j) := by
  obtain ⟨g, i, f, hg, hfirst, hlast, hf, ho, hother⟩ := h
  have hi : i ≠ j := by simpa only [find_ordinal hf] using hother
  exact ⟨g, i, f, hgroup.trans hg, hfirst, hlast, (hothers i hi).trans hf, ho, hother⟩

/-- R148 to R150: the test of an OPEN entry once it alone has changed, to `taken` but for its deadline. -/
theorem OnlyEntry.tested {j : Nat} {s u : State} {taken f₀ : Entry} (h : OnlyEntry j s u) (hfound : findEntry u j = some f₀)
    (hkeeps : f₀ = { taken with deadline := f₀.deadline, deadlinePeer := f₀.deadlinePeer }) (ho : taken.fused = none) :
    ((IsComplete s taken → GroupWaits s (·.ordinal = j)) →
      ∃ v f, testEntry j u = v ∧ v = { s with fus := { s.fus with table := v.fus.table }, was := v.was }
        ∧ (∀ i, i ≠ j → findEntry v i = findEntry s i) ∧ findEntry v j = some f
        ∧ (IsComplete s taken → f = madeFinal taken ∧ v.was = { s.was with roomForce := false })
        ∧ (¬ IsComplete s taken → v.was = s.was ∧ f = f₀))
    ∧ (IsComplete s taken → s.fus.table.Pairwise (fun a b => a.ordinal < b.ordinal) → s.ses.state ≠ .draining →
        ∀ f, findEntry (testEntry j u) j = some f → f = madeFinal taken) := by
  have hof : f₀.fused = none := by rw [hkeeps]; exact ho
  have hfinal : madeFinal f₀ = madeFinal taken := by rw [hkeeps]; rfl
  have hwas : u.was = s.was := by rw [h.frame]
  have hcomplete : IsComplete u f₀ ↔ IsComplete s taken :=
    isComplete_congr (by rw [h.frame]) (by rw [h.frame]) (by rw [h.frame]) (by rw [h.frame]) hkeeps
  refine ⟨fun hgroup => ?_, fun hc hr hstate f hf => ?_⟩
  · have hgroupU : IsComplete u f₀ → GroupWaits u (·.ordinal = j) := fun hc =>
      (hgroup (hcomplete.mp hc)).congr (by rw [hwas]) h.others
    obtain ⟨v, f, hv, hvframe, hothers, hvfound, hmade, hstays⟩ := testEntry_is u j f₀ hfound hof hgroupU
    refine ⟨v, f, hv, ?_, fun i hi => (hothers i hi).trans (h.others i hi), hvfound, fun hc => ?_, fun hc => ?_⟩
    · exact hvframe.trans
        (congrArg (fun w : State => { w with fus := { w.fus with table := v.fus.table }, was := v.was }) h.frame)
    · obtain ⟨hf, hw⟩ := hmade (hcomplete.mpr hc)
      exact ⟨hf.trans hfinal, by rw [hw, hwas]⟩
    · obtain ⟨hf, hvu⟩ := hstays (mt hcomplete.mp hc)
      exact ⟨by rw [hvu, hwas], hf⟩
  · exact (testEntry_made u j f₀ hfound hof (hcomplete.mpr hc) (h.rising hr) (by rw [h.frame]; exact hstate) f hf).trans
      hfinal

/-! ### A STEP taken, late or ignored (R142, R155) -/

theorem fusWorks_of {s : State} (h : s.stc.station = .settling ∨ s.stc.station = .ready) : fusWorks s = true := by
  unfold fusWorks
  rcases h with h | h <;> rw [h] <;> rfl

section
variable {n : Nat} {start : Time} {p : List Byte} {s : State}

theorem takeStep_works (h : s.stc.station = .settling ∨ s.stc.station = .ready) :
    takeStep n start p s =
      if currentNumber s (wordAt p 0) && sessionOpen s then
        if at2 p 2 == 0 || at1 p 4 == 0 then s
        else
          match stepRow p with
          | none => s
          | some r => takeRow (at2 p 2) n start r s
      else if (s.ses.last.map (·.number)) == some (wordAt p 0) then lateInLast s
      else s := by
  unfold takeStep
  rw [fusWorks_of h]
  rfl

theorem known_iff (s : State) (number : Word16) : (currentNumber s number && sessionOpen s) = true ↔
    (s.fus.current = some number ∨ s.fus.superseded = some number) ∧ s.ses.state ≠ .idle := by
  unfold currentNumber sessionOpen
  simp

theorem gradeOfByte_table (b : Byte) : gradeOfByte b = [Grade.a, .b, .c, .n][b.toNat]? := by
  by_cases h : b.toNat ≤ 3
  · have hb : b = BitVec.ofNat 8 b.toNat := (BitVec.ofNat_toNat 8 b ▸ rfl)
    generalize b.toNat = k at h hb
    subst hb
    interval_cases k <;> rfl
  · have hne : ∀ k : Nat, k ≤ 3 → (b == BitVec.ofNat 8 k) = false := fun k hk => by
      rw [beq_eq_false_iff_ne]
      rintro rfl
      rw [BitVec.toNat_ofNat] at h
      omega
    have hnone : [Grade.a, .b, .c, .n][b.toNat]? = none := List.getElem?_eq_none (by simp; omega)
    rw [hnone]
    have h0 : (b == 0) = false := hne 0 (by decide)
    have h1 : (b == 1) = false := hne 1 (by decide)
    have h2 : (b == 2) = false := hne 2 (by decide)
    have h3 : (b == 3) = false := hne 3 (by decide)
    unfold gradeOfByte
    simp only [h0, h1, h2, h3, Bool.false_eq_true, if_false]

end

/-! ### The row put in its entry (R142, R144, R151) -/

section
variable {j n : Nat} {start : Time} {r : PeerRow} {e : Entry} {s : State}

theorem putRow_older {old : PeerRow} (ho : place e.rows n none = some old) (h : r.revision < old.revision) :
    putRow j n start r e s = s := by
  unfold putRow
  rw [ho]
  exact if_pos h

theorem putRow_takes (h : ∀ old, place e.rows n none = some old → old.revision ≤ r.revision) :
    putRow j n start r e s = testEntry j (setRowDeadline j n start (checkRow j n r s)) := by
  unfold putRow
  split
  · next old ho => exact if_neg (Nat.not_lt.mpr (h old ho))
  · rfl

/-- R144: the row as it is kept. -/
def keptRow (s : State) (e : Entry) (n : Nat) (r : PeerRow) : PeerRow := { r with alignment := alignmentOf s e n r }

theorem checkRow_is (he : findEntry s j = some e) :
    checkRow j n r s = { setRow j n (keptRow s e n r) s with
      cnd := if alignmentOf s e n r = .misaligned then slipped s.cnd else s.cnd } := by
  unfold checkRow
  rw [he]
  by_cases ha : alignmentOf s e n r = .misaligned
  · simp only [ha, beq_self_eq_true, onlyIf_true, if_true, latch_slip]
    unfold keptRow
    rw [ha]
    rfl
  · simp only [ha, beq_eq_false_iff_ne.mpr ha, onlyIf_false, if_false]
    rfl

/-- R151: the entry with the deadline that a taken row gives it. -/
def rowDeadline (s : State) (n : Nat) (start : Time) (e : Entry) : Entry :=
  if s.ses.state = .halted ∨ isFurthestBeyond s n = false ∨ e.own.isSome = true then e
  else withDeadline s none (addUs start 2000000) e

theorem rowDeadline_keeps (s : State) (n : Nat) (start : Time) (e : Entry) : rowDeadline s n start e =
    { e with deadline := (rowDeadline s n start e).deadline, deadlinePeer := (rowDeadline s n start e).deadlinePeer } := by
  unfold rowDeadline
  split <;> rfl

theorem rowDeadline_unset (h : s.ses.state = .halted ∨ isFurthestBeyond s n = false ∨ e.own.isSome = true) :
    rowDeadline s n start e = e := if_pos h

theorem rowDeadline_set (hrun : s.ses.state ≠ .halted) (hfar : isFurthestBeyond s n = true) (hown : e.own = none) :
    rowDeadline s n start e = { e with
      deadline := some (if earlier (start + 2000000) s.now then s.now else start + 2000000), deadlinePeer := none } := by
  refine (if_neg fun h => ?_).trans rfl
  rcases h with h | h | h
  · exact hrun h
  · exact nomatch h.symm.trans hfar
  · rw [hown] at h
    exact nomatch h

theorem isFurthestBeyond_iff (s : State) (n : Nat) :
    isFurthestBeyond s n = true ↔ furthestPeer s = some n ∧ LiesBeyond s n := by
  unfold isFurthestBeyond
  rw [Bool.and_eq_true, beq_iff_eq, decide_eq_true_eq, exitDistance_pos]

theorem setRowDeadline_is (j n : Nat) (start : Time) (s : State) :
    setRowDeadline j n start s = changeEntry j (rowDeadline s n start) s := by
  unfold setRowDeadline
  by_cases hstays : s.ses.state = .halted ∨ isFurthestBeyond s n = false
  · have hfun : rowDeadline s n start = id := funext fun e => if_pos (hstays.imp_right .inl)
    rw [hfun, changeEntry_id, if_pos]
    simpa using hstays
  · rw [if_neg (by simpa using hstays)]
    congr 1
    funext e
    unfold rowDeadline
    obtain ⟨hrun, hbeyond⟩ := not_or.mp hstays
    by_cases ho : e.own.isSome = true
    · rw [if_pos ho, if_pos (.inr (.inr ho))]
    · rw [if_neg ho, if_neg (not_or.mpr ⟨hrun, not_or.mpr ⟨hbeyond, ho⟩⟩)]

/-- R142: the entry with the row taken, before its deadline. -/
def rowEntry (s : State) (e : Entry) (n : Nat) (r : PeerRow) : Entry :=
  { e with rows := e.rows.set n (some (keptRow s e n r)) }

/-- R142, R144, R151: what putting the row in leaves, before the entry is tested. -/
theorem rowPut_is (he : findEntry s j = some e) :
    ∃ u, setRowDeadline j n start (checkRow j n r s) = u
      ∧ OnlyEntry j { s with cnd := if alignmentOf s e n r = .misaligned then slipped s.cnd else s.cnd } u
      ∧ findEntry u j = some (rowDeadline s n start (rowEntry s e n r)) := by
  have hset := findEntry_changeEntry s j (fun e' => { e' with rows := setPlace e'.rows n (some (keptRow s e n r)) })
    fun _ => rfl
  rw [he] at hset
  generalize hc : (if alignmentOf s e n r = .misaligned then slipped s.cnd else s.cnd) = c
  have hput : setRowDeadline j n start (checkRow j n r s)
      = changeEntry j (rowDeadline s n start) { setRow j n (keptRow s e n r) s with cnd := c } := by
    rw [setRowDeadline_is, checkRow_is he, hc]
    rfl
  have hkeeps : ∀ e', (rowDeadline s n start e').ordinal = e'.ordinal := fun e' => by rw [rowDeadline_keeps]
  refine ⟨_, hput, ?_, ?_⟩
  · refine OnlyEntry.trans (u := { setRow j n (keptRow s e n r) s with cnd := c }) ?_ (.changeEntry hkeeps _)
    exact OnlyEntry.changeEntry (f := fun e' => { e' with rows := setPlace e'.rows n (some (keptRow s e n r)) })
      (fun _ => rfl) { s with cnd := c }
  · rw [findEntry_changeEntry _ _ _ hkeeps]
    exact congrArg (Option.map (rowDeadline s n start)) hset

end

/-! ### The entry held or made (R139, R140) -/

section
variable {j : Nat} {time : Option Time} {speed : Option Nat} {s : State}

theorem ensureEntry_there (h : (findEntry s j).isSome = true) : ensureEntry j time speed s = s :=
  if_pos (by rw [h]; rfl)

theorem ensureEntry_barred (h : mayCreate s j = false) : ensureEntry j time speed s = s :=
  if_pos (by rw [h]; exact Bool.or_true _)

theorem mayCreate_iff (s : State) (j : Nat) :
    mayCreate s j = true ↔ s.ses.state ≠ .idle ∧ s.ses.closedForMatching = false ∧ s.was.cursor ≤ j := by
  unfold mayCreate sessionOpen
  simp [and_assoc]

theorem ensureEntry_makes (h : findEntry s j = none) (hmay : mayCreate s j = true) (hroom : s.fus.table.length < 64) :
    ensureEntry j time speed s = createEntry j time speed s := by
  have hopen : sessionOpen s = true := bne_iff_ne.mpr ((mayCreate_iff s j).mp hmay).1
  have hroom' : hasRoom s = true := decide_eq_true hroom
  unfold ensureEntry stillOpen
  simp only [h, hmay, hroom', hopen, beq_self_eq_true, Option.isSome_none, Option.isNone_none, Bool.not_true, Bool.or_self,
    Bool.and_self, Bool.false_eq_true, if_true, if_false]

/-- R139, R153: the deadline of an entry made. -/
def birthDeadline (s : State) : Option Time := if s.ses.state = .draining then some (s.now + 2000000) else none

theorem createEntry_is (j : Nat) (time : Option Time) (speed : Option Nat) (s : State) :
    createEntry j time speed s = { s with
      fus := { s.fus with table := insertEntry (newEntry j time speed (birthDeadline s)) s.fus.table },
      was := { s.was with highest := max s.was.highest j } } := by
  unfold createEntry birthDeadline
  by_cases hd : s.ses.state = .draining
  · rw [if_pos hd, if_pos (beq_iff_eq.mpr hd)]; rfl
  · rw [if_neg hd, if_neg fun h => hd (eq_of_beq h)]; rfl

theorem createEntry_found (h : findEntry s j = none) :
    findEntry (createEntry j time speed s) j = some (newEntry j time speed (birthDeadline s)) := by
  rw [createEntry_is]
  exact find_insert_self (newEntry j time speed (birthDeadline s)) _ h

theorem createEntry_other {i : Nat} (hi : i ≠ j) : findEntry (createEntry j time speed s) i = findEntry s i := by
  rw [createEntry_is]
  exact find_insert_other _ _ i hi

theorem createEntry_rising (h : findEntry s j = none) (hr : s.fus.table.Pairwise fun a b => a.ordinal < b.ordinal) :
    (createEntry j time speed s).fus.table.Pairwise fun a b => a.ordinal < b.ordinal := by
  rw [createEntry_is]
  refine insertEntry_rising _ _ hr fun x hx => ?_
  exact fun hxj => List.find?_eq_none.mp h x hx (beq_iff_eq.mpr hxj)

end

/-! ### A late STEP (R155) -/

theorem lateInCurrent_is (s : State) : lateInCurrent s = { s with
    cnd := { s.cnd with
      latched := s.cnd.latched ||| 128, faultLow := ((s.cnd.latched ||| 128) &&& s.cnd.enable) != 0 },
    ses := { s.ses with current := s.ses.current.map fun m => { m with late := min 65535 (m.late + 1) } } } := by
  unfold lateInCurrent
  rw [latch_late]
  rfl

theorem lateInEntry_is (j : Nat) (s : State) : lateInEntry j s = { s with
    cnd := { s.cnd with
      latched := s.cnd.latched ||| 128, faultLow := ((s.cnd.latched ||| 128) &&& s.cnd.enable) != 0 },
    fus := { s.fus with
      table := s.fus.table.map fun e =>
        if e.ordinal = j then { e with late := if e.late < 65535 then e.late + 1 else e.late } else e } } := by
  unfold lateInEntry
  rw [latch_late]
  unfold changeEntry countUp
  simp only [beq_iff_eq]

theorem lateInLast_is {s : State} {m : Summary} (hm : s.ses.last = some m) : lateInLast s = { s with
    cnd := { s.cnd with
      latched := s.cnd.latched ||| 128, faultLow := ((s.cnd.latched ||| 128) &&& s.cnd.enable) != 0 },
    ses := { s.ses with
      last := some { m with late := if m.late < 65535 then m.late + 1 else m.late } } } := by
  unfold lateInLast
  rw [latch_late, hm]
  rfl

section
variable {j n : Nat} {start : Time} {r : PeerRow} {s : State}

theorem takeRow_past (h : j < s.was.cursor) : takeRow j n start r s = lateInCurrent s := if_pos h

theorem takeRow_barred (hopen : s.ses.state ≠ .idle) (he : findEntry s j = none)
    (hc : s.ses.closedForMatching = true) : takeRow j n start r s = lateInCurrent s := by
  have hno : mayCreate s j = false := Bool.eq_false_iff.mpr fun h => nomatch hc.symm.trans ((mayCreate_iff s j).mp h).2.1
  have hopen' : sessionOpen s = true := bne_iff_ne.mpr hopen
  unfold takeRow lateWithoutEntry stillOpen
  simp only [ensureEntry_barred hno, he, hopen', beq_self_eq_true, Bool.and_self, if_true, ite_self]

theorem takeRow_held {e : Entry} (h : s.was.cursor ≤ j) (he : findEntry s j = some e) :
    takeRow j n start r s = if isFinal e then lateInEntry j s else putRow j n start r e s := by
  have hthere : ensureEntry j none none s = s := ensureEntry_there (by rw [he]; rfl)
  unfold takeRow
  rw [if_neg (Nat.not_lt.mpr h)]
  simp only [hthere, he]

theorem takeRow_made (h : s.was.cursor ≤ j) (hopen : s.ses.state ≠ .idle) (hc : s.ses.closedForMatching = false)
    (he : findEntry s j = none) (hroom : s.fus.table.length < 64) :
    takeRow j n start r s =
      putRow j n start r (newEntry j none none (birthDeadline s)) (createEntry j none none s) := by
  have hmakes : ensureEntry j none none s = createEntry j none none s :=
    ensureEntry_makes he ((mayCreate_iff s j).mpr ⟨hopen, hc, h⟩) hroom
  unfold takeRow
  rw [if_neg (Nat.not_lt.mpr h)]
  simp only [hmakes, createEntry_found he]
  rfl

/-- R142: the OPEN entry of `j` a row of station `n` joins, held with no higher revision or to be made. -/
def HeldOrMade (s : State) (j n : Nat) (r : PeerRow) (e : Entry) : Prop :=
  (findEntry s j = some e ∧ e.fused = none ∧ ∀ old, place e.rows n none = some old → old.revision ≤ r.revision)
    ∨ (findEntry s j = none ∧ s.ses.closedForMatching = false ∧ s.fus.table.length < 64
      ∧ e = newEntry j none none (birthDeadline s))

/-- R140: the state in which the row is put, with the entry held or made. -/
theorem takeRow_puts {e : Entry} (hopen : s.ses.state ≠ .idle) (hcursor : s.was.cursor ≤ j) (he : HeldOrMade s j n r e) :
    ∃ u, takeRow j n start r s = putRow j n start r e u
      ∧ findEntry u j = some e ∧ e.fused = none ∧ (∀ old, place e.rows n none = some old → old.revision ≤ r.revision)
      ∧ u = { s with
          fus := { s.fus with table := u.fus.table },
          was := { s.was with highest := if findEntry s j = none then max s.was.highest j else s.was.highest } }
      ∧ (∀ i, i ≠ j → findEntry u i = findEntry s i)
      ∧ (s.fus.table.Pairwise (fun a b => a.ordinal < b.ordinal) → u.fus.table.Pairwise fun a b => a.ordinal < b.ordinal) := by
  rcases he with ⟨he, ho, hold⟩ | ⟨hnone, hclosed, hroom, rfl⟩
  · refine ⟨s, ?_, he, ho, hold, ?_, fun _ _ => rfl, id⟩
    · rw [takeRow_held hcursor he]
      exact if_neg (by rw [isFinal, ho]; exact Bool.false_ne_true)
    · rw [if_neg fun h => nomatch h.symm.trans he]
  · refine ⟨createEntry j none none s, takeRow_made hcursor hopen hclosed hnone hroom, createEntry_found hnone, rfl,
      fun old hold => (nomatch (place_replicate 8 n none).symm.trans hold), ?_, fun i hi => createEntry_other hi,
      createEntry_rising hnone⟩
    rw [if_pos hnone, createEntry_is]

/-- R142, R144, R148 to R151: the row joins the entry, which is then tested. -/
theorem takeRow_tested {e : Entry} (hj : j ≠ 0) (hopen : s.ses.state ≠ .idle) (hcursor : s.was.cursor ≤ j)
    (he : HeldOrMade s j n r e) :
    let taken := rowEntry s e n r
    let was : Was := { s.was with highest := if findEntry s j = none then max s.was.highest j else s.was.highest }
    ((IsComplete s taken → GroupWaits s (·.ordinal = j)) →
      ∃ u f, takeRow j n start r s = u
        ∧ u = { s with
            fus := { s.fus with table := u.fus.table }, was := u.was,
            cnd := if alignmentOf s e n r = .misaligned then slipped s.cnd else s.cnd }
        ∧ (∀ i, i ≠ j → findEntry u i = findEntry s i) ∧ findEntry u j = some f
        ∧ (IsComplete s taken → f = madeFinal taken ∧ u.was = { was with roomForce := false })
        ∧ (¬ IsComplete s taken → u.was = was ∧ f = rowDeadline s n start taken))
    ∧ (IsComplete s taken → s.fus.table.Pairwise (fun a b => a.ordinal < b.ordinal) → s.ses.state ≠ .draining →
        ∀ f, findEntry (takeRow j n start r s) j = some f → f = madeFinal taken) := by
  intro taken was
  obtain ⟨B, hput, heB, ho, hold, hframe, hothers, hrising⟩ := takeRow_puts (start := start) hopen hcursor he
  have hje : e.ordinal = j := find_ordinal heB
  have halign : alignmentOf B e n r = alignmentOf s e n r :=
    alignmentOf_congr (s := s) (by rw [hframe]) (by rw [hframe]) (by rw [hframe])
      (fun i hi => by rw [hothers i (by omega)]) rfl n r
  have hentry : rowEntry B e n r = taken := by
    unfold rowEntry keptRow
    rw [halign]
    rfl
  have hdeadline : rowDeadline B n start = rowDeadline s n start := by rw [hframe]; rfl
  obtain ⟨u, hu, honly, hfound⟩ := rowPut_is (n := n) (start := start) (r := r) heB
  rw [halign, show B.cnd = s.cnd by rw [hframe]] at honly
  rw [hentry, hdeadline] at hfound
  have htests : takeRow j n start r s = testEntry j u := by rw [hput, putRow_takes hold, hu]
  have hbase : ∀ x : Cnd, ({ B with cnd := x } : State) = { s with
      fus := { s.fus with table := B.fus.table }, was := was, cnd := x } := fun x =>
    congrArg (fun w : State => { w with cnd := x }) hframe
  have hgroupB : GroupWaits s (·.ordinal = j) → ∀ x : Cnd, GroupWaits { B with cnd := x } (·.ordinal = j) :=
    fun hg x => hg.congr (by rw [hframe]) hothers
  have hcomplete : ∀ x : Cnd, IsComplete { B with cnd := x } taken ↔ IsComplete s taken := fun x =>
    isComplete_congr (by rw [hframe]) (by rw [hframe]) (by rw [hframe]) (by rw [hframe]) rfl
  obtain ⟨htested, hmade⟩ := honly.tested hfound (rowDeadline_keeps s n start taken) ho
  rw [hcomplete] at htested hmade
  rw [htests]
  refine ⟨fun hgroup => ?_, fun hc hr hstate f hf => hmade hc (hrising hr) (by rw [hframe]; exact hstate) f hf⟩
  obtain ⟨v, f, hv, hvframe, hvothers, hvfound, hfinal, hstays⟩ := htested fun hc => hgroupB (hgroup hc) _
  have hwas : B.was = was := by rw [hframe]
  refine ⟨v, f, hv, ?_, fun i hi => (hvothers i hi).trans (hothers i hi), hvfound, fun hc => ?_, fun hc => ?_⟩
  · exact hvframe.trans (congrArg (fun w : State => { w with fus := { w.fus with table := v.fus.table }, was := v.was })
      (hbase (if alignmentOf s e n r = .misaligned then slipped s.cnd else s.cnd)))
  · obtain ⟨hf, hw⟩ := hfinal hc
    exact ⟨hf, hw.trans (congrArg (fun w : Was => { w with roomForce := false }) hwas)⟩
  · obtain ⟨hw, hf⟩ := hstays hc
    exact ⟨hw.trans hwas, hf⟩

end

end Sys2Proof.Machine
end

open Sys2Proof Sys2Proof.Machine

/-- Settles O44: the entry is held or made, the row joins it, and the entry is tested. -/
theorem stepBecomesRow : Obligations.StepBecomesRow := by
  intro t x rest s n c number j known entry lateCnd lateNow row edge beyond limit hwaits hstation
  generalize hA : afterHead t rest s = A
  have hstationA : A.stc.station = .settling ∨ A.stc.station = .ready := by rw [← hA]; exact hstation
  have hknown : (currentNumber A number && sessionOpen A) = true ↔ known := by rw [← hA]; exact known_iff _ number
  have htake : exec (.stepDispatch t) s = .next (takeStep n x.start c A) := by
    rw [← hA]
    exact congrArg Host.Outcome.next (dispatch_eq .step stepDispatched t s x rest hwaits)
  have hout : ¬ known → takeStep n x.start c A =
      if (s.ses.last.map (·.number)) == some number then lateInLast A else A := by
    intro hk
    rw [takeStep_works hstationA, if_neg (mt hknown.mp hk), ← hA]
    rfl
  refine ⟨fun hbad hunknown => ?_, fun hunknown m hm hnumber => ?_, fun g hk hj hrev hg => ?_⟩
  · by_cases hk : known
    · rw [takeStep_works hstationA, if_pos (hknown.mpr hk)] at htake
      by_cases hshort : (at2 c 2 == 0 || at1 c 4 == 0) = true
      · rw [htake, if_pos hshort]
      · obtain ⟨hj, hrev⟩ := not_or.mp (mt (Bool.or_eq_true _ _).mpr hshort)
        have hgrade : 3 < at1 c 8 :=
          ((hbad hk).resolve_left fun h => hj (beq_iff_eq.mpr h)).resolve_left fun h => hrev (beq_iff_eq.mpr h)
        have hnone : stepRow c = none := by
          unfold stepRow
          rw [gradeOfByte_table]
          exact congrArg (Option.map _) (List.getElem?_eq_none (by exact hgrade))
        rw [htake, if_neg hshort, hnone]
    · rw [htake, hout hk]
      refine congrArg Host.Outcome.next (if_neg fun hlast => ?_)
      obtain ⟨m, hm, hmn⟩ := Option.map_eq_some_iff.mp (eq_of_beq hlast)
      exact hunknown hk m hm hmn
  · have hmA : A.ses.last = some m := by rw [← hA]; exact hm
    rw [htake, hout hunknown, if_pos (by rw [hm, Option.map_some, hnumber, beq_self_eq_true]), lateInLast_is hmA, ← hA]
    rfl
  · have hgrade : stepRow c = some (row g .unchecked) := by
      unfold stepRow
      rw [gradeOfByte_table]
      exact congrArg (Option.map _) hg
    have hrow : exec (.stepDispatch t) s = .next (takeRow j n x.start (row g .unchecked) A) := by
      have hshort : (at2 c 2 == 0 || at1 c 4 == 0) = false := by
        rw [beq_eq_false_iff_ne.mpr hj, beq_eq_false_iff_ne.mpr hrev]; rfl
      rw [htake, takeStep_works hstationA, if_pos (hknown.mpr hk), hshort, hgrade]
      rfl
    have hopenA : A.ses.state ≠ .idle := by rw [← hA]; exact hk.2
    have hfind : ∀ i, findEntry A i = findEntry s i := fun i => by rw [← hA]; rfl
    refine ⟨fun hlate => ?_, fun e hcursor he hf => ?_, fun e old hcursor he ho hold hlower => ?_, fun e hcursor he => ?_⟩
    · have hcurrent : takeRow j n x.start (row g .unchecked) A = lateInCurrent A := by
        rcases hlate with hpast | ⟨hnone, hclosed⟩
        · exact takeRow_past (by rw [← hA]; exact hpast)
        · exact takeRow_barred hopenA ((hfind j).trans hnone) (by rw [← hA]; exact hclosed)
      rw [hrow, hcurrent, lateInCurrent_is, ← hA]
      rfl
    · rw [hrow, takeRow_held (by rw [← hA]; exact hcursor) ((hfind j).trans he), if_pos (by exact hf)]
      rw [lateInEntry_is, ← hA]
      rfl
    · rw [hrow, takeRow_held (by rw [← hA]; exact hcursor) ((hfind j).trans he), if_neg (by rw [isFinal, ho]; exact Bool.false_ne_true),
        putRow_older hold hlower]
    · intro a taken was
      have he' : HeldOrMade A j n (row g .unchecked) e := by
        rcases he with ⟨he, ho, hold⟩ | ⟨hnone, hclosed, hroom, he⟩
        · exact .inl ⟨(hfind j).trans he, ho, hold⟩
        · exact .inr ⟨(hfind j).trans hnone, by rw [← hA]; exact hclosed, by rw [← hA]; exact hroom, by rw [he, ← hA]; rfl⟩
      obtain ⟨htested, hmade⟩ := takeRow_tested (start := x.start) hj hopenA (by rw [← hA]; exact hcursor) he'
      rw [← hA] at htested hmade hrow
      refine ⟨fun hgroup => ?_, fun hc hr hstate => ⟨_, hrow, hmade hc hr hstate⟩⟩
      obtain ⟨u, f, hu, hframe, hothers, hfound, hcomplete, hopen⟩ := htested hgroup
      have hcnd : u.cnd = if a = .misaligned then slipped s.cnd else s.cnd := congrArg State.cnd hframe
      refine ⟨u, f, by rw [hrow, hu], ?_, hothers, hfound, hcomplete, fun hc => ?_, fun ha => hcnd.trans (if_pos ha),
        fun ha => hcnd.trans (if_neg ha)⟩
      · rw [hcnd, ← hA]
        exact hframe
      · obtain ⟨hwas, hf⟩ := hopen hc
        refine ⟨hwas, by rw [hf]; exact rowDeadline_keeps _ n x.start taken, fun hrun hown hfurthest hbeyond => ?_, fun hno => ?_⟩
        · have hset := rowDeadline_set (s := afterHead t rest s) (start := x.start) (e := taken) hrun
            ((isFurthestBeyond_iff _ n).mpr ⟨hfurthest, hbeyond⟩) hown
          rw [hf]
          exact ⟨congrArg Entry.deadline hset, congrArg Entry.deadlinePeer hset⟩
        · have hunset : rowDeadline (afterHead t rest s) n x.start taken = taken := rowDeadline_unset (by
            have hfar := (isFurthestBeyond_iff (afterHead t rest s) n).mp
            rcases hno with h | h | h | h
            · exact .inl h
            · exact .inr (.inr h)
            · exact .inr (.inl (Bool.eq_false_iff.mpr fun hb => h (hfar hb).1))
            · exact .inr (.inl (Bool.eq_false_iff.mpr fun hb => h (hfar hb).2)))
          rw [hf]
          exact ⟨(congrArg Entry.deadline hunset :), (congrArg Entry.deadlinePeer hunset :)⟩

section
/-! Finished own estimates (R73, R78, R79, R141, R151). -/

namespace Sys2Proof.Machine

open Sys2Proof

/-! ### An own estimate taken (R141, R151) -/

/-- R151: the entry with its own-estimate deadline; none is set while HALTED. -/
def ownDeadlined (s : State) (e : Entry) : Entry :=
  if s.ses.state = .halted then e else withDeadline s (furthestPeer s) (ownDeadline s e) e

theorem ownDeadlined_keeps (s : State) (e : Entry) : ownDeadlined s e =
    { e with deadline := (ownDeadlined s e).deadline, deadlinePeer := (ownDeadlined s e).deadlinePeer } := by
  unfold ownDeadlined
  split <;> rfl

theorem setOwnDeadline_is (j : Nat) (s : State) : setOwnDeadline j s = changeEntry j (ownDeadlined s) s := by
  unfold setOwnDeadline
  by_cases hhalted : s.ses.state = .halted
  · have hfun : ownDeadlined s = id := funext fun e => if_pos hhalted
    rw [hfun, changeEntry_id, if_pos (beq_iff_eq.mpr hhalted)]
  · have hfun : ownDeadlined s = fun e => withDeadline s (furthestPeer s) (ownDeadline s e) e := funext fun e => if_neg hhalted
    rw [hfun, if_neg fun h => hhalted (eq_of_beq h)]

section
variable {s : State} {est : Estimate} {f : Entry}

/-- R141: the entry with the own row, before its deadline. -/
def ownEntry (s : State) (est : Estimate) (f : Entry) : Entry :=
  { f with own := some est, exitSpeed := (findRecord s est.ordinal).bind fun r => r.exit.map (·.speed) }

theorem takeOwn_held (hopen : s.ses.state ≠ .idle) (hcursor : s.was.cursor ≤ est.ordinal)
    (hf : findEntry s est.ordinal = some f) (ho : f.fused = none) :
    takeOwn est s = testEntry est.ordinal (setOwnDeadline est.ordinal (changeEntry est.ordinal (ownEntry s est) s)) := by
  have hthere : ensureEntry est.ordinal (some est.entryTime) (some est.entrySpeed) s = s :=
    ensureEntry_there (by rw [hf]; rfl)
  have hopen' : sessionOpen s = true := bne_iff_ne.mpr hopen
  have hnotFinal : isFinal f = false := by rw [isFinal, ho]; rfl
  unfold takeOwn
  rw [hopen', if_neg (fun h => nomatch h), if_neg (Nat.not_lt.mpr hcursor)]
  simp only [hthere, hf, hnotFinal, Bool.false_eq_true, if_false]
  rfl

/-- R148: with its own part settled, an entry is complete when every LIVE peer has reported. -/
theorem isComplete_settled {s : State} {e : Entry} (h : OwnSettled s e) : IsComplete s e ↔ Reported s e :=
  and_iff_right (.inl h)

/-- R141, R148 to R151: the estimate becomes the own row of its entry, which is then tested. -/
theorem takeOwn_tested (hopen : s.ses.state ≠ .idle) (hcursor : s.was.cursor ≤ est.ordinal)
    (hf : findEntry s est.ordinal = some f) (ho : f.fused = none) (hsettled : OwnSettled s (ownEntry s est f)) :
    ((Reported s f → GroupWaits s (·.ordinal = est.ordinal)) →
      ∃ v g, takeOwn est s = v ∧ v = { s with fus := { s.fus with table := v.fus.table }, was := v.was }
        ∧ (∀ i, i ≠ est.ordinal → findEntry v i = findEntry s i) ∧ findEntry v est.ordinal = some g
        ∧ (Reported s f → g = madeFinal (ownEntry s est f) ∧ v.was = { s.was with roomForce := false })
        ∧ (¬ Reported s f → v.was = s.was ∧ g = ownDeadlined s (ownEntry s est f)))
    ∧ (Reported s f → s.fus.table.Pairwise (fun a b => a.ordinal < b.ordinal) → s.ses.state ≠ .draining →
        ∀ g, findEntry (takeOwn est s) est.ordinal = some g → g = madeFinal (ownEntry s est f)) := by
  have hkeeps : ∀ e, (ownDeadlined s e).ordinal = e.ordinal := fun e => by rw [ownDeadlined_keeps]
  have honly : OnlyEntry est.ordinal s
      (setOwnDeadline est.ordinal (changeEntry est.ordinal (ownEntry s est) s)) := by
    rw [setOwnDeadline_is]
    exact OnlyEntry.trans (.changeEntry (f := ownEntry s est) (fun _ => rfl) s)
      (.changeEntry (f := ownDeadlined s) hkeeps (changeEntry est.ordinal (ownEntry s est) s))
  have hfound : findEntry (setOwnDeadline est.ordinal (changeEntry est.ordinal (ownEntry s est) s)) est.ordinal
      = some (ownDeadlined s (ownEntry s est f)) := by
    have hown := findEntry_changeEntry s est.ordinal (ownEntry s est) fun _ => rfl
    rw [hf] at hown
    rw [setOwnDeadline_is, findEntry_changeEntry _ _ _ (by exact hkeeps), hown]
    rfl
  have htested := honly.tested hfound (ownDeadlined_keeps s _) ho
  rw [isComplete_settled hsettled] at htested
  rw [takeOwn_held hopen hcursor hf ho]
  exact htested

end

/-! ### The record finished (R73, R78, R79) -/

theorem settleSide_finishes {s : State} {j : Nat} {step : Option Step} {r : OwnRecord} (hr : findRecord s j = some r)
    (hdone : r.done = false) (hready : estimateReady { r with exitStep := step, exitSettled := true } = true) :
    settleSide .normalExit j step s =
      let est := formEstimate s.settings { r with exitStep := step, exitSettled := true }
      let u := takeOwn est (changeRecord j (finishRecord s.settings) (changeRecord j (settleRecord .normalExit step) s))
      handOver (.step u.ses.number est) broadcast u := by
  have hfound : findRecord (changeRecord j (settleRecord .normalExit step) s) j
      = some { r with exitStep := step, exitSettled := true } := by
    rw [findRecord_changeRecord (settleRecord_ordinal _ step), hr]
    rfl
  unfold settleSide checkDone
  rw [hfound]
  refine (if_neg ?_).trans rfl
  rw [hready]
  simp [hdone]

/-- R73, R76: after it the record of the ordinal is done. -/
theorem finished_done {j : Nat} (s : State) (x : Settings) : ∀ r ∈ (changeRecord j (finishRecord x) s).atr.records, r.ordinal = j → r.done = true := by
  intro r hr hj
  obtain ⟨r₁, -, rfl⟩ := List.mem_map.mp hr
  by_cases h : r₁.ordinal = j
  · rw [if_pos (beq_iff_eq.mpr h)]
    rfl
  · rw [if_neg fun hb => h (eq_of_beq hb)] at hj
    exact absurd hj h

theorem tidy_records (s : State) : ∀ r ∈ (tidy s).atr.records, r ∈ s.atr.records := fun _ hr => List.mem_of_mem_filter hr

end Sys2Proof.Machine
end

open Sys2Proof Sys2Proof.Machine

/-- Settles O22: the measured window settles the second side, so the record is finished, its estimate joins the entry and is
sent. -/
theorem finishedEstimateGoesToFusionAndLine : Obligations.FinishedEstimateGoesToFusionAndLine := by
  intro t k e r f s hreset hopen hline hroom he hlatest hordinal hkind hbefore hpending hdue hr hdone hexit hafterEntry hsettled
    hcursor hf ho e' est taken
  have hrj : r.ordinal = e.ordinal := by simpa [findRecord] using List.find?_some hr
  generalize hB : setEvent k e' { s with now := t } = B
  have hsettle : afterDueAt k { s with now := t } = settleSide .normalExit e.ordinal (eventStep e') B := by
    rw [afterDueAt_due (s := { s with now := t }) he hpending hdue, ← hB]
    refine (settleEvent_due (e := e') ⟨hlatest, hordinal, .inr hkind⟩ hbefore (measure_not_pending _ _) _).trans ?_
    exact congrArg (fun q => settleSide q e.ordinal (eventStep e') (setEvent k e' { s with now := t })) hkind
  have hrB : findRecord B e.ordinal = some r := by rw [← hB]; exact hr
  have hready : estimateReady { r with exitStep := eventStep e', exitSettled := true } = true := by
    unfold estimateReady
    rw [hexit, hafterEntry, hsettled]
    rfl
  generalize hC : changeRecord e.ordinal (finishRecord B.settings)
    (changeRecord e.ordinal (settleRecord .normalExit (eventStep e')) B) = C
  have hexec : exec (.afterWindowDue t k) s
      = .next (tidy (handOver (.step (takeOwn est C).ses.number est) broadcast (takeOwn est C))) := by
    refine congrArg Host.Outcome.next ((atTime_running _ _ s hreset).trans (congrArg tidy (hsettle.trans ?_)))
    rw [settleSide_finishes hrB hdone hready, hC, ← hB]
    rfl
  have hCframe : C = { s with now := t, atr := C.atr } := by rw [← hC, ← hB]; rfl
  have hrC : ∃ r', findRecord C e.ordinal = some r' ∧ r'.done = true ∧ r'.exit = r.exit := by
    rw [← hC, findRecord_changeRecord (f := finishRecord B.settings) (fun _ => rfl), findRecord_changeRecord (settleRecord_ordinal _ _), hrB]
    exact ⟨_, rfl, rfl, rfl⟩
  obtain ⟨r', hr', hdone', hexit'⟩ := hrC
  have hestOrdinal : est.ordinal = e.ordinal := hrj
  have hown : ownEntry C est f = taken := by
    unfold ownEntry
    rw [hestOrdinal, hr', Option.bind_some, hexit']
  have hsettledC : OwnSettled C (ownEntry C est f) := by
    rw [hown]
    refine ⟨rfl, fun r'' h => ?_⟩
    have hj : taken.ordinal = e.ordinal := (find_ordinal hf : f.ordinal = e.ordinal)
    rw [hj] at h
    exact Option.some.inj (hr'.symm.trans h) ▸ hdone'
  have hreported : Reported C f ↔ Reported s f := by rw [hCframe]; exact Iff.rfl
  have hwaits : GroupWaits s (·.ordinal = e.ordinal) → GroupWaits C (·.ordinal = e.ordinal) := fun h =>
    h.congr (by rw [hCframe]) fun i _ => by rw [hCframe]; rfl
  have htested := takeOwn_tested (s := C) (est := est) (f := f) (by rw [hCframe]; exact hopen) (by rw [hCframe, hestOrdinal]; exact hcursor)
    (by rw [hCframe, hestOrdinal]; exact hf) ho hsettledC
  rw [hreported, hown, hestOrdinal] at htested
  obtain ⟨hstep, hmade⟩ := htested
  refine ⟨fun hgroup => ?_, fun hrep hrising hstate => ⟨_, hexec, fun f' hf' => ?_⟩⟩
  · obtain ⟨v, g, hv, hvframe, hothers, hfound, hfinal, hstays⟩ := hstep fun hrep => hwaits (hgroup hrep)
    have hvC : v = { s with
        now := t, atr := C.atr, fus := { s.fus with table := v.fus.table }, was := v.was } :=
      hvframe.trans (congrArg (fun w : State => { w with fus := { w.fus with table := v.fus.table }, was := v.was }) hCframe)
    have hslc : v.slc = s.slc := by rw [hvC]
    have hses : v.ses = s.ses := by rw [hvC]
    have hatr : v.atr = C.atr := by rw [hvC]
    have hcnd : v.cnd = s.cnd := by rw [hvC]
    have hrst : v.rst = s.rst := by rw [hvC]
    have hhand := handOver_bulk (b := .step v.ses.number est) (n := broadcast) (s := v) (by rw [hslc, hline]; rfl) rfl
      (by rw [hslc]; exact hroom)
    rw [hv, hhand] at hexec
    have hwasC : C.was = s.was := by rw [hCframe]
    refine ⟨_, g, hexec, ?_, ?_, fun i hi => (hothers i hi).trans (by rw [hCframe]; rfl), hfound, fun hrep => ?_, fun hnot => ?_,
      fun r'' h'' hj => ?_, ?_, ?_, ?_⟩
    · rw [← hslc, ← hses]; rfl
    · rw [← hslc]; rfl
    · obtain ⟨hg, hw⟩ := hfinal hrep
      exact ⟨hg, hw.trans (congrArg (fun w : Was => { w with roomForce := false }) hwasC)⟩
    · obtain ⟨hw, hg⟩ := hstays hnot
      refine ⟨hw.trans hwasC, hg.trans (ownDeadlined_keeps C taken) |>.trans (by rw [← hg]), fun hrun => ?_, fun hhalted => ?_⟩
      · have hset : g = withDeadline C (furthestPeer C) (ownDeadline C taken) taken :=
          hg.trans (if_neg (by rw [hCframe]; exact hrun))
        have hnow : C.now = t := by rw [hCframe]
        have hfar : furthestPeer C = furthestPeer s := by rw [hCframe]; rfl
        have hdeadline := ownDeadline_is C taken hnow
        refine ⟨by rw [hset, ← hfar]; rfl, ownDeadline C taken, ?_, ?_⟩
        · rw [hCframe] at hdeadline ⊢
          exact hdeadline
        · rw [hset, ← hfar]
          exact congrArg some (shortened_cut C taken _ _ hnow)
      · have hset : g = taken := hg.trans (if_pos (by rw [hCframe]; exact hhalted))
        exact ⟨by rw [hset], by rw [hset]⟩
    · have hrec := tidy_records _ r'' h''
      refine finished_done (j := e.ordinal) (changeRecord e.ordinal (settleRecord .normalExit (eventStep e')) B) B.settings r'' ?_ hj
      rw [hC, ← hatr]
      exact hrec
    · exact hses
    · exact hcnd
    · exact hrst
  · obtain ⟨a, b, hhand⟩ := handOver_eq (.step (takeOwn est C).ses.number est) broadcast (takeOwn est C)
    rw [hhand] at hf'
    exact hmade hrep (by rw [hCframe]; exact hrising) (by rw [hCframe]; exact hstate) f' hf'

section
/-! Accepted events (R40 to R55): list, timeline, record, reports and CROSS of a delivered crossing. -/

namespace Sys2Proof.Machine

open Sys2Proof

/-! ### List and stacks (R42 to R47) -/

theorem listOperation_phantom {kind : EventKind} {a : Atr} (h : IsPhantom kind a) : listOperation kind a = none := by
  cases kind with
  | normalEntry => exact (normalEntry_phantom a).mpr h
  | normalExit => exact (normalExit_phantom a).mpr h
  | reverseExit => exact (reverseExit_phantom a).mpr h
  | reEntry => exact (reEntry_phantom a).mpr h

theorem listOperation_move {kind : EventKind} {a b : Atr} {j : Nat} (h : ListMove kind a b j) :
    listOperation kind a = some (b, j) := by
  cases kind with
  | normalEntry =>
    obtain ⟨hroom, ⟨rest, hstack, rfl⟩ | ⟨hstack, hcount, rfl, rfl⟩⟩ := h
    · exact normalEntry_returned hroom hstack
    · unfold listOperation
      rw [if_neg (Nat.not_le.mpr hroom), hstack]
      exact if_neg (Nat.not_le.mpr hcount)
  | normalExit =>
    obtain ⟨rest, hlist, rfl⟩ := h
    unfold listOperation
    rw [hlist]
    rfl
  | reverseExit =>
    obtain ⟨rest, hlist, rfl⟩ := h
    unfold listOperation
    rw [hlist, List.getLast?_concat, List.dropLast_concat]
    rfl
  | reEntry =>
    obtain ⟨hroom, ⟨rest, hstack, rfl⟩ | ⟨hstack, rfl, rfl⟩⟩ := h
    · exact reEntry_exited hroom hstack
    · unfold listOperation
      simp only [if_neg (Nat.not_le.mpr hroom), hstack]

/-- R42: only a first entry raises the counter. -/
theorem listMove_counter {kind : EventKind} {a b : Atr} {j : Nat} (h : ListMove kind a b j) :
    b.counter = if kind = .normalEntry ∧ a.returnStack = [] then a.counter + 1 else a.counter := by
  cases kind with
  | normalEntry =>
    obtain ⟨-, ⟨rest, hstack, rfl⟩ | ⟨hstack, -, rfl, rfl⟩⟩ := h
    · rw [if_neg fun h => List.cons_ne_nil _ _ (hstack.symm.trans h.2)]
    · rw [if_pos ⟨rfl, hstack⟩]
  | normalExit =>
    obtain ⟨rest, -, rfl⟩ := h
    rw [if_neg fun h => nomatch h.1]
  | reverseExit =>
    obtain ⟨rest, -, rfl⟩ := h
    rw [if_neg fun h => nomatch h.1]
  | reEntry =>
    rw [if_neg fun h => nomatch h.1]
    obtain ⟨-, ⟨rest, -, rfl⟩ | ⟨-, -, rfl⟩⟩ := h <;> rfl

theorem listMove_frame {kind : EventKind} {a b : Atr} {j : Nat} (h : ListMove kind a b j) :
    b.timeline = a.timeline ∧ b.records = a.records := by
  cases kind with
  | normalEntry => obtain ⟨-, ⟨rest, -, rfl⟩ | ⟨-, -, -, rfl⟩⟩ := h <;> exact ⟨rfl, rfl⟩
  | normalExit => obtain ⟨rest, -, rfl⟩ := h; exact ⟨rfl, rfl⟩
  | reverseExit => obtain ⟨rest, -, rfl⟩ := h; exact ⟨rfl, rfl⟩
  | reEntry => obtain ⟨-, ⟨rest, -, rfl⟩ | ⟨-, -, rfl⟩⟩ := h <;> exact ⟨rfl, rfl⟩

/-! ### The new event in the timeline (R48, R65, R69) -/

section
variable (x : Event) (tl : List Event)

/-- The held events that stay before a new one (R48). -/
def eventsBefore : List Event := tl.takeWhile fun y => !earlier x.edge y.edge

/-- The held events that come after a new one (R48). -/
def eventsAfter : List Event := tl.dropWhile fun y => !earlier x.edge y.edge

theorem placeEvent_eq : placeEvent x tl = eventsBefore x tl ++ x :: eventsAfter x tl := by
  induction tl with
  | nil => rfl
  | cons y tl ih =>
    unfold placeEvent eventsBefore eventsAfter
    cases h : earlier x.edge y.edge with
    | true => simp [h]
    | false => simpa [h, eventsBefore, eventsAfter] using ih

theorem placeIndex_eq : placeIndex x tl = (eventsBefore x tl).length := by
  induction tl with
  | nil => rfl
  | cons y tl ih =>
    unfold placeIndex eventsBefore
    cases h : earlier x.edge y.edge with
    | true => simp [h]
    | false => simpa [h, eventsBefore] using ih

theorem supersede_none (kind : EventKind) (j : Nat) (ys : List Event) :
    supersede kind j none ys = ys.map (superseded kind j) := by
  induction ys with
  | nil => rfl
  | cons y ys ih => exact congrArg (superseded kind j y :: ·) ih

theorem supersede_at (kind : EventKind) (j : Nat) (xs ys : List Event) :
    supersede kind j (some xs.length) (xs ++ x :: ys) = xs.map (superseded kind j) ++ x :: ys.map (superseded kind j) := by
  induction xs with
  | nil => exact congrArg (x :: ·) (supersede_none kind j ys)
  | cons y xs ih => exact congrArg (superseded kind j y :: ·) ih

/-- R69, R72: the timeline once the record has taken the new event. -/
theorem supersede_placed (hroom : tl.length < 32) :
    supersede x.kind x.ordinal (newPlace x tl) (placeEvent x tl) = timelineWith x tl := by
  have hplace : newPlace x tl = some (eventsBefore x tl).length := by
    unfold newPlace
    rw [← placeIndex_eq]
    split
    · next h => rw [h]; exact if_pos hroom
    · next k h => rw [h]; exact if_pos hroom
  have hheld : superseded x.kind x.ordinal = fun y : Event =>
      if y.kind = x.kind ∧ y.ordinal = x.ordinal then { y with latest := false } else y := by
    funext y
    unfold superseded
    simp only [Bool.and_eq_true, beq_iff_eq]
  rw [hplace, placeEvent_eq, supersede_at, hheld]
  rfl

end

theorem newPlace_isSome (x : Event) {tl : List Event} (hroom : tl.length < 32) : (newPlace x tl).isNone = false := by
  unfold newPlace
  split <;> rw [if_pos hroom] <;> rfl

theorem afterDue_eq (edge : Time) (next : Option Time) : afterDue edge next = (afterWindow edge next).2 + 500001 := rfl

/-- R65: the window before the new event is not due by it. -/
theorem measurePredecessor_early {x : Event} {tl : List Event} {s : State} (hs : s.atr.timeline = placeEvent x tl)
    (h : ∀ y ∈ tl, y.after = .pending → reached ((afterWindow y.edge (some x.edge)).2 + 500001) s.now = false) :
    measurePredecessor (placeIndex x tl) s = s := by
  unfold measurePredecessor
  split
  · rfl
  · next i hi =>
    rw [placeIndex_eq] at hi
    have hlt : i < (eventsBefore x tl).length := by omega
    have hevent : eventAt s.atr.timeline i = some (eventsBefore x tl)[i] := by
      rw [hs, placeEvent_eq]
      unfold eventAt
      rw [List.getElem?_append_left hlt, List.getElem?_eq_getElem hlt]
    have hnext : edgeAfter s.atr.timeline i = some x.edge := by
      rw [hs, placeEvent_eq]
      unfold edgeAfter
      rw [List.getElem?_append_right (by omega), hi]
      simp
    have hmem : (eventsBefore x tl)[i] ∈ tl := List.takeWhile_subset _ (List.getElem_mem hlt)
    unfold afterDueAt
    rw [hevent]
    dsimp only
    rw [hnext]
    have hno : (isPending (eventsBefore x tl)[i].after && reached (afterDue (eventsBefore x tl)[i].edge (some x.edge)) s.now)
        = false := by
      cases hp : isPending (eventsBefore x tl)[i].after with
      | false => rfl
      | true =>
        rw [Bool.true_and, afterDue_eq]
        exact h _ hmem (eq_of_beq hp)
    rw [hno, onlyIf_false]

theorem insertEvent_is {x : Event} {s : State} (hroom : s.atr.timeline.length < 32)
    (h : ∀ y ∈ s.atr.timeline, y.after = .pending →
      reached ((afterWindow y.edge (some x.edge)).2 + 500001) s.now = false) :
    insertEvent x s = { s with atr := { s.atr with timeline := placeEvent x s.atr.timeline } } := by
  unfold insertEvent
  dsimp only
  rw [if_pos (by rw [placeEvent_length]; omega)]
  exact measurePredecessor_early (s := { s with atr := { s.atr with timeline := placeEvent x s.atr.timeline } }) rfl h

/-! ### The record of the axle (R51 to R53) -/

theorem nextRevision_eq (r : OwnRecord) :
    nextRevision r = if r.exit.isSome ∧ r.revision < 255 then r.revision + 1 else r.revision := by
  unfold nextRevision countUp
  by_cases h : r.exit.isSome = true
  · simp [h]
  · simp [h]

theorem recordEntry_is (c : Crossing) (r : OwnRecord) : recordEntry c r = recordAfter .normalEntry c r := by
  unfold recordEntry recordAfter
  rw [nextRevision_eq]
  rfl

theorem recordExit_is (c : Crossing) (r : OwnRecord) : recordExit c r = recordAfter .normalExit c r := by
  unfold recordExit recordAfter
  rw [nextRevision_eq]
  rfl

section
variable {kind : EventKind} {j : Nat} {c : Crossing} {s : State}

/-- R52, R53: what an event that allocates no ordinal does to the records. -/
theorem recordEvent_known : recordEvent kind false j c s = { s with atr := { s.atr with
    records := s.atr.records.map fun r => if r.ordinal = j ∧ j ≠ 0 then recordAfter kind c r else r } } := by
  by_cases hj : j = 0
  · have hid : (fun r : OwnRecord => if r.ordinal = j ∧ j ≠ 0 then recordAfter kind c r else r) = id :=
      funext fun r => if_neg fun h => h.2 hj
    rw [hid, List.map_id]
    exact if_pos (beq_iff_eq.mpr hj)
  · have hmap : ∀ f : OwnRecord → OwnRecord, (∀ r, f r = recordAfter kind c r) →
        changeRecord j f s = { s with atr := { s.atr with
          records := s.atr.records.map fun r => if r.ordinal = j ∧ j ≠ 0 then recordAfter kind c r else r } } := by
      intro f hf
      have hfun : (fun r : OwnRecord => if (r.ordinal == j) = true then f r else r)
          = fun r => if r.ordinal = j ∧ j ≠ 0 then recordAfter kind c r else r := by
        funext r
        rw [hf]
        exact if_congr (by rw [beq_iff_eq]; exact (and_iff_left hj).symm) rfl rfl
      unfold changeRecord
      rw [hfun]
    unfold recordEvent
    rw [if_neg (by simpa using hj)]
    cases kind with
    | normalEntry => exact hmap (recordEntry c) (recordEntry_is c)
    | normalExit => exact hmap (recordExit c) (recordExit_is c)
    | reverseExit => exact hmap recordReversal fun _ => rfl
    | reEntry => exact hmap recordReversal fun _ => rfl

theorem recordEvent_fresh (hj : j ≠ 0) : recordEvent .normalEntry true j c s =
    { s with atr := { s.atr with records := s.atr.records ++ [newRecord j c] } } :=
  if_neg (by simpa using hj)

/-! ### Reports and CROSS (R54, R55) -/

/-- R54, R55: an accepted event whose window comes due nowhere, in a timeline with room. -/
theorem acceptEvent_is {fresh : Bool} {a : Atr} (ha : a.timeline = s.atr.timeline) (hroom : s.atr.timeline.length < 32)
    (h : ∀ y ∈ s.atr.timeline, y.after = .pending →
      reached ((afterWindow y.edge (some c.edge)).2 + 500001) s.now = false) :
    acceptEvent kind fresh a j c s = handCross kind j c (reportEvent kind fresh j c (recordEvent kind fresh j c
      { s with atr := { a with timeline := timelineWith (eventOf kind j c) s.atr.timeline } })) := by
  have hinsert : insertEvent (eventOf kind j c) { s with atr := a }
      = { s with atr := { a with timeline := placeEvent (eventOf kind j c) s.atr.timeline } } := by
    have his := insertEvent_is (x := eventOf kind j c) (s := { s with atr := a }) (by rw [← ha] at hroom; exact hroom)
      (by rw [← ha] at h; exact h)
    rw [← ha]
    exact his
  have hplaced := supersede_placed (eventOf kind j c) s.atr.timeline hroom
  unfold acceptEvent recordInserted
  dsimp only
  rw [hinsert, ha, newPlace_isSome _ hroom, onlyIf_false]
  dsimp only
  rw [← hplaced]
  rfl

theorem handCross_is (hline : s.slc.line = .active) (hroom : s.slc.urgent.length < 8) :
    handCross kind j c s = { s with slc := { s.slc with
      sequence := s.slc.sequence + 1,
      urgent := s.slc.urgent ++
        [newFrame (.cross s.ses.number j kind (((findRecord s j).map (·.revision)).getD 0) c.edge c.speed c.overspeed c.creep)
          broadcast s.slc.sequence] } } :=
  handOver_urgent (by rw [hline]; rfl) rfl hroom

/-- R54: an event that allocates no ordinal changes no more than the count of reversals. -/
theorem reportEvent_known (h : kind = .normalEntry → j = 0 ∨ (findEntry s j).isSome = true) :
    reportEvent kind false j c s = { s with ses := { s.ses with
      current := s.ses.current.map fun m =>
        if kind = .reverseExit ∨ kind = .reEntry then
          { m with reversals := if m.reversals < 65535 then m.reversals + 1 else m.reversals }
        else m } } := by
  have hid : s = { s with ses := { s.ses with current := s.ses.current.map fun m => m } } :=
    congrArg (fun q => ({ s with ses := { s.ses with current := q } } : State)) (congrFun Option.map_id s.ses.current).symm
  cases kind with
  | reverseExit => rfl
  | reEntry => rfl
  | normalExit => exact hid
  | normalEntry =>
    refine Eq.trans ?_ hid
    rcases h rfl with hj | hsome
    · exact if_pos (beq_iff_eq.mpr hj)
    · obtain ⟨e, he⟩ := Option.isSome_iff_exists.mp hsome
      unfold reportEvent reportEntry notifyEntry
      simp only [he]
      split <;> rfl

/-! ### A first entry (R51, R54, R140, R145, R157) -/

/-- The item a first entry puts in the spacing list (R157). -/
def firstItem (j : Nat) (c : Crossing) : SpacingItem := { ordinal := j, time := c.edge, speed := c.speed, spacing := none }

/-- R157, R158: an axle with no neighbour in the spacing list forms no spacing, so no pass follows. -/
theorem handFirstEntry_alone (hj : j ≠ 0) (hcursor : s.was.cursor ≤ j) (hlast : j ≤ s.was.cursor + 127)
    (h : ∀ x ∈ s.was.items, x.ordinal ≠ j ∧ x.ordinal + 1 ≠ j ∧ x.ordinal ≠ j + 1) :
    handFirstEntry j c s = { s with
      was := { s.was with highest := max s.was.highest j, items := s.was.items ++ [firstItem j c] } } := by
  have hnone : ∀ i, i = j - 1 ∨ i = j ∨ i = j + 1 → s.was.items.find? (fun x => x.ordinal == i) = none := by
    intro i hi
    refine List.find?_eq_none.mpr fun x hx hxi => ?_
    have hxi' : x.ordinal = i := eq_of_beq hxi
    obtain ⟨h1, h2, h3⟩ := h x hx
    omega
  have hallowed : itemAllowed s j = true := (itemAllowed_iff s j).mpr ⟨hcursor, hlast, hnone j (by tauto)⟩
  have hjoined : itemJoined j c.edge c.speed s = { s with
      was := { s.was with highest := max s.was.highest j, items := s.was.items ++ [firstItem j c] } } := rfl
  have hbefore : findItem (itemJoined j c.edge c.speed s) (j - 1) = none :=
    (findItem_itemJoined_other (by omega) c.edge c.speed s).trans (hnone (j - 1) (by tauto))
  have hafter : findItem (itemJoined j c.edge c.speed s) (j + 1) = none :=
    (findItem_itemJoined_other (by omega) c.edge c.speed s).trans (hnone (j + 1) (by tauto))
  have htake : takeFirstEntry j c.edge c.speed s = itemJoined j c.edge c.speed s := by
    rw [takeFirstEntry_of_allowed hallowed, formSpacing_of_absent hbefore, formSpacing_of_no_successor hafter]
  have hpred : spacingOf (itemJoined j c.edge c.speed s) (j - 1) = none := by
    unfold spacingOf
    rw [hbefore]
    rfl
  have hself : spacingOf (itemJoined j c.edge c.speed s) j = none := by
    unfold spacingOf
    rw [findItem_itemJoined_self hallowed]
    rfl
  unfold handFirstEntry
  dsimp only
  rw [htake, hpred, hself]
  simp only [Option.isSome_none, Bool.or_self, Bool.and_false, onlyIf_false]
  exact hjoined

theorem reportEvent_first (hj : j ≠ 0) :
    reportEvent .normalEntry true j c s = handFirstEntry j c (notifyEntry j (some (c.edge, c.speed)) s) :=
  (if_neg (by simpa using hj)).trans (if_pos rfl)

/-- R140: the notification makes the entry. -/
theorem notifyEntry_makes {x : Time × Nat} (h : findEntry s j = none) (hopen : s.ses.state ≠ .idle)
    (hmatching : s.ses.closedForMatching = false) (hcursor : s.was.cursor ≤ j) (hroom : s.fus.table.length < 64) :
    notifyEntry j (some x) s = createEntry j (some x.1) (some x.2) s := by
  unfold notifyEntry
  rw [h]
  exact ensureEntry_makes h ((mayCreate_iff s j).mpr ⟨hopen, hmatching, hcursor⟩) hroom

theorem notifyEntry_timed {x : Time × Nat} {f : Entry} (h : findEntry s j = some f) (ht : f.firstTime.isSome = true) :
    notifyEntry j (some x) s = s := by
  unfold notifyEntry
  rw [h]
  exact if_pos ht

theorem notifyEntry_times {x : Time × Nat} {f : Entry} (h : findEntry s j = some f) (ht : f.firstTime = none) :
    notifyEntry j (some x) s
      = recheckEntry j (changeEntry j (fun e => { e with firstTime := some x.1, firstSpeed := some x.2 }) s) := by
  unfold notifyEntry
  rw [h]
  exact if_neg (by rw [ht]; exact Bool.false_ne_true)

end

end Sys2Proof.Machine
end

section
/-! What a latched edge delivers, and the crossing in an open session: direction check, timers, event (R29, R33, R39, R40, R46,
R124, R127). -/

namespace Sys2Proof.Machine

open Sys2Proof

/-! ### Delivery (R29, R30, R33, R34) -/

/-- The heads with one end put in place. -/
def unitPut (e : PlatformEnd) (u : EndUnit) (w : Whu) : Whu :=
  match e with
  | .a => { w with endA := u }
  | .b => { w with endB := u }

theorem setEndUnit_put (e : PlatformEnd) (u : EndUnit) (s : State) : setEndUnit e u s = { s with whu := unitPut e u s.whu } := by
  cases e <;> rfl

/-- The end and causes a delivering edge leaves, its crossing still to be offered. -/
def deliveryState (t : Time) (e : PlatformEnd) (u : EndUnit) (k : Cnd) (s : State) : State :=
  { s with now := t, cnd := k, whu := unitPut e u s.whu }

theorem deliveryState_eq (t : Time) (e : PlatformEnd) (u : EndUnit) (k : Cnd) (s : State) :
    deliveryState t e u k s = setEndUnit e u { s with now := t, cnd := k } :=
  (setEndUnit_put e u { s with now := t, cnd := k }).symm

section
variable {t : Time} {e : PlatformEnd} {h : HeadNo} {c : Crossing} {u : EndUnit} {k : Cnd} {s : State}

/-- R33: the single-head crossing reads only settings, session and the last speeds. -/
theorem singleCrossing_delivered (hspeed : u.lastSpeed = (endUnit s e).lastSpeed) :
    singleCrossing (setEndUnit e u { s with now := t, cnd := k }) e h t = singleCrossing s e h t := by
  have hborrowed : borrowedSpeed (setEndUnit e u { s with now := t, cnd := k }) e = borrowedSpeed s e := by
    unfold borrowedSpeed
    rw [endUnit_setEndUnit, endUnit_setEndUnit_other, hspeed]
    cases e <;> rfl
  unfold singleCrossing expectedKind
  rw [hborrowed, setEndUnit_settings, setEndUnit_ses]

/-- R20, R33, R34: a head that works starts its HALF and delivers at once. -/
theorem startHalf_delivery (hw : workingHead (endUnit (setEndUnit e u { s with now := t, cnd := k }) e) = some h)
    (hspeed : u.lastSpeed = (endUnit s e).lastSpeed) :
    startHalf e h t (setEndUnit e u { s with now := t, cnd := k }) =
      (deliverCrossing (singleCrossing s e h t)
        (deliveryState t e { u with half := some { head := h, start := t, delivered := true } } k s)).1 := by
  rw [startHalf_delivers t hw, endUnit_setEndUnit, setEndUnit_twice, singleCrossing_delivered (by exact hspeed), deliveryState_eq]

/-- R29, R30, R33, R34: the crossing is delivered to the state the edge leaves; one that opens a session sets the last speed of
a pair's end again. -/
theorem edge_delivers (hl : EdgeLatched t e h s) (hd : Delivers t e h s c u k) :
    c.side = e ∧ ∃ again : Bool, (again = true → u.lastSpeed = some c.speed) ∧
      exec (.headEdge t e h) s = .next (tidy (onlyIf (again && (deliverCrossing c (deliveryState t e u k s)).2)
        (setLastSpeed e c.speed) (deliverCrossing c (deliveryState t e u k s)).1)) := by
  have hexec : exec (.headEdge t e h) s
      = .next (tidy (pairEdge e h t (setEndUnit e (lockedEnd t e h s) { s with now := t }))) :=
    congrArg Host.Outcome.next ((atTime_running _ _ s hl.released).trans (headEdge_latched hl))
  rw [hexec]
  have hlast : (lockedEnd t e h s).lastSpeed = (endUnit s e).lastSpeed := by unfold lockedEnd; cases h <;> rfl
  rcases hd with ⟨half, hhalf, hne, hin, hdel, rfl, rfl, rfl⟩ | ⟨hw, hhalf, rfl, rfl, rfl⟩
    | ⟨half, hhalf, hd, hw, rfl, rfl, rfl⟩
  · have hkeeps : ¬ Discards t half h := by
      rintro (hsame | hlate)
      · exact hne hsame
      · omega
    refine ⟨rfl, true, fun _ => rfl, congrArg (fun x => Host.Outcome.next (tidy x)) ?_⟩
    rw [pairEdge_completes (by rw [endUnit_setEndUnit, lockedEnd_half, hhalf]) hkeeps]
    unfold completePair
    simp only [endUnit_setEndUnit, setEndUnit_settings, hdel, Bool.false_and, Bool.false_eq_true, if_false, Bool.true_and]
    unfold deliverPaired
    dsimp only
    rw [deliveryState_eq, ← pair_cleared]
    rfl
  · refine ⟨rfl, false, fun h => (nomatch h), congrArg (fun x => Host.Outcome.next (tidy x)) ?_⟩
    rw [pairEdge_starts (by rw [endUnit_setEndUnit, lockedEnd_half, hhalf])]
    exact startHalf_delivery (k := s.cnd) (by rw [endUnit_setEndUnit, lockedEnd_working]; exact hw) hlast
  · refine ⟨rfl, false, fun h => (nomatch h), congrArg (fun x => Host.Outcome.next (tidy x)) ?_⟩
    have hworks : workingHead (discardedEnd half.head (lockedEnd t e h s)) = some h := by
      rw [lockedEnd, discardedEnd_working]; exact hw
    rw [pairEdge_discards (by rw [endUnit_setEndUnit, lockedEnd_half, hhalf]) hd, discardHalf_locked]
    exact startHalf_delivery (by rw [endUnit_setEndUnit]; exact hworks) ((discardedEnd_lastSpeed _ _ _ hworks).trans hlast)

/-- R33: in every open session an edge delivers what the direction says. -/
theorem Delivers.congr {v : State} (hd : Delivers t e h s c u k) (hopen : s.ses.state ≠ .idle) (hopen' : v.ses.state ≠ .idle)
    (hv : v = { s with ses := v.ses, fus := v.fus }) (hdirection : v.ses.direction = s.ses.direction) :
    Delivers t e h v c u k := by
  have hend : endUnit v = endUnit s := by rw [hv]; rfl
  have hsettings : v.settings = s.settings := by rw [hv]
  have hcnd : v.cnd = s.cnd := by rw [hv]
  have hlocked : lockedEnd t e h v = lockedEnd t e h s := by unfold lockedEnd; rw [hend, hsettings]
  have hkind : expectedKind v e = expectedKind s e := by
    unfold expectedKind
    rw [beq_eq_false_iff_ne.mpr hopen, beq_eq_false_iff_ne.mpr hopen', hdirection]
  have hsingle : singleCrossing v e h t = singleCrossing s e h t := by
    unfold singleCrossing borrowedSpeed
    rw [hkind, hend, hsettings]
  have hcauses : causesAfterPair e v = causesAfterPair e s := by unfold causesAfterPair; rw [hend, hcnd]
  unfold Delivers pairedEnd at hd ⊢
  rw [hend, hsettings, hsingle, hcauses, hcnd, hlocked]
  exact hd

theorem EdgeLatched.congr {v : State} (hl : EdgeLatched t e h s) (hv : v = { s with ses := v.ses, fus := v.fus }) :
    EdgeLatched t e h v := by
  rw [hv]
  exact ⟨hl.released, hl.ready, hl.unlocked⟩

end

/-- R40: the event of a crossing at the trailing end or at the other. -/
theorem eventKindOf_is (d : Direction) (c : Crossing) :
    eventKindOf d c =
      if (d = .up ∧ c.side = .a) ∨ (d = .down ∧ c.side = .b) then
        (if c.kind = .inward then .normalEntry else .reverseExit)
      else if c.kind = .inward then .reEntry else .normalExit := by
  unfold eventKindOf
  cases d <;> cases c.side <;> cases c.kind <;> rfl

theorem observedDirection_is (e : PlatformEnd) : observedDirection e = if e = .a then .up else .down := by
  cases e <;> rfl

/-! ### The direction check (R124) -/

section
variable (c : Crossing) (s : State)

/-- R124: the direction after a crossing. -/
def checkedDirection : Direction :=
  if c.kind = .inward ∧ s.ses.checked = false then observedDirection c.side else s.ses.direction

/-- R124: the state a crossing leaves by the check of the direction. -/
def checkedState : State :=
  { s with
    ses := { s.ses with
      direction := checkedDirection c s, checked := s.ses.checked || c.kind == .inward,
      current := s.ses.current.map fun m =>
        { m with direction := if c.kind = .inward ∧ s.ses.checked = false then checkedDirection c s else m.direction } },
    ptb := if checkedDirection c s ≠ s.ses.direction then
        (chooseExit { s with ses := { s.ses with direction := checkedDirection c s } }).ptb
      else s.ptb,
    cnd := if checkedDirection c s ≠ s.ses.direction then slipped s.cnd else s.cnd }

theorem checkDirection_is : (if c.kind == .inward then checkDirection c s else s) = checkedState c s := by
  by_cases hchecks : c.kind = .inward ∧ s.ses.checked = false
  · have hd : checkedDirection c s = observedDirection c.side := if_pos hchecks
    obtain ⟨hkind, hunchecked⟩ := hchecks
    unfold checkDirection checkedState
    rw [hd]
    simp only [hkind, hunchecked, and_self, if_true, beq_self_eq_true, Bool.or_true, Bool.false_eq_true, if_false]
    by_cases hsame : observedDirection c.side = s.ses.direction
    · simp only [hsame, bne_self_eq_false, onlyIf_false, ne_eq, not_true, if_false]
      rfl
    · have hturns : (observedDirection c.side != s.ses.direction) = true := bne_iff_ne.mpr hsame
      simp only [hturns, onlyIf_true, ne_eq, hsame, not_false_iff, if_true]
      rfl
  · have hd : checkedDirection c s = s.ses.direction := if_neg hchecks
    have hchecked : (s.ses.checked || c.kind == .inward) = s.ses.checked := by
      cases hk : c.kind with
      | outward => exact Bool.or_false _
      | inward =>
        have : s.ses.checked = true := by simpa using fun h => hchecks ⟨hk, h⟩
        rw [this]
        rfl
    have hstays : (if c.kind == .inward then checkDirection c s else s) = s := by
      by_cases hk : c.kind = .inward
      · have : s.ses.checked = true := by simpa using fun h => hchecks ⟨hk, h⟩
        unfold checkDirection
        simp only [this, if_true, ite_self]
      · exact if_neg (by simpa using hk)
    rw [hstays]
    unfold checkedState
    rw [hd, hchecked]
    simp only [if_neg hchecks, ne_eq, not_true, if_false, Option.map_id']

end

end Sys2Proof.Machine
end

section
/-! The crossing of an open session as an event: phantoms, known axles, first entries (R42 to R55, R127, R140, R145, R157). -/

namespace Sys2Proof.Machine

open Sys2Proof

/-! ### The offer to an open session (R39, R124, R127) -/

/-- R127: the session's own fields after a crossing taken in RUNNING. -/
def crossedSes (t : Time) (c : Crossing) (s : State) : Ses :=
  { s.ses with
    direction := checkedDirection c s, checked := s.ses.checked || c.kind == .inward, tc := some t,
    haltExpiry := some (addUs t (haltUs s)), closeExpiry := some (addUs t (closeUs s)), closePending := false,
    current := s.ses.current.map fun m =>
      { m with
        direction := if c.kind = .inward ∧ s.ses.checked = false then checkedDirection c s else m.direction,
        lastCrossing := t } }

/-- R124, R127: the state in which a crossing taken in RUNNING becomes an event. -/
def crossedState (t : Time) (c : Crossing) (s : State) : State := { checkedState c s with ses := crossedSes t c s }

section
variable {t : Time} {c : Crossing} {s : State}

theorem offerCrossing_timed (h : s.ses.state = .running ∨ s.ses.state = .halted) :
    offerCrossing c s = (crossingTaken s.now (checkedState c s), false) := by
  rw [← checkDirection_is]
  unfold offerCrossing
  rcases h with h | h <;> rw [h]

theorem offerCrossing_running (hnow : s.now = t) (h : s.ses.state = .running)
    (hhalt : reached (addUs t (haltUs s)) t = false) (hclose : reached (addUs t (closeUs s)) t = false) :
    offerCrossing c s = (crossedState t c s, false) := by
  have hrun : (checkedState c s).ses.state = .running := h
  have hstay : ∀ m : Summary, withStay (checkedState c s) 0 m = m := fun m => if_neg (by rw [hrun]; exact fun h => nomatch h)
  have htable : s.fus.table.map (takenEntry t 0 (checkedState c s)) = s.fus.table := by
    have hid : takenEntry t 0 (checkedState c s) = id := funext fun e => if_neg (by rw [hrun]; exact fun h => nomatch h)
    rw [hid, List.map_id]
  have hses : takenSes t 0 (checkedState c s) = crossedSes t c s := by
    unfold takenSes crossedSes
    rw [if_neg (by rw [hrun]; exact fun h => nomatch h)]
    simp only [hstay]
    unfold checkedState
    simp only [Option.map_map, Function.comp_def, ← h]
    rfl
  have htaken := crossingTaken_is (s := checkedState c s) (tc := t) (ms := 0) (.inl hrun)
    (by rw [← hnow] at hhalt ⊢; exact hhalt) (by rw [← hnow] at hclose ⊢; exact hclose)
  rw [offerCrossing_timed (.inl h), hnow, htaken, hses]
  refine congrArg (·, false) ?_
  exact congrArg (fun q => ({ crossedState t c s with fus := { s.fus with table := q } } : State)) htable

/-! ### The event (R40, R46, R54, R55) -/

theorem mapCrossing_phantom (hopen : s.ses.state ≠ .idle) (h : IsPhantom (eventKindOf s.ses.direction c) s.atr) :
    mapCrossing c s = countPhantom s := by
  have hsession : sessionOpen s = true := bne_iff_ne.mpr hopen
  unfold mapCrossing
  rw [if_pos hsession]
  dsimp only
  rw [listOperation_phantom h]

theorem mapCrossing_moves {a : Atr} {j : Nat} (hopen : s.ses.state ≠ .idle)
    (h : ListMove (eventKindOf s.ses.direction c) s.atr a j) :
    mapCrossing c s = acceptEvent (eventKindOf s.ses.direction c)
      (decide (eventKindOf s.ses.direction c = .normalEntry ∧ s.atr.returnStack = [])) a j c s := by
  have hsession : sessionOpen s = true := bne_iff_ne.mpr hopen
  have hfresh : decide (s.atr.counter < a.counter)
      = decide (eventKindOf s.ses.direction c = .normalEntry ∧ s.atr.returnStack = []) := by
    rw [listMove_counter h]
    split <;> simp [*]
  unfold mapCrossing
  rw [if_pos hsession]
  dsimp only
  rw [listOperation_move h, ← hfresh]

/-- R48, R65: the timeline has room for an event, and no window of it comes due by that event at `t`. -/
structure TakesEvent (t : Time) (c : Crossing) (tl : List Event) : Prop where
  room  : tl.length < 32
  quiet : ∀ x ∈ tl, x.after = .pending → reached ((afterWindow x.edge (some c.edge)).2 + 500001) t = false

/-- R52, R53: the records after an event that allocates no ordinal. -/
def recordsAfter (kind : EventKind) (j : Nat) (c : Crossing) (rs : List OwnRecord) : List OwnRecord :=
  rs.map fun r => if r.ordinal = j ∧ j ≠ 0 then recordAfter kind c r else r

/-- The revision a CROSS of an ordinal carries. -/
def revisionIn (j : Nat) (rs : List OwnRecord) : Nat := ((rs.find? fun r => r.ordinal == j).map (·.revision)).getD 0

/-- R55: the URGENT queue with the CROSS of an event, the session number being `n`. -/
def crossQueued (n : Word16) (j : Nat) (kind : EventKind) (revision : Nat) (c : Crossing) (x : Slc) : Slc :=
  { x with
    sequence := x.sequence + 1,
    urgent := x.urgent ++
      [newFrame (.cross n j kind revision c.edge c.speed c.overspeed c.creep) broadcast x.sequence] }

/-- R54: the summary after an event. -/
def reversalCounted (kind : EventKind) (m : Summary) : Summary :=
  if kind = .reverseExit ∨ kind = .reEntry then
    { m with reversals := if m.reversals < 65535 then m.reversals + 1 else m.reversals }
  else m

variable {kind : EventKind} {a : Atr} {j : Nat}

theorem acceptEvent_known (hmove : ListMove kind s.atr a j) (htakes : TakesEvent s.now c s.atr.timeline)
    (hline : s.slc.line = .active) (hroom : s.slc.urgent.length < 8)
    (hentry : kind = .normalEntry → j = 0 ∨ (findEntry s j).isSome = true) :
    acceptEvent kind false a j c s = { s with
      atr := { a with
        timeline := timelineWith (eventOf kind j c) s.atr.timeline, records := recordsAfter kind j c s.atr.records },
      slc := crossQueued s.ses.number j kind (revisionIn j (recordsAfter kind j c s.atr.records)) c s.slc,
      ses := { s.ses with current := s.ses.current.map (reversalCounted kind) } } := by
  obtain ⟨htimeline, hrecords⟩ := listMove_frame hmove
  rw [acceptEvent_is htimeline htakes.room htakes.quiet, recordEvent_known, reportEvent_known (by exact hentry),
    handCross_is (by exact hline) (by exact hroom)]
  dsimp only
  rw [hrecords]
  rfl

/-! ### A first entry (R51, R54, R140, R145) -/

/-- The state in which the Fusion Unit and the Wagon Assembler hear of a first entry. -/
def entryBegun (a : Atr) (j : Nat) (c : Crossing) (s : State) : State :=
  { s with atr := { a with
      timeline := timelineWith (eventOf .normalEntry j c) s.atr.timeline, records := s.atr.records ++ [newRecord j c] } }

/-- R157: the ordinal has no neighbour in the spacing list and is within the list's reach. -/
structure StandsAlone (j : Nat) (w : Was) : Prop where
  reached : w.cursor ≤ j
  within  : j ≤ w.cursor + 127
  alone   : ∀ x ∈ w.items, x.ordinal ≠ j ∧ x.ordinal + 1 ≠ j ∧ x.ordinal ≠ j + 1

theorem acceptEvent_first {f : Fus} {q : Cnd} {top : Nat} (hmove : ListMove .normalEntry s.atr a j) (hj : j ≠ 0)
    (htakes : TakesEvent s.now c s.atr.timeline) (hline : s.slc.line = .active) (hroom : s.slc.urgent.length < 8)
    (hnew : ∀ r ∈ s.atr.records, r.ordinal ≠ j) (halone : StandsAlone j s.was)
    (htop : max top j = max s.was.highest j)
    (hnotify : notifyEntry j (some (c.edge, c.speed)) (entryBegun a j c s)
      = { entryBegun a j c s with fus := f, cnd := q, was := { s.was with highest := top } }) :
    acceptEvent .normalEntry true a j c s = { entryBegun a j c s with
      fus := f, cnd := q, slc := crossQueued s.ses.number j .normalEntry 1 c s.slc,
      was := { s.was with highest := max s.was.highest j, items := s.was.items ++ [firstItem j c] } } := by
  obtain ⟨htimeline, hrecords⟩ := listMove_frame hmove
  have hfind : (s.atr.records ++ [newRecord j c]).find? (fun r => r.ordinal == j) = some (newRecord j c) := by
    rw [List.find?_append, List.find?_eq_none.mpr fun r hr h => hnew r hr (eq_of_beq h)]
    simp [newRecord]
  have hrecord : recordEvent .normalEntry true j c
      { s with atr := { a with timeline := timelineWith (eventOf .normalEntry j c) s.atr.timeline } } = entryBegun a j c s := by
    rw [recordEvent_fresh hj]
    dsimp only
    rw [hrecords]
    rfl
  rw [acceptEvent_is htimeline htakes.room htakes.quiet, hrecord, reportEvent_first hj, hnotify,
    handFirstEntry_alone hj (by exact halone.reached) (by exact halone.within) (by exact halone.alone)]
  dsimp only
  rw [htop, handCross_is (by exact hline) (by exact hroom)]
  unfold findRecord
  have hrevision : (((entryBegun a j c s).atr.records.find? fun r => r.ordinal == j).map (·.revision)).getD 0 = 1 :=
    congrArg (fun x => (Option.map (·.revision) x).getD 0) hfind
  dsimp only
  rw [hrevision]
  rfl

/-- R140: with no entry for its ordinal the first entry makes one. -/
theorem notifyEntry_made (h : findEntry s j = none) (hopen : s.ses.state = .running)
    (hmatching : s.ses.closedForMatching = false) (hcursor : s.was.cursor ≤ j) (hroom : s.fus.table.length < 64) :
    notifyEntry j (some (c.edge, c.speed)) s = { s with
      fus := { s.fus with table := insertEntry (newEntry j (some c.edge) (some c.speed) none) s.fus.table },
      was := { s.was with highest := max s.was.highest j } } := by
  have hbirth : birthDeadline s = none := if_neg (by rw [hopen]; exact fun h => nomatch h)
  rw [notifyEntry_makes h (by rw [hopen]; exact fun h => nomatch h) hmatching hcursor hroom, createEntry_is, hbirth]

/-- R140, R145: an entry that a peer's STEP has made gets its first time and speed, and its unchecked rows are checked again. -/
theorem notifyEntry_rechecked {v : State} {f : Entry} (hj : j ≠ 0) (h : findEntry s j = some f) (ht : f.firstTime = none)
    (hstc : s.stc = v.stc) (hptb : s.ptb = { v.ptb with exitStation := s.ptb.exitStation })
    (hdirection : s.ses.direction = v.ses.direction) (hfus : s.fus = v.fus) :
    let timed : Entry := { f with firstTime := some c.edge, firstSpeed := some c.speed }
    ∃ table cnd g, notifyEntry j (some (c.edge, c.speed)) s = { s with fus := { s.fus with table := table }, cnd := cnd }
      ∧ (∀ i, i ≠ j → (table.find? fun f => f.ordinal == i) = findEntry s i)
      ∧ (table.find? fun f => f.ordinal == j) = some g
      ∧ g = { timed with rows := g.rows } ∧ g.rows.length = f.rows.length
      ∧ (∀ m, place g.rows m none = (place f.rows m none).map fun r => if m < 8 then checkedRow v timed m r else r)
      ∧ ((∃ m, m < 8 ∧ FoundMisaligned v timed m) → cnd = slipped s.cnd)
      ∧ ((∀ m, m < 8 → ¬ FoundMisaligned v timed m) → cnd = s.cnd) := by
  intro timed
  have hkey : ∀ e : Entry, ({ e with firstTime := some c.edge, firstSpeed := some c.speed } : Entry).ordinal = e.ordinal :=
    fun e => rfl
  have hordinal : f.ordinal = j := eq_of_beq (List.find?_some (p := fun e : Entry => e.ordinal == j) h)
  rw [notifyEntry_times h ht]
  generalize hX : changeEntry j (fun e =>
    { e with firstTime := some (c.edge, c.speed).1, firstSpeed := some (c.edge, c.speed).2 }) s = X
  have hframe : X = { s with fus := { s.fus with table := X.fus.table } } := by rw [← hX]; rfl
  have hfound : findEntry X j = some timed := by rw [← hX, findEntry_changeEntry s j _ hkey, h]; rfl
  have hother : ∀ i, i ≠ j → findEntry X i = findEntry s i := fun i hi => by rw [← hX, changeEntry_other s j i _ hkey hi]
  have halign : ∀ n r, alignmentOf X timed n r = alignmentOf v timed n r := by
    refine alignmentOf_congr ?_ ?_ ?_ (fun i hi => ?_) rfl
    · rw [hframe]; exact hstc
    · rw [hframe]; exact hptb
    · rw [hframe]; exact hdirection
    · have hne : i ≠ j := by
        rcases hi with rfl | rfl
        · show f.ordinal - 1 ≠ j
          omega
        · show f.ordinal + 1 ≠ j
          omega
      rw [hother i hne]
      unfold findEntry
      rw [hfus]
  obtain ⟨u, g, hu, hkeeps, hothers, hg, hgrows, hlength, hplaces, hmis, hall⟩ := recheckEntry_is X j timed hfound
  have hmisaligned : ∀ m, FoundMisaligned X timed m ↔ FoundMisaligned v timed m := fun m => misaligned_after halign rfl m rfl
  have hcnd : X.cnd = s.cnd := by rw [hframe]
  refine ⟨u.fus.table, u.cnd, g, ?_, fun i hi => (hothers i hi).trans (hother i hi), hg, hgrows, hlength, fun m => ?_, ?_, ?_⟩
  · rw [hu, hkeeps, hframe]
  · simp only [← checkedRow_after halign rfl]
    exact hplaces m
  · rintro ⟨m, hm, hfm⟩
    rw [hmis ⟨m, hm, (hmisaligned m).mpr hfm⟩, hcnd]
  · intro hno
    rw [hall fun m hm hfm => hno m hm ((hmisaligned m).mp hfm), hcnd]

end

end Sys2Proof.Machine
end

section
/-! The crossing that opens a session: the begin in IDLE or out of DRAINING, and the first axle (R122, R132, R133, R157). -/

namespace Sys2Proof.Machine

open Sys2Proof

/-! ### The first crossing of a session (R42, R48, R51, R140, R157) -/

/-- A session just begun, before the crossing that began it becomes its first event. -/
structure JustBegun (c : Crossing) (s : State) : Prop where
  running   : s.ses.state = .running
  direction : s.ses.direction = observedDirection c.side
  matching  : s.ses.closedForMatching = false
  tracker   : s.atr = Atr.reset
  assembler : s.was = Was.reset
  table     : s.fus.table = []
  line      : s.slc.line = .active
  room      : s.slc.urgent.length < 8

/-- The state after the first crossing of a session. -/
def firstCrossed (c : Crossing) (s : State) : State :=
  { s with
    atr :=
      { list := [1], returnStack := [], exitStack := [], counter := 1, records := [newRecord 1 c],
        timeline := [eventOf .normalEntry 1 c] },
    fus := { s.fus with table := [newEntry 1 (some c.edge) (some c.speed) none] },
    was := { Was.reset with highest := 1, items := [firstItem 1 c] },
    slc := crossQueued s.ses.number 1 .normalEntry 1 c s.slc }

section
variable {c : Crossing} {s : State}

theorem mapCrossing_first (h : JustBegun c s) (hkind : c.kind = .inward) : mapCrossing c s = firstCrossed c s := by
  have hevent : eventKindOf s.ses.direction c = .normalEntry := by
    rw [h.direction, eventKindOf_is, if_pos hkind]
    cases c.side <;> rfl
  have hmove : ListMove .normalEntry s.atr { Atr.reset with list := [1], counter := 1 } 1 := by
    rw [h.tracker]
    exact ⟨by decide, .inr ⟨rfl, by decide, rfl, rfl⟩⟩
  have hnotify := notifyEntry_made (c := c) (j := 1)
    (s := entryBegun { Atr.reset with list := [1], counter := 1 } 1 c s) (by unfold findEntry; exact h.table ▸ rfl) h.running
    h.matching (by exact h.assembler ▸ le_refl 1) (by exact h.table ▸ (by decide : 0 < 64))
  have htakes : TakesEvent s.now c s.atr.timeline := by
    rw [h.tracker]
    exact ⟨(by decide : 0 < 32), fun _ hx => nomatch hx⟩
  have halone : StandsAlone 1 s.was := by
    rw [h.assembler]
    exact ⟨le_refl 1, (by decide : 1 ≤ 128), fun _ hx => nomatch hx⟩
  have hfirst := acceptEvent_first hmove (by decide) htakes h.line h.room (by rw [h.tracker]; exact fun _ hr => nomatch hr)
    halone (max_eq_left (le_max_right s.was.highest 1)) hnotify
  have hstack : s.atr.returnStack = [] := by rw [h.tracker]; rfl
  rw [mapCrossing_moves (by rw [h.running]; exact fun h => nomatch h) (by rw [hevent]; exact hmove), hevent]
  simp only [hstack, and_self, decide_true]
  rw [hfirst]
  unfold entryBegun firstCrossed
  rw [h.tracker, h.assembler, h.table]
  rfl

theorem tidy_firstCrossed (w : Whu) : tidy { firstCrossed c s with whu := w } = { firstCrossed c s with whu := w } := rfl

end

/-! ### A session begun (R122, R133) -/

/-- R122, R133: the number of a session begun by an own crossing: a held OPEN's, or the next one. -/
def openingNumber (held : Option HeldOpen) (s : State) : Word16 :=
  match held with
  | none => nextNumber s
  | some x => x.number

/-- R122, R133: a session begun by an own crossing, where no record is pending. -/
def openedState (c : Crossing) (held : Option HeldOpen) (s : State) : State :=
  { s with
    ses := (beginFields (openingNumber held s) (observedDirection c.side) true ((held.map (·.sender)).getD (ownNumber s))
      ((held.map (·.firstEdge)).getD c.edge) s.now s.now s).ses,
    lfe := (abandonBlock s).lfe,
    atr := Atr.reset,
    ptb := (chooseExit { s with ses := { s.ses with direction := observedDirection c.side } }).ptb,
    fus := { s.fus with current := some (openingNumber held s), superseded := none },
    slc := if held.isSome then s.slc else
      { s.slc with
        sequence := s.slc.sequence + 1,
        urgent := s.slc.urgent ++
          [newFrame (.opening (openingNumber held s) (observedDirection c.side) c.edge) broadcast s.slc.sequence] },
    cnd := if held.any fun x => x.direction != observedDirection c.side then slipped s.cnd else s.cnd }

theorem openAfterDraining_is {c : Crossing} {s : State} (held : Option HeldOpen) (hdone : ∀ r ∈ s.atr.records, r.done = true)
    (hline : s.slc.line = .active) (hroom : s.slc.urgent.length < 8) :
    openAfterDraining c held s = openedState c held s := by
  unfold openAfterDraining openedState
  cases held with
  | none =>
    dsimp only
    unfold openSession
    rw [beginSession_done hdone]
    exact handOver_urgent (by rw [hline]; rfl) rfl hroom
  | some x =>
    dsimp only
    rw [beginSession_done hdone]
    by_cases hsame : x.direction = observedDirection c.side
    · rw [hsame, bne_self_eq_false, onlyIf_false]
      simp [hsame, openingNumber]
    · have hdiffers : (observedDirection c.side != x.direction) = true := bne_iff_ne.mpr (Ne.symm hsame)
      rw [hdiffers, onlyIf_true]
      simp [hsame, openingNumber]
      rfl

section
variable {t : Time} {e : PlatformEnd} {h : HeadNo} {c : Crossing} {u : EndUnit} {k : Cnd} {s : State}

theorem setLastSpeed_again {v : Nat} (hv : (endUnit s e).lastSpeed = some v) : setLastSpeed e v s = s := by
  have hsame : ∀ w : EndUnit, w.lastSpeed = some v → { w with lastSpeed := some v } = w := fun w hw => by rw [← hw]
  unfold setLastSpeed
  rw [hsame _ hv]
  cases e <;> rfl

/-- R39: a crossing that opens no session becomes an event where the session takes it. -/
theorem edge_offered (hl : EdgeLatched t e h s) (hd : Delivers t e h s c u k) {v : State}
    (hoffer : offerCrossing c (deliveryState t e u k s) = (v, false)) :
    exec (.headEdge t e h) s = .next (tidy (mapCrossing c v)) := by
  obtain ⟨-, again, -, hexec⟩ := edge_delivers hl hd
  rw [hexec]
  unfold deliverCrossing
  dsimp only
  rw [hoffer, Bool.and_false, onlyIf_false]

/-- R30, R39: a crossing that opens a session is its first event; a pair's end has its last speed after it. -/
theorem edge_opens (hl : EdgeLatched t e h s) (hd : Delivers t e h s c u k) {v : State} (hkind : c.kind = .inward)
    (hoffer : offerCrossing c (deliveryState t e u k s) = (v, true)) (hbegun : JustBegun c v) :
    ∃ w, exec (.headEdge t e h) s = .next { firstCrossed c v with whu := w } ∧ (endUnit v e = u → w = v.whu) := by
  obtain ⟨-, again, hspeed, hexec⟩ := edge_delivers hl hd
  have hmapped := mapCrossing_first hbegun hkind
  unfold deliverCrossing at hexec
  dsimp only at hexec
  rw [hoffer] at hexec
  dsimp only at hexec
  rw [hmapped, Bool.and_true] at hexec
  cases hagain : again with
  | false =>
    rw [hagain, onlyIf_false] at hexec
    exact ⟨v.whu, hexec, fun _ => rfl⟩
  | true =>
    rw [hagain, onlyIf_true] at hexec
    refine ⟨(setLastSpeed e c.speed (firstCrossed c v)).whu, ?_, fun hend => ?_⟩
    · rw [hexec]
      unfold setLastSpeed
      rw [setEndUnit_put, tidy_firstCrossed]
    · have hsame : endUnit (firstCrossed c v) e = u := by rw [← hend]; cases e <;> rfl
      rw [setLastSpeed_again (by rw [hsame]; exact hspeed hagain)]
      rfl

end

end Sys2Proof.Machine
end

section
/-! The latched edge's crossing in each session state (R39, R122 to R124, R127, R128, R131 to R133, R153). -/

namespace Sys2Proof.Machine

open Sys2Proof

section
variable {t : Time} {e : PlatformEnd} {h : HeadNo} {c : Crossing} {u : EndUnit} {k : Cnd} {s : State}

/-! ### IDLE (R39, R122) -/

theorem laterNumber_next (m : Word16) : laterNumber (m + 1) m = true := by
  have hone : m + 1 - m = 1 := by bv_omega
  rw [laterNumber_iff, hone]
  decide

theorem raiseMark_next (s : State) : raiseMark (nextNumber s) s.ses.mark = some (nextNumber s) := by
  unfold nextNumber
  cases s.ses.mark with
  | none => rfl
  | some m => exact if_pos (laterNumber_next m)

theorem edge_idleOutward (hl : EdgeLatched t e h s) (hd : Delivers t e h s c u k) (hstate : s.ses.state = .idle)
    (hkind : c.kind = .outward) : exec (.headEdge t e h) s = .next (tidy (deliveryState t e u k s)) := by
  have hoffer : offerCrossing c (deliveryState t e u k s) = (deliveryState t e u k s, false) := by
    unfold offerCrossing
    rw [show (deliveryState t e u k s).ses.state = .idle from hstate, hkind]
    rfl
  have hclosed : sessionOpen (deliveryState t e u k s) = false := bne_eq_false_iff_eq.mpr hstate
  have hmap : mapCrossing c (deliveryState t e u k s) = deliveryState t e u k s :=
    if_neg (by rw [hclosed]; exact Bool.false_ne_true)
  rw [edge_offered hl hd hoffer, hmap]

theorem justBegun_opened (held : Option HeldOpen) (hline : s.slc.line = .active) (hroom : s.slc.urgent.length < 7)
    (hwas : s.was = Was.reset) (htable : s.fus.table = []) : JustBegun c (openedState c held s) := by
  refine ⟨rfl, rfl, rfl, rfl, hwas, htable, ?_, ?_⟩
  · unfold openedState
    dsimp only
    split
    · exact hline
    · exact hline
  · unfold openedState
    dsimp only
    split
    · omega
    · rw [List.length_append]
      exact Nat.succ_lt_succ hroom

theorem edge_idleInward (hl : EdgeLatched t e h s) (hd : Delivers t e h s c u k) (hstate : s.ses.state = .idle)
    (hkind : c.kind = .inward) (hline : s.slc.line = .active) (hroom : s.slc.urgent.length < 7)
    (hdone : ∀ r ∈ s.atr.records, r.done = true) (htable : s.fus.table = []) (hwas : s.was = Was.reset) :
    exec (.headEdge t e h) s = .next (firstCrossed c (openedState c none (deliveryState t e u k s))) := by
  have hoffer : offerCrossing c (deliveryState t e u k s) = (openedState c none (deliveryState t e u k s), true) := by
    rw [← openAfterDraining_is none (by exact hdone) (by exact hline) (by exact Nat.lt_succ_of_lt hroom)]
    unfold offerCrossing
    rw [show (deliveryState t e u k s).ses.state = .idle from hstate, hkind]
    rfl
  obtain ⟨w, hexec, hw⟩ := edge_opens hl hd hkind hoffer
    (justBegun_opened none (by exact hline) (by exact hroom) (by exact hwas) (by exact htable))
  rw [hexec, hw (by cases e <;> rfl)]
  rfl

/-! ### RUNNING and HALTED (R124, R127, R128, R153) -/

theorem edge_running (hl : EdgeLatched t e h s) (hd : Delivers t e h s c u k) (hstate : s.ses.state = .running)
    (hhalt : reached (addUs t (haltUs s)) t = false) (hclose : reached (addUs t (closeUs s)) t = false) :
    exec (.headEdge t e h) s = .next (tidy (mapCrossing c (crossedState t c (deliveryState t e u k s)))) :=
  edge_offered hl hd (offerCrossing_running rfl (by exact hstate) (by exact hhalt) (by exact hclose))

/-- R128: the session and table of a HALTED session as they are once a crossing has resumed it. -/
def resumedForRunning (ms : Nat) (table : List Entry) (s : State) : State :=
  { s with
    fus := { s.fus with table := table },
    ses := { s.ses with state := .running, nextHaltTick := none, current := s.ses.current.map (withStay s ms) } }

theorem takenSes_resumed {ms : Nat} {table : List Entry} (hstate : s.ses.state = .halted) :
    takenSes t 0 (checkedState c (deliveryState t e u k (resumedForRunning ms table s)))
      = takenSes t ms (checkedState c (deliveryState t e u k s)) := by
  have hhalted : ∀ m : Summary, withStay (checkedState c (deliveryState t e u k s)) ms m
      = { m with haltedMs := min 4294967295 (m.haltedMs + ms) } := fun m => if_pos hstate
  have hstay : ∀ m : Summary, withStay s ms m = { m with haltedMs := min 4294967295 (m.haltedMs + ms) } :=
    fun m => if_pos hstate
  have hrunning : ∀ m : Summary, withStay (checkedState c (deliveryState t e u k (resumedForRunning ms table s))) 0 m = m :=
    fun m => if_neg fun h => nomatch h
  have htick : (checkedState c (deliveryState t e u k s)).ses.state = .halted := hstate
  unfold takenSes
  simp only [hhalted, hrunning, htick, if_true]
  simp only [checkedState, deliveryState, resumedForRunning, Option.map_map, Function.comp_def, hstay]
  rfl

/-- R127, R128, R153: a crossing taken in RUNNING or HALTED, its expiries not yet taken. -/
theorem crossingTaken_left {ms : Nat} (hleaves : LeavesAt s.now s ms) :
    crossingTaken t s = takeExpiries (onlyIf (s.ses.state == .halted) resumeDeadlines (takenState t ms s)) := by
  have hrun : timersRun s = true := (timersRun_iff s).mpr (hleaves.imp_right fun h => h.1)
  unfold crossingTaken
  rw [hrun, if_pos rfl, restartTimers_left t hleaves]

/-- R128, R153: in HALTED the crossing is taken as it is in RUNNING with the stay added and the entries resumed. -/
theorem edge_halted {ms : Nat} (hl : EdgeLatched t e h s) (hd : Delivers t e h s c u k) (hstate : s.ses.state = .halted)
    (hleaves : LeavesAt t s ms) :
    exec (.headEdge t e h) s = exec (.headEdge t e h) (resumedForRunning ms
      (s.fus.table.map (resumedEntry (takenState t ms (checkedState c (deliveryState t e u k s))))) s) := by
  generalize htable : s.fus.table.map (resumedEntry (takenState t ms (checkedState c (deliveryState t e u k s)))) = table
  have hopen : s.ses.state ≠ .idle := by rw [hstate]; exact fun h => nomatch h
  have hl' : EdgeLatched t e h (resumedForRunning ms table s) := hl.congr rfl
  have hd' : Delivers t e h (resumedForRunning ms table s) c u k := hd.congr hopen (fun h => nomatch h) rfl rfl
  have hstart : takenState t 0 (checkedState c (deliveryState t e u k (resumedForRunning ms table s)))
      = resumeDeadlines (takenState t ms (checkedState c (deliveryState t e u k s))) := by
    unfold takenState
    rw [takenSes_resumed hstate, ← htable]
    rfl
  have htaken : crossingTaken t (checkedState c (deliveryState t e u k s))
      = crossingTaken t (checkedState c (deliveryState t e u k (resumedForRunning ms table s))) := by
    rw [crossingTaken_left (s := checkedState c (deliveryState t e u k s)) (by exact hleaves),
      crossingTaken_left (s := checkedState c (deliveryState t e u k (resumedForRunning ms table s))) (ms := 0) (.inl rfl),
      hstart, show (checkedState c (deliveryState t e u k s)).ses.state = .halted from hstate]
    rfl
  rw [edge_offered hl hd (offerCrossing_timed (.inr hstate)), edge_offered hl' hd' (offerCrossing_timed (.inl rfl))]
  exact congrArg (fun x => Host.Outcome.next (tidy (mapCrossing c x))) htaken

/-! ### DRAINING (R43, R44, R46, R131 to R133) -/

theorem edge_drainingOutward (hl : EdgeLatched t e h s) (hd : Delivers t e h s c u k) (hstate : s.ses.state = .draining)
    (hkind : c.kind = .outward) : exec (.headEdge t e h) s = .next (tidy (mapCrossing c (deliveryState t e u k s))) := by
  refine edge_offered hl hd ?_
  unfold offerCrossing
  rw [show (deliveryState t e u k s).ses.state = .draining from hstate, hkind]
  rfl

/-- R131, R132: the session and its blocks once an interruption has closed it, `last` being its summary. -/
structure SessionEnded (s : State) (m last : Summary) (v : State) : Prop where
  frame   : ∃ a b w r, v = { s with
              slc := a, cnd := b, whu := w, rst := r, atr := Atr.reset, was := Was.reset, fus := { s.fus with table := [] },
              ses := { s.ses with
                last := some last, current := none, state := .idle, drainLimit := none, closePending := false,
                closedForMatching := false, haltExpiry := none, closeExpiry := none, nextHaltTick := none } }
  counted : m.wagons ≤ last.wagons
  summary : last = { m with
              ownAxles := s.atr.counter, wagons := last.wagons, late := last.late,
              mismatch := m.mismatch || m.shuts.any fun x =>
                (x.map fun n => n.axles != s.atr.counter || n.wagons != last.wagons).getD false }
  late    : (∃ f ∈ s.fus.table, f.fused = none) → v.cnd.latched.getLsbD 7 = true
  causes  : CausesGain s v
  ring    : ∀ r ∈ v.rst.ring, r ∈ s.rst.ring ∨ r.session = s.ses.number
  line    : v.slc.line = s.slc.line
  shut    : ∃ f : TxFrame, f.body = .shut s.ses.number s.atr.counter last.wagons ∧ v.slc.urgent = s.slc.urgent ++ [f]

/-- R131, R132: an interruption forces what is OPEN, has the train assembled to its end and closes the session. -/
theorem interrupted_ends {m : Summary} (hinv : AsmInv s) (hstate : s.ses.state = .draining) (hm : s.ses.current = some m)
    (hline : s.slc.line = .active) (hroom : s.slc.urgent.length < 8) :
    ∃ last, SessionEnded s m last (closeSession (closeMatching (forceAll s))) := by
  have hforced := Assembled.forceAll s
  have hmatched := Assembled.closeMatching (forceAll s)
  obtain ⟨-, hempty⟩ := forceAll_empties hinv hstate
  obtain ⟨w, l, hw, hses⟩ := hforced.session hm
  obtain ⟨w', l', hw', hses'⟩ := hmatched.session (m := { m with wagons := w, late := l }) (by rw [hses])
  have hlate : (∃ f ∈ s.fus.table, f.fused = none) → (closeMatching (forceAll s)).cnd.latched.getLsbD 7 = true :=
    fun hopen => hmatched.quiet.causes.kept 7 (forceAll_late hopen)
  have hquiet : HandsNoUrgent s (closeMatching (forceAll s)) := hforced.quiet.trans (hmatched.quiet.before rfl rfl)
  have hring : ∀ r ∈ (closeMatching (forceAll s)).rst.ring, r ∈ s.rst.ring ∨ r.session = s.ses.number := by
    intro r hr
    rcases hmatched.ring r hr with hr | hr
    · exact hforced.ring r hr
    · exact .inr (hr.trans (congrArg Ses.number hses :))
  obtain ⟨⟨a₁, b₁, w₁, f₁, c₁, r₁, hF⟩, -⟩ := hforced
  obtain ⟨⟨a₂, b₂, w₂, f₂, c₂, r₂, hG⟩, -⟩ := hmatched
  have hgses : (closeMatching (forceAll s)).ses = { s.ses with
      closedForMatching := true, current := some { m with wagons := w', late := l' } } := by rw [hses', hses]
  have hgframe : closeMatching (forceAll s) = { s with
      slc := a₂, cnd := b₂, was := w₂, fus := { s.fus with table := f₂ }, 
      ses := (closeMatching (forceAll s)).ses, rst := r₂ } := by
    rw [hG, hF]
  generalize closeMatching (forceAll s) = g at *
  obtain ⟨a₃, b₃, w₃, hV⟩ := closeSession_eq g
  have hcounter : g.atr.counter = s.atr.counter := by rw [hgframe]
  have hshut : handShut g = _ := handOver_urgent (by rw [hquiet.line, hline]; rfl) rfl (by rw [hquiet.urgent]; exact hroom)
  have hclosed : HandsNoUrgent (handShut g) (closeSession g) := closeSession_quiet g
  refine ⟨closeSummary s.atr.counter { m with wagons := w', late := l' },
    ⟨a₃, b₃, w₃, { g.rst with deferred := none }, ?_⟩, hw.trans hw', closeSummary_eq _ _, fun hopen => ?_, ?_,
    fun r hr => ?_, ?_, ⟨newFrame (.shut s.ses.number s.atr.counter w') broadcast g.slc.sequence, rfl, ?_⟩⟩
  · have hfiled : (fileSummary g).ses = { s.ses with
        last := some (closeSummary s.atr.counter { m with wagons := w', late := l' }), current := none, state := .idle,
        drainLimit := none, closePending := false, closedForMatching := false, haltExpiry := none, closeExpiry := none,
        nextHaltTick := none } := by
      unfold fileSummary
      rw [hgses, hcounter]
    have htable : f₂ = [] := by rw [hgframe] at hempty; exact hempty
    rw [hV, hfiled, hgframe, htable]
  · exact (closeSession_gains g).kept 7 (hlate hopen)
  · exact hquiet.causes.trans (closeSession_gains g)
  · rw [hV] at hr
    exact hring r hr
  · rw [hclosed.line, hshut]
    exact hquiet.line
  · rw [hclosed.urgent, hshut]
    dsimp only
    rw [hquiet.urgent, hgses, hcounter]
    rfl

/-- R133: an inward crossing in DRAINING closes the session and opens the next one, or the one held. -/
theorem edge_drainingInward {m : Summary} (hl : EdgeLatched t e h s) (hd : Delivers t e h s c u k)
    (hstate : s.ses.state = .draining) (hkind : c.kind = .inward) (hinv : AsmInv s) (hm : s.ses.current = some m)
    (hline : s.slc.line = .active) (hroom : s.slc.urgent.length < 6) :
    ∃ last v w, SessionEnded { deliveryState t e u k s with ses := { s.ses with held := none } } m last v
      ∧ exec (.headEdge t e h) s = .next { firstCrossed c (openedState c s.ses.held v) with whu := w } := by
  generalize hA : ({ deliveryState t e u k s with ses := { s.ses with held := none } } : State) = A
  have hsession : SesGood A.ses := by
    obtain ⟨h1, h2, h3, h4, h5, h6, h7, h8, h9, -⟩ := hinv.session
    rw [← hA]
    exact ⟨h1, h2, h3, h4, h5, h6, h7, h8, h9, fun h => nomatch h⟩
  have hinvA : AsmInv A := by
    obtain ⟨⟨hcursor, hpatterns, htable, hitems, hgroup, -, hidle⟩, hmatched⟩ := hinv
    rw [← hA] at hsession ⊢
    exact ⟨⟨hcursor, hpatterns, htable, hitems, hgroup, hsession, hidle⟩, hmatched⟩
  have hslc : A.slc = s.slc := by rw [← hA]; rfl
  obtain ⟨last, hended⟩ := interrupted_ends hinvA (by rw [← hA]; exact hstate) (by rw [← hA]; exact hm)
    (by rw [hslc]; exact hline) (by rw [hslc]; omega)
  have hoffer : offerCrossing c (deliveryState t e u k s)
      = (openAfterDraining c s.ses.held (closeSession (closeMatching (forceAll A))), true) := by
    unfold offerCrossing
    rw [show (deliveryState t e u k s).ses.state = .draining from hstate, hkind, ← hA]
    rfl
  generalize closeSession (closeMatching (forceAll A)) = v at hended hoffer
  obtain ⟨shut, -, hurgent⟩ := hended.shut
  have hvline : v.slc.line = .active := hended.line.trans (by rw [hslc]; exact hline)
  have hvroom : v.slc.urgent.length < 7 := by rw [hurgent, hslc, List.length_append, List.length_singleton]; omega
  obtain ⟨a, b, w, r, hframe⟩ := hended.frame
  rw [openAfterDraining_is _ (by rw [hframe]; exact fun _ h => nomatch h) hvline (by omega)] at hoffer
  obtain ⟨w', hexec, -⟩ := edge_opens hl hd hkind hoffer
    (justBegun_opened _ hvline hvroom (by rw [hframe]) (by rw [hframe]))
  exact ⟨last, v, w', hended, hexec⟩

end

end Sys2Proof.Machine
end

section
/-! Own crossings: the statement about every session state. -/

namespace Sys2Proof.Machine

open Sys2Proof

section
variable {c : Crossing} {s : State} {a : Atr} {j : Nat}

theorem beginFields_next (d : Direction) (b : Bool) (o : Nat) (tf x y : Time) :
    { (beginFields (nextNumber s) d b o tf x y s).ses with mark := some (nextNumber s) }
      = (beginFields (nextNumber s) d b o tf x y s).ses := by
  rw [← raiseMark_next]
  rfl

theorem openedState_none (hready : s.stc.station = .ready) : openedState c none s = { s with
    ses := { (beginFields (nextNumber s) (observedDirection c.side) true (ownNumber s) c.edge s.now s.now s).ses with
      mark := some (nextNumber s) },
    lfe := { s.lfe with block := [] },
    atr := Atr.reset,
    ptb := (chooseExit { s with ses := { s.ses with direction := observedDirection c.side } }).ptb,
    fus := { s.fus with current := some (nextNumber s), superseded := none },
    slc := { s.slc with
      sequence := s.slc.sequence + 1,
      urgent := s.slc.urgent ++
        [newFrame (.opening (nextNumber s) (observedDirection c.side) c.edge) broadcast s.slc.sequence] } } := by
  have hblock : abandonBlock s = { s with lfe := { s.lfe with block := [] } } := if_pos (by rw [hready]; rfl)
  unfold openedState openingNumber
  dsimp only
  rw [hblock, ← beginFields_next]
  rfl

/-- R122, R55: OPEN and the first CROSS stand one behind the other. -/
theorem crossQueued_after (n : Word16) (kind : EventKind) (revision : Nat) (x : Slc) (f : TxFrame) :
    crossQueued n j kind revision c { x with sequence := x.sequence + 1, urgent := x.urgent ++ [f] } =
      { x with
        sequence := x.sequence + 2,
        urgent := x.urgent ++
          [f, { body := .cross n j kind revision c.edge c.speed c.overspeed c.creep, target := 15, seq := x.sequence + 2,
                failed := 0, held := 0 }] } := by
  have htwo : x.sequence + 1 + 1 = x.sequence + 2 := by rw [BitVec.add_assoc]; rfl
  unfold crossQueued newFrame
  dsimp only
  rw [htwo, List.append_assoc]
  rfl

/-- R122: the whole of what an opening crossing leaves. -/
theorem firstCrossed_opened (hready : s.stc.station = .ready) : firstCrossed c (openedState c none s) =
    { openedState c none s with
      atr := (firstCrossed c s).atr,
      fus := { s.fus with
        current := some (nextNumber s), superseded := none, table := [newEntry 1 (some c.edge) (some c.speed) none] },
      was := (firstCrossed c s).was,
      slc := { s.slc with
        sequence := s.slc.sequence + 2,
        urgent := s.slc.urgent ++
          [newFrame (.opening (nextNumber s) (observedDirection c.side) c.edge) broadcast s.slc.sequence,
           { body := .cross (nextNumber s) 1 .normalEntry 1 c.edge c.speed c.overspeed c.creep, target := 15,
             seq := s.slc.sequence + 2, failed := 0, held := 0 }] } } := by
  rw [← crossQueued_after, openedState_none hready]
  rfl

theorem eventKindOf_outward (d : Direction) (h : c.kind = .outward) :
    eventKindOf d c =
      if (d = .up ∧ c.side = .a) ∨ (d = .down ∧ c.side = .b) then .reverseExit else .normalExit := by
  rw [eventKindOf_is, h]
  rfl

/-- R124: of the Peer Table the check of the direction changes only the exit station. -/
theorem checkedState_ptb (v : State) :
    (checkedState c v).ptb = { v.ptb with exitStation := (checkedState c v).ptb.exitStation } := by
  unfold checkedState
  dsimp only
  split <;> rfl

theorem slipped_crossed (t : Time) (v : State) : slipped (crossedState t c v).cnd =
    { (crossedState t c v).cnd with
      latched := (crossedState t c v).cnd.latched ||| 16,
      faultLow := (((crossedState t c v).cnd.latched ||| 16) &&& v.cnd.enable) != 0 } := by
  have henable : (crossedState t c v).cnd.enable = v.cnd.enable := by
    unfold crossedState checkedState
    dsimp only
    split <;> rfl
  exact congrArg (fun q => ({ (crossedState t c v).cnd with
    latched := (crossedState t c v).cnd.latched ||| 16,
    faultLow := (((crossedState t c v).cnd.latched ||| 16) &&& q) != 0 } : Cnd)) henable

/-- R153: an entry that the crossing resumes goes by the direction then held. -/
theorem resumed_checked (t : Time) (ms : Nat) (v : State) (hv : v.now = t) (f : Entry) :
    Resumed t { v with ses := { v.ses with direction := checkedDirection c v } } f
      (resumedEntry (takenState t ms (checkedState c v)) f) := by
  have hM : takenState t ms (checkedState c v) = { takenState t ms (checkedState c v) with
      ptb := { v.ptb with exitStation := (checkedState c v).ptb.exitStation } } := by
    rw [← checkedState_ptb]
    rfl
  rw [hM]
  exact resumed_is _ _ f hv rfl (fun _ => rfl) fun _ => rfl

/-- R43 to R46, R52 to R55: an event of an axle that keeps its ordinal. -/
theorem mapCrossing_known {kind : EventKind} (hkind : eventKindOf s.ses.direction c = kind) (hopen : s.ses.state ≠ .idle)
    (hmove : ListMove kind s.atr a j)
    (htakes : TakesEvent s.now c s.atr.timeline) (hline : s.slc.line = .active) (hroom : s.slc.urgent.length < 8)
    (hknown : ¬ (kind = .normalEntry ∧ s.atr.returnStack = []))
    (hentry : kind = .normalEntry → j = 0 ∨ (findEntry s j).isSome = true) :
    mapCrossing c s = { s with
      atr := { a with
        timeline := timelineWith (eventOf kind j c) s.atr.timeline, records := recordsAfter kind j c s.atr.records },
      slc := crossQueued s.ses.number j kind (revisionIn j (recordsAfter kind j c s.atr.records)) c s.slc,
      ses := { s.ses with current := s.ses.current.map (reversalCounted kind) } } := by
  subst hkind
  rw [mapCrossing_moves hopen hmove, decide_eq_false hknown, acceptEvent_known hmove htakes hline hroom hentry]

/-- R42: a first entry counts the next ordinal. -/
theorem ListMove.counts {kind : EventKind} {b : Atr} (h : ListMove kind b a j)
    (hfresh : kind = .normalEntry ∧ b.returnStack = []) : j ≠ 0 := by
  obtain ⟨rfl, hstack⟩ := hfresh
  obtain ⟨-, ⟨rest, hreturned, -⟩ | ⟨-, -, rfl, -⟩⟩ := h
  · exact nomatch hstack.symm.trans hreturned
  · exact Nat.succ_ne_zero _

/-- R42, R51, R140, R157: the event of a new axle, by what its notification does. -/
theorem mapCrossing_new {f : Fus} {q : Cnd} {top : Nat} (hkind : eventKindOf s.ses.direction c = .normalEntry)
    (hopen : s.ses.state ≠ .idle) (hmove : ListMove .normalEntry s.atr a j) (hstack : s.atr.returnStack = [])
    (htakes : TakesEvent s.now c s.atr.timeline) (hline : s.slc.line = .active) (hroom : s.slc.urgent.length < 8)
    (hnew : ∀ r ∈ s.atr.records, r.ordinal ≠ j) (halone : StandsAlone j s.was) (htop : max top j = max s.was.highest j)
    (hnotify : notifyEntry j (some (c.edge, c.speed)) (entryBegun a j c s)
      = { entryBegun a j c s with fus := f, cnd := q, was := { s.was with highest := top } }) :
    mapCrossing c s = { entryBegun a j c s with
      fus := f, cnd := q, slc := crossQueued s.ses.number j .normalEntry 1 c s.slc,
      was := { s.was with highest := max s.was.highest j, items := s.was.items ++ [firstItem j c] } } := by
  have hmoves := mapCrossing_moves hopen (by rw [hkind]; exact hmove)
  rw [hkind, decide_eq_true ⟨rfl, hstack⟩] at hmoves
  rw [hmoves, acceptEvent_first hmove (hmove.counts ⟨rfl, hstack⟩) htakes hline hroom hnew halone htop hnotify]

/-! ### What a begun session shows of the one that ended (R122, R133) -/

theorem openedState_kept (held : Option HeldOpen) {i : Nat} (h : s.cnd.latched.getLsbD i = true) :
    (openedState c held s).cnd.latched.getLsbD i = true := by
  unfold openedState
  dsimp only
  split
  · show (s.cnd.latched ||| 16).getLsbD i = true
    rw [BitVec.getLsbD_or, h, Bool.true_or]
  · exact h

theorem openedState_slip (held : Option HeldOpen) : (openedState c held s).cnd.latched.getLsbD 4
    = (s.cnd.latched.getLsbD 4 || held.any fun x => x.direction != observedDirection c.side) := by
  unfold openedState
  dsimp only
  cases held.any fun x => x.direction != observedDirection c.side with
  | true =>
    show (s.cnd.latched ||| 16).getLsbD 4 = _
    rw [BitVec.getLsbD_or]
    rfl
  | false => exact (Bool.or_false _).symm

theorem openedState_urgent (held : Option HeldOpen) : (openedState c held s).slc.urgent.map (·.body)
    = s.slc.urgent.map (·.body) ++
      if held.isSome then [] else [.opening (openingNumber held s) (observedDirection c.side) c.edge] := by
  unfold openedState
  cases held with
  | none => exact List.map_append
  | some x => exact (List.append_nil _).symm

theorem openingNumber_is (held : Option HeldOpen) : openingNumber held s =
    match held with
    | some x => x.number
    | none => match s.ses.mark with | none => 1 | some n => n + 1 := by
  cases held <;> rfl

end

end Sys2Proof.Machine
end

open Sys2Proof Sys2Proof.Machine

/-- Settles O15: in each session state the offer is reduced to the event, and the event to its list move. -/
theorem ownInwardCrossingOpensASession : Obligations.OwnInwardCrossingOpensASession := by
  intro t e h c u k s hl hd
  obtain ⟨hside, -⟩ := edge_delivers hl hd
  subst hside
  rw [← observedDirection_is]
  intro seen halt close_ latest cross record entry item
  refine ⟨fun hstate hkind => ?_, fun hstate hkind hline hroom hdone htable hwas => ?_, fun hstate hhalt hclose => ?_,
    fun ms hstate hleaves => ?_, fun hstate hkind => ?_, fun m hstate hkind hinv hm hline hroom => ?_⟩
  · rw [edge_idleOutward hl hd hstate hkind, deliveryState_eq]
  · intro n
    rw [edge_idleInward hl hd hstate hkind hline hroom hdone htable hwas, firstCrossed_opened (by exact hl.ready),
      openedState_none (by exact hl.ready), setEndUnit_put]
    rfl
  · intro checks d turns trailing kind ses base
    have hrun := edge_running hl hd hstate hhalt hclose
    have hevent : eventKindOf (crossedState t c (deliveryState t c.side u k s)).ses.direction c = kind := eventKindOf_is d c
    have hbase : base = crossedState t c (deliveryState t c.side u k s) := setEndUnit_put _ _ _
    have hopen : (crossedState t c (deliveryState t c.side u k s)).ses.state ≠ .idle := by
      rw [show (crossedState t c (deliveryState t c.side u k s)).ses.state = .running from hstate]
      exact fun h => nomatch h
    clear_value base kind
    subst hbase
    refine ⟨fun hphantom => ?_, fun a j hmove hroom hquiet hline hurgent => ?_⟩
    · rw [hrun, mapCrossing_phantom hopen (by rw [hevent]; exact hphantom)]
      rfl
    · intro timeline fresh
      refine ⟨fun hknown hentry => ?_, fun hfresh hcursor hwithin halone hnew => ?_⟩
      · intro records revision
        rw [hrun, mapCrossing_known hevent hopen hmove ⟨hroom, hquiet⟩ hline hurgent hknown hentry]
        rfl
      · have hj := hmove.counts hfresh
        obtain ⟨rfl, hstack⟩ := hfresh
        have hmapped := fun (f : Fus) (q : Cnd) (top : Nat) htop hnotify =>
          mapCrossing_new (f := f) (q := q) (top := top) hevent hopen hmove hstack ⟨hroom, hquiet⟩ hline hurgent hnew
            ⟨hcursor, hwithin, halone⟩ htop hnotify
        intro begun
        refine ⟨fun hnone hsize hmatching => ?_, fun f hf ht => ?_, fun f hf ht => ?_⟩
        · have hnotify := notifyEntry_made (c := c) (j := j)
            (s := entryBegun a j c (crossedState t c (deliveryState t c.side u k s))) hnone hstate hmatching hcursor hsize
          refine ⟨_, ?_, fun i hi => find_insert_other _ _ i hi,
            find_insert_self (newEntry j (some c.edge) (some c.speed) none) _ hnone⟩
          rw [hrun, hmapped _ _ _ (max_eq_left (le_max_right s.was.highest j)) hnotify]
          rfl
        · have hnotify := notifyEntry_timed (x := (c.edge, c.speed))
            (s := entryBegun a j c (crossedState t c (deliveryState t c.side u k s))) hf ht
          rw [hrun, hmapped _ _ s.was.highest rfl hnotify]
          rfl
        · intro at_ timed
          obtain ⟨table, cnd, g, hnotify, hothers, hfound, hkeeps, hlength, hplaces, hmis, hall⟩ :=
            notifyEntry_rechecked (c := c) (v := at_)
              (s := entryBegun a j c (crossedState t c (deliveryState t c.side u k s))) hj hf ht rfl (checkedState_ptb _) rfl rfl
          refine ⟨table, cnd, g, ?_, hothers, hfound, hkeeps, hlength, hplaces, fun hm => ?_, hall⟩
          · rw [hrun, hmapped _ _ s.was.highest rfl hnotify]
            rfl
          · rw [hmis hm]
            exact slipped_crossed t (deliveryState t c.side u k s)
  · refine ⟨_, edge_halted hl hd hstate hleaves, List.length_map _, fun i f hf => ?_⟩
    refine ⟨_, List.getElem?_map.trans (congrArg (Option.map _) hf), ?_⟩
    exact resumed_checked t ms (deliveryState t c.side u k s) rfl f
  · intro kind base
    have hdrain := edge_drainingOutward hl hd hstate hkind
    have hevent : eventKindOf s.ses.direction c = kind := eventKindOf_outward _ hkind
    have hbase : base = deliveryState t c.side u k s := (deliveryState_eq _ _ _ _ _).symm
    have hopen : s.ses.state ≠ .idle := by rw [hstate]; exact fun h => nomatch h
    have hkinds : kind = .reverseExit ∨ kind = .normalExit := by
      show (if _ then _ else _) = _ ∨ (if _ then _ else _) = _
      split
      · exact .inl rfl
      · exact .inr rfl
    have hnot : kind ≠ .normalEntry := by rcases hkinds with h | h <;> rw [h] <;> exact fun h => nomatch h
    clear_value base kind
    subst hbase
    refine ⟨fun hphantom => ?_, fun a j hmove hroom hquiet hline hurgent => ?_⟩
    · rw [hdrain, mapCrossing_phantom (by exact hopen) (by rw [← hevent] at hphantom; exact hphantom)]
      rfl
    · rw [hdrain, mapCrossing_known (s := deliveryState t c.side u k s) (by exact hevent) (by exact hopen) hmove
        ⟨hroom, hquiet⟩ hline hurgent (fun h => hnot h.1) (fun h => absurd h hnot)]
      rcases hkinds with rfl | rfl <;> rfl
  · intro number tf bodies
    obtain ⟨last, v, w, hended, hexec⟩ := edge_drainingInward hl hd hstate hkind hinv hm hline hroom
    obtain ⟨⟨a, b, w', r, hframe⟩, hcounted, hsummary, hlate, hcauses, hring, -, shut, hshut, hurgent⟩ := hended
    have hnumber : openingNumber s.ses.held v = number := by
      rw [openingNumber_is, hframe] <;> rfl
    have hbodies : bodies (firstCrossed c (openedState c s.ses.held v)).slc.urgent = bodies s.slc.urgent ++
        .shut s.ses.number s.atr.counter last.wagons ::
          ((if s.ses.held.isSome then [] else [.opening number seen c.edge])
            ++ [.cross number 1 .normalEntry 1 c.edge c.speed c.overspeed c.creep]) := by
      show ((openedState c s.ses.held v).slc.urgent ++ [newFrame (.cross (openingNumber s.ses.held v) 1 .normalEntry 1
        c.edge c.speed c.overspeed c.creep) broadcast _]).map (·.body) = _
      rw [List.map_append, openedState_urgent, hurgent, List.map_append, hnumber]
      simp only [List.map_cons, List.map_nil, hshut, List.append_assoc, List.cons_append, List.nil_append]
      rfl
    subst hframe
    refine ⟨_, last, hexec, rfl, hcounted, hsummary, fun hopen => openedState_kept _ (hlate hopen),
      (openedState_slip _).trans (congrArg (· || _) hcauses.slip), fun i hi => openedState_kept _ (hcauses.kept i hi), hring,
      rfl, hnumber, rfl, rfl, rfl, rfl, rfl, rfl, rfl, rfl, rfl, rfl, rfl, rfl, ?_, congrArg some hnumber, rfl,
      ⟨_, rfl, rfl, rfl, rfl, rfl, rfl⟩, rfl, rfl, rfl, rfl, rfl, hbodies⟩
    exact congrArg (fun n => some (beginSummary n seen tf t)) hnumber
